-- ==== Sys2Proof/Word.lean ====
section
/-! DEFINITION. The words of the EB2416: bytes, local time, panel numbers and panel sets (00_scope, Conventions). -/

namespace Sys2Proof

/-- One data byte of a character on either link. -/
abbrev Byte := BitVec 8

/-- Local time: the 32-bit microsecond count of the timebase (R1). Subtraction is the elapsed
time modulo 2^32 that every difference of local times in the manual means. -/
abbrev LocalTime := BitVec 32

/-- A set of bus panels: bit 0 stands for panel 1 (00_scope, Panels and panel sets). -/
abbrev BusSet := BitVec 9

/-- A set of stage panels: bit 0 stands for stage panel 1, bit 17 for stage panel 18. -/
abbrev StageSet := BitVec 18

/-- The nine panels of a bus in increasing number; index 0 is panel 1. -/
def busPanels : List (Fin 9) := [0, 1, 2, 3, 4, 5, 6, 7, 8]

/-- The eighteen stage panels in increasing number; index 0 is stage panel 1. -/
def stagePanels : List (Fin 18) := [0, 1, 2, 3, 4, 5, 6, 7, 8, 9, 10, 11, 12, 13, 14, 15, 16, 17]

end Sys2Proof
end

