-- ==== Sys2Proof/Config.lean ====
section
/-! DEFINITION. The figures of the part (00_scope, Principal figures; R168) and the values the manual leaves open. -/

namespace Sys2Proof.Config

/-- Part code, revision, stages and panels per bus, as IDENT returns them (R168). -/
def partCode : Nat := 0x2416
def revision : Nat := 1
def stageCount : Nat := 2
def panelsPerBus : Nat := 9

/-- Note table capacity of a stage in single mode; stage A open in doubles holds twice as many (R77). -/
def noteCapacity : Nat := 192

/-- Report queue depth; twice as deep while stage A holds stage B's storage (R162). -/
def reportDepth : Nat := 32

/-- Reply queue depth (R154). -/
def replyDepth : Nat := 4

/-- Greatest payload length of a host-link frame (R156). -/
def maxPayload : Nat := 60

/-- Ends of the chart time range (R4). -/
def chartMin : Int := -60000000
def chartMax : Int := 2000000000

/-- DESIGN CHOICE (log 4), a free value: whether a received character with both a parity error and
a low stop bit is counted as the parity error. R157 counts a frame's first fault alone, and R155
judges both at the line's return high, so the manual does not say which of the two it is. -/
opaque parityJudgedFirst : Bool

end Sys2Proof.Config
end

