-- ==== Sys2Proof/Syntax.lean ====
section
/-! DEFINITION. The commands of the EB2416: one constructor per row of spec/opcode_table.json. -/

namespace Sys2Proof

/-- Stage A or stage B, and equally bus A or bus B (stage and bus code 0 and 1). -/
inductive Side where
  | a
  | b
  deriving DecidableEq, Repr

/-- A character as a receiver samples it: eight data bits, the even parity bit and the stop bit
(00_scope, Encoding on the links; R19, R155). -/
structure RxChar where
  data : Byte
  parity : Bool
  stop : Bool
  deriving DecidableEq, Repr

/-- A bus line that has read low continuously since a local time (R20). -/
structure LowLine where
  bus : Side
  since : LocalTime
  deriving DecidableEq, Repr

/-- The commands. `dt` is the local time in µs that has passed since the command before (log 1).
A host request carries its payload bytes; its KIND is the row's and its LEN the payload's length
(log 3). A bus event carries its bus. -/
inductive Instr where
  /-- DEVICE_RESET: assertion of RESETN (R1). -/
  | deviceReset
  /-- PART_RESET: the end of the RESET_PART ACK (R171). -/
  | partReset (dt : Nat)
  /-- LRX_BREAK: a low period on LRX reaches 13 bit times (R155). -/
  | lrxBreak (dt : Nat)
  /-- FRAME_BREAK_CAPTURE: a break on LRX ends (R2). -/
  | frameBreakCapture (dt : Nat)
  /-- FRAME_FAULT: the characters of a partial frame up to its first fault (R157). -/
  | frameFault (dt : Nat) (chars : List RxChar)
  /-- FRAME_TIMEOUT: the completion limit is reached with these bytes received (R156). -/
  | frameTimeout (dt : Nat) (received : List Byte)
  /-- UNKNOWN_KIND: a good frame whose KIND is not a request code (R159). -/
  | unknownKind (dt : Nat) (kind : Byte) (payload : List Byte)
  /-- IDENT (R168). -/
  | ident (dt : Nat) (payload : List Byte)
  /-- RESET_PART (R171). -/
  | resetPart (dt : Nat) (payload : List Byte)
  /-- LINK_STATUS (R169). -/
  | linkStatus (dt : Nat) (payload : List Byte)
  /-- NOTICE_MASK (R170). -/
  | noticeMask (dt : Nat) (payload : List Byte)
  /-- CLOCK_START (R13). -/
  | clockStart (dt : Nat) (payload : List Byte)
  /-- CLOCK_STOP (R14). -/
  | clockStop (dt : Nat) (payload : List Byte)
  /-- SYNC (R10). -/
  | sync (dt : Nat) (payload : List Byte)
  /-- CLOCK_PARAMS (R15). -/
  | clockParams (dt : Nat) (payload : List Byte)
  /-- CLOCK_READ (R16). -/
  | clockRead (dt : Nat) (payload : List Byte)
  /-- BUS_CONFIG (R35). -/
  | busConfig (dt : Nat) (payload : List Byte)
  /-- BUS_RESET (R37, R38). -/
  | busReset (dt : Nat) (payload : List Byte)
  /-- PANEL_THRESHOLDS (R54). -/
  | panelThresholds (dt : Nat) (payload : List Byte)
  /-- PANEL_READ (R56). -/
  | panelRead (dt : Nat) (payload : List Byte)
  /-- STUCK_LIMIT (R55). -/
  | stuckLimit (dt : Nat) (payload : List Byte)
  /-- JUDGE_PARAMS (R72). -/
  | judgeParams (dt : Nat) (payload : List Byte)
  /-- STAGE_OFFSET (R73). -/
  | stageOffset (dt : Nat) (payload : List Byte)
  /-- STAGE_OPEN (R59, R60). -/
  | stageOpen (dt : Nat) (payload : List Byte)
  /-- STAGE_CLOSE (R67). -/
  | stageClose (dt : Nat) (payload : List Byte)
  /-- STAGE_STATUS (R71). -/
  | stageStatus (dt : Nat) (payload : List Byte)
  /-- NOTES (R80). -/
  | notes (dt : Nat) (payload : List Byte)
  /-- LAMP_SET (R151). -/
  | lampSet (dt : Nat) (payload : List Byte)
  /-- LAMP_FLASH (R152). -/
  | lampFlash (dt : Nat) (payload : List Byte)
  /-- FRAME_START: the arbiter chooses a frame (R166). -/
  | frameStart (dt : Nat)
  /-- TRANSMIT_FRAME_END: the stop bit of a sent CHECK ends (R167). -/
  | transmitFrameEnd (dt : Nat)
  /-- TRANSMIT_GAP_END: the gap after a sent frame ends (R167). -/
  | transmitGapEnd (dt : Nat)
  /-- LHOLD_ASSERT (R167). -/
  | lholdAssert (dt : Nat)
  /-- LHOLD_RELEASE (R167). -/
  | lholdRelease (dt : Nat)
  /-- TALLY_PLACE: a stage in CLOSING places its TALLY (R69). -/
  | tallyPlace (dt : Nat) (stage : Side)
  /-- HOUSEKEEPING: the housekeeping compare fires (R17). -/
  | housekeeping (dt : Nat)
  /-- STROBE_COMPARE: the strobe compare of a bus fires (R28). -/
  | strobeCompare (dt : Nat) (bus : Side)
  /-- LATE_STROBE: a waiting strobe begins (R29). -/
  | lateStrobe (dt : Nat) (bus : Side)
  /-- STROBE_CAPTURE: the strobe break is released, the line reading high or low (R22, R31). -/
  | strobeCapture (dt : Nat) (bus : Side) (lineHigh : Bool)
  /-- STROBE_SENT: the STROBE character ends (R23). -/
  | strobeSent (dt : Nat) (bus : Side)
  /-- POLL_HEADER: a poll header begins (R23). -/
  | pollHeader (dt : Nat) (bus : Side)
  /-- POLL_RESPONSE: the third response character ends; the three characters (R25). -/
  | pollResponse (dt : Nat) (bus : Side) (forceH forceL check : RxChar)
  /-- RESPONSE_LIMIT: 80 bit times after the header's end (R24). -/
  | responseLimit (dt : Nat) (bus : Side)
  /-- CONTENTION: a bit sent high reads back low (R30). -/
  | contention (dt : Nat) (bus : Side)
  /-- STUCK_LINE: the low period of a bus line reaches 31 bit times (R20, R32). -/
  | stuckLine (dt : Nat) (bus : LowLine)
  /-- DOWN_PROBE: the down probe compare fires (R34). -/
  | downProbe (dt : Nat) (bus : Side)
  /-- PROBE_LOW: the line reads low during a probe (R34). -/
  | probeLow (dt : Nat) (bus : Side)
  /-- BUS_UP: the line stayed high through the probe (R34). -/
  | busUp (dt : Nat) (bus : Side)
  /-- BUS_RESET_COMPLETION: the controller stops sending after BUS_RESET, at the end of the
  break or character it finishes or at a mismatch that cuts the character short (R37). -/
  | busResetCompletion (dt : Nat) (bus : Side) (mismatch : Bool)
  /-- FLASH_EXPIRY: the flash expiry compare fires (R150). -/
  | flashExpiry (dt : Nat)
  /-- POWER_UP (R1). -/
  | powerUp
  /-- RESETN_RELEASE (R154). -/
  | resetnRelease
  deriving DecidableEq, Repr

end Sys2Proof
end

