-- ==== Sys2Proof/Decode.lean ====
section
/-! DEFINITION. Words of the opcode table: the table gives no row any bits. -/

namespace Sys2Proof

/-- The command that a word spells by the bits of spec/opcode_table.json. The table gives bits to no
row, so no word spells a command (log 19). -/
def decodeTableWord (_nbits _w : Nat) : Option Instr := none

end Sys2Proof
end

