-- ==== Sys2Proof/Machine/State.lean ====
section
/-! DEFINITION. State of the EB2416 as plain data, block by block, with its values after a device reset. -/

namespace Sys2Proof.Machine

/-! ### Chart clock -/

/-- The chart clock (R4). -/
structure Clock where
  running : Bool
  chart : Int
  lastUpdate : LocalTime
  correction : Int
  slewLimit : Nat
  jumpLimit : Nat
  silenceMs : Nat
  lastSync : LocalTime
  silenceNotified : Bool
  housekeeping : Option LocalTime
  deriving DecidableEq, Repr

/-- The chart clock after reset (R4). -/
def Clock.reset : Clock :=
  { running := false, chart := 0, lastUpdate := 0, correction := 0, slewLimit := 2000,
    jumpLimit := 20000, silenceMs := 1000, lastSync := 0, silenceNotified := false,
    housekeeping := none }

/-! ### Panel bus controllers -/

/-- Bus state (R21). -/
inductive BusState where
  | up
  | down
  deriving DecidableEq, Repr

/-- Period code, retry count and enable set of a bus (R21, R35). -/
structure BusSettings where
  period : Fin 3
  retries : Fin 3
  enable : BusSet
  deriving DecidableEq, Repr

/-- The outcome of a panel in a scan (R25, R26). -/
inductive PollOutcome where
  | good (reading : Nat)
  | failed
  deriving DecidableEq, Repr

/-- A scan in flight (R21). `capture` is none until the strobe's break has ended (R22);
`next` is the panel to poll next, none when the enable set is exhausted. -/
structure Scan where
  number : Byte
  capture : Option LocalTime
  chart : Option Int
  enable : BusSet
  retries : Fin 3
  next : Option (Fin 9)
  attempts : Nat
  outcomes : Vector (Option PollOutcome) 9
  deriving DecidableEq, Repr

/-- What a bus controller is doing on its line (R22 to R26): nothing since a scan last left flight;
a strobe begun at `b`, its break ended or not; the gap before a header that begins at `next`;
a poll of panel `addr` whose header began at `h` with lamp byte `lamp`. -/
inductive BusPhase where
  | quiet (since : LocalTime)
  | strobe (b : LocalTime) (breakEnded : Bool)
  | gap (next : LocalTime)
  | poll (h : LocalTime) (addr : Fin 9) (lamp : Byte)
  deriving DecidableEq, Repr

/-- A panel bus controller (R21), with what R22 to R26, R34 and R37 imply of its doings.
`finishing` is the end of the break or character that a BUS_RESET lets finish (R37);
`watching` is the start of a probe's watch (R34). For the low-period measurement (R20): `lineHigh` is
the last instant at which the line is known to have read high, and `lowBreaks` are the begins of the
controller's own breaks since then, which ended with the line low. -/
structure BusCtl where
  state : BusState
  settings : BusSettings
  pendingSettings : Option BusSettings
  scanNumber : Byte
  scan : Option Scan
  nextStrobe : LocalTime
  waiting : Bool
  lastCapture : LocalTime
  lastChart : Option Int
  probe : Option LocalTime
  downSince : LocalTime
  phase : BusPhase
  finishing : Option LocalTime
  watching : Option LocalTime
  lineHigh : LocalTime
  lowBreaks : List LocalTime
  deriving DecidableEq, Repr

/-- A bus controller after reset (R21). -/
def BusCtl.reset : BusCtl :=
  { state := .up, settings := { period := 0, retries := 1, enable := BitVec.allOnes 9 },
    pendingSettings := none, scanNumber := 0, scan := none, nextStrobe := 1000, waiting := false,
    lastCapture := 0, lastChart := none, probe := none, downSince := 0, phase := .quiet 0,
    finishing := none, watching := none, lineHigh := 0, lowBreaks := [] }

/-! ### Sensing units -/

/-- Link status of a panel (R42). -/
inductive LinkStatus where
  | online
  | offline
  | disabled
  deriving DecidableEq, Repr

/-- Per-panel sensing state (R41). -/
structure Panel where
  status : LinkStatus
  reading : Nat
  baseline : Option Nat
  creep : Nat
  pressed : Bool
  pressedSince : LocalTime
  misses : Nat
  pressAt : Nat
  releaseAt : Nat
  deriving DecidableEq, Repr

/-- A panel after reset (R41). -/
def Panel.reset : Panel :=
  { status := .offline, reading := 0, baseline := none, creep := 0, pressed := false,
    pressedSince := 0, misses := 0, pressAt := 120, releaseAt := 60 }

/-- Kind of a completed scan (R27). `reset false` is the RESET completion marked as having no
scan (R38). -/
inductive CompletionKind where
  | normal
  | contention
  | down
  | reset (withScan : Bool)
  deriving DecidableEq, Repr

/-- A completed scan as the controller hands it to its sensing unit (R27). -/
structure Completion where
  kind : CompletionKind
  number : Byte
  capture : LocalTime
  chart : Option Int
  enable : BusSet
  outcomes : Vector (Option PollOutcome) 9
  deriving DecidableEq, Repr

/-- A press or a release edge (R51). -/
inductive EdgeKind where
  | press
  | release
  deriving DecidableEq, Repr

/-- The scan record of one completion, in bus panel numbers (R51). -/
structure ScanRecord where
  bus : Side
  capture : LocalTime
  chart : Option Int
  edges : List (Fin 9 × EdgeKind)
  pressed : BusSet
  deriving DecidableEq, Repr

/-- What a completion does to one panel (R43 to R50): the panel after it, its edge, whether it came
ONLINE or went OFFLINE on a third miss, and its press age when it was re-zeroed. -/
structure PanelStep where
  panel : Panel
  edge : Option EdgeKind
  cameOnline : Bool
  wentOffline : Bool
  rezeroAge : Option Nat
  deriving DecidableEq, Repr

/-! ### Stages -/

/-- A note record as a NOTES payload carries it (12.4). -/
structure RawNote where
  id : Nat
  due : Int
  kind : Byte
  panels : BitVec 24
  length : Nat
  deriving DecidableEq, Repr

/-- Stage state (R57). -/
inductive StageState where
  | idle
  | standby
  | playing
  | failed
  | closing
  deriving DecidableEq, Repr

/-- Mode of a session (R57). -/
inductive Mode where
  | single
  | doubles
  deriving DecidableEq, Repr

/-- Grade of a completed step (R99). -/
inductive Grade where
  | prime
  | solid
  | fair
  | weak
  deriving DecidableEq, Repr

/-- The twelve results that a session counts (R141). -/
inductive Result where
  | prime
  | solid
  | fair
  | weak
  | miss
  | holdOk
  | dropped
  | cut
  | mineHit
  | mineAvoided
  | discarded
  | stray
  deriving DecidableEq, Repr

/-- The twelve result counts (R141). -/
structure Counts where
  prime : Nat
  solid : Nat
  fair : Nat
  weak : Nat
  miss : Nat
  holdOk : Nat
  dropped : Nat
  cut : Nat
  mineHit : Nat
  mineAvoided : Nat
  discarded : Nat
  stray : Nat
  deriving DecidableEq, Repr

/-- All twelve counts at 0 (R57). -/
def Counts.zero : Counts := ⟨0, 0, 0, 0, 0, 0, 0, 0, 0, 0, 0, 0⟩

/-- Kind of a note (R75). -/
inductive NoteKind where
  | tap
  | hold
  | roll
  | mine
  deriving DecidableEq, Repr

/-- A note record in the table (R75). -/
structure Note where
  id : Nat
  due : Int
  kind : NoteKind
  panels : StageSet
  length : Option Nat
  struck : StageSet
  worst : Option Int
  deriving DecidableEq, Repr

/-- Kind and state of a hold tracker entry (R113): a HOLD entry HELD, a HOLD entry RELEASED with
its release time, a ROLL entry with its last press time. -/
inductive Body where
  | held
  | released (r : Int)
  | roll (q : Int)
  deriving DecidableEq, Repr

/-- A hold tracker entry (R113). -/
structure TrackEntry where
  id : Nat
  endTime : Int
  body : Body
  deriving DecidableEq, Repr

/-- Judge parameters in µs (R72). -/
structure JudgeParams where
  w1 : Nat
  w2 : Nat
  w3 : Nat
  w4 : Nat
  grace : Nat
  rollInterval : Nat
  mineHalf : Nat
  deriving DecidableEq, Repr

/-- Judge parameters after reset (R72). -/
def JudgeParams.reset : JudgeParams :=
  { w1 := 18000, w2 := 45000, w3 := 90000, w4 := 135000, grace := 250000,
    rollInterval := 350000, mineHalf := 40000 }

/-- Why a hold resolved or dropped (R123). -/
inductive Reason where
  | completed
  | released
  | rollGap
  | noHead
  deriving DecidableEq, Repr

/-- The TALLY report (R69; layout in 12.5). -/
structure Tally where
  stage : Side
  mode : Mode
  failed : Bool
  overcount : Bool
  counts : Counts
  score : Nat
  earned : Nat
  judged : Nat
  maxCombo : Nat
  life : Nat
  meanOffset : Int
  graded : Nat
  droppedBefore : Nat
  deriving DecidableEq, Repr

/-- The reports of a stage (10.9). Each carries its dropped-before count last. -/
inductive Report where
  /-- JUDGMENT (R102, R106): `offset` is none for a MISS. -/
  | judgment (stage : Side) (id : Nat) (result : Result) (offset : Option Int)
      (failed overcount : Bool) (struck : StageSet) (combo life score droppedBefore : Nat)
  /-- HOLD_RESULT (R123): `panel` is 0 for OK and NO_HEAD. -/
  | hold (stage : Side) (id : Nat) (ok : Bool) (reason : Reason) (panel life score : Nat)
      (failed overcount : Bool) (droppedBefore : Nat)
  /-- MINE_RESULT (R127): `panel` is 0 for an avoided mine. -/
  | mine (stage : Side) (id : Nat) (hit : Bool) (panel combo life : Nat)
      (failed overcount : Bool) (droppedBefore : Nat)
  /-- STRAY (R105). -/
  | stray (stage : Side) (panel : Nat) (time : Int) (droppedBefore : Nat)
  /-- TALLY (R69). -/
  | tally (t : Tally)
  deriving DecidableEq, Repr

/-- A stage with its session (R57, R75, R78, R79, R113, R114, R130). The per-panel tables have an
entry for each of the eighteen stage panels; in single mode only the first nine are used. -/
structure Stage where
  state : StageState
  mode : Mode
  units : Nat
  failEnable : Bool
  askStrays : Bool
  askAvoided : Bool
  life : Nat
  earned : Nat
  judged : Nat
  combo : Nat
  maxCombo : Nat
  counts : Counts
  offsetSum : Int
  graded : Nat
  failed : Bool
  overcount : Bool
  table : List Note
  busyUntil : Vector (Option Int) 18
  tracker : Vector (Option TrackEntry) 18
  lastPressedA : StageSet
  lastPressedB : StageSet
  lastAccepted : Option (Nat × Int)
  reports : List Report
  droppedCount : Nat
  params : JudgeParams
  inputOffset : Int
  deriving DecidableEq, Repr

/-- A stage after reset (R57). -/
def Stage.reset : Stage :=
  { state := .idle, mode := .single, units := 1, failEnable := false, askStrays := false,
    askAvoided := false, life := 0, earned := 0, judged := 0, combo := 0, maxCombo := 0,
    counts := Counts.zero, offsetSum := 0, graded := 0, failed := false, overcount := false,
    table := [], busyUntil := Vector.replicate 18 none, tracker := Vector.replicate 18 none,
    lastPressedA := 0, lastPressedB := 0, lastAccepted := none, reports := [], droppedCount := 0,
    params := JudgeParams.reset, inputOffset := 0 }

/-- What a stage judges at (R92): the stage's code and queue depth, the judged time T, the record's
strobe capture, its bus, the stage panels of that bus, and the record's pressed set. -/
structure JudgeCtx where
  side : Side
  depth : Nat
  time : Int
  capture : LocalTime
  bus : Side
  own : StageSet
  pressed : StageSet
  deriving DecidableEq, Repr

/-! ### Lamp control -/

/-- Lamp mode (R145). -/
inductive LampMode where
  | off
  | steady
  | follow
  deriving DecidableEq, Repr

/-- A running flash (R145). -/
structure Flash where
  endAt : LocalTime
  level : Byte
  deriving DecidableEq, Repr

/-- Lamp state of one bus panel (R145). -/
structure Lamp where
  mode : LampMode
  level : Byte
  base : Byte
  flashEnable : Bool
  flash : Option Flash
  deriving DecidableEq, Repr

/-- A lamp after reset (R145). -/
def Lamp.reset : Lamp :=
  { mode := .off, level := 0, base := 0, flashEnable := false, flash := none }

/-- Flash levels and duration of one bus (R145). -/
structure FlashSettings where
  prime : Byte
  solid : Byte
  fair : Byte
  weak : Byte
  durationMs : Nat
  deriving DecidableEq, Repr

/-- Flash settings after reset (R145). -/
def FlashSettings.reset : FlashSettings :=
  { prime := 255, solid := 192, fair := 128, weak := 64, durationMs := 80 }

/-- Lamp control (R145). -/
structure LampCtl where
  lampsA : Vector Lamp 9
  lampsB : Vector Lamp 9
  flashA : FlashSettings
  flashB : FlashSettings
  expiry : Option LocalTime
  deriving DecidableEq, Repr

/-- Lamp control after reset (R145). -/
def LampCtl.reset : LampCtl :=
  { lampsA := Vector.replicate 9 Lamp.reset, lampsB := Vector.replicate 9 Lamp.reset,
    flashA := FlashSettings.reset, flashB := FlashSettings.reset, expiry := none }

/-- A flash request of a completion (R103): the note's panels, its grade and the record's capture. -/
structure FlashRequest where
  panels : StageSet
  grade : Grade
  capture : LocalTime
  deriving DecidableEq, Repr

/-- The working state of a record's judging (R92): the stage, the completed-head list, the flash
requests made so far, and whether a result has failed the session (R140). -/
structure Judging where
  stage : Stage
  heads : List Note
  flashes : List FlashRequest
  halted : Bool
  deriving DecidableEq, Repr

/-! ### Link interface -/

/-- A partial frame (R154): its break capture and the KIND, LEN and payload received so far. -/
structure PartialFrame where
  capture : LocalTime
  kind : Option Byte
  len : Option Byte
  payload : List Byte
  deriving DecidableEq, Repr

/-- Receiver state (R154). -/
inductive Receiver where
  | waiting
  | inBreak
  | receiving (frame : PartialFrame)
  deriving DecidableEq, Repr

/-- Faults of a received frame, codes 1 to 6 (R157). -/
inductive LinkFault where
  | parity
  | framing
  | check
  | oversize
  | timeout
  | truncated
  deriving DecidableEq, Repr

/-- The seven error counts (R154). -/
structure ErrorCounts where
  parity : Nat
  framing : Nat
  check : Nat
  oversize : Nat
  timeout : Nat
  truncated : Nat
  shed : Nat
  deriving DecidableEq, Repr

/-- All error counts at 0 (R154, R169). -/
def ErrorCounts.zero : ErrorCounts := ⟨0, 0, 0, 0, 0, 0, 0⟩

/-- A reply (R160): ACK with the fields after the request KIND, or REFUSED with code and detail. -/
inductive Reply where
  | ack (kind : Byte) (fields : List Byte)
  | refused (kind : Byte) (code : Byte) (detail : Byte)
  deriving DecidableEq, Repr

/-- Notice kinds (R165). -/
inductive NoticeKind where
  | syncStale
  | clockJump
  | clockLimit
  | panelOffline
  | panelOnline
  | panelStuck
  | busDown
  | busUp
  | scanLate
  | busContention
  | linkError
  | requestShed
  deriving DecidableEq, Repr

/-- What the first payload byte of a request names (tests 5 and 6 of R159): nothing, a bus, a stage,
or the stage of STAGE_OPEN, which test 6 leaves out. -/
inductive FirstByte where
  | none
  | bus
  | stage
  | openStage
  deriving DecidableEq, Repr

/-- A pending notice (R164); `source` is none for the stage value 0xFF. -/
structure Notice where
  kind : NoticeKind
  source : Option Side
  count : Nat
  panels : BusSet
  detail : Int
  deriving DecidableEq, Repr

/-- A frame the device sends (10.9). -/
inductive OutFrame where
  | reply (r : Reply)
  | notice (n : Notice)
  | report (r : Report)
  deriving DecidableEq, Repr

/-- Transmitter state (R154, R167), with the instant at which the frame or the gap began. -/
inductive Transmitter where
  | idle
  | sending (frame : OutFrame) (start : LocalTime)
  | gap (start : LocalTime)
  deriving DecidableEq, Repr

/-- The link interface (R154). The notice set is kept in the order of the arbiter (R166). -/
structure Link where
  receiver : Receiver
  errors : ErrorCounts
  replies : List Reply
  notices : List Notice
  mask : BitVec 12
  transmitter : Transmitter
  lastServed : Side
  resetPending : Bool
  deriving DecidableEq, Repr

/-- The link interface after reset (R154). -/
def Link.reset : Link :=
  { receiver := .waiting, errors := ErrorCounts.zero, replies := [], notices := [],
    mask := 0x100, transmitter := .idle, lastServed := .b, resetPending := false }

/-! ### The device -/

/-- The whole device, the levels of its input pins and the queue of commands that wait.
`lent` says that stage A holds stage B's report queue storage (R61, R62). -/
structure State where
  localTime : LocalTime
  resetHeld : Bool
  lhold : Bool
  clock : Clock
  busA : BusCtl
  busB : BusCtl
  panelsA : Vector Panel 9
  panelsB : Vector Panel 9
  stuckLimit : Nat
  stageA : Stage
  stageB : Stage
  lent : Bool
  lamps : LampCtl
  link : Link
  pending : List Instr
  deriving DecidableEq, Repr

/-- The device right after reset (R1, R4, R21, R41, R57, R145, R154), RESETN released and LHOLD not
asserted (DESIGN CHOICE, logs 5 and 6). -/
def State.reset : State :=
  { localTime := 0, resetHeld := false, lhold := false, clock := Clock.reset,
    busA := BusCtl.reset, busB := BusCtl.reset,
    panelsA := Vector.replicate 9 Panel.reset, panelsB := Vector.replicate 9 Panel.reset,
    stuckLimit := 60, stageA := Stage.reset, stageB := Stage.reset, lent := false,
    lamps := LampCtl.reset, link := Link.reset, pending := [] }

/-- Reasons to stop with a fault. There are none: no rule of the manual stops the device. -/
inductive Fault where
  deriving DecidableEq, Repr

/-- Reasons to refuse a command. -/
inductive Refusal where
  /-- Raised by exec's arm of a command that has no meaning yet. Safe: the model stops. No arm
  raises it now. -/
  | notModelled (mnemonic : String)
  deriving DecidableEq, Repr

/-- What a command answers. -/
abbrev Answer := Host.Outcome State Fault Refusal

end Sys2Proof.Machine
end

