-- ==== Sys2Proof/Machine/Operands.lean ====
section
/-! DEFINITION. Field encodings, the check value, characters and the request catalogue (10.9, chapter 12). -/

namespace Sys2Proof.Machine

/-! ### Fields (R173) -/

/-- A little-endian field of `k` bytes holding `n`. -/
def leBytes : Nat → Nat → List Byte
  | 0, _ => []
  | k + 1, n => BitVec.ofNat 8 n :: leBytes k (n / 256)

/-- The number a little-endian field holds. -/
def leNat : List Byte → Nat
  | [] => 0
  | b :: bs => b.toNat + 256 * leNat bs

/-- A signed field of 4 bytes, two's complement. -/
def leSigned (i : Int) : List Byte := leBytes 4 (BitVec.ofInt 32 i).toNat

/-- One byte of a payload; a byte beyond the payload reads 0 (no owner reads one, by test 4 of R159). -/
def byteAt (pl : List Byte) (i : Nat) : Byte := pl.getD i 0

/-- An unsigned field of `k` bytes at offset `i` of a payload. -/
def fieldAt (pl : List Byte) (i k : Nat) : Nat := leNat ((pl.drop i).take k)

/-- A signed field of 4 bytes at offset `i` of a payload. -/
def signedAt (pl : List Byte) (i : Nat) : Int := (BitVec.ofNat 32 (fieldAt pl i 4)).toInt

/-- A value clamped to a range (00_scope, Numbers and units). -/
def clampNat (lo hi v : Nat) : Nat := min hi (max lo v)

/-- A signed value clamped to a range (00_scope, Numbers and units). -/
def clampInt (lo hi v : Int) : Int := min hi (max lo v)

/-- One-byte truth values (R173). -/
def boolByte (b : Bool) : Byte := if b then 1 else 0

/-! ### The check value (12.2, R174) -/

/-- One shift of the check register. -/
def crcShift (r : Byte) : Byte := if r.msb then (r <<< 1) ^^^ 0x07 else r <<< 1

/-- One byte taken into the check register. -/
def crcStep (r b : Byte) : Byte :=
  crcShift (crcShift (crcShift (crcShift (crcShift (crcShift (crcShift (crcShift (r ^^^ b))))))))

/-- The CRC-8 of a list of bytes. -/
def crc8 (bs : List Byte) : Byte := bs.foldl crcStep 0

/-! ### Characters (00_scope, Encoding on the links; R19) -/

/-- The eight data bits of a byte, least significant first. -/
def dataBits (b : Byte) : List Bool :=
  [b.getLsbD 0, b.getLsbD 1, b.getLsbD 2, b.getLsbD 3, b.getLsbD 4, b.getLsbD 5, b.getLsbD 6,
    b.getLsbD 7]

/-- Whether a list of bits holds an odd number of ones. -/
def oddOnes (bits : List Bool) : Bool := bits.foldl xor false

/-- The eleven bits of a character as a sender drives them; true is high. -/
def charBits (b : Byte) : List Bool := false :: (dataBits b ++ [oddOnes (dataBits b), true])

/-- A break of 13 bit times low and the mark of one bit time high that follows it (R22, R167). -/
def breakAndMark : List Bool := List.replicate 13 false ++ [true]

/-- The bits of a strobe with scan number `n` (R22). -/
def strobeBits (n : Byte) : List Bool := breakAndMark ++ charBits n

/-- The ADDR byte of a poll header: the bus panel number 1 to 9 (R23). -/
def addrByte (p : Fin 9) : Byte := BitVec.ofNat 8 (p.val + 1)

/-- The bits of a poll header (R23). -/
def headerBits (p : Fin 9) (lamp : Byte) : List Bool := charBits (addrByte p) ++ charBits lamp

/-- The fault of a received character, if it has one (R155, R157). A character with both errors is
the case the manual leaves open (log 4). -/
def charFault (c : RxChar) : Option LinkFault :=
  let parityError := oddOnes (dataBits c.data ++ [c.parity])
  if c.stop then (if parityError then some .parity else none)
  else if parityError && Config.parityJudgedFirst then some .parity
  else some .framing

/-! ### Receiving a frame (R156, R157) -/

/-- The completion limit, measured from the break capture, before LEN is received. -/
def limitBeforeLen : Nat := 51

/-- The completion limit once LEN is received. -/
def limitAfterLen (len : Nat) : Nat := (len + 3) * 17

/-- Bit times from the end of a low stop bit to the last instant at which the line can return high:
the low period, which began with the low bits before the stop bit, stays below 13 bit times (R155;
log 3). -/
def lateReturn (c : RxChar) : Nat :=
  if c.stop then 0
  else 11 - ((false :: dataBits c.data ++ [c.parity]).reverse.takeWhile (! ·)).length

/-- The first fault among the characters after LEN: `n` payload characters and CHECK, with the
bytes received before them; and how long after the completion limit it can be found. A frame is not
timed out once CHECK's stop bit has ended, so a fault of CHECK waits for the line's return high (R156,
R157). -/
def bodyFault : Nat → List Byte → List RxChar → Option (LinkFault × Nat)
  | _, _, [] => none
  | 0, got, c :: _ =>
    match charFault c with
    | some f => some (f, lateReturn c)
    | none => if c.data = crc8 got then none else some (.check, 0)
  | n + 1, got, c :: cs =>
    match charFault c with
    | some f => some (f, 0)
    | none => bodyFault n (got ++ [c.data]) cs

/-- The first fault of the characters received after a break, and the last time after the break capture
at which it can be found: the completion limit in force at it, and for the characters whose stop bits
the limits name, LEN and CHECK, the line's return high after that (R156, R157). None when they hold no
fault. -/
def frameFaultOf : List RxChar → Option (LinkFault × Nat)
  | [] => none
  | [k] => (charFault k).map fun f => (f, limitBeforeLen)
  | k :: l :: rest =>
    match charFault k with
    | some f => some (f, limitBeforeLen)
    | none =>
      match charFault l with
      | some f => some (f, limitBeforeLen + lateReturn l)
      | none =>
        if Config.maxPayload < l.data.toNat then some (.oversize, limitBeforeLen)
        else (bodyFault l.data.toNat [k.data, l.data] rest).map fun f =>
          (f.1, limitAfterLen l.data.toNat + f.2)

/-- The completion limit of a partial frame with these bytes received without fault, or none when
they already make a whole or an oversize frame (R156). -/
def frameLimitOf : List Byte → Option Nat
  | _ :: l :: rest =>
    if l.toNat ≤ Config.maxPayload ∧ rest.length ≤ l.toNat then some (limitAfterLen l.toNat) else none
  | _ => some limitBeforeLen

/-! ### Request catalogue (10.9) -/

/-- The request codes of the catalogue. -/
def requestCodes : List Byte :=
  [0x01, 0x02, 0x03, 0x04, 0x10, 0x11, 0x12, 0x13, 0x14, 0x20, 0x21, 0x22, 0x23, 0x24,
    0x30, 0x31, 0x32, 0x33, 0x34, 0x35, 0x40, 0x41]

/-! ### Codes (10.9) -/

/-- Stage or bus code (00_scope, R58). -/
def sideCode : Side → Byte
  | .a => 0
  | .b => 1

/-- The side a checked stage or bus byte names. -/
def sideOf (b : Byte) : Side := if b = 0 then .a else .b

/-- Stage value of a notice (R164). -/
def sourceCode : Option Side → Byte
  | some .a => 0
  | some .b => 1
  | none => 0xFF

/-- State code of a stage (R57). -/
def stateCode : StageState → Byte
  | .idle => 0
  | .standby => 1
  | .playing => 2
  | .failed => 3
  | .closing => 4

/-- Mode code (R57). -/
def modeCode : Mode → Byte
  | .single => 0
  | .doubles => 1

/-- Result code of a JUDGMENT (R102). -/
def resultCode : Result → Byte
  | .prime => 0
  | .solid => 1
  | .fair => 2
  | .weak => 3
  | _ => 4

/-- Reason code of a HOLD_RESULT (R123). -/
def reasonCode : Reason → Byte
  | .completed => 0
  | .released => 1
  | .rollGap => 2
  | .noHead => 3

/-- Fault code (R157). -/
def faultCode : LinkFault → Int
  | .parity => 1
  | .framing => 2
  | .check => 3
  | .oversize => 4
  | .timeout => 5
  | .truncated => 6

/-- Notice kind code (R165). -/
def noticeCode : NoticeKind → Nat
  | .syncStale => 0
  | .clockJump => 1
  | .clockLimit => 2
  | .panelOffline => 3
  | .panelOnline => 4
  | .panelStuck => 5
  | .busDown => 6
  | .busUp => 7
  | .scanLate => 8
  | .busContention => 9
  | .linkError => 10
  | .requestShed => 11

/-- Refusal codes (R160). -/
def unknownKindCode : Byte := 1
def badLengthCode : Byte := 2
def badValueCode : Byte := 3
def busyCode : Byte := 4
def noStageCode : Byte := 5

/-- Stop codes of a NOTES ACK (R80). -/
def stopBadValue : Byte := 3
def stopOrder : Byte := 6
def stopOverlap : Byte := 7
def stopStale : Byte := 8
def stopFull : Byte := 9

/-- Kind code of a note record (R75). -/
def noteKindOf (b : Byte) : Option NoteKind :=
  if b = 0 then some .tap else if b = 1 then some .hold else if b = 2 then some .roll
  else if b = 3 then some .mine else none

end Sys2Proof.Machine
end

