-- ==== Sys2Proof/Machine/Flags.lean ====
section
/-! DEFINITION. Flag bytes, and the payloads and bits of the frames the device sends (10.9, chapter 12). -/

namespace Sys2Proof.Machine

/-- Report flags: bit 0 offset present, bit 1 stage failed, bit 2 overcount (R173). -/
def reportFlags (offsetPresent failed overcount : Bool) : Byte :=
  (if offsetPresent then 1 else 0) ||| (if failed then 2 else 0) ||| (if overcount then 4 else 0)

/-- Link status code of PANEL_READ (R56). -/
def linkStatusCode : LinkStatus → Byte
  | .online => 0
  | .offline => 1
  | .disabled => 2

/-- Flags byte of PANEL_READ: bit 0 pressed, bits 2 to 1 link status, bit 3 baseline set (R56). -/
def panelFlags (p : Panel) : Byte :=
  (if p.pressed then 1 else 0) ||| (linkStatusCode p.status <<< 1) |||
    (if p.baseline.isSome then 8 else 0)

/-- A panel's part of the PANEL_READ ACK (R56). -/
def panelReadBytes (p : Panel) : List Byte :=
  leBytes 2 p.reading ++ leBytes 2 (p.baseline.getD 0) ++ [panelFlags p]

/-- The twelve counts in the order of the TALLY (12.5). -/
def countBytes (c : Counts) : List Byte :=
  leBytes 2 c.prime ++ leBytes 2 c.solid ++ leBytes 2 c.fair ++ leBytes 2 c.weak ++
    leBytes 2 c.miss ++ leBytes 2 c.holdOk ++ leBytes 2 c.dropped ++ leBytes 2 c.cut ++
    leBytes 2 c.mineHit ++ leBytes 2 c.mineAvoided ++ leBytes 2 c.discarded ++ leBytes 2 c.stray

/-- KIND of a device frame (10.9). -/
def frameKind : OutFrame → Byte
  | .reply (.ack _ _) => 0x80
  | .reply (.refused _ _ _) => 0x81
  | .report (.judgment ..) => 0x90
  | .report (.hold ..) => 0x91
  | .report (.mine ..) => 0x92
  | .report (.stray ..) => 0x93
  | .report (.tally _) => 0x94
  | .notice _ => 0x9F

/-- Payload of a report (10.9, 12.5). -/
def reportPayload : Report → List Byte
  | .judgment st id res off fl ov struck combo life score dropped =>
    [sideCode st] ++ leBytes 2 id ++ [resultCode res] ++ leSigned (off.getD 0) ++
      [reportFlags off.isSome fl ov] ++ leBytes 3 struck.toNat ++ leBytes 2 combo ++
      leBytes 2 life ++ leBytes 4 score ++ leBytes 1 dropped
  | .hold st id ok reason panel life score fl ov dropped =>
    [sideCode st] ++ leBytes 2 id ++ [boolByte (!ok), reasonCode reason] ++ leBytes 1 panel ++
      leBytes 2 life ++ leBytes 4 score ++ [reportFlags false fl ov] ++ leBytes 1 dropped
  | .mine st id hit panel combo life fl ov dropped =>
    [sideCode st] ++ leBytes 2 id ++ [boolByte (!hit)] ++ leBytes 1 panel ++ leBytes 2 combo ++
      leBytes 2 life ++ [reportFlags false fl ov] ++ leBytes 1 dropped
  | .stray st panel time dropped =>
    [sideCode st] ++ leBytes 1 panel ++ leSigned time ++ leBytes 1 dropped
  | .tally t =>
    [sideCode t.stage, modeCode t.mode, boolByte t.failed, boolByte t.overcount] ++
      countBytes t.counts ++ leBytes 4 t.score ++ leBytes 4 t.earned ++ leBytes 4 t.judged ++
      leBytes 2 t.maxCombo ++ leBytes 2 t.life ++ leSigned t.meanOffset ++ leBytes 2 t.graded ++
      leBytes 1 t.droppedBefore

/-- Payload of a device frame (10.9, 12.5). -/
def framePayload : OutFrame → List Byte
  | .reply (.ack kind fields) => kind :: fields
  | .reply (.refused kind code detail) => [kind, code, detail]
  | .notice n =>
    leBytes 1 (noticeCode n.kind) ++ [sourceCode n.source] ++ leBytes 1 n.count ++
      leBytes 2 n.panels.toNat ++ leSigned n.detail
  | .report r => reportPayload r

/-- The characters of a device frame: KIND, LEN, payload, CHECK (R167, R174). -/
def frameBytes (f : OutFrame) : List Byte :=
  let body := [frameKind f] ++ leBytes 1 (framePayload f).length ++ framePayload f
  body ++ [crc8 body]

/-- The bits of a device frame on LTX: break, mark and characters back to back (R167). -/
def frameBits (f : OutFrame) : List Bool :=
  breakAndMark ++ (frameBytes f).flatMap charBits

/-- Bit times from the start of a frame to the end of CHECK's stop bit (R167). -/
def frameTime (f : OutFrame) : Nat := 14 + 11 * ((framePayload f).length + 3)

end Sys2Proof.Machine
end

