-- ==== Sys2Proof/Machine/Ops.lean ====
section
/-! DEFINITION. Named operations over the state: accessors, time, reset, notices, replies, dispatch, the chart clock. -/

namespace Sys2Proof.Machine

/-! ### The two sides -/

/-- The controller of a bus. -/
def State.bus (s : State) : Side → BusCtl
  | .a => s.busA
  | .b => s.busB

/-- Replaces the controller of a bus. -/
def State.setBus (s : State) (side : Side) (x : BusCtl) : State :=
  match side with
  | .a => { s with busA := x }
  | .b => { s with busB := x }

/-- The panels of a bus's sensing unit. -/
def State.panels (s : State) : Side → Vector Panel 9
  | .a => s.panelsA
  | .b => s.panelsB

/-- Replaces the panels of a bus's sensing unit. -/
def State.setPanels (s : State) (side : Side) (x : Vector Panel 9) : State :=
  match side with
  | .a => { s with panelsA := x }
  | .b => { s with panelsB := x }

/-- A stage. -/
def State.stage (s : State) : Side → Stage
  | .a => s.stageA
  | .b => s.stageB

/-- Replaces a stage. -/
def State.setStage (s : State) (side : Side) (x : Stage) : State :=
  match side with
  | .a => { s with stageA := x }
  | .b => { s with stageB := x }

/-- Replaces the chart clock. -/
def State.setClock (s : State) (x : Clock) : State := { s with clock := x }

/-- Replaces the link interface. -/
def State.setLink (s : State) (x : Link) : State := { s with link := x }

/-- Replaces lamp control. -/
def State.setLamps (s : State) (x : LampCtl) : State := { s with lamps := x }

/-- Stage A is open in doubles: from the open until its return to IDLE (R61). -/
def State.openDoubles (s : State) : Bool :=
  s.stageA.mode == .doubles && s.stageA.state != .idle

/-- Depth of a stage's report queue (R162). -/
def State.reportDepth (s : State) : Side → Nat
  | .a => if s.lent then 2 * Config.reportDepth else Config.reportDepth
  | .b => Config.reportDepth

/-- Some stage is PLAYING (R14, R18). -/
def State.anyPlaying (s : State) : Bool :=
  s.stageA.state == .playing || s.stageB.state == .playing

/-! ### Time -/

/-- The elapsed local time from `a` to `b`, modulo 2^32 (R1). -/
def elapsed (a b : LocalTime) : Nat := (b - a).toNat

/-- `n` µs after a local time, modulo 2^32 (R1). -/
def later (a : LocalTime) (n : Nat) : LocalTime := a + BitVec.ofNat 32 n

/-- The timebase counts `dt` µs (R1). -/
def State.tick (s : State) (dt : Nat) : State := { s with localTime := later s.localTime dt }

/-- An event of the running device, `dt` µs after the command before. While RESETN is held
nothing happens and the timebase stays at 0 (log 6). -/
def State.after (s : State) (dt : Nat) (f : State → State) : State :=
  if s.resetHeld then s else f (s.tick dt)

/-! ### Device reset -/

/-- Every block takes its reset values and the timebase restarts at 0 (R1, R171). The levels of the
input pins and the queue of commands are not the device's to reset. -/
def State.deviceReset (s : State) : State :=
  { State.reset with resetHeld := s.resetHeld, lhold := s.lhold, pending := s.pending }

/-! ### Notices (R164) -/

/-- Place of a notice in the order of the arbiter: kind code, then stage value 0, 1, 0xFF (R166). -/
def noticeKey (n : Notice) : Nat :=
  3 * noticeCode n.kind + (match n.source with | some .a => 0 | some .b => 1 | none => 2)

/-- A raise taken into the notice set: merged into the entry of its kind and stage value, or a new
entry in its place in the order (R164). -/
def takeRaise (n : Notice) : List Notice → List Notice
  | [] => [n]
  | m :: ms =>
    if noticeKey m = noticeKey n then
      { m with count := min 255 (m.count + 1), panels := m.panels ||| n.panels, detail := n.detail } :: ms
    else if noticeKey n < noticeKey m then n :: m :: ms
    else m :: takeRaise n ms

/-- A raise (R164): not taken when its kind is masked. -/
def Link.raise (l : Link) (kind : NoticeKind) (source : Option Side) (panels : BusSet) (detail : Int) :
    Link :=
  if l.mask.getLsbD (noticeCode kind) then l
  else { l with notices := takeRaise ⟨kind, source, 1, panels, detail⟩ l.notices }

/-- A block raises a notice (R164). -/
def State.raise (s : State) (kind : NoticeKind) (source : Option Side) (panels : BusSet)
    (detail : Int) : State :=
  s.setLink (s.link.raise kind source panels detail)

/-! ### Receiver faults (R157) -/

/-- A count that saturates at 65535 goes up by 1. -/
def bump (n : Nat) : Nat := min 65535 (n + 1)

/-- The error count of a fault goes up by 1 (R157). -/
def ErrorCounts.count (e : ErrorCounts) : LinkFault → ErrorCounts
  | .parity => { e with parity := bump e.parity }
  | .framing => { e with framing := bump e.framing }
  | .check => { e with check := bump e.check }
  | .oversize => { e with oversize := bump e.oversize }
  | .timeout => { e with timeout := bump e.timeout }
  | .truncated => { e with truncated := bump e.truncated }

/-- The partial frame is discarded with a fault and the receiver goes to `next` (R157). -/
def Link.discard (l : Link) (f : LinkFault) (next : Receiver) : Link :=
  ({ l with receiver := next, errors := l.errors.count f }).raise .linkError none 0 (faultCode f)

/-! ### Replies and dispatch (R159 to R161) -/

/-- A reply joins the tail of the reply queue (R160). -/
def State.reply (s : State) (r : Reply) : State :=
  s.setLink { s.link with replies := s.link.replies ++ [r] }

/-- ACK with the fields after the request KIND. -/
def State.ack (s : State) (kind : Byte) (fields : List Byte) : State := s.reply (.ack kind fields)

/-- REFUSED with a code and a detail byte. -/
def State.refuse (s : State) (kind code detail : Byte) : State := s.reply (.refused kind code detail)

/-- A request found with the reply queue full is shed (R161). -/
def Link.shed (l : Link) (kind : Byte) : Link :=
  ({ l with errors := { l.errors with shed := bump l.errors.shed } }).raise
    .requestShed none 0 kind.toNat

/-- The break capture of the frame a good frame with this payload completes now: the receiver is in
RECEIVING, LEN is at most 60 and the completion limit has not passed (R156). -/
def State.goodFrame (s : State) (payload : List Byte) : Option LocalTime :=
  match s.link.receiver with
  | .receiving f =>
    if payload.length ≤ Config.maxPayload ∧
        elapsed f.capture s.localTime ≤ limitAfterLen payload.length then some f.capture
    else none
  | _ => none

/-- Tests 1 and 2 of R159, then `rest`: the receiver returns to WAITING, and the frame is discarded
while a reset is pending, or shed when the reply queue is full. -/
def State.receive (s : State) (kind : Byte) (rest : State → State) : State :=
  let s := s.setLink { s.link with receiver := .waiting }
  if s.link.resetPending then s
  else if Config.replyDepth ≤ s.link.replies.length then s.setLink (s.link.shed kind)
  else rest s

/-- Tests 4 to 6 of R159, then the owner. -/
def State.checkRequest (s : State) (kind : Byte) (payload : List Byte) (lens : List Nat)
    (first : FirstByte) (owner : State → State) : State :=
  if ¬ lens.contains payload.length then
    s.refuse kind badLengthCode (BitVec.ofNat 8 payload.length)
  else if first ≠ .none ∧ 1 < (byteAt payload 0).toNat then s.refuse kind badValueCode 0xFF
  else if first = .stage ∧ sideOf (byteAt payload 0) = .b ∧ s.openDoubles then
    s.refuse kind noStageCode (stateCode s.stageA.state)
  else owner s

/-- A request frame that completes `dt` µs after the command before (R156, R159). `owner` gets the
frame's break capture and the state at the processing time. Characters that complete no good
frame are ignored (log 2). -/
def State.request (s : State) (dt : Nat) (kind : Byte) (payload : List Byte) (lens : List Nat)
    (first : FirstByte) (owner : LocalTime → State → State) : State :=
  s.after dt fun s =>
    match s.goodFrame payload with
    | none => s
    | some c => s.receive kind fun s => s.checkRequest kind payload lens first (owner c)

/-! ### Chart clock (R5 to R7) -/

/-- The range clamp of R7, with the excess of the upper clamp. -/
def Clock.clamp (c : Clock) : Clock × Option Int :=
  if Config.chartMax < c.chart then
    ({ c with chart := Config.chartMax, correction := 0 }, some (c.chart - Config.chartMax))
  else if c.chart < Config.chartMin then ({ c with chart := Config.chartMin }, none)
  else (c, none)

/-- The allowance of an update over `d` µs (R5, step 3). -/
def Clock.allowance (c : Clock) (d : Nat) : Nat := d * c.slewLimit / 1000000

/-- The step of an update over `d` µs: the pending correction clamped to the allowance (R5, step 4). -/
def Clock.slewStep (c : Clock) (d : Nat) : Int :=
  max (-(c.allowance d : Int)) (min (c.allowance d : Int) c.correction)

/-- An update at local time `t` (R5 while running, R6 while stopped). -/
def Clock.update (c : Clock) (t : LocalTime) : Clock × Option Int :=
  if c.running then
    let d := elapsed c.lastUpdate t
    let step := c.slewStep d
    ({ c with chart := c.chart + d + step, correction := c.correction - step, lastUpdate := t }).clamp
  else ({ c with lastUpdate := t }, none)

/-- Stores a clock and raises CLOCK_LIMIT if its clamp found an excess (R7). -/
def State.storeClock (s : State) (r : Clock × Option Int) : State :=
  match r.2 with
  | none => s.setClock r.1
  | some excess => (s.setClock r.1).raise .clockLimit none 0 excess

/-- The chart clock updates now (R6). -/
def State.updateClock (s : State) : State := s.storeClock (s.clock.update s.localTime)

end Sys2Proof.Machine
end

