-- ==== Sys2Proof/Machine/Accounts.lean ====
section
/-! DEFINITION. The accounts of a session and the report queue (chapter 8, R162). -/

namespace Sys2Proof.Machine

/-- Tenths a result adds to E (R132). -/
def tenths : Result → Nat
  | .prime => 10
  | .solid => 8
  | .fair => 5
  | .weak => 2
  | .holdOk => 10
  | _ => 0

/-- Units a result adds to J (R133). -/
def unitsOf : Result → Nat
  | .prime => 1
  | .solid => 1
  | .fair => 1
  | .weak => 1
  | .miss => 1
  | .holdOk => 1
  | .dropped => 1
  | .cut => 1
  | _ => 0

/-- Life change of a result (R138). -/
def lifeChange : Result → Int
  | .prime => 8
  | .solid => 6
  | .fair => 2
  | .weak => -30
  | .miss => -60
  | .holdOk => 4
  | .dropped => -40
  | .mineHit => -50
  | _ => 0

/-- Combo after a result (R137). -/
def comboAfter (combo : Nat) : Result → Nat
  | .prime => bump combo
  | .solid => bump combo
  | .fair => bump combo
  | .weak => 0
  | .miss => 0
  | .mineHit => 0
  | _ => combo

/-- Life after a change, clamped to 0 to 1000 (R138). -/
def clampLife (life : Nat) (change : Int) : Nat := (min 1000 (max 0 ((life : Int) + change))).toNat

/-- The result count of a result goes up by 1, saturating at 65535 (R141). -/
def Counts.add (c : Counts) : Result → Counts
  | .prime => { c with prime := bump c.prime }
  | .solid => { c with solid := bump c.solid }
  | .fair => { c with fair := bump c.fair }
  | .weak => { c with weak := bump c.weak }
  | .miss => { c with miss := bump c.miss }
  | .holdOk => { c with holdOk := bump c.holdOk }
  | .dropped => { c with dropped := bump c.dropped }
  | .cut => { c with cut := bump c.cut }
  | .mineHit => { c with mineHit := bump c.mineHit }
  | .mineAvoided => { c with mineAvoided := bump c.mineAvoided }
  | .discarded => { c with discarded := bump c.discarded }
  | .stray => { c with stray := bump c.stray }

/-- Highest value of E (R132). -/
def maxEarned : Nat := 1310700

/-- E after a result, saturating at 1,310,700; a result without tenths leaves it (R132). -/
def addTenths (earned : Nat) (r : Result) : Nat :=
  if tenths r = 0 then earned else min maxEarned (earned + tenths r)

/-- Life after a result; a result without a life change leaves it (R138). -/
def lifeAfter (life : Nat) (r : Result) : Nat :=
  if lifeChange r = 0 then life else clampLife life (lifeChange r)

/-- Max combo after combo goes from `before` to `after`: it follows an increase (R137). -/
def maxComboAfter (maxCombo before after : Nat) : Nat :=
  if before < after then max maxCombo after else maxCombo

/-- Score of earned tenths and declared units (R134). -/
def scoreOf (earned units : Nat) : Nat := min 1000000 (1000000 * earned / (10 * units))

/-- Score of a stage (R134). -/
def Stage.score (st : Stage) : Nat := scoreOf st.earned st.units

/-- The worst offset of a graded step enters the offset statistics, unless the graded count is
saturated (R142). -/
def Stage.addOffset (st : Stage) (offset : Int) : Stage :=
  if st.graded < 65535 then
    { st with offsetSum := st.offsetSum + offset, graded := st.graded + 1 }
  else st

/-- A result changes the accounts in the order of R131: count; E and J; overcount; combo and max
combo; life; offset sum and graded count. `worst` is the worst offset of a graded step. -/
def Stage.account (st : Stage) (r : Result) (worst : Option Int) : Stage :=
  let judged := st.judged + unitsOf r
  let combo := comboAfter st.combo r
  let st' := { st with
    counts := st.counts.add r
    earned := addTenths st.earned r
    judged := judged
    overcount := st.overcount || decide (st.units < judged ∧ unitsOf r ≠ 0)
    combo := combo
    maxCombo := maxComboAfter st.maxCombo st.combo combo
    life := lifeAfter st.life r }
  match worst with
  | none => st'
  | some off => st'.addOffset off

/-- Whether the change from `before` to `after` fails the session: fail enable is on and life goes
from above 0 to 0 (R140). -/
def failsSession (before after : Stage) : Bool :=
  before.failEnable && decide (0 < before.life) && after.life == 0

/-- A report is offered to the stage's queue of this depth; `mk` makes it from the dropped count
(R162). -/
def Stage.offer (st : Stage) (depth : Nat) (mk : Nat → Report) : Stage :=
  if st.reports.length < depth then
    { st with reports := st.reports ++ [mk st.droppedCount], droppedCount := 0 }
  else { st with droppedCount := min 255 (st.droppedCount + 1) }

/-- Mean offset of the TALLY, rounded toward zero (R143). -/
def Stage.meanOffset (st : Stage) : Int := if st.graded = 0 then 0 else st.offsetSum.tdiv st.graded

/-- The TALLY of a stage as its session stands (R69). -/
def Stage.tallyReport (st : Stage) (side : Side) : Tally :=
  { stage := side, mode := st.mode, failed := st.failed, overcount := st.overcount,
    counts := st.counts, score := st.score, earned := st.earned, judged := st.judged,
    maxCombo := st.maxCombo, life := st.life, meanOffset := st.meanOffset, graded := st.graded,
    droppedBefore := st.droppedCount }

/-- The TALLY joins the queue and the stage returns to IDLE (R69). -/
def Stage.placeTally (st : Stage) (side : Side) : Stage :=
  { st with reports := st.reports ++ [.tally (st.tallyReport side)], droppedCount := 0, state := .idle }

end Sys2Proof.Machine
end

