-- ==== Sys2Proof/Machine/Judge.lean ====
section
/-! DEFINITION. Judging a scan record: presses, the hold tracker, mines and window closure (chapters 6 and 7). -/

namespace Sys2Proof.Machine

/-! ### Panel sets -/

/-- Adds a stage panel to a set. -/
def addPanel (s : StageSet) (p : Fin 18) : StageSet := s ||| BitVec.twoPow 18 p.val

/-- The members of a set, in increasing number. -/
def panelsOf (s : StageSet) : List (Fin 18) := stagePanels.filter fun (p : Fin 18) => s.getLsbD p.val

/-- The number of the lowest-numbered panel of a set; 0 when it is empty. -/
def lowestPanel (s : StageSet) : Nat :=
  match panelsOf s with
  | [] => 0
  | p :: _ => p.val + 1

/-! ### Results and their reports -/

/-- The result of a grade (R99). -/
def resultOfGrade : Grade → Result
  | .prime => .prime
  | .solid => .solid
  | .fair => .fair
  | .weak => .weak

/-- The JUDGMENT of a note with the accounts of `st` (R102, R106). -/
def judgmentReport (side : Side) (n : Note) (r : Result) (offset : Option Int) (fails : Bool)
    (st : Stage) (dropped : Nat) : Report :=
  .judgment side n.id r offset fails st.overcount n.struck st.combo st.life st.score dropped

/-- The HOLD_RESULT of a hold with the accounts of `st` (R123). -/
def holdReport (side : Side) (id : Nat) (reason : Reason) (panel : Nat) (fails : Bool) (st : Stage)
    (dropped : Nat) : Report :=
  .hold side id (reason == .completed) reason panel st.life st.score fails st.overcount dropped

/-- The MINE_RESULT of a mine with the accounts of `st` (R127). -/
def mineReport (side : Side) (id : Nat) (hit : Bool) (panel : Nat) (fails : Bool) (st : Stage)
    (dropped : Nat) : Report :=
  .mine side id hit panel st.combo st.life fails st.overcount dropped

/-- A result carried out whole: the accounts, then its report if it has one, then the failure if it
fails the session (R131, R140, R65). -/
def Judging.result (j : Judging) (ctx : JudgeCtx) (r : Result) (worst : Option Int)
    (mk : Option (Bool → Stage → Nat → Report)) : Judging :=
  let st := j.stage.account r worst
  let fails := failsSession j.stage st
  let st := match mk with
    | none => st
    | some mk => st.offer ctx.depth (mk fails st)
  { j with stage := { st with failed := st.failed || fails }, halted := j.halted || fails }

/-! ### Releases (R94, R117, R118) -/

/-- A release edge taken by an entry (R117). -/
def TrackEntry.release (e : TrackEntry) (time : Int) : TrackEntry :=
  match e.body with
  | .held => { e with body := .released time }
  | _ => e

/-- Agreement of an entry with whether its panel is in the pressed set (R118). -/
def TrackEntry.agree (e : TrackEntry) (pressed : Bool) (time : Int) : TrackEntry :=
  match e.body with
  | .held => if pressed then e else { e with body := .released time }
  | .released _ => if pressed then { e with body := .held } else e
  | .roll _ => e

/-- One edge of the release part (R94). -/
def releaseEdge (ctx : JudgeCtx) (st : Stage) (edge : Fin 18 × EdgeKind) : Stage :=
  if edge.2 = .release then
    { st with tracker := st.tracker.set edge.1 (st.tracker[edge.1].map (·.release ctx.time)) }
  else st

/-- Agreement of the HOLD entries on the record's own panels with its pressed set (R118). -/
def agreeTracker (ctx : JudgeCtx) (st : Stage) : Stage :=
  { st with tracker := Vector.ofFn fun (p : Fin 18) =>
      if ctx.own.getLsbD p.val then
        st.tracker[p].map (·.agree (ctx.pressed.getLsbD p.val) ctx.time)
      else st.tracker[p] }

/-! ### Presses (R95 to R105, R119) -/

/-- Whether a note is eligible for a press on a panel at a judged time (R97). -/
def eligible (w4 : Nat) (time : Int) (p : Fin 18) (n : Note) : Bool :=
  n.kind != .mine && n.panels.getLsbD p.val && !n.struck.getLsbD p.val &&
    decide (n.due - w4 ≤ time ∧ time ≤ n.due + w4)

/-- The worst offset after a strike: the new one when none is stored or its magnitude is at least
that of the stored one (R89). -/
def worseOffset (worst : Option Int) (offset : Int) : Int :=
  match worst with
  | none => offset
  | some w => if w.natAbs ≤ offset.natAbs then offset else w

/-- A strike on a panel of a note at a judged time (R98). -/
def Note.strike (n : Note) (p : Fin 18) (time : Int) : Note :=
  { n with struck := addPanel n.struck p, worst := some (worseOffset n.worst (time - n.due)) }

/-- Strikes the earliest eligible note of a table (R97, R98): the note after the strike, and the
table, which the note has left when it is complete (R99). None when no note is eligible. -/
def strikeTable (w4 : Nat) (time : Int) (p : Fin 18) : List Note → Option (Note × List Note)
  | [] => none
  | n :: ns =>
    if eligible w4 time p n then
      let n' := n.strike p time
      some (n', if n'.struck = n'.panels then ns else n' :: ns)
    else (strikeTable w4 time p ns).map fun r => (r.1, n :: r.2)

/-- The grade of a worst offset (R99, R100). -/
def gradeOf (pr : JudgeParams) (worst : Int) : Grade :=
  if worst.natAbs ≤ pr.w1 then .prime
  else if worst.natAbs ≤ pr.w2 then .solid
  else if worst.natAbs ≤ pr.w3 then .fair
  else .weak

/-- Whether a note has a body that the hold tracker follows (R76). -/
def hasBody (n : Note) : Bool := n.kind == .hold || n.kind == .roll

/-- A note completes (R99, R101). -/
def Judging.complete (j : Judging) (ctx : JudgeCtx) (n : Note) : Judging :=
  let worst := n.worst.getD 0
  let grade := gradeOf j.stage.params worst
  let r := resultOfGrade grade
  let j := j.result ctx r (some worst) (some (judgmentReport ctx.side n r (some worst)))
  { j with
    flashes := j.flashes ++ [⟨n.panels, grade, ctx.capture⟩]
    heads := if hasBody n then j.heads ++ [n] else j.heads }

/-- A stray press (R105). -/
def Judging.stray (j : Judging) (ctx : JudgeCtx) (p : Fin 18) : Judging :=
  j.result ctx .stray none
    (if j.stage.askStrays then
      some fun _ _ dropped => .stray ctx.side (p.val + 1) ctx.time dropped
    else none)

/-- A press edge taken by a tracker entry (R96, R119). -/
def TrackEntry.press (e : TrackEntry) (time : Int) : TrackEntry :=
  match e.body with
  | .roll _ => { e with body := .roll time }
  | _ => e

/-- A press edge on a panel (R95). -/
def Judging.press (j : Judging) (ctx : JudgeCtx) (p : Fin 18) : Judging :=
  match j.stage.tracker[p] with
  | some e =>
    { j with stage := { j.stage with tracker := j.stage.tracker.set p (some (e.press ctx.time)) } }
  | none =>
    match strikeTable j.stage.params.w4 ctx.time p j.stage.table with
    | some (n, table) =>
      let j := { j with stage := { j.stage with table := table } }
      if n.struck = n.panels then j.complete ctx n else j
    | none => j.stray ctx p

/-- One edge of the press part; a failed session takes no further press (R65). -/
def pressEdge (ctx : JudgeCtx) (j : Judging) (edge : Fin 18 × EdgeKind) : Judging :=
  if j.halted || edge.2 == .release then j else j.press ctx edge.1

/-! ### The hold tracker (R113 to R116, R120 to R123) -/

/-- A note's end (R75). -/
def Note.endTime (n : Note) : Int := n.due + n.length.getD 0

/-- Inserts an id into a strictly increasing list of ids. -/
def insertId (id : Nat) : List Nat → List Nat
  | [] => [id]
  | x :: xs => if id = x then x :: xs else if id < x then id :: x :: xs else x :: insertId id xs

/-- The entries of a hold, in increasing stage panel number (R113). -/
def holdEntries (tracker : Vector (Option TrackEntry) 18) (id : Nat) : List (Fin 18 × TrackEntry) :=
  stagePanels.filterMap fun (p : Fin 18) =>
    match tracker[p] with
    | some e => if e.id = id then some (p, e) else none
    | none => none

/-- The note ids of the holds in the tracker, in increasing order (R120). -/
def holdIds (tracker : Vector (Option TrackEntry) 18) : List Nat :=
  (stagePanels.filterMap fun (p : Fin 18) => tracker[p].map TrackEntry.id).foldl
    (fun ids id => insertId id ids) []

/-- The number of entries, counted as panels (R71, R113). -/
def entryCount (tracker : Vector (Option TrackEntry) 18) : Nat :=
  (stagePanels.filter fun (p : Fin 18) => tracker[p].isSome).length

/-- Removes the entries of a hold. -/
def removeHold (tracker : Vector (Option TrackEntry) 18) (id : Nat) :
    Vector (Option TrackEntry) 18 :=
  Vector.ofFn fun (p : Fin 18) =>
    match tracker[p] with
    | some e => if e.id = id then none else some e
    | none => none

/-- Why an entry fails a test taken at `time`: the drop test at T (R121), the end test at the hold's
end (R122), a hand-over at T (R116). None when it passes. -/
def overdue (pr : JudgeParams) (time : Int) : Body → Option Reason
  | .held => none
  | .released r => if (pr.grace : Int) < time - r then some .released else none
  | .roll q => if (pr.rollInterval : Int) < time - q then some .rollGap else none

/-- The first entry that fails a test taken at `time`, in the order given. -/
def firstOverdue (pr : JudgeParams) (time : Int) :
    List (Fin 18 × TrackEntry) → Option (Fin 18 × Reason)
  | [] => none
  | (p, e) :: rest =>
    match overdue pr time e.body with
    | some reason => some (p, reason)
    | none => firstOverdue pr time rest

/-- A hold is DROPPED, naming the panel and the reason (R123). -/
def Judging.dropHold (j : Judging) (ctx : JudgeCtx) (id : Nat) (p : Fin 18) (reason : Reason) :
    Judging :=
  let j := { j with stage := { j.stage with tracker := removeHold j.stage.tracker id } }
  j.result ctx .dropped none (some (holdReport ctx.side id reason (p.val + 1)))

/-- A hold is HOLD_OK (R123). -/
def Judging.holdOk (j : Judging) (ctx : JudgeCtx) (id : Nat) : Judging :=
  let j := { j with stage := { j.stage with tracker := removeHold j.stage.tracker id } }
  j.result ctx .holdOk none (some (holdReport ctx.side id .completed 0))

/-- The older hold's entry `e` on panel `p` is handed over at T (R116). -/
def Judging.handOver (j : Judging) (ctx : JudgeCtx) (p : Fin 18) (e : TrackEntry) : Judging :=
  match overdue j.stage.params ctx.time e.body with
  | some reason => j.dropHold ctx e.id p reason
  | none =>
    let tracker := j.stage.tracker.set p none
    if (holdEntries tracker e.id).isEmpty then j.holdOk ctx e.id
    else { j with stage := { j.stage with tracker := tracker } }

/-- Whether a panel is down when entries are made: by the record's pressed set on its own bus, by
the other bus's last pressed set otherwise (R115). -/
def pressedNow (ctx : JudgeCtx) (st : Stage) (p : Fin 18) : Bool :=
  if ctx.own.getLsbD p.val then ctx.pressed.getLsbD p.val
  else (match ctx.bus with | .a => st.lastPressedB | .b => st.lastPressedA).getLsbD p.val

/-- The entry of a completed head on a panel (R115). -/
def headEntry (ctx : JudgeCtx) (st : Stage) (n : Note) (p : Fin 18) : TrackEntry :=
  { id := n.id, endTime := n.endTime,
    body := if n.kind = .roll then .roll ctx.time
      else if pressedNow ctx st p then .held else .released ctx.time }

/-- The tracker makes one entry of a completed head, after a hand-over if the panel has an entry of
another hold (R115, R116). A hand-over that fails the session ends the passing. -/
def Judging.passPanel (ctx : JudgeCtx) (n : Note) (j : Judging) (p : Fin 18) : Judging :=
  if j.halted then j
  else
    let j := match j.stage.tracker[p] with
      | some e => if e.id = n.id then j else j.handOver ctx p e
      | none => j
    if j.halted then j
    else { j with stage := { j.stage with
      tracker := j.stage.tracker.set p (some (headEntry ctx j.stage n p)) } }

/-- Passes completed heads to the tracker in list order (R104, R115). When a hand-over fails the
session, the head being passed and those after it stay in the list for the emptying (R116). -/
def passHeads (ctx : JudgeCtx) : List Note → Judging → Judging
  | [], j => { j with heads := [] }
  | n :: ns, j =>
    let j' := (panelsOf n.panels).foldl (Judging.passPanel ctx n) j
    if j'.halted then { j' with heads := n :: ns } else passHeads ctx ns j'

/-- The hold part on one hold (R120): the drop test at T before the end, the end test from the end
on. -/
def resolveHold (ctx : JudgeCtx) (j : Judging) (id : Nat) : Judging :=
  if j.halted then j
  else
    match holdEntries j.stage.tracker id with
    | [] => j
    | (p, e) :: rest =>
      match firstOverdue j.stage.params (min ctx.time e.endTime) ((p, e) :: rest) with
      | some (q, reason) => j.dropHold ctx id q reason
      | none => if ctx.time < e.endTime then j else j.holdOk ctx id

/-- The hold part (R120): each hold in increasing order of note id. -/
def holdPart (ctx : JudgeCtx) (j : Judging) : Judging :=
  (holdIds j.stage.tracker).foldl (resolveHold ctx) j

/-! ### Mines and window closure (R106 to R108, R125 to R127) -/

/-- Takes a note table from the head: `take` resolves a note, or leaves it in place with none. A
failed session takes no further note (R65). -/
def sweep (take : Note → Judging → Option Judging) : List Note → Judging → List Note × Judging
  | [], j => ([], j)
  | n :: ns, j =>
    if j.halted then (n :: ns, j)
    else
      match take n j with
      | some j' => sweep take ns j'
      | none => let r := sweep take ns j; (n :: r.1, r.2)

/-- Sweeps the note table of the stage being judged. -/
def sweepTable (take : Note → Judging → Option Judging) (j : Judging) : Judging :=
  let r := sweep take j.stage.table j
  { r.2 with stage := { r.2.stage with table := r.1 } }

/-- The mine part on one note (R125 to R127). -/
def takeMine (ctx : JudgeCtx) (n : Note) (j : Judging) : Option Judging :=
  let half := j.stage.params.mineHalf
  if n.kind ≠ .mine then none
  else if n.due - half ≤ ctx.time ∧ ctx.time ≤ n.due + half ∧ n.panels &&& ctx.pressed ≠ 0 then
    some (j.result ctx .mineHit none
      (some (mineReport ctx.side n.id true (lowestPanel (n.panels &&& ctx.pressed)))))
  else if n.due + half < ctx.time then
    some (j.result ctx .mineAvoided none
      (if j.stage.askAvoided then some (mineReport ctx.side n.id false 0) else none))
  else none

/-- The closure of a HOLD or ROLL: MISS for its head and DROPPED, NO_HEAD, for its body, one result
for failure (R107). -/
def Judging.missWithBody (j : Judging) (ctx : JudgeCtx) (n : Note) : Judging :=
  let miss := j.stage.account .miss none
  let fails := failsSession j.stage (miss.account .dropped none)
  let st := miss.offer ctx.depth (judgmentReport ctx.side n .miss none fails miss)
  let st := st.account .dropped none
  let st := st.offer ctx.depth (holdReport ctx.side n.id .noHead 0 fails st)
  { j with stage := { st with failed := st.failed || fails }, halted := j.halted || fails }

/-- The closure part on one note (R106, R107). -/
def takeClosed (ctx : JudgeCtx) (n : Note) (j : Judging) : Option Judging :=
  if n.kind ≠ .mine ∧ n.due + j.stage.params.w4 < ctx.time then
    if hasBody n then some (j.missWithBody ctx n)
    else some (j.result ctx .miss none (some (judgmentReport ctx.side n .miss none)))
  else none

/-- Parts 3 to 5 of record judging (R93); the close flush is these alone (R68). -/
def laterParts (ctx : JudgeCtx) (j : Judging) : Judging :=
  sweepTable (takeClosed ctx) (sweepTable (takeMine ctx) (holdPart ctx j))

/-! ### Emptying, judging and flush -/

/-- The emptying of a session (R64): every note DISCARDED; every hold in the tracker, and every head
passed at a failure, CUT once (R104, R116). -/
def Stage.emptySession (st : Stage) (heads : List Note) : Stage :=
  let cuts := heads.foldl (fun ids n => insertId n.id ids) (holdIds st.tracker)
  let st := st.table.foldl (fun st _ => st.account .discarded none) st
  let st := cuts.foldl (fun st _ => st.account .cut none) st
  { st with table := [], tracker := Vector.replicate 18 none }

/-- The last pressed set of the record's bus becomes its pressed set (R114). -/
def Stage.notePressed (st : Stage) (ctx : JudgeCtx) : Stage :=
  match ctx.bus with
  | .a => { st with lastPressedA := ctx.pressed }
  | .b => { st with lastPressedB := ctx.pressed }

/-- Parts 1 and 2 of record judging, with the passing of heads at the end of part 2 (R94, R95, R104). -/
def earlierParts (ctx : JudgeCtx) (edges : List (Fin 18 × EdgeKind)) (st : Stage) : Judging :=
  let st := agreeTracker ctx (edges.foldl (releaseEdge ctx) (st.notePressed ctx))
  let j := edges.foldl (pressEdge ctx) { stage := st, heads := [], flashes := [], halted := false }
  if j.halted then j else passHeads ctx j.heads j

/-- A PLAYING stage judges a record (R93); a result that fails the session makes it FAILED and
empties it (R65). The flash requests come in the order of the completions (R103). -/
def Stage.judge (st : Stage) (ctx : JudgeCtx) (edges : List (Fin 18 × EdgeKind)) :
    Stage × List FlashRequest :=
  let j := laterParts ctx (earlierParts ctx edges st)
  if j.halted then ({ j.stage.emptySession j.heads with state := .failed }, j.flashes)
  else (j.stage, j.flashes)

/-- The close flush of a PLAYING stage (R68): parts 3 to 5 with no edges and an empty pressed set. -/
def Stage.flush (st : Stage) (side : Side) (depth : Nat) (time : Int) : Stage :=
  let ctx : JudgeCtx :=
    { side := side, depth := depth, time := time, capture := 0, bus := side, own := 0, pressed := 0 }
  (laterParts ctx { stage := st, heads := [], flashes := [], halted := false }).stage

end Sys2Proof.Machine
end

