-- ==== Sys2Proof/Machine/Lamps.lean ====
section
/-! DEFINITION. Lamp control: the lamp byte, flashes and the flash expiry compare (chapter 9). -/

namespace Sys2Proof.Machine

/-- The lamps of a bus. -/
def LampCtl.lamps (l : LampCtl) : Side → Vector Lamp 9
  | .a => l.lampsA
  | .b => l.lampsB

/-- Replaces the lamps of a bus. -/
def LampCtl.setLamps (l : LampCtl) (side : Side) (x : Vector Lamp 9) : LampCtl :=
  match side with
  | .a => { l with lampsA := x }
  | .b => { l with lampsB := x }

/-- The flash settings of a bus. -/
def LampCtl.flashSettings (l : LampCtl) : Side → FlashSettings
  | .a => l.flashA
  | .b => l.flashB

/-- Replaces the flash settings of a bus. -/
def LampCtl.setFlashSettings (l : LampCtl) (side : Side) (x : FlashSettings) : LampCtl :=
  match side with
  | .a => { l with flashA := x }
  | .b => { l with flashB := x }

/-- The longest flash duration in µs, which bounds a flash end still to come (R146, R148). -/
def maxFlash : Nat := 250000

/-- Whether a flash end lies ahead of local time `t`: within 1 to 250,000 µs (R146, R148). -/
def flashAhead (endAt t : LocalTime) : Bool :=
  1 ≤ elapsed t endAt && elapsed t endAt ≤ maxFlash

/-- The lamp byte of a panel at local time `t` (R146). -/
def lampByte (lamp : Lamp) (pressed : Bool) (t : LocalTime) : Byte :=
  let byMode :=
    match lamp.mode with
    | .off => 0
    | .steady => lamp.level
    | .follow => if pressed then lamp.level else lamp.base
  match lamp.flash with
  | some f => if lamp.flashEnable && flashAhead f.endAt t then f.level else byMode
  | none => byMode

/-- The flash level of a grade (R145). -/
def FlashSettings.level (f : FlashSettings) : Grade → Byte
  | .prime => f.prime
  | .solid => f.solid
  | .fair => f.fair
  | .weak => f.weak

/-- Arming of the flash expiry compare at local time `a` when a flash with this end becomes running:
re-armed when the end is nearer than the value armed, or when none is armed (R150). -/
def armExpiry (expiry : Option LocalTime) (endAt a : LocalTime) : Option LocalTime :=
  match expiry with
  | none => some endAt
  | some e => if elapsed a endAt < elapsed a e then some endAt else some e

/-- A flash request acting on one bus panel at local time `a` (R148). -/
def LampCtl.startFlash (l : LampCtl) (side : Side) (p : Fin 9) (grade : Grade) (capture a : LocalTime) :
    LampCtl :=
  let set := l.flashSettings side
  let lamp := (l.lamps side)[p]
  let endAt := later capture (set.durationMs * 1000)
  if lamp.flashEnable && set.durationMs != 0 && flashAhead endAt a then
    { l.setLamps side ((l.lamps side).set p { lamp with flash := some ⟨endAt, set.level grade⟩ }) with
      expiry := armExpiry l.expiry endAt a }
  else l

/-- The bus panel of a stage panel, by the stage and whether it is open in doubles (R149). -/
def busPanelOf (stage : Side) (doubles : Bool) (p : Fin 18) : Side × Fin 9 :=
  if p.val < 9 then (if doubles then .a else stage, Fin.ofNat 9 p.val)
  else (if doubles then .b else stage, Fin.ofNat 9 (p.val - 9))

/-- A flash request of a stage taken at local time `a`, panel by panel in increasing stage panel
number (R148, R149). -/
def LampCtl.takeRequest (l : LampCtl) (stage : Side) (doubles : Bool) (a : LocalTime)
    (r : FlashRequest) : LampCtl :=
  stagePanels.foldl (fun l (p : Fin 18) =>
    if r.panels.getLsbD p then
      l.startFlash (busPanelOf stage doubles p).1 (busPanelOf stage doubles p).2 r.grade r.capture a
    else l) l

/-- Ends the flash of a lamp when its end is `e` (R150). -/
def Lamp.expire (lamp : Lamp) (e : LocalTime) : Lamp :=
  match lamp.flash with
  | some f => if f.endAt = e then { lamp with flash := none } else lamp
  | none => lamp

/-- A function on lamps done on all nine lamps of a bus. -/
def onLamps (f : Lamp → Lamp) (v : Vector Lamp 9) : Vector Lamp 9 :=
  Vector.ofFn fun (p : Fin 9) => f v[p]

/-- The ends of the running flashes of a bus. -/
def flashEnds (v : Vector Lamp 9) : List LocalTime :=
  busPanels.filterMap fun (p : Fin 9) => v[p].flash.map Flash.endAt

/-- The nearest of some flash ends, measured from `e` (R150). -/
def nearestEnd (e : LocalTime) : List LocalTime → Option LocalTime
  | [] => none
  | x :: xs =>
    match nearestEnd e xs with
    | none => some x
    | some y => if elapsed e x ≤ elapsed e y then some x else some y

/-- The flash expiry at local time `e` (R150). -/
def LampCtl.expireAt (l : LampCtl) (e : LocalTime) : LampCtl :=
  let a := onLamps (·.expire e) l.lampsA
  let b := onLamps (·.expire e) l.lampsB
  { l with lampsA := a, lampsB := b, expiry := nearestEnd e (flashEnds a ++ flashEnds b) }

/-- LAMP_SET on one lamp (R151). -/
def Lamp.configure (lamp : Lamp) (mode : LampMode) (level base : Byte) (enable : Bool) : Lamp :=
  { lamp with mode := mode, level := level, base := base, flashEnable := enable }

/-- A function on lamps done on the lamps of a panel set (R151). -/
def onLampSet (set : BusSet) (f : Lamp → Lamp) (v : Vector Lamp 9) : Vector Lamp 9 :=
  Vector.ofFn fun (p : Fin 9) => if set.getLsbD p then f v[p] else v[p]

/-- Lamp mode of a checked mode byte (R145). -/
def lampModeOf (b : Byte) : LampMode := if b = 0 then .off else if b = 1 then .steady else .follow

end Sys2Proof.Machine
end

