-- ==== Sys2Proof/Machine/Sensing.lean ====
section
/-! DEFINITION. Sensing units: taking a completed scan, its notices and its scan record (chapter 3). -/

namespace Sys2Proof.Machine

/-! ### One panel -/

/-- A panel with nothing noteworthy about it. -/
def quietStep (p : Panel) : PanelStep :=
  { panel := p, edge := none, cameOnline := false, wentOffline := false, rezeroAge := none }

/-- The release edge of a panel that was pressed. -/
def releaseOf (p : Panel) : Option EdgeKind := if p.pressed then some .release else none

/-- The force of a reading above a baseline (R45). -/
def forceOf (reading baseline : Nat) : Nat := reading - baseline

/-- The press test of R45 on a panel whose reading is taken and whose baseline is `b`. -/
def pressTest (p : Panel) (b : Nat) (capture : LocalTime) : Panel × Option EdgeKind :=
  let f := forceOf p.reading b
  if p.pressed then
    if f ≤ p.releaseAt then ({ p with pressed := false }, some .release) else (p, none)
  else if p.pressAt ≤ f then
    ({ p with pressed := true, pressedSince := capture }, some .press)
  else (p, none)

/-- The baseline adjustment of R46 after the press test. -/
def adjustBaseline (p : Panel) (b : Nat) : Panel :=
  if p.pressed then { p with creep := 0 }
  else if p.reading < b then { p with baseline := some p.reading, creep := 0 }
  else if p.reading = b then { p with creep := 0 }
  else if p.creep + 1 < 64 then { p with creep := p.creep + 1 }
  else { p with creep := 0, baseline := some (b + 1) }

/-- A GOOD outcome with reading `n` (R44 to R46). -/
def takeGood (p : Panel) (n : Nat) (capture : LocalTime) : PanelStep :=
  let q := { p with reading := n, misses := 0, status := .online }
  let came := p.status == .offline
  match p.baseline with
  | none =>
    { quietStep { q with baseline := some n, creep := 0, pressed := false } with cameOnline := came }
  | some b =>
    let r := pressTest q b capture
    { quietStep (adjustBaseline r.1 b) with edge := r.2, cameOnline := came }

/-- A FAILED outcome (R47). -/
def takeFailed (p : Panel) : PanelStep :=
  let q := { p with creep := 0, misses := min 3 (p.misses + 1) }
  if p.status = .online ∧ q.misses = 3 then
    { quietStep { q with status := .offline, pressed := false } with
      edge := releaseOf p, wentOffline := true }
  else quietStep q

/-- The stuck test of R48 with a stuck limit in seconds. -/
def stuckTest (limit : Nat) (capture : LocalTime) (st : PanelStep) : PanelStep :=
  let p := st.panel
  let age := elapsed p.pressedSince capture
  if p.pressed ∧ limit * 1000000 < age then
    { st with
      panel := { p with baseline := some p.reading, creep := 0, pressed := false }
      edge := some .release
      rezeroAge := some age }
  else st

/-- The panel becomes DISABLED or OFFLINE with its counts at 0, released (R43, R49, R50). -/
def leaveLink (p : Panel) (status : LinkStatus) : PanelStep :=
  { quietStep { p with status := status, misses := 0, creep := 0, pressed := false } with
    edge := releaseOf p }

/-- A panel newly present in the enable set is OFFLINE before its outcome is taken (R43, step 1). -/
def enablePanel (p : Panel) : Panel :=
  if p.status = .disabled then { p with status := .offline, misses := 0, creep := 0 } else p

/-- A NORMAL or CONTENTION completion on one panel (R43). -/
def takeScanned (limit : Nat) (capture : LocalTime) (enabled : Bool) (outcome : Option PollOutcome)
    (p : Panel) : PanelStep :=
  if enabled then
    stuckTest limit capture
      (match outcome with
      | some (.good n) => takeGood (enablePanel p) n capture
      | _ => takeFailed (enablePanel p))
  else if p.status = .disabled then quietStep p
  else leaveLink p .disabled

/-- A completion on one panel: R43, R49 for DOWN, R50 for RESET. A RESET without a scan releases a pressed
panel with no edge (R38, R50). -/
def takePanel (limit : Nat) (c : Completion) (i : Fin 9) (p : Panel) : PanelStep :=
  match c.kind with
  | .normal => takeScanned limit c.capture (c.enable.getLsbD i.val) c.outcomes[i] p
  | .contention => takeScanned limit c.capture (c.enable.getLsbD i.val) c.outcomes[i] p
  | .down => if p.status = .online then leaveLink p .offline else quietStep p
  | .reset scanned =>
    if p.status = .disabled then quietStep p
    else { leaveLink p .offline with edge := if scanned then releaseOf p else none }

/-! ### The whole completion -/

/-- The set of bus panels that satisfy a test. -/
def busSetOf (f : Fin 9 → Bool) : BusSet :=
  busPanels.foldl (fun s (p : Fin 9) => if f p then s ||| BitVec.twoPow 9 p.val else s) 0

/-- The edges of a completion in increasing panel number (R51). -/
def edgesOf (steps : Vector PanelStep 9) : List (Fin 9 × EdgeKind) :=
  busPanels.filterMap fun (p : Fin 9) => steps[p].edge.map fun k => (p, k)

/-- The greatest press age among the panels re-zeroed (R48). -/
def greatestAge (steps : Vector PanelStep 9) : Nat :=
  busPanels.foldl (fun a (p : Fin 9) => max a (steps[p].rezeroAge.getD 0)) 0

/-- A notice that is raised only with a panel set that is not empty (R53). -/
def State.raisePanels (s : State) (kind : NoticeKind) (side : Side) (set : BusSet) (detail : Int) :
    State :=
  if set = 0 then s else s.raise kind (some side) set detail

/-- The notices of a completion (R53). -/
def State.sensingNotices (s : State) (side : Side) (number : Byte) (steps : Vector PanelStep 9) :
    State :=
  let offline := busSetOf fun p => steps[p].wentOffline
  let online := busSetOf fun p => steps[p].cameOnline
  let stuck := busSetOf fun p => steps[p].rezeroAge.isSome
  ((s.raisePanels .panelOffline side offline number.toNat).raisePanels
    .panelOnline side online number.toNat).raisePanels .panelStuck side stuck (greatestAge steps)

/-- The scan record of a completion (R51). -/
def recordOf (side : Side) (c : Completion) (steps : Vector PanelStep 9) : ScanRecord :=
  { bus := side, capture := c.capture, chart := c.chart, edges := edgesOf steps,
    pressed := busSetOf fun p => steps[p].panel.pressed }

/-! ### Handing the record on (R52, R58) -/

/-- The stage panel of a bus panel (R52). -/
def stagePanelOf (doubles : Bool) (bus : Side) (p : Fin 9) : Fin 18 :=
  match doubles, bus with
  | true, .b => Fin.ofNat 18 (p.val + 9)
  | _, _ => Fin.ofNat 18 p.val

/-- A set of bus panels in stage panel numbers (R52). -/
def stageSetOf (doubles : Bool) (bus : Side) (set : BusSet) : StageSet :=
  match doubles, bus with
  | true, .b => set.setWidth 18 <<< 9
  | _, _ => set.setWidth 18

/-- Judges a record at a stage and passes its flash requests to lamp control (R92, R103). -/
def State.judgeRecord (s : State) (side : Side) (doubles : Bool) (r : ScanRecord) (chart : Int) :
    State :=
  let st := s.stage side
  let ctx : JudgeCtx :=
    { side := side, depth := s.reportDepth side, time := chart + st.inputOffset,
      capture := r.capture, bus := r.bus,
      own := stageSetOf doubles r.bus (BitVec.allOnes 9),
      pressed := stageSetOf doubles r.bus r.pressed }
  let res := st.judge ctx (r.edges.map fun e => (stagePanelOf doubles r.bus e.1, e.2))
  let s := s.setStage side res.1
  s.setLamps (res.2.foldl (fun l q => l.takeRequest side doubles s.localTime q) s.lamps)

/-- Hands a record to its stage (R52), which judges it or discards it (R58). -/
def State.handRecord (s : State) (r : ScanRecord) : State :=
  let doubles := s.openDoubles
  let side := if doubles then .a else r.bus
  if (s.stage side).state = .playing then
    match r.chart with
    | some chart => s.judgeRecord side doubles r chart
    | none => s
  else s

/-- A sensing unit takes a completed scan and hands its record on (R43, R49 to R53). -/
def State.takeCompletion (s : State) (side : Side) (c : Completion) : State :=
  let before := s.panels side
  let steps : Vector PanelStep 9 :=
    Vector.ofFn fun (p : Fin 9) => takePanel s.stuckLimit c p before[p]
  let s := s.setPanels side (Vector.ofFn fun (p : Fin 9) => steps[p].panel)
  let s := s.sensingNotices side c.number steps
  match c.kind with
  | .reset false => s
  | _ => s.handRecord (recordOf side c steps)

end Sys2Proof.Machine
end

