-- ==== Sys2Proof/Machine/Scan.lean ====
section
/-! DEFINITION. The panel bus controllers: strobes, polls, completions, faults and bus reset (chapter 2). -/

namespace Sys2Proof.Machine

/-- The period of a period code in µs (R21). -/
def periodMicros (code : Fin 3) : Nat := 1000 * 2 ^ code.val

/-- The first panel of an enable set from panel index `from'` on. -/
def nextPanel (enable : BusSet) (from' : Nat) : Option (Fin 9) :=
  busPanels.find? fun (p : Fin 9) => decide (from' ≤ p.val) && enable.getLsbD p.val

/-- The next scheduled strobe time of a strobe scheduled for `S` that begins at `b`: S + k × period
for the smallest k of at least 1 with (b − S) < k × period (R28, R29). -/
def nextScheduled (schedule b : LocalTime) (period : Nat) : LocalTime :=
  later schedule ((elapsed schedule b / period + 1) * period)

/-- The settings a strobe makes current (R22, step 1; R36). -/
def BusCtl.strobeSettings (c : BusCtl) : BusSettings := c.pendingSettings.getD c.settings

/-- A strobe begins at `b` (R22). -/
def BusCtl.beginStrobe (c : BusCtl) (b : LocalTime) : BusCtl :=
  let set := c.strobeSettings
  { c with
    settings := set
    pendingSettings := none
    scanNumber := c.scanNumber + 1
    nextStrobe := nextScheduled c.nextStrobe b (periodMicros set.period)
    scan := some
      { number := c.scanNumber + 1, capture := none, chart := none, enable := set.enable,
        retries := set.retries, next := nextPanel set.enable 0, attempts := 0,
        outcomes := Vector.replicate 9 none }
    waiting := false
    phase := .strobe b false }

/-- The scan has left flight at `t` and the controller sends nothing. -/
def BusCtl.endScan (c : BusCtl) (t : LocalTime) : BusCtl :=
  { c with scan := none, phase := .quiet t, finishing := none }

/-- The bit the controller sends at local time `t`, within the mark, the STROBE character or a poll
header; none when it sends no such bit (R20, R22, R23). -/
def BusCtl.bitAt (c : BusCtl) (t : LocalTime) : Option Bool :=
  match c.phase with
  | .strobe b true => if 13 ≤ elapsed b t then (strobeBits c.scanNumber)[elapsed b t]? else none
  | .poll h addr lamp => (headerBits addr lamp)[elapsed h t]?
  | _ => none

/-- A read-back mismatch is possible at `t`: the bit sent then is high (R20). -/
def BusCtl.mismatchAt (c : BusCtl) (t : LocalTime) : Bool := c.bitAt t == some true

/-- The panel whose attempt is under way, as a panel set; empty in a strobe (R39). -/
def BusCtl.attemptSet (c : BusCtl) : BusSet :=
  match c.phase with
  | .poll _ addr _ => BitVec.twoPow 9 addr.val
  | _ => 0

/-- The greatest index below `k` of a high bit among the bits sent. -/
def lastHighBit (bits : List Bool) : Nat → Option Nat
  | 0 => none
  | k + 1 => if bits.getD k false then some k else lastHighBit bits k

/-- The line is known to have read high at `u`: a low period begins no earlier (R20). -/
def BusCtl.readHigh (c : BusCtl) (u : LocalTime) : BusCtl := { c with lineHigh := u, lowBreaks := [] }

/-- The begin of a transmission and its bits. -/
def BusCtl.sent (c : BusCtl) : Option (LocalTime × List Bool) :=
  match c.phase with
  | .strobe b true => some (b, strobeBits c.scanNumber)
  | .poll h addr lamp => some (h, headerBits addr lamp)
  | _ => none

/-- The bits sent before `t` have been read back, the high ones high, since a mismatch would have ended
the transmission (R20). -/
def BusCtl.readBack (c : BusCtl) (t : LocalTime) : BusCtl :=
  match c.sent with
  | none => c
  | some (b, bits) =>
    match lastHighBit bits (min bits.length (elapsed b t)) with
    | none => c
    | some k => c.readHigh (later b k)

/-- The bits sent on a bus up to now have been read back. -/
def State.readBack (s : State) (side : Side) : State :=
  s.setBus side ((s.bus side).readBack s.localTime)

/-- The part of the time from `since` to `t` that lies under the controller's own break begun at `b`
and ended by `t` (R20). -/
def underBreak (since t b : LocalTime) : Nat :=
  min (elapsed since t) (elapsed b t) - (elapsed b t - 13)

/-- The measured low period of the line reaches 31 bit times at `t`, the line low from `since` on: own
breaks are not counted, and the line has not read high after `since` (R20, R32). -/
def BusCtl.stuckAt (c : BusCtl) (since t : LocalTime) : Bool :=
  let c := c.readBack t
  decide (elapsed since t ≤ elapsed c.lineHigh t) &&
    elapsed since t == 31 + (c.lowBreaks.map (underBreak since t)).sum

/-- The completed scan of a scan in flight (R27). -/
def completionOf (scan : Scan) (kind : CompletionKind) (outcomes : Vector (Option PollOutcome) 9) :
    Completion :=
  { kind := kind, number := scan.number, capture := scan.capture.getD 0, chart := scan.chart,
    enable := scan.enable, outcomes := outcomes }

/-- A completion that carries no outcomes, with the controller's current scan number and its last
capture and strobe chart time (R33, R38). -/
def BusCtl.bareCompletion (c : BusCtl) (kind : CompletionKind) : Completion :=
  { kind := kind, number := c.scanNumber, capture := c.lastCapture, chart := c.lastChart,
    enable := c.settings.enable, outcomes := Vector.replicate 9 none }

/-- The outcomes of a contention: panels polled keep theirs, every other panel of the enable set is
FAILED (R30). -/
def contentionOutcomes (scan : Scan) : Vector (Option PollOutcome) 9 :=
  Vector.ofFn fun (p : Fin 9) =>
    match scan.outcomes[p] with
    | some o => some o
    | none => if scan.enable.getLsbD p.val then some .failed else none

/-- The scan completes now with a kind and outcomes, and goes to the sensing unit (R27). -/
def State.completeScan (s : State) (side : Side) (scan : Scan) (kind : CompletionKind)
    (outcomes : Vector (Option PollOutcome) 9) : State :=
  (s.setBus side ((s.bus side).endScan s.localTime)).takeCompletion side
    (completionOf scan kind outcomes)

/-- The panel under way takes its outcome, and the controller goes on to the next panel or completes
the scan (R25 to R27). -/
def State.settlePanel (s : State) (side : Side) (scan : Scan) (addr : Fin 9) (o : PollOutcome) :
    State :=
  let outcomes := scan.outcomes.set addr.val (some o)
  match nextPanel scan.enable (addr.val + 1) with
  | some q =>
    s.setBus side { s.bus side with
      scan := some { scan with outcomes := outcomes, next := some q, attempts := 0 }
      phase := .gap (later s.localTime 2) }
  | none => s.completeScan side { scan with outcomes := outcomes, next := none } .normal outcomes

/-- An attempt ends now (R25, R26): with a reading, or failed and retried while attempts remain. -/
def State.endAttempt (s : State) (side : Side) (scan : Scan) (addr : Fin 9) (reading : Option Nat) :
    State :=
  match reading with
  | some n => s.settlePanel side scan addr (.good n)
  | none =>
    if scan.attempts < 1 + scan.retries.val then
      s.setBus side { s.bus side with phase := .gap (later s.localTime 2) }
    else s.settlePanel side scan addr .failed

/-- The reading of a response, or none when the attempt fails (R25). -/
def responseReading (number : Byte) (forceH forceL check : RxChar) : Option Nat :=
  if charFault forceH = none ∧ charFault forceL = none ∧ charFault check = none ∧
      forceH.data.toNat < 4 ∧ check.data = crc8 [number, forceH.data, forceL.data] then
    some (forceH.data.toNat * 256 + forceL.data.toNat)
  else none

/-- Bit times from a header's begin to its end, and from there to the response limit (R23, R24). -/
def headerTime : Nat := 22
def responseLimitTime : Nat := 80

/-- The poll under way on a bus with its scan, unless a BUS_RESET is finishing it (R37). -/
def BusCtl.polling (c : BusCtl) : Option (Scan × LocalTime × Fin 9) :=
  match c.scan, c.phase, c.finishing with
  | some scan, .poll h addr _, none => some (scan, h, addr)
  | _, _, _ => none

/-- The strobe capture is taken at the end of the break, the line high (R22): the chart clock
updates at it, and capture and strobe chart time go with the scan and the controller (R8). -/
def State.takeCapture (s : State) (side : Side) (b : LocalTime) : State :=
  let s := s.updateClock
  let c := s.bus side
  let chart := if s.clock.running then some s.clock.chart else none
  s.setBus side { c with
    scan := c.scan.map fun scan => { scan with capture := some s.localTime, chart := chart }
    lastCapture := s.localTime
    lastChart := chart
    phase := .strobe b true
    lineHigh := s.localTime
    lowBreaks := [] }

/-- The break begun at `b` has not ended when the controller releases the line (R31): the scan leaves
flight with no completion. A BUS_RESET that let the break finish keeps its finishing instant (R37). -/
def State.breakNotEnded (s : State) (side : Side) (b : LocalTime) : State :=
  let c := s.bus side
  (s.setBus side { c with
    scan := none, phase := .quiet s.localTime, lowBreaks := c.lowBreaks ++ [b] }).raise
    .busContention (some side) 0 c.scanNumber.toNat

/-- The end of the break or character the controller is sending at `t`, if it is sending one (R37).
In the mark, between break and character, it is sending neither (log 10). -/
def BusCtl.sendingUntil (c : BusCtl) (t : LocalTime) : Option LocalTime :=
  match c.phase with
  | .strobe b false => some (later b 13)
  | .strobe b true => if 14 ≤ elapsed b t ∧ elapsed b t ≤ 25 then some (later b 25) else none
  | .poll h _ _ =>
    if elapsed h t < 11 then some (later h 11)
    else if elapsed h t < headerTime then some (later h headerTime) else none
  | _ => none

/-- The strobe schedule restarts at `t`, and a waiting strobe is cancelled (R28, R29). -/
def BusCtl.restart (c : BusCtl) (t : LocalTime) : BusCtl :=
  { c with waiting := false, nextStrobe := later t (periodMicros c.settings.period) }

/-- The RESET completion of a scan in flight, or one marked as having no scan (R37, R38). -/
def State.resetCompletion (s : State) (side : Side) : State :=
  let c := (s.bus side).readBack s.localTime
  let s := s.setBus side (c.endScan s.localTime)
  match c.scan with
  | some scan => s.takeCompletion side (completionOf scan (.reset true) (Vector.replicate 9 none))
  | none => s.takeCompletion side (c.bareCompletion (.reset false))

/-- BUS_RESET taken now (R37 with a scan in flight on a bus that is UP, R38 otherwise). -/
def State.resetBus (s : State) (side : Side) : State :=
  let c := s.bus side
  match c.state with
  | .down => s.takeCompletion side (c.bareCompletion (.reset false))
  | .up =>
    match c.scan with
    | none =>
      (s.setBus side (c.restart s.localTime)).takeCompletion side (c.bareCompletion (.reset false))
    | some _ =>
      let s := s.setBus side (c.restart s.localTime)
      match c.finishing with
      | some _ => s
      | none =>
        match c.sendingUntil s.localTime with
        | some e => s.setBus side { s.bus side with finishing := some e }
        | none => s.resetCompletion side

/-- The DOWN completion of a controller (R33): of the scan in flight when its capture is taken, with
the last capture and strobe chart time otherwise. -/
def BusCtl.downCompletion (c : BusCtl) : Completion :=
  match c.scan with
  | some scan =>
    match scan.capture with
    | some _ => completionOf scan .down (Vector.replicate 9 none)
    | none => c.bareCompletion .down
  | none => c.bareCompletion .down

/-- The controller of a bus that goes DOWN at `t` (R32). -/
def BusCtl.goDown (c : BusCtl) (t : LocalTime) : BusCtl :=
  { c.endScan t with
    state := .down
    waiting := false
    downSince := t
    probe := some (later t 10000) }

/-- A probe that began at `p` finds the line low (R34). -/
def BusCtl.probeFails (c : BusCtl) (p : LocalTime) : BusCtl :=
  { c with
    watching := none
    probe := some (later p 10000)
    downSince :=
      if 2000000000 < elapsed c.downSince p then p - BitVec.ofNat 32 2000000000 else c.downSince }

/-- The bus goes UP at `u`, the line having read high until then (R34). -/
def BusCtl.goUp (c : BusCtl) (u : LocalTime) : BusCtl :=
  { (c.restart u).readHigh u with state := .up, watching := none, probe := none, phase := .quiet u }

end Sys2Proof.Machine
end

