-- ==== Sys2Proof/Machine/BusCommands.lean ====
section
/-! DEFINITION. Requests to the bus controllers and sensing units (2.7, 3.6). -/

namespace Sys2Proof.Machine

/-- A period code or retry count that is in range. -/
def smallCode (n : Nat) : Fin 3 := Fin.ofNat 3 n

/-- BUS_CONFIG (R35). -/
def execBusConfig (dt : Nat) (payload : List Byte) (s : State) : Answer :=
  .next <| s.request dt 0x20 payload [5] .bus fun _ s =>
    let side := sideOf (byteAt payload 0)
    if 2 < (byteAt payload 1).toNat then s.refuse 0x20 badValueCode 0
    else
      let set : BusSettings :=
        { period := smallCode (byteAt payload 1).toNat
          retries := smallCode (clampNat 0 2 (byteAt payload 2).toNat)
          enable := BitVec.ofNat 9 (fieldAt payload 3 2) }
      let s := s.setBus side { s.bus side with pendingSettings := some set }
      s.ack 0x20 (leBytes 1 set.period.val ++ leBytes 1 set.retries.val ++
        leBytes 2 set.enable.toNat)

/-- BUS_RESET (R37, R38). -/
def execBusReset (dt : Nat) (payload : List Byte) (s : State) : Answer :=
  .next <| s.request dt 0x21 payload [1] .bus fun _ s =>
    (s.resetBus (sideOf (byteAt payload 0))).ack 0x21 []

/-- The thresholds of the panels of a set (R54). -/
def setThresholds (v : Vector Panel 9) (set : BusSet) (p q : Nat) : Vector Panel 9 :=
  Vector.ofFn fun (i : Fin 9) =>
    if set.getLsbD i.val then { v[i] with pressAt := p, releaseAt := q } else v[i]

/-- PANEL_THRESHOLDS (R54). -/
def execPanelThresholds (dt : Nat) (payload : List Byte) (s : State) : Answer :=
  .next <| s.request dt 0x22 payload [7] .bus fun _ s =>
    let side := sideOf (byteAt payload 0)
    let p := fieldAt payload 3 2
    let q := fieldAt payload 5 2
    if 1 ≤ p ∧ p ≤ 1023 ∧ q < p then
      let set : BusSet := BitVec.ofNat 9 (fieldAt payload 1 2)
      (s.setPanels side (setThresholds (s.panels side) set p q)).ack 0x22 []
    else s.refuse 0x22 badValueCode 0

/-- Bus state code of PANEL_READ (R56). -/
def busStateCode : BusState → Byte
  | .up => 0
  | .down => 1

/-- PANEL_READ (R56). -/
def execPanelRead (dt : Nat) (payload : List Byte) (s : State) : Answer :=
  .next <| s.request dt 0x23 payload [1] .bus fun _ s =>
    let side := sideOf (byteAt payload 0)
    s.ack 0x23 ([busStateCode (s.bus side).state] ++
      busPanels.flatMap fun (p : Fin 9) => panelReadBytes (s.panels side)[p])

/-- STUCK_LIMIT (R55). -/
def execStuckLimit (dt : Nat) (payload : List Byte) (s : State) : Answer :=
  .next <| s.request dt 0x24 payload [1] .none fun _ s =>
    let limit := clampNat 31 255 (byteAt payload 0).toNat
    ({ s with stuckLimit := limit } : State).ack 0x24 (leBytes 1 limit)

end Sys2Proof.Machine
end

