-- ==== Sys2Proof/Machine/ClockCommands.lean ====
section
/-! DEFINITION. The chart clock's requests and its housekeeping event (chapter 1). -/

namespace Sys2Proof.Machine

/-- A position outside the chart range (R10, R13). -/
def outOfChart (p : Int) : Bool := decide (p < Config.chartMin ∨ Config.chartMax < p)

/-- A stage in STANDBY enters PLAYING (R63). -/
def Stage.startPlay (st : Stage) : Stage :=
  if st.state = .standby then { st with state := .playing } else st

/-- The clock that CLOCK_START sets at `t` from position `p` and break capture `c` (R13). -/
def Clock.start (clk : Clock) (p : Int) (c t : LocalTime) : Clock × Option Int :=
  ({ clk with
    running := true
    chart := p + elapsed c t
    lastUpdate := t
    correction := 0
    lastSync := t
    silenceNotified := false
    housekeeping := some (later t 1000000) } : Clock).clamp

/-- CLOCK_START (R13). -/
def execClockStart (dt : Nat) (payload : List Byte) (s : State) : Answer :=
  .next <| s.request dt 0x10 payload [4] .none fun c s =>
    let p := signedAt payload 0
    if s.clock.running then s.refuse 0x10 busyCode 0
    else if outOfChart p then s.refuse 0x10 badValueCode 0
    else
      let s := s.storeClock (s.clock.start p c s.localTime)
      let s := { s with stageA := s.stageA.startPlay, stageB := s.stageB.startPlay }
      s.ack 0x10 (leSigned s.clock.chart)

/-- The clock that CLOCK_STOP leaves after its update (R14). -/
def Clock.stop (clk : Clock) : Clock :=
  if clk.running then { clk with running := false, correction := 0, housekeeping := none } else clk

/-- CLOCK_STOP (R14). -/
def execClockStop (dt : Nat) (payload : List Byte) (s : State) : Answer :=
  .next <| s.request dt 0x11 payload [0] .none fun _ s =>
    if s.anyPlaying then
      s.refuse 0x11 busyCode (if s.stageA.state = .playing then 0 else 1)
    else
      let s := s.updateClock
      let s := s.setClock s.clock.stop
      s.ack 0x11 (leSigned s.clock.chart)

/-- The clock error of a SYNC: position `p` against the chart time at the break capture (R10). -/
def Clock.syncError (clk : Clock) (p : Int) (c t : LocalTime) : Int := p - (clk.chart - elapsed c t)

/-- A SYNC's jump or slew by its error at `t`, and whether it jumps (R11). -/
def Clock.applySync (clk : Clock) (e : Int) (t : LocalTime) : (Clock × Option Int) × Bool :=
  let clk := { clk with lastSync := t, silenceNotified := false }
  if clk.jumpLimit < e.natAbs then
    (({ clk with chart := clk.chart + e, correction := 0 } : Clock).clamp, true)
  else (({ clk with correction := e }, none), false)

/-- SYNC (R10, R11). -/
def execSync (dt : Nat) (payload : List Byte) (s : State) : Answer :=
  .next <| s.request dt 0x12 payload [4] .none fun c s =>
    let p := signedAt payload 0
    if ¬ s.clock.running then s.refuse 0x12 busyCode 0
    else if outOfChart p then s.refuse 0x12 badValueCode 0
    else
      let s := s.updateClock
      let e := s.clock.syncError p c s.localTime
      let r := s.clock.applySync e s.localTime
      let s := s.storeClock r.1
      let s := if r.2 then s.raise .clockJump none 0 e else s
      s.ack 0x12 (leSigned e ++ [boolByte r.2])

/-- The clock with its parameters clamped and stored, and the pending correction clamped to the new
jump limit (R15). -/
def Clock.setParams (clk : Clock) (slew jump silence : Nat) : Clock :=
  let limit := clampNat 1000 100000 jump
  { clk with
    slewLimit := clampNat 0 10000 slew
    jumpLimit := limit
    silenceMs := clampNat 100 10000 silence
    correction := clampInt (-(limit : Int)) limit clk.correction }

/-- CLOCK_PARAMS (R15). -/
def execClockParams (dt : Nat) (payload : List Byte) (s : State) : Answer :=
  .next <| s.request dt 0x13 payload [8] .none fun _ s =>
    let clk := s.clock.setParams (fieldAt payload 0 2) (fieldAt payload 2 4) (fieldAt payload 6 2)
    (s.setClock clk).ack 0x13
      (leBytes 2 clk.slewLimit ++ leBytes 4 clk.jumpLimit ++ leBytes 2 clk.silenceMs)

/-- CLOCK_READ (R16). -/
def execClockRead (dt : Nat) (payload : List Byte) (s : State) : Answer :=
  .next <| s.request dt 0x14 payload [0] .none fun _ s =>
    let s := s.updateClock
    s.ack 0x14 ([boolByte s.clock.running] ++ leSigned s.clock.chart ++ leSigned s.clock.correction ++
      leBytes 4 s.localTime.toNat)

/-- Greatest measured age of the last SYNC in µs (R17). -/
def ageHold : Nat := 15000000

/-- Re-arming and the age hold of a housekeeping event at `h` (R17). -/
def Clock.afterHousekeeping (clk : Clock) (h : LocalTime) : Clock :=
  { clk with
    housekeeping := some (later h 1000000)
    lastSync := if ageHold < elapsed clk.lastSync h then h - BitVec.ofNat 32 ageHold else clk.lastSync }

/-- Whether the sync silence test at `h` finds a silence not yet notified (R18). -/
def Clock.silenceFound (clk : Clock) (playing : Bool) (h : LocalTime) : Bool :=
  playing && decide (clk.silenceMs * 1000 < elapsed clk.lastSync h) && !clk.silenceNotified

/-- A housekeeping event now (R17, R18). -/
def State.housekeep (s : State) : State :=
  let s := s.updateClock
  let clk := s.clock.afterHousekeeping s.localTime
  if clk.silenceFound s.anyPlaying s.localTime then
    (s.setClock { clk with silenceNotified := true }).raise .syncStale none 0
      (elapsed clk.lastSync s.localTime)
  else s.setClock clk

/-- HOUSEKEEPING (R17): the compare fires once, when local time equals the value it is armed for. -/
def execHousekeeping (dt : Nat) (s : State) : Answer :=
  .next <| s.after dt fun s => if s.clock.housekeeping = some s.localTime then s.housekeep else s

end Sys2Proof.Machine
end

