-- ==== Sys2Proof/Machine/LampCommands.lean ====
section
/-! DEFINITION. Lamp requests and the flash expiry (chapter 9). -/

namespace Sys2Proof.Machine

/-- LAMP_SET (R151). -/
def execLampSet (dt : Nat) (payload : List Byte) (s : State) : Answer :=
  .next <| s.request dt 0x40 payload [7] .bus fun _ s =>
    let side := sideOf (byteAt payload 0)
    let set : BusSet := BitVec.ofNat 9 (fieldAt payload 1 2)
    if 2 < (byteAt payload 3).toNat then s.refuse 0x40 badValueCode 1
    else if 1 < (byteAt payload 6).toNat then s.refuse 0x40 badValueCode 2
    else
      let f := fun (lamp : Lamp) =>
        lamp.configure (lampModeOf (byteAt payload 3)) (byteAt payload 4) (byteAt payload 5)
          (byteAt payload 6 == 1)
      (s.setLamps (s.lamps.setLamps side (onLampSet set f (s.lamps.lamps side)))).ack 0x40 []

/-- LAMP_FLASH (R152). -/
def execLampFlash (dt : Nat) (payload : List Byte) (s : State) : Answer :=
  .next <| s.request dt 0x41 payload [6] .bus fun _ s =>
    let side := sideOf (byteAt payload 0)
    let duration := clampNat 0 250 (byteAt payload 5).toNat
    let set : FlashSettings :=
      { prime := byteAt payload 1, solid := byteAt payload 2, fair := byteAt payload 3,
        weak := byteAt payload 4, durationMs := duration }
    (s.setLamps (s.lamps.setFlashSettings side set)).ack 0x41 (leBytes 1 duration)

/-- FLASH_EXPIRY (R150): the compare fires once, when local time equals the value it is armed for. -/
def execFlashExpiry (dt : Nat) (s : State) : Answer :=
  .next <| s.after dt fun s =>
    if s.lamps.expiry = some s.localTime then s.setLamps (s.lamps.expireAt s.localTime) else s

end Sys2Proof.Machine
end

