-- ==== Sys2Proof/Machine/LinkCommands.lean ====
section
/-! DEFINITION. The host link receiver and the link requests (10.2, 10.7). -/

namespace Sys2Proof.Machine

/-- LRX_BREAK (R155, R158): the receiver enters BREAK; a partial frame is truncated. The line was high at
the frame's break capture, so no low period reaches 13 bit times sooner than that after it. -/
def execLrxBreak (dt : Nat) (s : State) : Answer :=
  .next <| s.after dt fun s =>
    match s.link.receiver with
    | .waiting => s.setLink { s.link with receiver := .inBreak }
    | .inBreak => s
    | .receiving f =>
      if 13 ≤ elapsed f.capture s.localTime then s.setLink (s.link.discard .truncated .inBreak) else s

/-- FRAME_BREAK_CAPTURE (R2, R155): the break ends; its capture opens a partial frame. -/
def execFrameBreakCapture (dt : Nat) (s : State) : Answer :=
  .next <| s.after dt fun s =>
    match s.link.receiver with
    | .inBreak =>
      s.setLink { s.link with receiver := .receiving ⟨s.localTime, none, none, []⟩ }
    | _ => s

/-- FRAME_FAULT (R155 to R157): the partial frame is discarded at the first fault of its characters, found
by the completion limit in force; a low stop bit of LEN or CHECK that has ended by then is a framing error
at the line's return high, which may lie after it. -/
def execFrameFault (dt : Nat) (chars : List RxChar) (s : State) : Answer :=
  .next <| s.after dt fun s =>
    match s.link.receiver, frameFaultOf chars with
    | .receiving f, some (fault, limit) =>
      if elapsed f.capture s.localTime ≤ limit then s.setLink (s.link.discard fault .waiting) else s
    | _, _ => s

/-- FRAME_TIMEOUT (R156, R157): the completion limit is reached, the frame not complete. -/
def execFrameTimeout (dt : Nat) (received : List Byte) (s : State) : Answer :=
  .next <| s.after dt fun s =>
    match s.link.receiver, frameLimitOf received with
    | .receiving f, some limit =>
      if elapsed f.capture s.localTime = limit then s.setLink (s.link.discard .timeout .waiting) else s
    | _, _ => s

/-- UNKNOWN_KIND (R159, test 3): refused with detail 0. -/
def execUnknownKind (dt : Nat) (kind : Byte) (payload : List Byte) (s : State) : Answer :=
  .next <| s.after dt fun s =>
    if requestCodes.contains kind then s
    else
      match s.goodFrame payload with
      | none => s
      | some _ => s.receive kind fun s => s.refuse kind unknownKindCode 0

/-- IDENT (R168). -/
def execIdent (dt : Nat) (payload : List Byte) (s : State) : Answer :=
  .next <| s.request dt 0x01 payload [0] .none fun _ s =>
    s.ack 0x01 (leBytes 2 Config.partCode ++ leBytes 1 Config.revision ++
      leBytes 1 Config.stageCount ++ leBytes 1 Config.panelsPerBus ++
      leBytes 2 Config.noteCapacity ++ leBytes 1 Config.reportDepth)

/-- RESET_PART (R171): the ACK is queued and the reset-pending flag set. -/
def execResetPart (dt : Nat) (payload : List Byte) (s : State) : Answer :=
  .next <| s.request dt 0x02 payload [0] .none fun _ s =>
    let s := s.ack 0x02 []
    s.setLink { s.link with resetPending := true }

/-- The seven counts of the LINK_STATUS ACK (R169). -/
def errorBytes (e : ErrorCounts) : List Byte :=
  leBytes 2 e.parity ++ leBytes 2 e.framing ++ leBytes 2 e.check ++ leBytes 2 e.oversize ++
    leBytes 2 e.timeout ++ leBytes 2 e.truncated ++ leBytes 2 e.shed

/-- LINK_STATUS (R169): the counts are returned and then cleared. -/
def execLinkStatus (dt : Nat) (payload : List Byte) (s : State) : Answer :=
  .next <| s.request dt 0x03 payload [0] .none fun _ s =>
    let s := s.ack 0x03 (errorBytes s.link.errors)
    s.setLink { s.link with errors := ErrorCounts.zero }

/-- NOTICE_MASK (R170): bits 0 to 11 become the mask. -/
def execNoticeMask (dt : Nat) (payload : List Byte) (s : State) : Answer :=
  .next <| s.request dt 0x04 payload [2] .none fun _ s =>
    let mask : BitVec 12 := BitVec.ofNat 12 (fieldAt payload 0 2)
    let s := s.setLink { s.link with mask := mask }
    s.ack 0x04 (leBytes 2 mask.toNat)

end Sys2Proof.Machine
end

