-- ==== Sys2Proof/Machine/ResetCommands.lean ====
section
/-! DEFINITION. Power, RESETN and the end of the RESET_PART ACK. -/

namespace Sys2Proof.Machine

/-- DEVICE_RESET (R1, R154): RESETN is asserted; every block is reset and held in reset. -/
def execDeviceReset (s : State) : Answer := .next { s.deviceReset with resetHeld := true }

/-- The ACK of RESET_PART (R171). -/
def resetAck : OutFrame := .reply (.ack 0x02 [])

/-- The local time at which the stop bit of CHECK of the frame being sent ends (R167). -/
def sendEnd (frame : OutFrame) (start : LocalTime) : LocalTime := later start (frameTime frame)

/-- PART_RESET (R171): at the end of the RESET_PART ACK the device resets. -/
def execPartReset (dt : Nat) (s : State) : Answer :=
  .next <| s.after dt fun s =>
    match s.link.transmitter with
    | .sending f start =>
      if s.link.resetPending ∧ f = resetAck ∧ s.localTime = sendEnd f start then s.deviceReset else s
    | _ => s

/-- POWER_UP (R1): the timebase starts from 0 and every block takes its reset values; the levels of
RESETN and LHOLD are the host's (log 7). -/
def execPowerUp (s : State) : Answer := .next s.deviceReset

/-- RESETN_RELEASE (R154): the device leaves reset, the timebase counting from 0. -/
def execResetnRelease (s : State) : Answer := .next { s with resetHeld := false }

end Sys2Proof.Machine
end

