-- ==== Sys2Proof/Machine/ScanCommands.lean ====
section
/-! DEFINITION. The events of a scan, of bus faults and of recovery (chapter 2). -/

namespace Sys2Proof.Machine

/-- STROBE_COMPARE (R28, R29): the compare is armed while the bus is UP and no strobe waits, and fires
at S. The strobe begins, or waits while a scan is in flight. -/
def execStrobeCompare (dt : Nat) (side : Side) (s : State) : Answer :=
  .next <| s.after dt fun s =>
    let c := s.bus side
    if c.state = .up ∧ c.waiting = false ∧ s.localTime = c.nextStrobe then
      match c.scan with
      | none => s.setBus side (c.beginStrobe s.localTime)
      | some _ => s.setBus side { c with waiting := true }
    else s

/-- LATE_STROBE (R29): a waiting strobe begins 2 bit times after the scan left flight. -/
def execLateStrobe (dt : Nat) (side : Side) (s : State) : Answer :=
  .next <| s.after dt fun s =>
    let c := s.bus side
    match c.phase, c.scan with
    | .quiet since, none =>
      if c.state = .up ∧ c.waiting ∧ s.localTime = later since 2 then
        (s.setBus side (c.beginStrobe s.localTime)).raise .scanLate (some side) 0
          (elapsed c.nextStrobe s.localTime)
      else s
    | _, _ => s

/-- STROBE_CAPTURE (R22, R31): the controller releases the line at b + 13. -/
def execStrobeCapture (dt : Nat) (side : Side) (lineHigh : Bool) (s : State) : Answer :=
  .next <| s.after dt fun s =>
    match (s.bus side).phase with
    | .strobe b false =>
      if s.localTime = later b 13 then
        if lineHigh then s.takeCapture side b else s.breakNotEnded side b
      else s
    | _ => s

/-- STROBE_SENT (R23, R27): the STROBE character ends at b + 25. -/
def execStrobeSent (dt : Nat) (side : Side) (s : State) : Answer :=
  .next <| s.after dt fun s =>
    let c := s.bus side
    match c.phase, c.scan, c.finishing with
    | .strobe b true, some scan, none =>
      if s.localTime = later b 25 then
        match scan.next with
        | none => (s.readBack side).completeScan side scan .normal scan.outcomes
        | some _ =>
          s.setBus side { c.readBack s.localTime with phase := .gap (later s.localTime 2) }
      else s
    | _, _, _ => s

/-- POLL_HEADER (R23, R146): a header begins for the next attempt, with the lamp byte composed now. -/
def execPollHeader (dt : Nat) (side : Side) (s : State) : Answer :=
  .next <| s.after dt fun s =>
    let c := s.bus side
    match c.phase, c.scan, c.finishing with
    | .gap start, some scan, none =>
      match scan.next with
      | none => s
      | some p =>
        if s.localTime = start then
          let byte := lampByte (s.lamps.lamps side)[p] (s.panels side)[p].pressed s.localTime
          s.setBus side { c with
            scan := some { scan with attempts := scan.attempts + 1 }
            phase := .poll s.localTime p byte }
        else s
    | _, _, _ => s

/-- What the third response character, ending now, tells of the line: its stop bit, the last bit time,
read high or low (R20, R24). -/
def BusCtl.heard (c : BusCtl) (check : RxChar) (t : LocalTime) : BusCtl :=
  if check.stop then c.readHigh (t - 1) else c.readBack t

/-- POLL_RESPONSE (R24, R25): the third response character ends by the response limit. -/
def execPollResponse (dt : Nat) (side : Side) (forceH forceL check : RxChar) (s : State) : Answer :=
  .next <| s.after dt fun s =>
    match (s.bus side).polling with
    | some (scan, h, p) =>
      if headerTime < elapsed h s.localTime ∧
          elapsed h s.localTime ≤ headerTime + responseLimitTime then
        (s.setBus side ((s.bus side).heard check s.localTime)).endAttempt side scan p
          (responseReading scan.number forceH forceL check)
      else s
    | none => s

/-- RESPONSE_LIMIT (R24): the attempt fails 80 bit times after the end of the header. -/
def execResponseLimit (dt : Nat) (side : Side) (s : State) : Answer :=
  .next <| s.after dt fun s =>
    match (s.bus side).polling with
    | some (scan, h, p) =>
      if s.localTime = later h (headerTime + responseLimitTime) then
        (s.readBack side).endAttempt side scan p none
      else s
    | none => s

/-- CONTENTION (R20, R30): a bit sent high reads back low; the scan completes as CONTENTION. -/
def execContention (dt : Nat) (side : Side) (s : State) : Answer :=
  .next <| s.after dt fun s =>
    let c := s.bus side
    match c.scan, c.finishing with
    | some scan, none =>
      if c.mismatchAt s.localTime then
        ((s.raise .busContention (some side) c.attemptSet scan.number.toNat).readBack side).completeScan
          side scan .contention (contentionOutcomes scan)
      else s
    | _, _ => s

/-- STUCK_LINE (R20, R32, R33): the measured low period reaches 31 bit times on a bus that is UP. Time
under the controller's own break is not counted, so it cannot reach 31 there. Where a BUS_RESET is finishing a
character, or has let a break finish that did not end (R37), the DOWN completion is handed on and the RESET
completion still waited for does not come: the model's choice (DESIGN CHOICE, unsafe, log 11). -/
def execStuckLine (dt : Nat) (line : LowLine) (s : State) : Answer :=
  .next <| s.after dt fun s =>
    let c := s.bus line.bus
    match c.state, c.phase with
    | .down, _ => s
    | .up, .strobe _ false => s
    | .up, _ =>
      if c.stuckAt line.since s.localTime then
        ((s.setBus line.bus (c.goDown s.localTime)).raise .busDown (some line.bus) 0
          c.scanNumber.toNat).takeCompletion line.bus c.downCompletion
      else s

/-- DOWN_PROBE (R34): the down probe compare fires and the watch begins. -/
def execDownProbe (dt : Nat) (side : Side) (s : State) : Answer :=
  .next <| s.after dt fun s =>
    let c := s.bus side
    if c.state = .down ∧ c.probe = some s.localTime then
      s.setBus side { c with probe := none, watching := some s.localTime }
    else s

/-- PROBE_LOW (R34): the line reads low within the 13 bit times of the watch. -/
def execProbeLow (dt : Nat) (side : Side) (s : State) : Answer :=
  .next <| s.after dt fun s =>
    let c := s.bus side
    match c.watching with
    | some p => if elapsed p s.localTime ≤ 13 then s.setBus side (c.probeFails p) else s
    | none => s

/-- BUS_UP (R34): the line stayed high from p to p + 13. -/
def execBusUp (dt : Nat) (side : Side) (s : State) : Answer :=
  .next <| s.after dt fun s =>
    let c := s.bus side
    match c.watching with
    | some p =>
      if s.localTime = later p 13 then
        (s.setBus side (c.goUp s.localTime)).raise .busUp (some side) 0
          (elapsed c.downSince s.localTime)
      else s
    | none => s

/-- The break that a BUS_RESET lets finish has not been released yet (R37). -/
def BusCtl.inBreak (c : BusCtl) : Bool :=
  match c.phase with
  | .strobe _ false => true
  | _ => false

/-- BUS_RESET_COMPLETION (R37): the controller stops sending at the end of what it finishes, or at a
mismatch in the character, which raises BUS_CONTENTION (R39). A STUCK_LINE taken first leaves nothing to
finish, and no RESET completion comes (log 11). -/
def execBusResetCompletion (dt : Nat) (side : Side) (mismatch : Bool) (s : State) : Answer :=
  .next <| s.after dt fun s =>
    let c := s.bus side
    match c.finishing with
    | none => s
    | some e =>
      if c.inBreak then s
      else if mismatch then
        if c.mismatchAt s.localTime ∧ c.sendingUntil s.localTime = some e then
          (s.raise .busContention (some side) c.attemptSet c.scanNumber.toNat).resetCompletion side
        else s
      else if s.localTime = e then s.resetCompletion side
      else s

end Sys2Proof.Machine
end

