-- ==== Sys2Proof/Machine/SendCommands.lean ====
section
/-! DEFINITION. The arbiter, the transmitter and LHOLD (10.6). -/

namespace Sys2Proof.Machine

/-- The other stage. -/
def otherSide : Side → Side
  | .a => .b
  | .b => .a

/-- The stage whose report is sent next, if any holds one (R166, step 3). -/
def State.reportSource (s : State) : Option Side :=
  let last := s.link.lastServed
  if (s.stage (otherSide last)).reports ≠ [] then some (otherSide last)
  else if (s.stage last).reports ≠ [] then some last
  else none

/-- Stage B's report queue storage returns to it when stage A is IDLE and its queue empty (R62). -/
def State.returnStorage (s : State) : State :=
  if s.lent ∧ s.stageA.state = .idle ∧ s.stageA.reports = [] then { s with lent := false } else s

/-- The transmitter enters SENDING with a frame (R166). -/
def Link.send (l : Link) (f : OutFrame) (t : LocalTime) : Link := { l with transmitter := .sending f t }

/-- The head of a stage's report queue leaves it for the transmitter (R163, R166). -/
def State.sendReport (s : State) (side : Side) : State :=
  match (s.stage side).reports with
  | [] => s
  | r :: rest =>
    let s := s.setStage side { s.stage side with reports := rest }
    let s := s.setLink { s.link.send (.report r) s.localTime with lastServed := side }
    s.returnStorage

/-- The arbiter's choice (R166): a reply, then a notice, then a report. -/
def State.startFrame (s : State) : State :=
  match s.link.replies, s.link.notices, s.reportSource with
  | r :: rest, _, _ => s.setLink { s.link.send (.reply r) s.localTime with replies := rest }
  | [], n :: rest, _ => s.setLink { s.link.send (.notice n) s.localTime with notices := rest }
  | [], [], some side => s.sendReport side
  | [], [], none => s

/-- FRAME_START (R166): with the transmitter IDLE and LHOLD not asserted the arbiter chooses. -/
def execFrameStart (dt : Nat) (s : State) : Answer :=
  .next <| s.after dt fun s =>
    if s.link.transmitter = .idle ∧ s.lhold = false then s.startFrame else s

/-- TRANSMIT_FRAME_END (R167). The end of a RESET_PART ACK with the reset pending is PART_RESET (R171). -/
def execTransmitFrameEnd (dt : Nat) (s : State) : Answer :=
  .next <| s.after dt fun s =>
    match s.link.transmitter with
    | .sending f start =>
      if s.localTime = sendEnd f start ∧ ¬ (s.link.resetPending ∧ f = resetAck) then
        s.setLink { s.link with transmitter := .gap s.localTime }
      else s
    | _ => s

/-- TRANSMIT_GAP_END (R167): 2 bit times after the frame. -/
def execTransmitGapEnd (dt : Nat) (s : State) : Answer :=
  .next <| s.after dt fun s =>
    match s.link.transmitter with
    | .gap start =>
      if s.localTime = later start 2 then s.setLink { s.link with transmitter := .idle } else s
    | _ => s

/-- The pin LHOLD changes `dt` µs after the command before. -/
def State.driveLhold (s : State) (dt : Nat) (level : Bool) : State :=
  { s.after dt id with lhold := level }

/-- LHOLD_ASSERT (R167). -/
def execLholdAssert (dt : Nat) (s : State) : Answer := .next (s.driveLhold dt true)

/-- LHOLD_RELEASE (R167). -/
def execLholdRelease (dt : Nat) (s : State) : Answer := .next (s.driveLhold dt false)

/-- The level of LTX (R154, R167): the bits of the frame in SENDING, high otherwise. -/
def State.ltx (s : State) : Bool :=
  match s.link.transmitter with
  | .sending f start => (frameBits f).getD (elapsed start s.localTime) true
  | _ => true

/-- Whether the controller releases its bus line (R19, R22, R23): the bits of the break, the mark and
the characters it sends, and released otherwise. A released line reads high unless a node pulls it
low. -/
def State.busReleased (s : State) (side : Side) : Bool :=
  match (s.bus side).phase with
  | .strobe b _ => (strobeBits (s.bus side).scanNumber).getD (elapsed b s.localTime) true
  | .poll h addr lamp => (headerBits addr lamp).getD (elapsed h s.localTime) true
  | _ => true

end Sys2Proof.Machine
end

