-- ==== Sys2Proof/Machine/StageCommands.lean ====
section
/-! DEFINITION. Stage requests, the note table's acceptance checks and the placing of the TALLY (chapters 4 and 5). -/

namespace Sys2Proof.Machine

/-- The parameters of a JUDGE_PARAMS payload, the last three clamped (R72). -/
def paramsOf (payload : List Byte) : JudgeParams :=
  { w1 := fieldAt payload 1 4, w2 := fieldAt payload 5 4, w3 := fieldAt payload 9 4,
    w4 := fieldAt payload 13 4, grace := clampNat 0 1000000 (fieldAt payload 17 4),
    rollInterval := clampNat 50000 2000000 (fieldAt payload 21 4),
    mineHalf := clampNat 1000 250000 (fieldAt payload 25 4) }

/-- The window check of R72. -/
def JudgeParams.windowsOk (p : JudgeParams) : Bool :=
  decide (1000 ≤ p.w1 ∧ p.w4 ≤ 250000 ∧ p.w1 ≤ p.w2 ∧ p.w2 ≤ p.w3 ∧ p.w3 ≤ p.w4)

/-- IDLE and STANDBY, the states that take JUDGE_PARAMS and STAGE_OFFSET (R72, R73). -/
def takesSettings (st : StageState) : Bool := st == .idle || st == .standby

/-- JUDGE_PARAMS (R72). -/
def execJudgeParams (dt : Nat) (payload : List Byte) (s : State) : Answer :=
  .next <| s.request dt 0x30 payload [29] .stage fun _ s =>
    let side := sideOf (byteAt payload 0)
    let st := s.stage side
    let p := paramsOf payload
    if ¬ takesSettings st.state then s.refuse 0x30 busyCode (stateCode st.state)
    else if ¬ p.windowsOk then s.refuse 0x30 badValueCode 0
    else
      (s.setStage side { st with params := p }).ack 0x30
        (leBytes 4 p.w1 ++ leBytes 4 p.w2 ++ leBytes 4 p.w3 ++ leBytes 4 p.w4 ++ leBytes 4 p.grace ++
          leBytes 4 p.rollInterval ++ leBytes 4 p.mineHalf)

/-- STAGE_OFFSET (R73). -/
def execStageOffset (dt : Nat) (payload : List Byte) (s : State) : Answer :=
  .next <| s.request dt 0x31 payload [5] .stage fun _ s =>
    let side := sideOf (byteAt payload 0)
    let st := s.stage side
    if ¬ takesSettings st.state then s.refuse 0x31 busyCode (stateCode st.state)
    else
      let offset := clampInt (-100000) 100000 (signedAt payload 1)
      (s.setStage side { st with inputOffset := offset }).ack 0x31 (leSigned offset)

/-! ### Opening (R59 to R62) -/

/-- The first check of R59 that refuses a STAGE_OPEN, as refusal code and detail. -/
def openRefusal (s : State) (payload : List Byte) : Option (Byte × Byte) :=
  let side := sideOf (byteAt payload 0)
  let mode := (byteAt payload 1).toNat
  let life := fieldAt payload 4 2
  if side = .b ∧ s.openDoubles then some (busyCode, stateCode s.stageA.state)
  else if side = .b ∧ s.lent then some (busyCode, 0xFE)
  else if (s.stage side).state ≠ .idle then some (busyCode, stateCode (s.stage side).state)
  else if 1 < mode then some (badValueCode, 1)
  else if mode = 1 ∧ side = .b then some (badValueCode, 1)
  else if mode = 1 ∧ side = .a ∧ s.stageB.state ≠ .idle then some (busyCode, stateCode s.stageB.state)
  else if fieldAt payload 2 2 = 0 then some (badValueCode, 2)
  else if life < 1 ∨ 1000 < life then some (badValueCode, 3)
  else if 1 < (byteAt payload 6).toNat then some (badValueCode, 4)
  else none

/-- The stage after a STAGE_OPEN is taken (R57, R60): the session state of a reset stage, the
request's fields, and the judge parameters and input offset kept. -/
def Stage.openSession (st : Stage) (payload : List Byte) (clockRunning : Bool) : Stage :=
  { Stage.reset with
    state := if clockRunning then .playing else .standby
    mode := if byteAt payload 1 = 1 then .doubles else .single
    units := fieldAt payload 2 2
    life := fieldAt payload 4 2
    failEnable := byteAt payload 6 == 1
    askStrays := (byteAt payload 7).getLsbD 0
    askAvoided := (byteAt payload 7).getLsbD 1
    params := st.params
    inputOffset := st.inputOffset }

/-- What the mode of an open does to the joined storage (R61, R62): a doubles open takes stage B's
storage and empties its queue, a single open of stage A returns it. -/
def State.joinStorage (s : State) (side : Side) (mode : Mode) : State :=
  match side, mode with
  | .a, .doubles =>
    { s with lent := true, stageB := { s.stageB with reports := [], droppedCount := 0 } }
  | .a, .single => { s with lent := false }
  | .b, _ => s

/-- STAGE_OPEN (R59 to R62). -/
def execStageOpen (dt : Nat) (payload : List Byte) (s : State) : Answer :=
  .next <| s.request dt 0x32 payload [8] .openStage fun _ s =>
    match openRefusal s payload with
    | some (code, detail) => s.refuse 0x32 code detail
    | none =>
      let side := sideOf (byteAt payload 0)
      let st := (s.stage side).openSession payload s.clock.running
      ((s.setStage side st).joinStorage side st.mode).ack 0x32 []

/-! ### Closing (R67 to R69) -/

/-- The session of a stage that closes, up to CLOSING (R67, R68): flush and emptying from PLAYING,
emptying from STANDBY, nothing from FAILED. -/
def Stage.close (st : Stage) (side : Side) (depth : Nat) (time : Int) : Stage :=
  match st.state with
  | .playing => { (st.flush side depth time).emptySession [] with state := .closing }
  | .standby => { st.emptySession [] with state := .closing }
  | _ => { st with state := .closing }

/-- STAGE_CLOSE (R67, R68). -/
def execStageClose (dt : Nat) (payload : List Byte) (s : State) : Answer :=
  .next <| s.request dt 0x33 payload [1] .stage fun _ s =>
    let side := sideOf (byteAt payload 0)
    let st := s.stage side
    if st.state = .idle ∨ st.state = .closing then s.refuse 0x33 busyCode (stateCode st.state)
    else
      let s := (s.ack 0x33 []).updateClock
      s.setStage side (st.close side (s.reportDepth side) (s.clock.chart + st.inputOffset))

/-- TALLY_PLACE (R69): a stage in CLOSING whose queue has room places its TALLY and returns to IDLE. -/
def execTallyPlace (dt : Nat) (side : Side) (s : State) : Answer :=
  .next <| s.after dt fun s =>
    let st := s.stage side
    if st.state = .closing ∧ st.reports.length < s.reportDepth side then
      s.setStage side (st.placeTally side)
    else s

/-- STAGE_STATUS (R71). -/
def execStageStatus (dt : Nat) (payload : List Byte) (s : State) : Answer :=
  .next <| s.request dt 0x34 payload [1] .stage fun _ s =>
    let st := s.stage (sideOf (byteAt payload 0))
    s.ack 0x34 ([stateCode st.state, modeCode st.mode] ++ leBytes 4 st.score ++
      leBytes 4 st.earned ++ leBytes 4 st.judged ++ leBytes 2 st.combo ++ leBytes 2 st.maxCombo ++
      leBytes 2 st.life ++ leBytes 2 st.table.length ++ leBytes 1 (entryCount st.tracker) ++
      leBytes 1 st.reports.length)

/-! ### Notes (R80 to R87) -/

/-- The note record at an offset of a NOTES payload (12.4). -/
def rawNoteAt (payload : List Byte) (at' : Nat) : RawNote :=
  { id := fieldAt payload at' 2, due := signedAt payload (at' + 2),
    kind := byteAt payload (at' + 6), panels := BitVec.ofNat 24 (fieldAt payload (at' + 7) 3),
    length := fieldAt payload (at' + 10) 4 }

/-- The records of a NOTES payload, in order (12.3). -/
def rawNotes (payload : List Byte) : List RawNote :=
  (List.range ((payload.length - 1) / 14)).map fun k => rawNoteAt payload (1 + 14 * k)

/-- The number of members of a 24-bit panel set. -/
def panelCount (s : BitVec 24) : Nat := ((List.range 24).filter fun i => s.getLsbD i).length

/-- The stage panels a mode has (R57). -/
def panelRange : Mode → Nat
  | .single => 9
  | .doubles => 18

/-- Capacity of a stage's note table (R77). -/
def capacityOf : Mode → Nat
  | .single => Config.noteCapacity
  | .doubles => 2 * Config.noteCapacity

/-- The note a record stands for when its kind code is good (R75, R76, R86). -/
def RawNote.toNote (r : RawNote) (kind : NoteKind) : Note :=
  { id := r.id, due := r.due, kind := kind, panels := r.panels.setWidth 18,
    length := if kind = .hold ∨ kind = .roll then some r.length else none, struck := 0, worst := none }

/-- The note of a record that passes the BAD_VALUE check (R81), none when it fails. -/
def RawNote.check (r : RawNote) (mode : Mode) : Option Note :=
  match noteKindOf r.kind with
  | none => none
  | some kind =>
    if panelCount r.panels = 0 ∨ 4 < panelCount r.panels then none
    else if r.panels >>> panelRange mode ≠ 0 then none
    else if (kind = .hold ∨ kind = .roll) ∧ (r.length < 1000 ∨ 30000000 < r.length) then none
    else some (r.toNote kind)

/-- A note fails the ORDER check (R82). -/
def failsOrder (st : Stage) (n : Note) : Bool :=
  match st.lastAccepted with
  | none => false
  | some (id, due) => decide (n.id ≤ id ∨ n.due < due)

/-- A note fails the OVERLAP check (R83). -/
def failsOverlap (st : Stage) (n : Note) : Bool :=
  (panelsOf n.panels).any fun (p : Fin 18) =>
    match st.busyUntil[p] with
    | none => false
    | some e => decide (n.due ≤ e)

/-- A note fails the STALE check at chart time `now`, none while the clock is stopped (R84). -/
def failsStale (st : Stage) (now : Option Int) (n : Note) : Bool :=
  match now with
  | none => false
  | some c => decide (n.due + st.params.w4 < c + st.inputOffset)

/-- The note a record gives, or the stop code of the first check it fails (R80). -/
def examine (st : Stage) (now : Option Int) (r : RawNote) : Except Byte Note :=
  match r.check st.mode with
  | none => .error stopBadValue
  | some n =>
    if failsOrder st n then .error stopOrder
    else if failsOverlap st n then .error stopOverlap
    else if failsStale st now n then .error stopStale
    else if capacityOf st.mode ≤ st.table.length then .error stopFull
    else .ok n

/-- The busy-until table after a note is taken (R86). -/
def busyAfter (busy : Vector (Option Int) 18) (n : Note) : Vector (Option Int) 18 :=
  Vector.ofFn fun (p : Fin 18) => if n.panels.getLsbD p.val then some n.endTime else busy[p]

/-- A note is taken (R86). -/
def Stage.takeNote (st : Stage) (n : Note) : Stage :=
  { st with table := st.table ++ [n], busyUntil := busyAfter st.busyUntil n,
            lastAccepted := some (n.id, n.due) }

/-- Examines records in order (R80): the stage after them, how many were taken, and the stop code, 0
when none stopped the batch. -/
def takeRecords (now : Option Int) : List RawNote → Stage → Nat → Stage × Nat × Byte
  | [], st, k => (st, k, 0)
  | r :: rs, st, k =>
    match examine st now r with
    | .ok n => takeRecords now rs (st.takeNote n) (k + 1)
    | .error stop => (st, k, stop)

/-- NOTES (R80). -/
def execNotes (dt : Nat) (payload : List Byte) (s : State) : Answer :=
  .next <| s.request dt 0x35 payload [15, 29, 43, 57] .stage fun _ s =>
    let side := sideOf (byteAt payload 0)
    let s := s.updateClock
    let st := s.stage side
    if st.state = .standby ∨ st.state = .playing then
      let now := if s.clock.running then some s.clock.chart else none
      let r := takeRecords now (rawNotes payload) st 0
      (s.setStage side r.1).ack 0x35 (leBytes 1 r.2.1 ++ [r.2.2])
    else s.refuse 0x35 busyCode (stateCode st.state)

end Sys2Proof.Machine
end

