-- ==== Sys2Proof/Machine/Dispatch.lean ====
section
/-! DEFINITION. One arm per command. -/

namespace Sys2Proof.Machine

def exec (i : Instr) (s : State) : Host.Outcome State Fault Refusal :=
  match i with
  | .deviceReset => Sys2Proof.Machine.execDeviceReset s
  | .partReset dt => Sys2Proof.Machine.execPartReset dt s
  | .lrxBreak dt => Sys2Proof.Machine.execLrxBreak dt s
  | .frameBreakCapture dt => Sys2Proof.Machine.execFrameBreakCapture dt s
  | .frameFault dt chars => Sys2Proof.Machine.execFrameFault dt chars s
  | .frameTimeout dt received => Sys2Proof.Machine.execFrameTimeout dt received s
  | .unknownKind dt kind payload => Sys2Proof.Machine.execUnknownKind dt kind payload s
  | .ident dt payload => Sys2Proof.Machine.execIdent dt payload s
  | .resetPart dt payload => Sys2Proof.Machine.execResetPart dt payload s
  | .linkStatus dt payload => Sys2Proof.Machine.execLinkStatus dt payload s
  | .noticeMask dt payload => Sys2Proof.Machine.execNoticeMask dt payload s
  | .clockStart dt payload => Sys2Proof.Machine.execClockStart dt payload s
  | .clockStop dt payload => Sys2Proof.Machine.execClockStop dt payload s
  | .sync dt payload => Sys2Proof.Machine.execSync dt payload s
  | .clockParams dt payload => Sys2Proof.Machine.execClockParams dt payload s
  | .clockRead dt payload => Sys2Proof.Machine.execClockRead dt payload s
  | .busConfig dt payload => Sys2Proof.Machine.execBusConfig dt payload s
  | .busReset dt payload => Sys2Proof.Machine.execBusReset dt payload s
  | .panelThresholds dt payload => Sys2Proof.Machine.execPanelThresholds dt payload s
  | .panelRead dt payload => Sys2Proof.Machine.execPanelRead dt payload s
  | .stuckLimit dt payload => Sys2Proof.Machine.execStuckLimit dt payload s
  | .judgeParams dt payload => Sys2Proof.Machine.execJudgeParams dt payload s
  | .stageOffset dt payload => Sys2Proof.Machine.execStageOffset dt payload s
  | .stageOpen dt payload => Sys2Proof.Machine.execStageOpen dt payload s
  | .stageClose dt payload => Sys2Proof.Machine.execStageClose dt payload s
  | .stageStatus dt payload => Sys2Proof.Machine.execStageStatus dt payload s
  | .notes dt payload => Sys2Proof.Machine.execNotes dt payload s
  | .lampSet dt payload => Sys2Proof.Machine.execLampSet dt payload s
  | .lampFlash dt payload => Sys2Proof.Machine.execLampFlash dt payload s
  | .frameStart dt => Sys2Proof.Machine.execFrameStart dt s
  | .transmitFrameEnd dt => Sys2Proof.Machine.execTransmitFrameEnd dt s
  | .transmitGapEnd dt => Sys2Proof.Machine.execTransmitGapEnd dt s
  | .lholdAssert dt => Sys2Proof.Machine.execLholdAssert dt s
  | .lholdRelease dt => Sys2Proof.Machine.execLholdRelease dt s
  | .tallyPlace dt stage => Sys2Proof.Machine.execTallyPlace dt stage s
  | .housekeeping dt => Sys2Proof.Machine.execHousekeeping dt s
  | .strobeCompare dt bus => Sys2Proof.Machine.execStrobeCompare dt bus s
  | .lateStrobe dt bus => Sys2Proof.Machine.execLateStrobe dt bus s
  | .strobeCapture dt bus lineHigh => Sys2Proof.Machine.execStrobeCapture dt bus lineHigh s
  | .strobeSent dt bus => Sys2Proof.Machine.execStrobeSent dt bus s
  | .pollHeader dt bus => Sys2Proof.Machine.execPollHeader dt bus s
  | .pollResponse dt bus forceH forceL check => Sys2Proof.Machine.execPollResponse dt bus forceH forceL check s
  | .responseLimit dt bus => Sys2Proof.Machine.execResponseLimit dt bus s
  | .contention dt bus => Sys2Proof.Machine.execContention dt bus s
  | .stuckLine dt bus => Sys2Proof.Machine.execStuckLine dt bus s
  | .downProbe dt bus => Sys2Proof.Machine.execDownProbe dt bus s
  | .probeLow dt bus => Sys2Proof.Machine.execProbeLow dt bus s
  | .busUp dt bus => Sys2Proof.Machine.execBusUp dt bus s
  | .busResetCompletion dt bus mismatch => Sys2Proof.Machine.execBusResetCompletion dt bus mismatch s
  | .flashExpiry dt => Sys2Proof.Machine.execFlashExpiry dt s
  | .powerUp => Sys2Proof.Machine.execPowerUp s
  | .resetnRelease => Sys2Proof.Machine.execResetnRelease s

end Sys2Proof.Machine
end

