-- ==== Sys2Proof/Safety.lean ====
section
/-! DEFINITION. What every state of the EB2416 keeps, and the circumstances in which a command completes. -/

namespace Sys2Proof.Machine

/-! ### Circumstances of a command -/

/-- The break capture of the frame being received, if one is (R154). -/
def Receiver.capture? : Receiver → Option LocalTime
  | .receiving f => some f.capture
  | _ => none

/-- A good frame with `len` payload bytes and break capture `c` completes `dt` µs after the command
before, RESETN released (R156). -/
structure Completes (s : State) (dt len : Nat) (c : LocalTime) : Prop where
  released : s.resetHeld = false
  receiving : s.link.receiver.capture? = some c
  short : len ≤ 60
  inTime : elapsed c (later s.localTime dt) ≤ (len + 3) * 17

/-- Such a frame is dispatched: no reset is pending and the reply queue has room (tests 1 and 2 of
R159). -/
structure Dispatches (s : State) (dt len : Nat) (c : LocalTime) : Prop extends
    Completes s dt len c where
  noReset : s.link.resetPending = false
  room : s.link.replies.length < 4

/-- The state in which an owner finds the device at the processing time: `dt` µs later, the receiver
WAITING (R156). -/
def State.arrived (s : State) (dt : Nat) : State :=
  { s with localTime := later s.localTime dt, link := { s.link with receiver := .waiting } }

/-- The device is not held in reset, and the time is `t` when `dt` µs have passed. -/
structure Reaches (s : State) (dt : Nat) (t : LocalTime) : Prop where
  released : s.resetHeld = false
  time : later s.localTime dt = t

/-! ### Requests by kind (10.9) -/

/-- What the catalogue says of a request: its code, the lengths allowed, and what its first payload byte
names. -/
structure RequestForm where
  kind : Byte
  lens : List Nat
  first : FirstByte

/-- A request of the catalogue with its elapsed time and payload; none for any other command. -/
def requestOf : Instr → Option (RequestForm × Nat × List Byte)
  | .ident dt pl => some (⟨0x01, [0], .none⟩, dt, pl)
  | .resetPart dt pl => some (⟨0x02, [0], .none⟩, dt, pl)
  | .linkStatus dt pl => some (⟨0x03, [0], .none⟩, dt, pl)
  | .noticeMask dt pl => some (⟨0x04, [2], .none⟩, dt, pl)
  | .clockStart dt pl => some (⟨0x10, [4], .none⟩, dt, pl)
  | .clockStop dt pl => some (⟨0x11, [0], .none⟩, dt, pl)
  | .sync dt pl => some (⟨0x12, [4], .none⟩, dt, pl)
  | .clockParams dt pl => some (⟨0x13, [8], .none⟩, dt, pl)
  | .clockRead dt pl => some (⟨0x14, [0], .none⟩, dt, pl)
  | .busConfig dt pl => some (⟨0x20, [5], .bus⟩, dt, pl)
  | .busReset dt pl => some (⟨0x21, [1], .bus⟩, dt, pl)
  | .panelThresholds dt pl => some (⟨0x22, [7], .bus⟩, dt, pl)
  | .panelRead dt pl => some (⟨0x23, [1], .bus⟩, dt, pl)
  | .stuckLimit dt pl => some (⟨0x24, [1], .none⟩, dt, pl)
  | .judgeParams dt pl => some (⟨0x30, [29], .stage⟩, dt, pl)
  | .stageOffset dt pl => some (⟨0x31, [5], .stage⟩, dt, pl)
  | .stageOpen dt pl => some (⟨0x32, [8], .openStage⟩, dt, pl)
  | .stageClose dt pl => some (⟨0x33, [1], .stage⟩, dt, pl)
  | .stageStatus dt pl => some (⟨0x34, [1], .stage⟩, dt, pl)
  | .notes dt pl => some (⟨0x35, [15, 29, 43, 57], .stage⟩, dt, pl)
  | .lampSet dt pl => some (⟨0x40, [7], .bus⟩, dt, pl)
  | .lampFlash dt pl => some (⟨0x41, [6], .bus⟩, dt, pl)
  | _ => none

/-- A note record as a NOTES payload carries it (12.4). -/
def noteBytes (r : RawNote) : List Byte :=
  leBytes 2 r.id ++ leSigned r.due ++ [r.kind] ++ leBytes 3 r.panels.toNat ++ leBytes 4 r.length

/-- A note record whose fields fit their places (R75, 12.4). -/
structure RawNote.Fits (r : RawNote) : Prop where
  id : r.id < 65536
  due : -2147483648 ≤ r.due ∧ r.due ≤ 2147483647
  length : r.length < 4294967296

/-- A character received as it was sent: even parity and a high stop bit (00_scope, Encoding on the
links). -/
def sentChar (b : Byte) : RxChar := ⟨b, oddOnes (dataBits b), true⟩

/-! ### The link and the report queues -/

/-- The dropped-before count of a report (R162). -/
def Report.droppedBefore : Report → Nat
  | .judgment _ _ _ _ _ _ _ _ _ _ d => d
  | .hold _ _ _ _ _ _ _ _ _ d => d
  | .mine _ _ _ _ _ _ _ _ d => d
  | .stray _ _ _ d => d
  | .tally t => t.droppedBefore

/-- Every error count is within 0 to 65535 (R154). -/
structure ErrorCounts.Bounded (e : ErrorCounts) : Prop where
  parity : e.parity ≤ 65535
  framing : e.framing ≤ 65535
  check : e.check ≤ 65535
  oversize : e.oversize ≤ 65535
  timeout : e.timeout ≤ 65535
  truncated : e.truncated ≤ 65535
  shed : e.shed ≤ 65535

/-- The link interface: at most 4 replies; error counts in range; at most one notice for a pair of kind
and stage value, in the arbiter's order, each with a count of 1 to 255; a frame being received holds
only its capture between commands (R154, R160, R164; log 3). -/
structure LinkInv (s : State) : Prop where
  replies : s.link.replies.length ≤ 4
  errors : s.link.errors.Bounded
  ordered : s.link.notices.Pairwise fun m n => noticeKey m < noticeKey n
  counts : ∀ n ∈ s.link.notices, 1 ≤ n.count ∧ n.count ≤ 255
  partialFrame : ∀ f, s.link.receiver = .receiving f → f.kind = none ∧ f.len = none ∧ f.payload = []

/-- The report queues and their dropped counts (R162). -/
structure QueueInv (s : State) : Prop where
  depthA : s.stageA.reports.length ≤ s.reportDepth .a
  depthB : s.stageB.reports.length ≤ 32
  droppedA : s.stageA.droppedCount ≤ 255
  droppedB : s.stageB.droppedCount ≤ 255
  before : ∀ r ∈ s.stageA.reports ++ s.stageB.reports, r.droppedBefore ≤ 255

/-! ### The chart clock -/

/-- The chart clock: chart time and pending correction in their bounds, the parameters in their ranges,
the housekeeping compare armed exactly while the clock runs (R4, R12, R15, R17). -/
structure ClockInv (c : Clock) : Prop where
  chart : -60000000 ≤ c.chart ∧ c.chart ≤ 2000000000
  correction : c.correction.natAbs ≤ c.jumpLimit
  slew : c.slewLimit ≤ 10000
  jump : 1000 ≤ c.jumpLimit ∧ c.jumpLimit ≤ 100000
  silence : 100 ≤ c.silenceMs ∧ c.silenceMs ≤ 10000
  armed : c.housekeeping.isSome = c.running
  stopped : c.running = false → c.correction = 0

/-! ### Sessions -/

/-- Life: within 0 to 1000; 0 in a stage that has FAILED; above 0 in STANDBY and PLAYING with fail enable
on (R138, R140). -/
structure Stage.LifeInv (st : Stage) : Prop where
  range : st.life ≤ 1000
  failed : st.state = .failed → st.life = 0
  alive : st.failEnable = true → st.state = .standby ∨ st.state = .playing → 0 < st.life

/-- The twelve result counts in their order (R141). -/
def Counts.toList (c : Counts) : List Nat :=
  [c.prime, c.solid, c.fair, c.weak, c.miss, c.holdOk, c.dropped, c.cut, c.mineHit, c.mineAvoided,
    c.discarded, c.stray]

/-- The accounts: E, J, the overcount flag, combo, max combo, the counts and the graded count, and J and E
as the counts give them while no count is saturated (R132, R133, R136, R137, R141, R142). -/
structure Stage.AccountInv (st : Stage) : Prop where
  units : 1 ≤ st.units ∧ st.units ≤ 65535
  earned : st.earned ≤ 1310700 ∧ st.earned ≤ 10 * st.judged
  overcounted : st.overcount = decide (st.units < st.judged)
  combo : st.combo ≤ st.maxCombo ∧ st.maxCombo ≤ 65535
  steps : st.maxCombo ≤ st.counts.prime + st.counts.solid + st.counts.fair
  counts : ∀ k ∈ st.counts.toList, k ≤ 65535
  graded : st.graded = min 65535 (st.counts.prime + st.counts.solid + st.counts.fair + st.counts.weak)
  exact : (∀ k ∈ st.counts.toList, k < 65535) →
    st.judged = st.counts.prime + st.counts.solid + st.counts.fair + st.counts.weak + st.counts.miss +
      st.counts.holdOk + st.counts.dropped + st.counts.cut ∧
    st.earned = min 1310700 (10 * st.counts.prime + 8 * st.counts.solid + 5 * st.counts.fair +
      2 * st.counts.weak + 10 * st.counts.holdOk)

/-- The units a note counts (R76). -/
def Note.units (n : Note) : Nat :=
  match n.kind with
  | .tap => 1
  | .hold => 2
  | .roll => 2
  | .mine => 0

/-- The number of notes a session can have accepted up to its last accepted id, ids rising from 0 (R79,
R82). -/
def Stage.acceptable (st : Stage) : Nat :=
  match st.lastAccepted with
  | none => 0
  | some (id, _) => id + 1

/-- Judged units (R76, R79, R130, R133): J within 131,072; note ids within 65535; and J, the units of the
notes in the table and one for each hold in the tracker together within two for each acceptable note. -/
structure Stage.UnitsInv (st : Stage) : Prop where
  judged : st.judged ≤ 131072
  ids : st.acceptable ≤ 65536
  units : st.judged + (st.table.map Note.units).sum + (holdIds st.tracker).length ≤ 2 * st.acceptable

/-- Judge parameters in their ranges (R72). -/
structure JudgeParams.Ok (p : JudgeParams) : Prop where
  windows : 1000 ≤ p.w1 ∧ p.w1 ≤ p.w2 ∧ p.w2 ≤ p.w3 ∧ p.w3 ≤ p.w4 ∧ p.w4 ≤ 250000
  grace : p.grace ≤ 1000000
  roll : 50000 ≤ p.rollInterval ∧ p.rollInterval ≤ 2000000
  mine : 1000 ≤ p.mineHalf ∧ p.mineHalf ≤ 250000

/-- Settings and offsets (R72, R73, R97, R142, R143): the judge parameters and the input offset in their
ranges; every worst offset within W4, and none before play; the offset sum within 250,000 for each graded
step. -/
structure Stage.OffsetInv (st : Stage) : Prop where
  params : st.params.Ok
  input : st.inputOffset.natAbs ≤ 100000
  worst : ∀ n ∈ st.table, ∀ w, n.worst = some w → w.natAbs ≤ st.params.w4
  fresh : st.state ≠ .playing → ∀ n ∈ st.table, n.worst = none
  sum : st.offsetSum.natAbs ≤ 250000 * st.graded

/-- A note of the table (R75, R81, R89): its panels within the mode's range, at least one and at most 4;
some but not all of them struck exactly when it has a worst offset; a MINE never struck; a length
exactly for HOLD and ROLL. -/
structure Note.Waiting (n : Note) (mode : Mode) : Prop where
  anyPanel : n.panels ≠ 0
  few : (panelsOf n.panels).length ≤ 4
  range : n.panels >>> panelRange mode = 0
  partly : n.struck &&& n.panels = n.struck ∧ n.struck ≠ n.panels
  worst : n.worst.isSome = decide (n.struck ≠ 0)
  mine : n.kind = .mine → n.struck = 0
  length : n.length.isSome = hasBody n

/-- The note table, the busy-until table, the last accepted note and the hold tracker (R77, R78, R79,
R82, R83, R91, R113). -/
structure Stage.NotesInv (st : Stage) : Prop where
  capacity : st.table.length ≤ capacityOf st.mode
  ordered : st.table.Pairwise fun m n => m.id < n.id ∧ m.due ≤ n.due
  disjoint : st.table.Pairwise fun m n => m.panels &&& n.panels ≠ 0 → m.endTime < n.due
  waiting : ∀ n ∈ st.table, n.Waiting st.mode
  last : ∀ n ∈ st.table, ∃ id due, st.lastAccepted = some (id, due) ∧ n.id ≤ id ∧ n.due ≤ due
  busy : ∀ n ∈ st.table, ∀ p : Fin 18, n.panels.getLsbD p.val = true →
    ∃ e, st.busyUntil[p] = some e ∧ n.endTime ≤ e
  tracked : ∀ (p : Fin 18) e, st.tracker[p] = some e →
    (∀ n ∈ st.table, n.id ≠ e.id) ∧ ∃ id due, st.lastAccepted = some (id, due) ∧ e.id ≤ id
  holds : ∀ (p q : Fin 18) e f, st.tracker[p] = some e → st.tracker[q] = some f → e.id = f.id →
    e.endTime = f.endTime

/-- A stage's tables by its state (R63, R64, R66, R69, R84): notes wait only in STANDBY and PLAYING, holds
only in PLAYING; the clock runs while it is PLAYING and is stopped while it is in STANDBY. -/
structure Stage.PlayInv (st : Stage) (running : Bool) : Prop where
  table : st.table ≠ [] → st.state = .standby ∨ st.state = .playing
  tracker : ∀ p : Fin 18, st.tracker[p] ≠ none → st.state = .playing
  playing : st.state = .playing → running = true
  standby : st.state = .standby → running = false

/-- Doubles (R61, R62): stage A open in doubles holds stage B's report queue storage; while it holds the
storage, stage B is IDLE with an empty queue; stage B is never in doubles. -/
structure DoublesInv (s : State) : Prop where
  holds : s.openDoubles = true → s.lent = true
  idle : s.lent = true → s.stageB.state = .idle ∧ s.stageB.reports = []
  single : s.stageB.mode = .single

/-! ### Panels, buses and lamps -/

/-- A panel (R41, R42, R54): every value in its range, the press threshold above the release threshold, a
pressed panel ONLINE with its baseline set, an ONLINE panel with fewer than 3 misses. -/
structure Panel.Ok (p : Panel) : Prop where
  reading : p.reading ≤ 1023
  baseline : ∀ b, p.baseline = some b → b ≤ 1023
  creep : p.creep ≤ 63
  misses : p.misses ≤ 3
  online : p.status = .online → p.misses < 3
  press : 1 ≤ p.pressAt ∧ p.pressAt ≤ 1023
  release : p.releaseAt < p.pressAt
  pressed : p.pressed = true → p.status = .online ∧ p.baseline.isSome = true

/-- Readings of a scan in flight are 0 to 1023 (R25). -/
def BusCtl.ReadingsOk (c : BusCtl) : Prop :=
  ∀ scan, c.scan = some scan → ∀ (p : Fin 9) n, scan.outcomes[p] = some (.good n) → n ≤ 1023

/-- The sensing units and the stuck limit (R41). -/
structure SensingInv (s : State) : Prop where
  panelsA : ∀ p : Fin 9, s.panelsA[p].Ok
  panelsB : ∀ p : Fin 9, s.panelsB[p].Ok
  readingsA : s.busA.ReadingsOk
  readingsB : s.busB.ReadingsOk
  stuck : 31 ≤ s.stuckLimit ∧ s.stuckLimit ≤ 255

/-- The attempts made on the panel to poll next fit what the controller is doing (R23, R26). -/
def Scan.FitsPhase (scan : Scan) : BusPhase → Prop
  | .quiet _ => False
  | .strobe _ false => scan.attempts = 0 ∧ scan.capture = none
  | .strobe _ true => scan.attempts = 0 ∧ scan.capture.isSome = true
  | .gap _ => scan.attempts < 1 + scan.retries.val ∧ scan.next.isSome = true ∧ scan.capture.isSome = true
  | .poll _ addr _ =>
    1 ≤ scan.attempts ∧ scan.attempts ≤ 1 + scan.retries.val ∧ scan.next = some addr ∧
      scan.capture.isSome = true

/-- A controller with nothing in flight is quiet. -/
def BusPhase.isQuiet : BusPhase → Bool
  | .quiet _ => true
  | _ => false

/-- A bus controller (R21, R22, R26, R32, R34): a scan in flight has the controller's scan number, polls a
panel of its enable set and makes no more attempts than it may; a bus that is DOWN has no scan in
flight and no strobe waiting, and either its probe compare is armed or it watches the line; a bus that
is UP does neither. -/
structure BusCtl.Ok (c : BusCtl) : Prop where
  quiet : c.scan = none ↔ c.phase.isQuiet = true
  number : ∀ scan, c.scan = some scan → scan.number = c.scanNumber
  fits : ∀ scan, c.scan = some scan → scan.FitsPhase c.phase
  next : ∀ scan p, c.scan = some scan → scan.next = some p → scan.enable.getLsbD p.val = true
  taken : ∀ scan t, c.scan = some scan → scan.capture = some t → t = c.lastCapture ∧ scan.chart = c.lastChart
  down : c.state = .down →
    c.scan = none ∧ c.waiting = false ∧ c.finishing = none ∧ c.probe.isSome = c.watching.isNone
  up : c.state = .up → c.probe = none ∧ c.watching = none

/-- Lamp control (R145, R150): the flash expiry compare is armed exactly while a flash runs, and no
flash duration is above 250 ms. -/
structure LampInv (l : LampCtl) : Prop where
  armed : l.expiry = none ↔ ∀ p : Fin 9, l.lampsA[p].flash = none ∧ l.lampsB[p].flash = none
  durations : l.flashA.durationMs ≤ 250 ∧ l.flashB.durationMs ≤ 250

end Sys2Proof.Machine
end

