-- ==== Sys2Proof/Certificates/Slice0/Obligations.lean ====
section
/-! DEFINITION. The statements about the EB2416. -/

open Sys2Proof Sys2Proof.Machine

/-! ### Steps, power and reset -/

/-- A step executes the command at the front of the queue on the rest of the state; on an empty queue the
device idles (the model's choice, log 1). -/
def Obligations.StepRunsFrontCommand : Prop :=
  (∀ (c : Instr) (rest : List Instr) (s : State), s.pending = c :: rest →
    step s = exec c { s with pending := rest }) ∧
  ∀ s : State, s.pending = [] → step s = .next s

/-- Every command answers a next state and leaves the queue alone. While RESETN is held, only RESETN,
power and LHOLD change anything (the model's choice, log 6). -/
def Obligations.CommandsAnswerNext : Prop :=
  (∀ (c : Instr) (s : State), ∃ t, exec c s = .next t ∧ t.pending = s.pending) ∧
  ∀ (c : Instr) (s : State), s.resetHeld = true → c ≠ .deviceReset → c ≠ .powerUp → c ≠ .resetnRelease →
    (∀ dt, c ≠ .lholdAssert dt) → (∀ dt, c ≠ .lholdRelease dt) → exec c s = .next s

/-- DEVICE_RESET, POWER_UP and RESETN_RELEASE, and LHOLD: what each leaves, whole (R1, R154, R167; the
pins by logs 5 to 7). -/
def Obligations.ResetAndPinCommands : Prop :=
  (∀ s : State, exec .deviceReset s =
    .next { State.reset with resetHeld := true, lhold := s.lhold, pending := s.pending }) ∧
  (∀ s : State, exec .powerUp s =
    .next { State.reset with resetHeld := s.resetHeld, lhold := s.lhold, pending := s.pending }) ∧
  (∀ s : State, exec .resetnRelease s = .next { s with resetHeld := false }) ∧
  (∀ (s : State) (dt : Nat) (t : LocalTime), Reaches s dt t →
    exec (.lholdAssert dt) s = .next { s with localTime := t, lhold := true } ∧
    exec (.lholdRelease dt) s = .next { s with localTime := t, lhold := false })

/-- The reset values of every block, written out (R1, R4, R21, R41, R57, R72, R73, R145, R154). -/
def Obligations.ResetValues : Prop :=
  State.reset.localTime = 0 ∧
  State.reset.clock =
    { running := false, chart := 0, lastUpdate := 0, correction := 0, slewLimit := 2000,
      jumpLimit := 20000, silenceMs := 1000, lastSync := 0, silenceNotified := false,
      housekeeping := none } ∧
  (∀ d : Side, State.reset.bus d =
    { state := .up, settings := { period := 0, retries := 1, enable := 0x1FF }, pendingSettings := none,
      scanNumber := 0, scan := none, nextStrobe := 1000, waiting := false, lastCapture := 0,
      lastChart := none, probe := none, downSince := 0, phase := .quiet 0, finishing := none,
      watching := none, lineHigh := 0, lowBreaks := [] }) ∧
  (∀ (d : Side) (p : Fin 9), (State.reset.panels d)[p] =
    { status := .offline, reading := 0, baseline := none, creep := 0, pressed := false,
      pressedSince := 0, misses := 0, pressAt := 120, releaseAt := 60 }) ∧
  State.reset.stuckLimit = 60 ∧
  (∀ d : Side, State.reset.stage d =
    { state := .idle, mode := .single, units := 1, failEnable := false, askStrays := false,
      askAvoided := false, life := 0, earned := 0, judged := 0, combo := 0, maxCombo := 0,
      counts := ⟨0, 0, 0, 0, 0, 0, 0, 0, 0, 0, 0, 0⟩, offsetSum := 0, graded := 0, failed := false,
      overcount := false, table := [], busyUntil := Vector.replicate 18 none,
      tracker := Vector.replicate 18 none, lastPressedA := 0, lastPressedB := 0, lastAccepted := none,
      reports := [], droppedCount := 0,
      params := { w1 := 18000, w2 := 45000, w3 := 90000, w4 := 135000, grace := 250000,
                  rollInterval := 350000, mineHalf := 40000 },
      inputOffset := 0 }) ∧
  State.reset.lent = false ∧
  (∀ (d : Side) (p : Fin 9), (State.reset.lamps.lamps d)[p] =
    { mode := .off, level := 0, base := 0, flashEnable := false, flash := none }) ∧
  (∀ d : Side, State.reset.lamps.flashSettings d =
    { prime := 255, solid := 192, fair := 128, weak := 64, durationMs := 80 }) ∧
  State.reset.lamps.expiry = none ∧
  State.reset.link =
    { receiver := .waiting, errors := ⟨0, 0, 0, 0, 0, 0, 0⟩, replies := [], notices := [], mask := 0x100,
      transmitter := .idle, lastServed := .b, resetPending := false } ∧
  State.reset.pending = []

/-! ### Sending (10.6) -/

/-- The end of a frame and of its gap, and the reset at the end of the RESET_PART ACK, 58 bit times after
its frame began (R167, R171; PART_RESET in place of the frame's end by log 9). At any other time, in any
other transmitter state, and for PART_RESET without the reset pending or while another frame is sent, each
only lets time pass (the model's choice, log 2). -/
def Obligations.TransmitterTimes : Prop :=
  (∀ (s : State) (dt : Nat) (t : LocalTime), Reaches s dt t →
    ((¬ ∃ f start, s.link.transmitter = .sending f start ∧
        t = later start (14 + 11 * ((framePayload f).length + 3)) ∧
        ¬ (s.link.resetPending = true ∧ f = .reply (.ack 0x02 []))) →
      exec (.transmitFrameEnd dt) s = .next { s with localTime := t }) ∧
    ((¬ ∃ start, s.link.transmitter = .gap start ∧ t = later start 2) →
      exec (.transmitGapEnd dt) s = .next { s with localTime := t }) ∧
    ((¬ ∃ start, s.link.transmitter = .sending (.reply (.ack 0x02 [])) start ∧
        s.link.resetPending = true ∧ t = later start 58) →
      exec (.partReset dt) s = .next { s with localTime := t })) ∧
  (∀ (s : State) (dt : Nat) (t start : LocalTime) (f : OutFrame), Reaches s dt t →
    s.link.transmitter = .sending f start →
    t = later start (14 + 11 * ((framePayload f).length + 3)) →
    ¬ (s.link.resetPending = true ∧ f = .reply (.ack 0x02 [])) →
    exec (.transmitFrameEnd dt) s =
      .next { s with localTime := t, link := { s.link with transmitter := .gap t } }) ∧
  (∀ (s : State) (dt : Nat) (t start : LocalTime), Reaches s dt t →
    s.link.transmitter = .gap start → t = later start 2 →
    exec (.transmitGapEnd dt) s =
      .next { s with localTime := t, link := { s.link with transmitter := .idle } }) ∧
  (∀ (s : State) (dt : Nat) (start : LocalTime), Reaches s dt (later start 58) →
    s.link.transmitter = .sending (.reply (.ack 0x02 [])) start → s.link.resetPending = true →
    exec (.partReset dt) s = .next { State.reset with lhold := s.lhold, pending := s.pending })

/-- The arbiter's choice with the transmitter IDLE and LHOLD not asserted (R166): the oldest reply; else the
first pending notice; else a report, of the stage not served last when it holds one. Stage B's report
storage returns when stage A is IDLE and its queue empty (R62). With nothing to send, time passes
alone. With LHOLD asserted, or the transmitter in SENDING or GAP, no frame starts (R166, R167), and
FRAME_START only lets time pass (log 2). That the head of a CLOSING stage's queue leaves without the TALLY,
which R69 and R163 place at the same instant and TALLY_PLACE places here as a command of its own, is the
model's choice (log 8). -/
def Obligations.FrameStartChooses : Prop :=
  (∀ (s : State) (dt : Nat) (t : LocalTime), Reaches s dt t →
    s.lhold = true ∨ (∃ f start, s.link.transmitter = .sending f start) ∨
      (∃ start, s.link.transmitter = .gap start) →
    exec (.frameStart dt) s = .next { s with localTime := t }) ∧
  ∀ (s : State) (dt : Nat) (t : LocalTime), Reaches s dt t → s.link.transmitter = .idle →
    s.lhold = false →
    (∀ r rest, s.link.replies = r :: rest →
      exec (.frameStart dt) s = .next { s with
        localTime := t, link := { s.link with transmitter := .sending (.reply r) t, replies := rest } }) ∧
    (∀ n rest, s.link.replies = [] → s.link.notices = n :: rest →
      exec (.frameStart dt) s = .next { s with
        localTime := t, link := { s.link with transmitter := .sending (.notice n) t, notices := rest } }) ∧
    (∀ (d : Side) (r : Report) (rest : List Report), s.link.replies = [] → s.link.notices = [] →
      (s.stage d).reports = r :: rest →
      (d ≠ s.link.lastServed ∨ (s.stage (otherSide d)).reports = []) →
      exec (.frameStart dt) s = .next (State.setStage { s with
        localTime := t
        link := { s.link with transmitter := .sending (.report r) t, lastServed := d }
        lent := s.lent && !(s.stageA.state == .idle &&
          (if d = .a then rest else s.stageA.reports).isEmpty) } d
            { s.stage d with reports := rest })) ∧
    (s.link.replies = [] → s.link.notices = [] → s.stageA.reports = [] → s.stageB.reports = [] →
      exec (.frameStart dt) s = .next { s with localTime := t })

/-- The frames the device sends (10.9, 12.1, 12.5, R167, R173, R174). The bits: the break, the mark and the
characters KIND, LEN, payload and CHECK, in 14 + 11 × (LEN + 3) bit times; a character's bits 1 to 8 are
its data, least significant first. LTX carries the bit of the time elapsed since the frame began, in whole
bit times (the model's choice, log 14), and is high otherwise. The KIND codes; the report flags; and the
payloads of ACK, REFUSED, NOTICE and the five reports, field by field at its offset, for values in the
fields' ranges. -/
def Obligations.FrameBitsAndLengths : Prop :=
  (∀ f : OutFrame, (frameBits f).length = 14 + 11 * ((framePayload f).length + 3) ∧
    ∃ body, body = frameKind f :: BitVec.ofNat 8 (framePayload f).length :: framePayload f ∧
      frameBits f = List.replicate 13 false ++ [true] ++ (body ++ [crc8 body]).flatMap charBits) ∧
  (∀ b : Byte, (charBits b).length = 11 ∧ (charBits b).head? = some false ∧
    (charBits b).getLast? = some true ∧ ((charBits b).count true) % 2 = 1 ∧
    ∀ k < 8, (charBits b)[k + 1]? = some (b.getLsbD k)) ∧
  (∀ s : State,
    (∀ (f : OutFrame) (start : LocalTime), s.link.transmitter = .sending f start →
      (∀ bit, (frameBits f)[elapsed start s.localTime]? = some bit → s.ltx = bit) ∧
      (14 + 11 * ((framePayload f).length + 3) ≤ elapsed start s.localTime → s.ltx = true)) ∧
    ((∀ f start, s.link.transmitter ≠ .sending f start) → s.ltx = true)) ∧
  (∀ n, (framePayload (.notice n)).length = 9) ∧
  (∀ r : Report, (framePayload (.report r)).length =
    match r with
    | .judgment .. => 21
    | .hold .. => 14
    | .mine .. => 11
    | .stray .. => 7
    | .tally _ => 51) ∧
  (∀ f : OutFrame, frameKind f =
    match f with
    | .reply (.ack ..) => 0x80
    | .reply (.refused ..) => 0x81
    | .report (.judgment ..) => 0x90
    | .report (.hold ..) => 0x91
    | .report (.mine ..) => 0x92
    | .report (.stray ..) => 0x93
    | .report (.tally _) => 0x94
    | .notice _ => 0x9F) ∧
  (∀ off fl ov : Bool, (reportFlags off fl ov).getLsbD 0 = off ∧
    (reportFlags off fl ov).getLsbD 1 = fl ∧
    (reportFlags off fl ov).getLsbD 2 = ov ∧ reportFlags off fl ov >>> 3 = 0) ∧
  (∀ (k c x : Byte) (fields : List Byte), framePayload (.reply (.ack k fields)) = k :: fields ∧
    framePayload (.reply (.refused k c x)) = [k, c, x]) ∧
  (∀ (n : Notice) (pl : List Byte), pl = framePayload (.notice n) → n.count < 256 →
    -2147483648 ≤ n.detail → n.detail ≤ 2147483647 →
    byteAt pl 0 = (match n.kind with
      | .syncStale => 0 | .clockJump => 1 | .clockLimit => 2 | .panelOffline => 3
      | .panelOnline => 4 | .panelStuck => 5 | .busDown => 6 | .busUp => 7
      | .scanLate => 8 | .busContention => 9 | .linkError => 10 | .requestShed => 11) ∧
    byteAt pl 1 = (match n.source with | some .a => 0 | some .b => 1 | none => 0xFF) ∧
    fieldAt pl 2 1 = n.count ∧ fieldAt pl 3 2 = n.panels.toNat ∧ signedAt pl 5 = n.detail) ∧
  (∀ (d : Side) (id combo life score dropped : Nat) (res : Result) (off : Option Int) (fl ov : Bool)
    (struck : StageSet) (pl : List Byte),
    pl = framePayload (.report (.judgment d id res off fl ov struck combo life score dropped)) →
    id < 65536 → combo < 65536 → life < 65536 → score < 2 ^ 32 → dropped < 256 →
    (∀ o, off = some o → -2147483648 ≤ o ∧ o ≤ 2147483647) →
    byteAt pl 0 = (if d = .a then 0 else 1) ∧ fieldAt pl 1 2 = id ∧
    byteAt pl 3 = (match res with
      | .prime => 0 | .solid => 1 | .fair => 2 | .weak => 3 | _ => 4) ∧
    signedAt pl 4 = off.getD 0 ∧ byteAt pl 8 = reportFlags off.isSome fl ov ∧
    fieldAt pl 9 3 = struck.toNat ∧ fieldAt pl 12 2 = combo ∧ fieldAt pl 14 2 = life ∧
    fieldAt pl 16 4 = score ∧ fieldAt pl 20 1 = dropped) ∧
  (∀ (d : Side) (id panel life score dropped : Nat) (ok : Bool) (reason : Reason) (fl ov : Bool)
    (pl : List Byte),
    pl = framePayload (.report (.hold d id ok reason panel life score fl ov dropped)) →
    id < 65536 → panel < 256 → life < 65536 → score < 2 ^ 32 → dropped < 256 →
    byteAt pl 0 = (if d = .a then 0 else 1) ∧ fieldAt pl 1 2 = id ∧
    byteAt pl 3 = (if ok = true then 0 else 1) ∧
    byteAt pl 4 = (match reason with
      | .completed => 0 | .released => 1 | .rollGap => 2 | .noHead => 3) ∧
    fieldAt pl 5 1 = panel ∧ fieldAt pl 6 2 = life ∧ fieldAt pl 8 4 = score ∧
    byteAt pl 12 = reportFlags false fl ov ∧ fieldAt pl 13 1 = dropped) ∧
  (∀ (d : Side) (id panel combo life dropped : Nat) (hit fl ov : Bool) (pl : List Byte),
    pl = framePayload (.report (.mine d id hit panel combo life fl ov dropped)) →
    id < 65536 → panel < 256 → combo < 65536 → life < 65536 → dropped < 256 →
    byteAt pl 0 = (if d = .a then 0 else 1) ∧ fieldAt pl 1 2 = id ∧
    byteAt pl 3 = (if hit = true then 0 else 1) ∧ fieldAt pl 4 1 = panel ∧ fieldAt pl 5 2 = combo ∧
    fieldAt pl 7 2 = life ∧ byteAt pl 9 = reportFlags false fl ov ∧ fieldAt pl 10 1 = dropped) ∧
  (∀ (d : Side) (panel dropped : Nat) (time : Int) (pl : List Byte),
    pl = framePayload (.report (.stray d panel time dropped)) →
    panel < 256 → dropped < 256 → -2147483648 ≤ time → time ≤ 2147483647 →
    byteAt pl 0 = (if d = .a then 0 else 1) ∧ fieldAt pl 1 1 = panel ∧ signedAt pl 2 = time ∧
    fieldAt pl 6 1 = dropped) ∧
  ∀ (t : Tally) (pl : List Byte), pl = framePayload (.report (.tally t)) →
    (byteAt pl 0 = (if t.stage = .a then 0 else 1) ∧ byteAt pl 1 = (if t.mode = .single then 0 else 1) ∧
      byteAt pl 2 = (if t.failed = true then 1 else 0) ∧
      byteAt pl 3 = (if t.overcount = true then 1 else 0)) ∧
    (t.counts.prime < 65536 → fieldAt pl 4 2 = t.counts.prime) ∧
    (t.counts.solid < 65536 → fieldAt pl 6 2 = t.counts.solid) ∧
    (t.counts.fair < 65536 → fieldAt pl 8 2 = t.counts.fair) ∧
    (t.counts.weak < 65536 → fieldAt pl 10 2 = t.counts.weak) ∧
    (t.counts.miss < 65536 → fieldAt pl 12 2 = t.counts.miss) ∧
    (t.counts.holdOk < 65536 → fieldAt pl 14 2 = t.counts.holdOk) ∧
    (t.counts.dropped < 65536 → fieldAt pl 16 2 = t.counts.dropped) ∧
    (t.counts.cut < 65536 → fieldAt pl 18 2 = t.counts.cut) ∧
    (t.counts.mineHit < 65536 → fieldAt pl 20 2 = t.counts.mineHit) ∧
    (t.counts.mineAvoided < 65536 → fieldAt pl 22 2 = t.counts.mineAvoided) ∧
    (t.counts.discarded < 65536 → fieldAt pl 24 2 = t.counts.discarded) ∧
    (t.counts.stray < 65536 → fieldAt pl 26 2 = t.counts.stray) ∧
    (t.score < 2 ^ 32 → fieldAt pl 28 4 = t.score) ∧ (t.earned < 2 ^ 32 → fieldAt pl 32 4 = t.earned) ∧
    (t.judged < 2 ^ 32 → fieldAt pl 36 4 = t.judged) ∧
    (t.maxCombo < 65536 → fieldAt pl 40 2 = t.maxCombo) ∧
    (t.life < 65536 → fieldAt pl 42 2 = t.life) ∧
    (-2147483648 ≤ t.meanOffset → t.meanOffset ≤ 2147483647 → signedAt pl 44 = t.meanOffset) ∧
    (t.graded < 65536 → fieldAt pl 48 2 = t.graded) ∧
    (t.droppedBefore < 256 → fieldAt pl 50 1 = t.droppedBefore)

/-- The check value (12.2, R174). It starts at 0; each byte is combined with it by exclusive-or, and it is
then shifted left eight times, combined with 0x07 whenever a 1 is shifted out. It misses no change of one
byte, and a string with its check appended checks to 0. -/
def Obligations.CheckCatchesByteErrors : Prop :=
  crc8 [] = 0 ∧
  (∀ (bs : List Byte) (b : Byte), crc8 (bs ++ [b]) =
    (fun r : Byte => if r.getLsbD 7 = true then (r <<< 1) ^^^ 0x07 else r <<< 1)^[8] (crc8 bs ^^^ b)) ∧
  (∀ (pre post : List Byte) (a b : Byte), a ≠ b → crc8 (pre ++ a :: post) ≠ crc8 (pre ++ b :: post)) ∧
  ∀ bs : List Byte, crc8 (bs ++ [crc8 bs]) = 0

/-- Fields read back as they were written: unsigned ones of any width, signed ones of 4 bytes (R173). -/
def Obligations.FieldsReadBack : Prop :=
  (∀ (k n : Nat) (before after : List Byte), n < 256 ^ k →
    fieldAt (before ++ leBytes k n ++ after) before.length k = n) ∧
  ∀ (i : Int) (before after : List Byte), -2147483648 ≤ i → i ≤ 2147483647 →
    signedAt (before ++ leSigned i ++ after) before.length = i

/-! ### Receiving (10.2) -/

/-- Characters and frames (R155 to R157). A character is good when its stop bit is high and its parity
even; with a high stop bit and odd parity it has a parity error, with a low stop bit and even parity a
framing error, and with both one of the two, which is left open (log 4). The characters of a whole frame
hold no fault; a wrong CHECK, a LEN above 60 and the first bad character are found, each with the last time
after the break capture at which it can be: the completion limit in force at it. For LEN and CHECK, whose
stop bits the limits name, a low stop bit that has ended by the limit is found at the line's return high,
before the low period it belongs to lasts 13 bit times (log 3). -/
def Obligations.FrameFaultsFound : Prop :=
  (∀ (d : Byte) (p st : Bool) (ones : Nat), ones = (((List.range 8).map d.getLsbD) ++ [p]).count true →
    (charFault ⟨d, p, st⟩ = none ↔ st = true ∧ ones % 2 = 0) ∧
    (st = true → ones % 2 = 1 → charFault ⟨d, p, st⟩ = some .parity) ∧
    (st = false → ones % 2 = 0 → charFault ⟨d, p, st⟩ = some .framing) ∧
    (st = false → ones % 2 = 1 →
      charFault ⟨d, p, st⟩ = some .parity ∨ charFault ⟨d, p, st⟩ = some .framing)) ∧
  (∀ (k : Byte) (pl : List Byte) (x : Byte), pl.length ≤ 60 →
    frameFaultOf (((k :: BitVec.ofNat 8 pl.length :: pl) ++ [x]).map sentChar) =
      if x = crc8 (k :: BitVec.ofNat 8 pl.length :: pl) then none
      else some (.check, (pl.length + 3) * 17)) ∧
  (∀ (k l : Byte) (rest : List RxChar), 60 < l.toNat →
    frameFaultOf (sentChar k :: sentChar l :: rest) = some (.oversize, 51)) ∧
  (∀ (c : RxChar) (f : LinkFault) (rest : List RxChar) (k l : Byte) (got : List Byte) (low late : Nat),
    charFault c = some f →
    low = ((c.stop :: c.parity :: (List.range 8).reverse.map c.data.getLsbD ++ [false]).takeWhile
      (· == false)).length →
    late = (if c.stop = true then 0 else 12 - low) →
    frameFaultOf (c :: rest) = some (f, 51) ∧
    frameFaultOf (sentChar k :: c :: rest) = some (f, 51 + late) ∧
    (l.toNat ≤ 60 → got.length < l.toNat →
      frameFaultOf (sentChar k :: sentChar l :: got.map sentChar ++ c :: rest) =
        some (f, (l.toNat + 3) * 17)) ∧
    (l.toNat ≤ 60 → got.length = l.toNat →
      frameFaultOf (sentChar k :: sentChar l :: got.map sentChar ++ c :: rest) =
        some (f, (l.toNat + 3) * 17 + late)))

/-- LRX_BREAK and FRAME_BREAK_CAPTURE (R2, R155, R158): a break enters BREAK from every state, truncating a
partial frame; its end opens a partial frame with its capture. The line was high at that capture, so a
break sooner than 13 bit times after it only lets time pass (the model's choice, logs 2 and 15), and so does
a FRAME_BREAK_CAPTURE outside BREAK (log 2). -/
def Obligations.BreakOpensFrame : Prop :=
  ∀ (s : State) (dt : Nat) (t : LocalTime), Reaches s dt t →
    (s.link.receiver = .waiting ∨ s.link.receiver = .inBreak →
      exec (.lrxBreak dt) s =
        .next { s with localTime := t, link := { s.link with receiver := .inBreak } }) ∧
    (∀ f, s.link.receiver = .receiving f → elapsed f.capture t < 13 →
      exec (.lrxBreak dt) s = .next { s with localTime := t }) ∧
    (∀ f, s.link.receiver = .receiving f → 13 ≤ elapsed f.capture t →
      exec (.lrxBreak dt) s = .next { s with
        localTime := t
        link := ({ s.link with
          receiver := .inBreak
          errors := { s.link.errors with truncated := min 65535 (s.link.errors.truncated + 1) } } : Link).raise
            .linkError none 0 6 }) ∧
    (s.link.receiver ≠ .inBreak →
      exec (.frameBreakCapture dt) s = .next { s with localTime := t }) ∧
    (s.link.receiver = .inBreak →
      exec (.frameBreakCapture dt) s =
        .next { s with localTime := t, link := { s.link with receiver := .receiving ⟨t, none, none, []⟩ } })

/-- FRAME_FAULT and FRAME_TIMEOUT (R156, R157): the partial frame is discarded with its fault counted and
LINK_ERROR raised, at its first fault while that can be found (frameFaultOf, stated above), or at the
completion limit with fewer bytes than a frame. Each fault has its own count and its code 1 to 6. Both only
let time pass outside RECEIVING; so does a FRAME_FAULT whose characters hold no fault or after the last time
it can be found, and a FRAME_TIMEOUT away from the limit of its bytes (the model's choice, log 2). -/
def Obligations.FaultDiscardsFrame : Prop :=
  (∀ (s : State) (dt : Nat) (t : LocalTime), Reaches s dt t →
    (∀ chars : List RxChar, (¬ ∃ c f limit, s.link.receiver.capture? = some c ∧
        frameFaultOf chars = some (f, limit) ∧ elapsed c t ≤ limit) →
      exec (.frameFault dt chars) s = .next { s with localTime := t }) ∧
    ∀ got : List Byte, (¬ ∃ c limit, s.link.receiver.capture? = some c ∧ elapsed c t = limit ∧
        (got.length ≤ 1 ∧ limit = 51 ∨
          ∃ k l rest, got = k :: l :: rest ∧ l.toNat ≤ 60 ∧ rest.length ≤ l.toNat ∧
            limit = (l.toNat + 3) * 17)) →
      exec (.frameTimeout dt got) s = .next { s with localTime := t }) ∧
  (∀ (s : State) (dt : Nat) (t c : LocalTime) (chars : List RxChar) (f : LinkFault) (limit : Nat)
    (e x : ErrorCounts) (code : Int),
    Reaches s dt t → s.link.receiver.capture? = some c → frameFaultOf chars = some (f, limit) →
    elapsed c t ≤ limit → e = s.link.errors →
    (x, code) = (match f with
      | .parity => ({ e with parity := min 65535 (e.parity + 1) }, 1)
      | .framing => ({ e with framing := min 65535 (e.framing + 1) }, 2)
      | .check => ({ e with check := min 65535 (e.check + 1) }, 3)
      | .oversize => ({ e with oversize := min 65535 (e.oversize + 1) }, 4)
      | .timeout => ({ e with timeout := min 65535 (e.timeout + 1) }, 5)
      | .truncated => ({ e with truncated := min 65535 (e.truncated + 1) }, 6)) →
    exec (.frameFault dt chars) s = .next { s with
      localTime := t
      link := ({ s.link with receiver := .waiting, errors := x } : Link).raise
        .linkError none 0 code }) ∧
  ∀ (s : State) (dt : Nat) (t c : LocalTime) (got : List Byte) (limit : Nat),
    Reaches s dt t → s.link.receiver.capture? = some c →
    (got.length ≤ 1 ∧ limit = 51 ∨
      ∃ k l rest, got = k :: l :: rest ∧ l.toNat ≤ 60 ∧ rest.length ≤ l.toNat ∧
        limit = (l.toNat + 3) * 17) →
    elapsed c t = limit →
    exec (.frameTimeout dt got) s = .next { s with
      localTime := t
      link := ({ s.link with
        receiver := .waiting
        errors := { s.link.errors with timeout := min 65535 (s.link.errors.timeout + 1) } } : Link).raise
          .linkError none 0 5 }

/-! ### Dispatch (10.3) -/

/-- Tests 1 and 2 of R159 on every request of the catalogue and on a frame of an unknown kind: discarded
while a reset is pending; shed, with the shed count and REQUEST_SHED, when the reply queue holds 4
replies or more (R161). A frame that does not complete is no request (R155, R156): with the receiver in
WAITING or BREAK, after the completion limit, or with a LEN above 60, the command only lets time pass, and
so does an unknown kind that is a request code (the model's choice, log 2). -/
def Obligations.FramesDiscardedOrShed : Prop :=
  (∀ (i : Instr) (kind : Byte) (dt : Nat) (pl : List Byte) (s : State) (t : LocalTime),
    ((∃ f, requestOf i = some (f, dt, pl)) ∨ i = .unknownKind dt kind pl) → Reaches s dt t →
    s.link.receiver = .waiting ∨ s.link.receiver = .inBreak ∨
      (∃ c, s.link.receiver.capture? = some c ∧ (pl.length + 3) * 17 < elapsed c t) ∨
      60 < pl.length →
    exec i s = .next { s with localTime := t }) ∧
  (∀ (kind : Byte) (dt : Nat) (pl : List Byte) (s : State) (t : LocalTime), Reaches s dt t →
    requestCodes.contains kind = true →
    exec (.unknownKind dt kind pl) s = .next { s with localTime := t }) ∧
  ∀ (i : Instr) (kind : Byte) (dt : Nat) (pl : List Byte) (s : State) (c : LocalTime),
    ((∃ f, requestOf i = some (f, dt, pl) ∧ kind = f.kind) ∨
      (i = .unknownKind dt kind pl ∧ requestCodes.contains kind = false)) →
    Completes s dt pl.length c →
    (s.link.resetPending = true → exec i s = .next (s.arrived dt)) ∧
    (s.link.resetPending = false → 4 ≤ s.link.replies.length →
      exec i s = .next { s.arrived dt with
        link := ({ s.link with
          receiver := .waiting
          errors := { s.link.errors with shed := min 65535 (s.link.errors.shed + 1) } } : Link).raise
            .requestShed none 0 kind.toNat })

/-- Tests 4 to 6 of R159 on every request: a length the catalogue does not allow, a bus or stage byte above
1, and stage B named while stage A is open in doubles are refused in that order. -/
def Obligations.RequestsCheckedInOrder : Prop :=
  ∀ (i : Instr) (f : RequestForm) (dt : Nat) (pl : List Byte) (s : State) (c : LocalTime),
    requestOf i = some (f, dt, pl) → Dispatches s dt pl.length c →
    (pl.length ∉ f.lens →
      exec i s = .next ((s.arrived dt).reply (.refused f.kind 2 (BitVec.ofNat 8 pl.length)))) ∧
    (pl.length ∈ f.lens → f.first ≠ .none → 1 < (byteAt pl 0).toNat →
      exec i s = .next ((s.arrived dt).reply (.refused f.kind 3 0xFF))) ∧
    (pl.length ∈ f.lens → f.first = .stage → byteAt pl 0 = 1 → s.openDoubles = true →
      exec i s = .next ((s.arrived dt).reply (.refused f.kind 5 (stateCode s.stageA.state))))

/-- UNKNOWN_KIND (test 3 of R159): a good frame whose KIND is not a request code is refused with detail
0. -/
def Obligations.UnknownKindRefused : Prop :=
  ∀ (kind : Byte) (dt : Nat) (pl : List Byte) (s : State) (c : LocalTime),
    (∀ k ∈ ([0x01, 0x02, 0x03, 0x04, 0x10, 0x11, 0x12, 0x13, 0x14, 0x20, 0x21, 0x22, 0x23, 0x24, 0x30,
      0x31, 0x32, 0x33, 0x34, 0x35, 0x40, 0x41] : List Byte), kind ≠ k) →
    Dispatches s dt pl.length c →
    exec (.unknownKind dt kind pl) s = .next ((s.arrived dt).reply (.refused kind 1 0))

/-! ### Link requests (10.7) -/

/-- IDENT answers the part's figures in every state (R168). -/
def Obligations.IdentAnswers : Prop :=
  ∀ (dt : Nat) (s : State) (c : LocalTime), Dispatches s dt 0 c →
    exec (.ident dt []) s = .next ((s.arrived dt).reply
      (.ack 0x01 (leBytes 2 0x2416 ++ leBytes 1 1 ++ leBytes 1 2 ++ leBytes 1 9 ++ leBytes 2 192 ++
        leBytes 1 32)))

/-- RESET_PART queues its ACK and sets the reset-pending flag (R171). -/
def Obligations.ResetPartQueuesAck : Prop :=
  ∀ (dt : Nat) (s : State) (c : LocalTime), Dispatches s dt 0 c →
    exec (.resetPart dt []) s = .next { s.arrived dt with
      link := { s.link with
        receiver := .waiting, replies := s.link.replies ++ [.ack 0x02 []], resetPending := true } }

/-- LINK_STATUS answers the seven counts as they stand and clears them; a LINK_STATUS that is shed clears
nothing and increases the shed count (R169). -/
def Obligations.LinkStatusReadsAndClears : Prop :=
  (∀ (dt : Nat) (s : State) (c : LocalTime), Dispatches s dt 0 c →
    exec (.linkStatus dt []) s = .next { s.arrived dt with
      link := { s.link with
        receiver := .waiting
        errors := ⟨0, 0, 0, 0, 0, 0, 0⟩
        replies := s.link.replies ++ [.ack 0x03
          (leBytes 2 s.link.errors.parity ++ leBytes 2 s.link.errors.framing ++
            leBytes 2 s.link.errors.check ++ leBytes 2 s.link.errors.oversize ++
            leBytes 2 s.link.errors.timeout ++ leBytes 2 s.link.errors.truncated ++
            leBytes 2 s.link.errors.shed)] } }) ∧
  ∀ (dt : Nat) (s : State) (c : LocalTime), Completes s dt 0 c → s.link.resetPending = false →
    4 ≤ s.link.replies.length → ∃ t, exec (.linkStatus dt []) s = .next t ∧
      t.link.errors = { s.link.errors with shed := min 65535 (s.link.errors.shed + 1) } ∧
      t.link.replies = s.link.replies

/-- NOTICE_MASK: bits 0 to 11 become the mask, bits 12 to 15 are taken as zero, the ACK carries the mask
taken, a masked kind's raise is not taken, and the mask after a device reset is 0x0100 (R170). -/
def Obligations.NoticeMaskStored : Prop :=
  (∀ (dt : Nat) (lo hi : Byte) (s : State) (c : LocalTime), Dispatches s dt 2 c →
    exec (.noticeMask dt [lo, hi]) s = .next { s.arrived dt with
      link := { s.link with
        receiver := .waiting
        mask := BitVec.ofNat 12 (lo.toNat + 256 * hi.toNat)
        replies := s.link.replies ++ [.ack 0x04 [lo, hi &&& 0x0F]] } }) ∧
  (∀ (l : Link) (k : NoticeKind) (src : Option Side) (ps : BusSet) (x : Int),
    l.mask.getLsbD (noticeCode k) = true → l.raise k src ps x = l) ∧
  (∀ s : State, ∃ t, exec .deviceReset s = .next t ∧ t.link.mask = 0x0100 ∧
    ∀ k : NoticeKind, t.link.mask.getLsbD (noticeCode k) = true ↔ k = .scanLate)

/-! ### The chart clock (chapter 1) -/

/-- The update of a running clock and of a stopped one, and the range clamp (R5 to R7): over `d` µs chart
time gains `d` and the pending correction within the allowance; above 2,000,000,000 it is clamped with the
excess reported and the correction dropped, below −60,000,000 it is clamped. -/
def Obligations.ClockUpdateSlews : Prop :=
  ∀ (c : Clock) (t : LocalTime) (d a : Nat) (step x : Int), d = elapsed c.lastUpdate t →
    a = d * c.slewLimit / 1000000 → step = max (-(a : Int)) (min (a : Int) c.correction) →
    x = c.chart + d + step →
    (c.running = false → c.update t = ({ c with lastUpdate := t }, none)) ∧
    (c.running = true → 2000000000 < x →
      c.update t =
        ({ c with chart := 2000000000, correction := 0, lastUpdate := t }, some (x - 2000000000))) ∧
    (c.running = true → x < -60000000 →
      c.update t =
        ({ c with chart := -60000000, correction := c.correction - step, lastUpdate := t }, none)) ∧
    (c.running = true → -60000000 ≤ x → x ≤ 2000000000 →
      c.update t = ({ c with chart := x, correction := c.correction - step, lastUpdate := t }, none))

/-- CLOCK_START (R13): refused while the clock runs or with a position outside the chart range; taken, the
clock runs from the position plus the time since the break capture, clamped, and every stage in STANDBY
enters PLAYING (R63). -/
def Obligations.ClockStartRuns : Prop :=
  ∀ (dt : Nat) (s : State) (c t : LocalTime) (p x : Int), Dispatches s dt 4 c → t = later s.localTime dt →
    -2147483648 ≤ p → p ≤ 2147483647 → x = p + elapsed c t →
    (s.clock.running = true →
      exec (.clockStart dt (leSigned p)) s = .next ((s.arrived dt).reply (.refused 0x10 4 0))) ∧
    (s.clock.running = false → (p < -60000000 ∨ 2000000000 < p) →
      exec (.clockStart dt (leSigned p)) s = .next ((s.arrived dt).reply (.refused 0x10 3 0))) ∧
    (s.clock.running = false → -60000000 ≤ p → p ≤ 2000000000 →
      exec (.clockStart dt (leSigned p)) s = .next (State.reply { s.arrived dt with
        clock := { s.clock with
          running := true, chart := min 2000000000 x, lastUpdate := t, correction := 0, lastSync := t,
          silenceNotified := false, housekeeping := some (later t 1000000) }
        stageA := if s.stageA.state = .standby then { s.stageA with state := .playing } else s.stageA
        stageB := if s.stageB.state = .standby then { s.stageB with state := .playing } else s.stageB
        link := if 2000000000 < x then
            (s.arrived dt).link.raise .clockLimit none 0 (x - 2000000000)
          else (s.arrived dt).link } (.ack 0x10 (leSigned (min 2000000000 x)))))

/-- CLOCK_STOP (R14): refused BUSY with the code of a PLAYING stage; otherwise the clock updates and stands
still, its correction dropped and its housekeeping compare disarmed. -/
def Obligations.ClockStopHolds : Prop :=
  ∀ (dt : Nat) (s : State) (c t : LocalTime) (u : Clock × Option Int), Dispatches s dt 0 c →
    t = later s.localTime dt → u = s.clock.update t →
    (s.stageA.state = .playing →
      exec (.clockStop dt []) s = .next ((s.arrived dt).reply (.refused 0x11 4 0))) ∧
    (s.stageA.state ≠ .playing → s.stageB.state = .playing →
      exec (.clockStop dt []) s = .next ((s.arrived dt).reply (.refused 0x11 4 1))) ∧
    (s.stageA.state ≠ .playing → s.stageB.state ≠ .playing → s.clock.running = true →
      exec (.clockStop dt []) s = .next ((((s.arrived dt).storeClock u).setClock
        { u.1 with running := false, correction := 0, housekeeping := none }).reply
          (.ack 0x11 (leSigned u.1.chart)))) ∧
    (s.stageA.state ≠ .playing → s.stageB.state ≠ .playing → s.clock.running = false →
      exec (.clockStop dt []) s = .next (State.reply { s.arrived dt with
        clock := { s.clock with lastUpdate := t } } (.ack 0x11 (leSigned s.clock.chart))))

/-- SYNC (R10, R11): refused while the clock is stopped or with a position outside the chart range; taken,
the clock updates, the error is measured against the chart time at the break capture, and the clock jumps
by an error beyond the jump limit, with CLOCK_JUMP, or takes the error as its pending correction. -/
def Obligations.SyncFollowsPosition : Prop :=
  ∀ (dt : Nat) (s : State) (c t : LocalTime) (p e : Int) (u : Clock × Option Int), Dispatches s dt 4 c →
    t = later s.localTime dt → -2147483648 ≤ p → p ≤ 2147483647 → u = s.clock.update t →
    e = p - (u.1.chart - elapsed c t) →
    (s.clock.running = false →
      exec (.sync dt (leSigned p)) s = .next ((s.arrived dt).reply (.refused 0x12 4 0))) ∧
    (s.clock.running = true → (p < -60000000 ∨ 2000000000 < p) →
      exec (.sync dt (leSigned p)) s = .next ((s.arrived dt).reply (.refused 0x12 3 0))) ∧
    (s.clock.running = true → -60000000 ≤ p → p ≤ 2000000000 → e.natAbs ≤ u.1.jumpLimit →
      exec (.sync dt (leSigned p)) s = .next ((((s.arrived dt).storeClock u).setClock
        { u.1 with correction := e, lastSync := t, silenceNotified := false }).reply
          (.ack 0x12 (leSigned e ++ [0])))) ∧
    (s.clock.running = true → -60000000 ≤ p → p ≤ 2000000000 → u.1.jumpLimit < e.natAbs →
      u.1.chart + e ≤ 2000000000 →
      exec (.sync dt (leSigned p)) s = .next (((((s.arrived dt).storeClock u).setClock
        { u.1 with
          chart := max (-60000000) (u.1.chart + e), correction := 0, lastSync := t,
          silenceNotified := false }).raise .clockJump none 0 e).reply
            (.ack 0x12 (leSigned e ++ [1])))) ∧
    (s.clock.running = true → -60000000 ≤ p → p ≤ 2000000000 → u.1.jumpLimit < e.natAbs →
      2000000000 < u.1.chart + e →
      exec (.sync dt (leSigned p)) s = .next ((((((s.arrived dt).storeClock u).setClock
        { u.1 with
          chart := 2000000000, correction := 0, lastSync := t, silenceNotified := false }).raise
            .clockLimit none 0 (u.1.chart + e - 2000000000)).raise .clockJump none 0 e).reply
              (.ack 0x12 (leSigned e ++ [1]))))

/-- CLOCK_PARAMS (R15): the three values are clamped to their ranges, stored and answered, and the pending
correction is clamped to the new jump limit; nothing else changes. -/
def Obligations.ClockParamsClamped : Prop :=
  ∀ (dt : Nat) (s : State) (c : LocalTime) (slew jump silence j : Nat), Dispatches s dt 8 c →
    slew < 65536 → jump < 4294967296 → silence < 65536 → j = max 1000 (min 100000 jump) →
    exec (.clockParams dt (leBytes 2 slew ++ leBytes 4 jump ++ leBytes 2 silence)) s =
      .next (State.reply { s.arrived dt with
        clock := { s.clock with
          slewLimit := min 10000 slew
          jumpLimit := j
          silenceMs := max 100 (min 10000 silence)
          correction := max (-(j : Int)) (min (j : Int) s.clock.correction) } }
        (.ack 0x13 (leBytes 2 (min 10000 slew) ++ leBytes 4 j ++
          leBytes 2 (max 100 (min 10000 silence)))))

/-- CLOCK_READ (R16): the clock updates, and the ACK carries running, chart time, pending correction and
local time. -/
def Obligations.ClockReadAnswers : Prop :=
  ∀ (dt : Nat) (s : State) (c t : LocalTime) (u : Clock × Option Int), Dispatches s dt 0 c →
    t = later s.localTime dt → u = s.clock.update t →
    exec (.clockRead dt []) s = .next (((s.arrived dt).storeClock u).reply
      (.ack 0x14 ((if s.clock.running then [1] else [0]) ++ leSigned u.1.chart ++
        leSigned u.1.correction ++ leBytes 4 t.toNat)))

/-- HOUSEKEEPING (R17, R18): when the compare fires the clock updates, the compare is re-armed 1 s later,
an age of the last SYNC above 15 s is held at 15 s, and a sync silence is notified once while a stage is
PLAYING. A HOUSEKEEPING at any other time only lets time pass (the model's choice, log 2). -/
def Obligations.HousekeepingEvent : Prop :=
  ∀ (dt : Nat) (s : State) (t ls : LocalTime) (u : Clock × Option Int), Reaches s dt t →
    u = s.clock.update t →
    ls = (if 15000000 < elapsed u.1.lastSync t then t - 15000000 else u.1.lastSync) →
    (s.clock.housekeeping ≠ some t → exec (.housekeeping dt) s = .next { s with localTime := t }) ∧
    (s.clock.housekeeping = some t →
      ((s.stageA.state = .playing ∨ s.stageB.state = .playing) ∧
        u.1.silenceMs * 1000 < elapsed ls t ∧ u.1.silenceNotified = false) →
      exec (.housekeeping dt) s = .next (((State.storeClock { s with localTime := t } u).setClock
        { u.1 with
          housekeeping := some (later t 1000000), lastSync := ls, silenceNotified := true }).raise
            .syncStale none 0 (elapsed ls t))) ∧
    (s.clock.housekeeping = some t →
      ¬ ((s.stageA.state = .playing ∨ s.stageB.state = .playing) ∧
        u.1.silenceMs * 1000 < elapsed ls t ∧ u.1.silenceNotified = false) →
      exec (.housekeeping dt) s = .next ((State.storeClock { s with localTime := t } u).setClock
        { u.1 with housekeeping := some (later t 1000000), lastSync := ls }))

/-! ### Bus and panel requests (2.7, 3.6) -/

/-- BUS_CONFIG (R35): a period code above 2 is refused; otherwise the three values, the retry count clamped
to 2 and the enable set cut to nine bits, become the pending settings of the bus and are answered. -/
def Obligations.BusConfigPends : Prop :=
  ∀ (dt : Nat) (s : State) (c : LocalTime) (d : Side) (per ret lo hi : Byte) (x : BusSettings),
    Dispatches s dt 5 c → x.period.val = per.toNat → x.retries.val = min 2 ret.toNat →
    x.enable = BitVec.ofNat 9 (lo.toNat + 256 * hi.toNat) →
    exec (.busConfig dt [sideCode d, per, ret, lo, hi]) s =
      .next (((s.arrived dt).setBus d { s.bus d with pendingSettings := some x }).reply
        (.ack 0x20 [per, BitVec.ofNat 8 (min 2 ret.toNat), lo, hi &&& 1])) ∧
    ∀ code : Byte, 2 < code.toNat →
      exec (.busConfig dt [sideCode d, code, ret, lo, hi]) s =
        .next ((s.arrived dt).reply (.refused 0x20 3 0))

/-- BUS_RESET (R37, R38) on a bus that is DOWN, on one with no scan in flight, and on one with a scan:
the controller finishes the break or character it is sending, or stops at once. A further BUS_RESET while
it finishes restarts the schedule alone. What counts as sending is the model's choice where two pieces
meet (log 10). -/
def Obligations.BusResetByState : Prop :=
  (∀ (dt : Nat) (s : State) (c t : LocalTime) (d : Side) (b r : BusCtl) (k : Completion),
    Dispatches s dt 1 c → t = later s.localTime dt → b = s.bus d →
    k = { kind := .reset false, number := b.scanNumber, capture := b.lastCapture, chart := b.lastChart,
          enable := b.settings.enable, outcomes := Vector.replicate 9 none } →
    r = { b with waiting := false, nextStrobe := later t (1000 * 2 ^ b.settings.period.val) } →
    (b.state = .down → exec (.busReset dt [sideCode d]) s =
      .next (((s.arrived dt).takeCompletion d k).reply (.ack 0x21 []))) ∧
    (b.state = .up → b.scan = none → exec (.busReset dt [sideCode d]) s =
      .next ((((s.arrived dt).setBus d r).takeCompletion d k).reply (.ack 0x21 []))) ∧
    (∀ scan e, b.state = .up → b.scan = some scan → b.finishing = none → b.sendingUntil t = some e →
      exec (.busReset dt [sideCode d]) s =
        .next (((s.arrived dt).setBus d { r with finishing := some e }).reply (.ack 0x21 []))) ∧
    (∀ scan, b.state = .up → b.scan = some scan → b.finishing = none → b.sendingUntil t = none →
      exec (.busReset dt [sideCode d]) s =
        .next ((((s.arrived dt).setBus d
          { r.readBack t with scan := none, phase := .quiet t, finishing := none }).takeCompletion d
            { kind := .reset true, number := scan.number, capture := scan.capture.getD 0,
              chart := scan.chart, enable := scan.enable,
              outcomes := Vector.replicate 9 none }).reply (.ack 0x21 []))) ∧
    (∀ scan e, b.state = .up → b.scan = some scan → b.finishing = some e →
      exec (.busReset dt [sideCode d]) s =
        .next (((s.arrived dt).setBus d r).reply (.ack 0x21 [])))) ∧
  ∀ (b : BusCtl) (t e : LocalTime), b.sendingUntil t = some e ↔
    (∃ x, b.phase = .strobe x false ∧ e = later x 13) ∨
    (∃ x, b.phase = .strobe x true ∧ 14 ≤ elapsed x t ∧ elapsed x t ≤ 25 ∧ e = later x 25) ∨
    (∃ h p l, b.phase = .poll h p l ∧ elapsed h t < 11 ∧ e = later h 11) ∨
    (∃ h p l, b.phase = .poll h p l ∧ 11 ≤ elapsed h t ∧ elapsed h t < 22 ∧ e = later h 22)

/-- PANEL_THRESHOLDS (R54): the pair is refused unless P is 1 to 1023 and Q is below it; taken, it replaces
the thresholds of the panels of the set, and nothing else. -/
def Obligations.PanelThresholdsStored : Prop :=
  ∀ (dt : Nat) (s : State) (c : LocalTime) (d : Side) (lo hi : Byte) (p q : Nat), Dispatches s dt 7 c →
    p < 65536 → q < 65536 →
    (¬ (1 ≤ p ∧ p ≤ 1023 ∧ q < p) →
      exec (.panelThresholds dt ([sideCode d, lo, hi] ++ leBytes 2 p ++ leBytes 2 q)) s =
        .next ((s.arrived dt).reply (.refused 0x22 3 0))) ∧
    (1 ≤ p → p ≤ 1023 → q < p → ∃ v : Vector Panel 9,
      exec (.panelThresholds dt ([sideCode d, lo, hi] ++ leBytes 2 p ++ leBytes 2 q)) s =
        .next (((s.arrived dt).setPanels d v).reply (.ack 0x22 [])) ∧
      ∀ i : Fin 9, v[i] =
        if (BitVec.ofNat 16 (lo.toNat + 256 * hi.toNat)).getLsbD i.val = true then
          { (s.panels d)[i] with pressAt := p, releaseAt := q }
        else (s.panels d)[i])

/-- PANEL_READ (R56) answers the bus state and each panel's reading, baseline and flags; STUCK_LIMIT (R55)
clamps its limit to 31 to 255 s, stores it and answers it. -/
def Obligations.PanelReadAndStuckLimit : Prop :=
  (∀ (dt : Nat) (s : State) (c : LocalTime) (d : Side), Dispatches s dt 1 c →
    exec (.panelRead dt [sideCode d]) s = .next ((s.arrived dt).reply (.ack 0x23
      ((if (s.bus d).state = .up then ([0] : List Byte) else [1]) ++ busPanels.flatMap fun i =>
        leBytes 2 ((s.panels d)[i].reading) ++ leBytes 2 ((s.panels d)[i].baseline.getD 0) ++
          [panelFlags (s.panels d)[i]])))) ∧
  (∀ p : Panel, (panelFlags p).getLsbD 0 = p.pressed ∧ (panelFlags p).getLsbD 3 = p.baseline.isSome ∧
    (panelFlags p >>> 1) &&& 3 =
      (match p.status with | .online => 0 | .offline => 1 | .disabled => 2) ∧
    panelFlags p >>> 4 = 0) ∧
  ∀ (dt : Nat) (s : State) (c : LocalTime) (limit : Byte), Dispatches s dt 1 c →
    exec (.stuckLimit dt [limit]) s =
      .next (State.reply { s.arrived dt with stuckLimit := max 31 limit.toNat }
        (.ack 0x24 [BitVec.ofNat 8 (max 31 limit.toNat)]))

/-! ### Scans (2.3 to 2.6) -/

/-- The schedule of strobes (R22, R28, R29). A strobe takes the pending settings, the next scan number and a
fresh scan. At its compare on an idle bus it begins at S and S moves on by one period; with a scan in
flight it waits; a waiting strobe begins 2 bit times after the scan, S moves to the first whole step
after it, and SCAN_LATE gives its lateness. That it begins 2 bit times after a scan that left flight by a
break that did not end, too, is the model's choice (log 12). On a bus that is DOWN, with the waiting flag
the other way, or at any other time, both commands only let time pass (the model's choice, log 2). -/
def Obligations.StrobesKeepSchedule : Prop :=
  (∀ (dt : Nat) (s : State) (t : LocalTime) (d : Side) (b : BusCtl), Reaches s dt t → b = s.bus d →
    (b.state = .down ∨ b.waiting = true ∨ t ≠ b.nextStrobe →
      exec (.strobeCompare dt d) s = .next { s with localTime := t }) ∧
    (b.state = .down ∨ b.waiting = false ∨ b.scan ≠ none ∨
        (∀ since, b.phase = .quiet since → t ≠ later since 2) →
      exec (.lateStrobe dt d) s = .next { s with localTime := t })) ∧
  ∀ (dt k : Nat) (s : State) (t : LocalTime) (d : Side) (b x : BusCtl) (set : BusSettings),
    Reaches s dt t → b = s.bus d → set = b.pendingSettings.getD b.settings →
    1 ≤ k → elapsed b.nextStrobe t < k * (1000 * 2 ^ set.period.val) →
    (∀ j, 1 ≤ j → elapsed b.nextStrobe t < j * (1000 * 2 ^ set.period.val) → k ≤ j) →
    x = { b with
      settings := set, pendingSettings := none, scanNumber := b.scanNumber + 1,
      nextStrobe := later b.nextStrobe (k * (1000 * 2 ^ set.period.val)),
      scan := some
        { number := b.scanNumber + 1, capture := none, chart := none, enable := set.enable,
          retries := set.retries, next := nextPanel set.enable 0, attempts := 0,
          outcomes := Vector.replicate 9 none },
      waiting := false, phase := .strobe t false } →
    b.state = .up →
    (b.waiting = false → t = b.nextStrobe → b.scan = none →
      k = 1 ∧ exec (.strobeCompare dt d) s = .next (State.setBus { s with localTime := t } d x)) ∧
    (∀ scan, b.waiting = false → t = b.nextStrobe → b.scan = some scan →
      exec (.strobeCompare dt d) s =
        .next (State.setBus { s with localTime := t } d { b with waiting := true })) ∧
    (∀ since, b.waiting = true → b.phase = .quiet since → b.scan = none → t = later since 2 →
      exec (.lateStrobe dt d) s =
        .next ((State.setBus { s with localTime := t } d x).raise .scanLate (some d) 0
          (elapsed b.nextStrobe t)))

/-- The end of the strobe's break, 13 bit times after it began (R8, R22, R31). With the line high the
clock updates and the capture and strobe chart time are taken, and the line was last known high now; with
the line low the scan leaves flight with BUS_CONTENTION and no update, and the break is held for the
low-period measurement (R20, log 15). At any other time the command only lets time pass (the model's
choice, log 2). -/
def Obligations.StrobeCaptureTaken : Prop :=
  (∀ (dt : Nat) (s : State) (t : LocalTime) (d : Side) (high : Bool), Reaches s dt t →
    (∀ x, (s.bus d).phase = .strobe x false → t ≠ later x 13) →
    exec (.strobeCapture dt d high) s = .next { s with localTime := t }) ∧
  ∀ (dt : Nat) (s : State) (t x : LocalTime) (d : Side) (b : BusCtl) (u : Clock × Option Int)
    (chart : Option Int),
    Reaches s dt t → b = s.bus d → b.phase = .strobe x false → t = later x 13 → u = s.clock.update t →
    chart = (if s.clock.running = true then some u.1.chart else none) →
    exec (.strobeCapture dt d true) s =
      .next ((State.storeClock { s with localTime := t } u).setBus d { b with
        scan := b.scan.map fun scan => { scan with capture := some t, chart := chart }
        lastCapture := t
        lastChart := chart
        phase := .strobe x true
        lineHigh := t
        lowBreaks := [] }) ∧
    exec (.strobeCapture dt d false) s =
      .next ((State.setBus { s with localTime := t } d { b with
        scan := none, phase := .quiet t, lowBreaks := b.lowBreaks ++ [x] }).raise
          .busContention (some d) 0 b.scanNumber.toNat)

/-- The end of the STROBE character, and poll headers (R22, R23, R27, R146): with an empty enable set the
scan completes at b + 25; otherwise the first header begins 2 bit times later, and each header begins one
more attempt with the lamp byte of its instant. Panels are polled in increasing number. The bits sent have
been read back (BusCtl.readBack, stated with the stuck line). The bits: a strobe is a break of 13 bit
times, a mark and a character with the scan number; a header is two characters, the panel number 1 to 9
and the lamp byte. The controller drives the bit of the time elapsed since the transmission began, in whole
bit times (the model's choice, log 14), and releases the line otherwise. STROBE_SENT and POLL_HEADER at any
other time, or while a BUS_RESET finishes a character, only let time pass (the model's choice, log 2). -/
def Obligations.HeadersFollowStrobe : Prop :=
  (∀ (dt : Nat) (s : State) (t : LocalTime) (d : Side) (b : BusCtl), Reaches s dt t → b = s.bus d →
    (b.scan = none ∨ b.finishing ≠ none ∨ (∀ x, b.phase = .strobe x true → t ≠ later x 25) →
      exec (.strobeSent dt d) s = .next { s with localTime := t }) ∧
    (b.phase ≠ .gap t ∨ b.finishing ≠ none ∨ (∀ scan, b.scan = some scan → scan.next = none) →
      exec (.pollHeader dt d) s = .next { s with localTime := t })) ∧
  (∀ (dt : Nat) (s : State) (t x : LocalTime) (d : Side) (b : BusCtl) (scan : Scan),
    Reaches s dt t → b = s.bus d → b.phase = .strobe x true → b.scan = some scan → b.finishing = none →
    t = later x 25 →
    (scan.next = none →
      exec (.strobeSent dt d) s = .next ((State.setBus { s with localTime := t } d
        { b.readBack t with scan := none, phase := .quiet t, finishing := none }).takeCompletion d
          { kind := .normal, number := scan.number, capture := scan.capture.getD 0,
            chart := scan.chart, enable := scan.enable, outcomes := scan.outcomes })) ∧
    (∀ p, scan.next = some p → exec (.strobeSent dt d) s =
      .next (State.setBus { s with localTime := t } d
        { b.readBack t with phase := .gap (later t 2) }))) ∧
  (∀ (dt : Nat) (s : State) (t : LocalTime) (d : Side) (b : BusCtl) (scan : Scan) (p : Fin 9),
    Reaches s dt t → b = s.bus d → b.phase = .gap t → b.scan = some scan → b.finishing = none →
    scan.next = some p →
    exec (.pollHeader dt d) s = .next (State.setBus { s with localTime := t } d { b with
      scan := some { scan with attempts := scan.attempts + 1 }
      phase := .poll t p (lampByte (s.lamps.lamps d)[p] (s.panels d)[p].pressed t) })) ∧
  (∀ (e : BusSet) (k : Nat) (p : Fin 9), nextPanel e k = some p ↔
    k ≤ p.val ∧ e.getLsbD p.val = true ∧ ∀ q : Fin 9, k ≤ q.val → e.getLsbD q.val = true → p ≤ q) ∧
  (∀ n : Byte, strobeBits n = List.replicate 13 false ++ true :: charBits n) ∧
  (∀ (p : Fin 9) (addr lamp : Byte), addr.toNat = p.val + 1 →
    headerBits p lamp = charBits addr ++ charBits lamp) ∧
  ∀ (s : State) (d : Side) (x : LocalTime) (bits : List Bool),
    ((∃ ended, (s.bus d).phase = .strobe x ended ∧ bits = strobeBits (s.bus d).scanNumber) ∨
      ∃ p lamp, (s.bus d).phase = .poll x p lamp ∧ bits = headerBits p lamp) ∨
      (((∃ u, (s.bus d).phase = .quiet u) ∨ ∃ u, (s.bus d).phase = .gap u) ∧ bits = []) →
    (∀ bit, bits[elapsed x s.localTime]? = some bit → s.busReleased d = bit) ∧
    (bits.length ≤ elapsed x s.localTime → s.busReleased d = true)

/-- The end of an attempt (R24 to R27): at the third response character, within 80 bit times of the
header's end, or at that limit. It succeeds exactly when the three characters are sound, FORCE_H is below 4
and CHECK is right. A failed attempt is retried while attempts remain; then the panel has its outcome and
the next panel's header, or the completion, follows. A response that ends exactly at the limit counts
(the model's choice, log 13). A third character with a high stop bit shows the line high in the last bit
time (R20, log 15). A response that ends later than 80 bit times after the header's end does not count (R24),
and the command only lets time pass; so it does within the header or with no attempt under way, as does
RESPONSE_LIMIT away from the limit (the model's choice, log 2). -/
def Obligations.AttemptEnds : Prop :=
  (∀ (dt : Nat) (s : State) (t : LocalTime) (d : Side) (b : BusCtl), Reaches s dt t → b = s.bus d →
    (b.scan = none ∨ b.finishing ≠ none ∨
        (∀ h p lamp, b.phase = .poll h p lamp → elapsed h t ≤ 22 ∨ 102 < elapsed h t) →
      ∀ k l z : RxChar, exec (.pollResponse dt d k l z) s = .next { s with localTime := t }) ∧
    (b.scan = none ∨ b.finishing ≠ none ∨
        (∀ h p lamp, b.phase = .poll h p lamp → t ≠ later h 102) →
      exec (.responseLimit dt d) s = .next { s with localTime := t })) ∧
  (∀ (n : Byte) (a b k : RxChar) (r : Nat), responseReading n a b k = some r ↔
    charFault a = none ∧ charFault b = none ∧ charFault k = none ∧ a.data.toNat < 4 ∧
      k.data = crc8 [n, a.data, b.data] ∧ r = a.data.toNat * 256 + b.data.toNat) ∧
  ∀ (dt : Nat) (s : State) (t h : LocalTime) (d : Side) (b x : BusCtl) (scan : Scan) (p : Fin 9)
    (lamp : Byte) (i : Instr) (reading : Option Nat),
    Reaches s dt t → b = s.bus d → b.phase = .poll h p lamp → b.scan = some scan → b.finishing = none →
    ((∃ k l z, i = .pollResponse dt d k l z ∧ 22 < elapsed h t ∧ elapsed h t ≤ 102 ∧
        reading = responseReading scan.number k l z ∧
        x = (if z.stop = true then { b with lineHigh := t - 1, lowBreaks := [] } else b.readBack t)) ∨
      (i = .responseLimit dt d ∧ t = later h 102 ∧ reading = none ∧ x = b.readBack t)) →
    (reading = none → scan.attempts < 1 + scan.retries.val →
      exec i s = .next (State.setBus { s with localTime := t } d { x with phase := .gap (later t 2) })) ∧
    ∀ (o : PollOutcome) (v : Vector (Option PollOutcome) 9),
      ((∃ n, reading = some n ∧ o = .good n) ∨
        (reading = none ∧ 1 + scan.retries.val ≤ scan.attempts ∧ o = .failed)) →
      v = scan.outcomes.set p.val (some o) →
      (∀ q, nextPanel scan.enable (p.val + 1) = some q →
        exec i s = .next (State.setBus { s with localTime := t } d { x with
          scan := some { scan with outcomes := v, next := some q, attempts := 0 }
          phase := .gap (later t 2) })) ∧
      (nextPanel scan.enable (p.val + 1) = none →
        exec i s = .next ((State.setBus { s with localTime := t } d
          { x with scan := none, phase := .quiet t, finishing := none }).takeCompletion d
            { kind := .normal, number := scan.number, capture := scan.capture.getD 0,
              chart := scan.chart, enable := scan.enable, outcomes := v }))

/-- Contention (R20, R27, R30, R39): a bit sent high in the mark, the STROBE character or a header reads back
low. BUS_CONTENTION names the panel under way; panels polled keep their outcomes, every other enabled
panel is FAILED, and the scan completes as CONTENTION. Bits are counted in whole bit times (the model's
choice, log 14). Where no high bit of a scan is being sent, in the break, at a low bit, while listening, or
while a BUS_RESET finishes a character, the command only lets time pass (the model's choice, log 2). -/
def Obligations.ContentionCompletesScan : Prop :=
  (∀ (dt : Nat) (s : State) (t : LocalTime) (d : Side) (b : BusCtl), Reaches s dt t → b = s.bus d →
    b.scan = none ∨ b.finishing ≠ none ∨
      ((∀ x, b.phase = .strobe x true →
          elapsed x t < 13 ∨ (strobeBits b.scanNumber)[elapsed x t]? ≠ some true) ∧
        ∀ h p l, b.phase = .poll h p l → (headerBits p l)[elapsed h t]? ≠ some true) →
    exec (.contention dt d) s = .next { s with localTime := t }) ∧
  ∀ (dt : Nat) (s : State) (t : LocalTime) (d : Side) (b : BusCtl) (scan : Scan) (ps : BusSet)
    (v : Vector (Option PollOutcome) 9),
    Reaches s dt t → b = s.bus d → b.scan = some scan → b.finishing = none →
    ((∃ x, b.phase = .strobe x true ∧ 13 ≤ elapsed x t ∧
        (strobeBits b.scanNumber)[elapsed x t]? = some true ∧ ps = 0) ∨
      (∃ h p l, b.phase = .poll h p l ∧ (headerBits p l)[elapsed h t]? = some true ∧
        ∀ q : Fin 9, ps.getLsbD q.val = decide (q = p))) →
    (∀ q : Fin 9, v[q] = match scan.outcomes[q] with
      | some o => some o
      | none => if scan.enable.getLsbD q.val = true then some .failed else none) →
    exec (.contention dt d) s =
      .next (((State.raise { s with localTime := t } .busContention (some d) ps
        scan.number.toNat).setBus d
          { b.readBack t with scan := none, phase := .quiet t, finishing := none }).takeCompletion d
            { kind := .contention, number := scan.number, capture := scan.capture.getD 0,
              chart := scan.chart, enable := scan.enable, outcomes := v })

/-- A stuck line (R20, R32, R33). When the low period that began at `u` measures 31 bit times, a bus that
is UP goes DOWN with its probe armed 10,000 µs later, BUS_DOWN is raised, and the DOWN completion carries the
scan's capture when one is taken, else the last one. A shorter period, the controller's own break, and a bus
that is DOWN already, only let time pass (the model's choice, log 2). Time under own breaks is not counted,
and no low period began before the line last read high, as it did at every high bit sent and read back.
Taking the DOWN completion alone while a BUS_RESET finishes a character, or has let a break finish that did
not end, is the model's choice (log 11), and so is what is held of the line (log 15). -/
def Obligations.StuckLineGoesDown : Prop :=
  (∀ (dt : Nat) (s : State) (t u : LocalTime) (d : Side), Reaches s dt t → (s.bus d).state = .down →
    exec (.stuckLine dt ⟨d, u⟩) s = .next { s with localTime := t }) ∧
  (∀ (dt : Nat) (s : State) (t u : LocalTime) (d : Side) (b : BusCtl) (k : Completion),
    Reaches s dt t → b = s.bus d → b.state = .up →
    k.kind = .down → k.outcomes = Vector.replicate 9 none →
    ((∃ scan x, b.scan = some scan ∧ scan.capture = some x ∧ k.number = scan.number ∧ k.capture = x ∧
        k.chart = scan.chart ∧ k.enable = scan.enable) ∨
      ((∀ scan, b.scan = some scan → scan.capture = none) ∧ k.number = b.scanNumber ∧
        k.capture = b.lastCapture ∧ k.chart = b.lastChart ∧ k.enable = b.settings.enable)) →
    ((∀ x, b.phase ≠ .strobe x false) → b.stuckAt u t = true →
      exec (.stuckLine dt ⟨d, u⟩) s =
        .next (((State.setBus { s with localTime := t } d { b with
          scan := none, phase := .quiet t, finishing := none, state := .down, waiting := false,
          downSince := t, probe := some (later t 10000) }).raise .busDown (some d) 0
            b.scanNumber.toNat).takeCompletion d k)) ∧
    (b.stuckAt u t = false → exec (.stuckLine dt ⟨d, u⟩) s = .next { s with localTime := t }) ∧
    (∀ x, b.phase = .strobe x false → exec (.stuckLine dt ⟨d, u⟩) s = .next { s with localTime := t })) ∧
  (∀ (b c : BusCtl) (u t : LocalTime), c = b.readBack t → (b.stuckAt u t = true ↔
    elapsed u t ≤ elapsed c.lineHigh t ∧
    elapsed u t = 31 + (c.lowBreaks.map fun x =>
      min (elapsed u t) (elapsed x t) - (elapsed x t - 13)).sum)) ∧
  ∀ (b : BusCtl) (t : LocalTime),
    (∀ (x : LocalTime) (bits : List Bool),
      (b.phase = .strobe x true ∧ bits = strobeBits b.scanNumber ∨
        ∃ p l, b.phase = .poll x p l ∧ bits = headerBits p l) →
      (∀ i, bits[i]? = some true → i < elapsed x t →
        (∀ k, bits[k]? = some true → k < elapsed x t → k ≤ i) →
        b.readBack t = { b with lineHigh := later x i, lowBreaks := [] }) ∧
      ((∀ k, bits[k]? = some true → elapsed x t ≤ k) → b.readBack t = b)) ∧
    ((∀ x, b.phase ≠ .strobe x true) → (∀ x p l, b.phase ≠ .poll x p l) → b.readBack t = b)

/-- Recovery (R34): the down probe opens a watch of 13 bit times; a low line ends it and re-arms the probe
10,000 µs after its begin, the time of going DOWN kept within 2,000 s; a line high throughout brings the
bus UP, its schedule one period ahead and the line last known high then. Away from its compare, its watch or
the watch's end, each command only lets time pass (the model's choice, log 2). -/
def Obligations.ProbesRecoverBus : Prop :=
  (∀ (dt : Nat) (s : State) (t : LocalTime) (d : Side) (b : BusCtl), Reaches s dt t → b = s.bus d →
    (b.state = .up ∨ b.probe ≠ some t →
      exec (.downProbe dt d) s = .next { s with localTime := t }) ∧
    ((∀ p, b.watching = some p → 13 < elapsed p t) →
      exec (.probeLow dt d) s = .next { s with localTime := t }) ∧
    ((∀ p, b.watching = some p → t ≠ later p 13) →
      exec (.busUp dt d) s = .next { s with localTime := t })) ∧
  (∀ (dt : Nat) (s : State) (t : LocalTime) (d : Side) (b : BusCtl), Reaches s dt t → b = s.bus d →
    b.state = .down → b.probe = some t →
    exec (.downProbe dt d) s =
      .next (State.setBus { s with localTime := t } d { b with probe := none, watching := some t })) ∧
  ∀ (dt : Nat) (s : State) (t p : LocalTime) (d : Side) (b : BusCtl), Reaches s dt t → b = s.bus d →
    b.watching = some p →
    (elapsed p t ≤ 13 → exec (.probeLow dt d) s =
      .next (State.setBus { s with localTime := t } d { b with
        watching := none
        probe := some (later p 10000)
        downSince := if 2000000000 < elapsed b.downSince p then p - 2000000000 else b.downSince })) ∧
    (t = later p 13 → exec (.busUp dt d) s =
      .next ((State.setBus { s with localTime := t } d { b with
        waiting := false, nextStrobe := later t (1000 * 2 ^ b.settings.period.val), state := .up,
        watching := none, probe := none, phase := .quiet t, lineHigh := t, lowBreaks := [] }).raise
          .busUp (some d) 0
          (elapsed b.downSince t)))

/-- The end of what a BUS_RESET lets finish (R37, R39): the RESET completion, of the scan when it is still
in flight and without a scan when its break did not end. A mismatch in the character ends it early with
BUS_CONTENTION. That a mismatch is taken at the begin of its bit time is the model's choice (log 14), and so
are the instants that count as sending where two pieces meet (log 10). With nothing being finished, before
the break's release, away from the end, and for a mismatch where no high bit of the character is sent, the
command only lets time pass (the model's choice, log 2). -/
def Obligations.BusResetStops : Prop :=
  (∀ (dt : Nat) (s : State) (t : LocalTime) (d : Side) (b : BusCtl), Reaches s dt t → b = s.bus d →
    ((∃ x, b.phase = .strobe x false) ∨ b.finishing ≠ some t →
      exec (.busResetCompletion dt d false) s = .next { s with localTime := t }) ∧
    ((∃ x, b.phase = .strobe x false) ∨ b.bitAt t ≠ some true ∨
        (∀ e, b.finishing = some e → b.sendingUntil t ≠ some e) →
      exec (.busResetCompletion dt d true) s = .next { s with localTime := t })) ∧
  ∀ (dt : Nat) (s : State) (t e : LocalTime) (d : Side) (b r : BusCtl) (k : Completion),
    Reaches s dt t → b = s.bus d → b.finishing = some e → (∀ x, b.phase ≠ .strobe x false) →
    r = { b.readBack t with scan := none, phase := .quiet t, finishing := none } →
    k.outcomes = Vector.replicate 9 none →
    ((∃ scan, b.scan = some scan ∧ k.kind = .reset true ∧ k.number = scan.number ∧
        k.capture = scan.capture.getD 0 ∧ k.chart = scan.chart ∧ k.enable = scan.enable) ∨
      (b.scan = none ∧ k.kind = .reset false ∧ k.number = b.scanNumber ∧ k.capture = b.lastCapture ∧
        k.chart = b.lastChart ∧ k.enable = b.settings.enable)) →
    (t = e → exec (.busResetCompletion dt d false) s =
      .next ((State.setBus { s with localTime := t } d r).takeCompletion d k)) ∧
    (b.bitAt t = some true → b.sendingUntil t = some e →
      exec (.busResetCompletion dt d true) s =
        .next (((State.raise { s with localTime := t } .busContention (some d) b.attemptSet
          b.scanNumber.toNat).setBus d r).takeCompletion d k))

/-! ### Sensing (chapter 3) -/

/-- What an outcome or a completion does to one panel (R43 to R50): the first reading sets the baseline;
later readings press, release and adjust the baseline; a third miss takes an ONLINE panel OFFLINE, and an
OFFLINE one counts its misses to 3; a press beyond the stuck limit is re-zeroed, after a GOOD outcome and
after a FAILED one; disabling, DOWN and RESET release, a RESET without a scan with no edge (R38, R50); every
other panel is left as it is. -/
def Obligations.PanelTakesOutcome : Prop :=
  (∀ (limit : Nat) (c : Completion) (i : Fin 9) (p : Panel) (n : Nat),
    c.kind = .normal ∨ c.kind = .contention → c.enable.getLsbD i.val = true →
    c.outcomes[i] = some (.good n) →
    ((takePanel limit c i p).panel.status = .online ∧ (takePanel limit c i p).panel.reading = n ∧
      (takePanel limit c i p).panel.misses = 0 ∧
      (takePanel limit c i p).panel.pressAt = p.pressAt ∧
      (takePanel limit c i p).panel.releaseAt = p.releaseAt ∧
      (takePanel limit c i p).cameOnline = decide (p.status ≠ .online) ∧
      (takePanel limit c i p).wentOffline = false) ∧
    (p.baseline = none → (takePanel limit c i p).panel.baseline = some n ∧
      (takePanel limit c i p).panel.creep = 0 ∧ (takePanel limit c i p).panel.pressed = false ∧
      (takePanel limit c i p).edge = none ∧ (takePanel limit c i p).rezeroAge = none) ∧
    (∀ b, p.baseline = some b → p.pressed = false → p.pressAt ≤ n - b →
      (takePanel limit c i p).panel.pressed = true ∧ (takePanel limit c i p).edge = some .press ∧
      (takePanel limit c i p).panel.pressedSince = c.capture ∧
      (takePanel limit c i p).panel.creep = 0 ∧ (takePanel limit c i p).panel.baseline = some b ∧
      (takePanel limit c i p).rezeroAge = none) ∧
    (∀ b, p.baseline = some b → p.pressed = true → p.releaseAt < n - b →
      elapsed p.pressedSince c.capture ≤ limit * 1000000 →
      (takePanel limit c i p).panel.pressed = true ∧ (takePanel limit c i p).edge = none ∧
      (takePanel limit c i p).panel.pressedSince = p.pressedSince ∧
      (takePanel limit c i p).panel.creep = 0 ∧ (takePanel limit c i p).panel.baseline = some b ∧
      (takePanel limit c i p).rezeroAge = none) ∧
    (∀ b, p.baseline = some b → p.pressed = true → p.releaseAt < n - b →
      limit * 1000000 < elapsed p.pressedSince c.capture →
      (takePanel limit c i p).panel.pressed = false ∧
      (takePanel limit c i p).edge = some .release ∧
      (takePanel limit c i p).panel.creep = 0 ∧ (takePanel limit c i p).panel.baseline = some n ∧
      (takePanel limit c i p).rezeroAge = some (elapsed p.pressedSince c.capture)) ∧
    (∀ b cr, p.baseline = some b → cr = (if p.status = .disabled then 0 else p.creep) →
      (p.pressed = false ∧ n - b < p.pressAt ∨ p.pressed = true ∧ n - b ≤ p.releaseAt) →
      (takePanel limit c i p).panel.pressed = false ∧
      (takePanel limit c i p).edge = (if p.pressed = true then some .release else none) ∧
      (takePanel limit c i p).rezeroAge = none ∧
      ((takePanel limit c i p).panel.baseline, (takePanel limit c i p).panel.creep) =
        (if n < b then (some n, 0) else if n = b then (some b, 0)
          else if cr + 1 < 64 then (some b, cr + 1) else (some (b + 1), 0)))) ∧
  (∀ (limit : Nat) (c : Completion) (i : Fin 9) (p : Panel),
    c.kind = .normal ∨ c.kind = .contention → c.enable.getLsbD i.val = true →
    c.outcomes[i] = some .failed →
    (p.status = .online → 2 ≤ p.misses →
      takePanel limit c i p =
        { panel := { p with status := .offline, misses := 3, creep := 0, pressed := false },
          edge := if p.pressed = true then some .release else none,
          cameOnline := false, wentOffline := true, rezeroAge := none }) ∧
    (p.status = .online → p.misses < 2 →
      p.pressed = false ∨ elapsed p.pressedSince c.capture ≤ limit * 1000000 →
      takePanel limit c i p =
        { panel := { p with misses := p.misses + 1, creep := 0 }, edge := none,
          cameOnline := false, wentOffline := false, rezeroAge := none }) ∧
    (p.status = .online → p.misses < 2 → p.pressed = true →
      limit * 1000000 < elapsed p.pressedSince c.capture →
      takePanel limit c i p =
        { panel := { p with
            misses := p.misses + 1, creep := 0, baseline := some p.reading, pressed := false },
          edge := some .release, cameOnline := false, wentOffline := false,
          rezeroAge := some (elapsed p.pressedSince c.capture) }) ∧
    (p.status = .offline → p.pressed = false →
      takePanel limit c i p =
        { panel := { p with misses := min 3 (p.misses + 1), creep := 0 }, edge := none,
          cameOnline := false, wentOffline := false, rezeroAge := none }) ∧
    (p.status = .disabled → p.pressed = false →
      takePanel limit c i p =
        { panel := { p with status := .offline, misses := 1, creep := 0 }, edge := none,
          cameOnline := false, wentOffline := false, rezeroAge := none })) ∧
  (∀ (limit : Nat) (c : Completion) (i : Fin 9) (p : Panel) (st : LinkStatus) (edge : Option EdgeKind),
    ((((c.kind = .normal ∨ c.kind = .contention) ∧ c.enable.getLsbD i.val = false ∧
          p.status ≠ .disabled ∧ st = .disabled) ∨
        (c.kind = .down ∧ p.status = .online ∧ st = .offline) ∨
        (c.kind = .reset true ∧ p.status ≠ .disabled ∧ st = .offline)) ∧
      edge = (if p.pressed = true then some .release else none)) ∨
      (c.kind = .reset false ∧ p.status ≠ .disabled ∧ st = .offline ∧ edge = none) →
    takePanel limit c i p =
      { panel := { p with status := st, misses := 0, creep := 0, pressed := false }, edge := edge,
        cameOnline := false, wentOffline := false, rezeroAge := none }) ∧
  ∀ (limit : Nat) (c : Completion) (i : Fin 9) (p : Panel),
    (((c.kind = .normal ∨ c.kind = .contention) ∧ c.enable.getLsbD i.val = false ∧
        p.status = .disabled) ∨
      (c.kind = .down ∧ p.status ≠ .online) ∨
      (∃ w, c.kind = .reset w ∧ p.status = .disabled)) →
    takePanel limit c i p =
      { panel := p, edge := none, cameOnline := false, wentOffline := false, rezeroAge := none }

/-- A completion taken by a sensing unit (R27, R43, R51 to R53, R58, R92, R93, R103). Every panel of its bus
takes it; PANEL_OFFLINE, PANEL_ONLINE and PANEL_STUCK are raised in this order for the panels they concern;
the other bus's panels, the clock, the buses and the rest of the link stand. The record is judged by its
stage alone, only when that stage is PLAYING and the record has a chart time, on bus B in doubles with
stage panels 10 to 18; the flashes it asks for reach lamp control. Judging takes its parts in order:
releases and agreement, presses, passed heads, holds, mines, closure; a failed session is emptied. -/
def Obligations.CompletionReachesStage : Prop :=
  (∀ (s : State) (d e : Side) (k : Completion), e = (if s.openDoubles = true then .a else d) →
    (∀ p : Fin 9, ((s.takeCompletion d k).panels d)[p] =
      (takePanel s.stuckLimit k p (s.panels d)[p]).panel) ∧
    (∀ (off on stuck : BusSet) (age : Nat) (l1 l2 : Link),
      (∀ p : Fin 9, off.getLsbD p.val = (takePanel s.stuckLimit k p (s.panels d)[p]).wentOffline ∧
        on.getLsbD p.val = (takePanel s.stuckLimit k p (s.panels d)[p]).cameOnline ∧
        stuck.getLsbD p.val = (takePanel s.stuckLimit k p (s.panels d)[p]).rezeroAge.isSome ∧
        (takePanel s.stuckLimit k p (s.panels d)[p]).rezeroAge.getD 0 ≤ age) →
      (stuck ≠ 0 → ∃ p : Fin 9, (takePanel s.stuckLimit k p (s.panels d)[p]).rezeroAge = some age) →
      l1 = (if off = 0 then s.link else s.link.raise .panelOffline (some d) off k.number.toNat) →
      l2 = (if on = 0 then l1 else l1.raise .panelOnline (some d) on k.number.toNat) →
      (s.takeCompletion d k).link =
        if stuck = 0 then l2 else l2.raise .panelStuck (some d) stuck age) ∧
    (s.takeCompletion d k).panels (otherSide d) = s.panels (otherSide d) ∧
    (s.takeCompletion d k).clock = s.clock ∧ (∀ x, (s.takeCompletion d k).bus x = s.bus x) ∧
    (s.takeCompletion d k).localTime = s.localTime ∧ (s.takeCompletion d k).stuckLimit = s.stuckLimit ∧
    (s.takeCompletion d k).link.replies = s.link.replies ∧
    (s.takeCompletion d k).link.errors = s.link.errors ∧
    (s.takeCompletion d k).link.transmitter = s.link.transmitter ∧
    (s.takeCompletion d k).stage (otherSide e) = s.stage (otherSide e) ∧
    ((s.stage e).state ≠ .playing ∨ k.chart = none ∨ k.kind = .reset false →
      (s.takeCompletion d k).stage e = s.stage e ∧ (s.takeCompletion d k).lamps = s.lamps) ∧
    (∀ (x : Int) (r : Stage × List FlashRequest) (number : Fin 9 → Fin 18) (own ps : StageSet),
      (s.stage e).state = .playing → k.chart = some x → k.kind ≠ .reset false →
      (∀ p : Fin 9, (number p).val = if s.openDoubles = true ∧ d = .b then p.val + 9 else p.val) →
      (∀ q : Fin 18, own.getLsbD q.val = true ↔ ∃ p, number p = q) →
      (∀ q : Fin 18, ps.getLsbD q.val = true ↔ ∃ p, number p = q ∧
        (takePanel s.stuckLimit k p (s.panels d)[p]).panel.pressed = true) →
      r = (s.stage e).judge
        { side := e, depth := s.reportDepth e, time := x + (s.stage e).inputOffset,
          capture := k.capture, bus := d, own := own, pressed := ps }
        (busPanels.filterMap fun p =>
          (takePanel s.stuckLimit k p (s.panels d)[p]).edge.map fun f => (number p, f)) →
      (s.takeCompletion d k).stage e = r.1 ∧
      (s.takeCompletion d k).lamps =
        r.2.foldl (fun l q => l.takeRequest e s.openDoubles s.localTime q) s.lamps)) ∧
  (∀ (l : LampCtl) (e : Side) (doubles : Bool) (a : LocalTime) (q : FlashRequest)
    (place : Fin 18 → Side × Fin 9) (ps : List (Fin 18)),
    (∀ p : Fin 18, (place p).2.val = p.val % 9 ∧
      (place p).1 = if doubles = true then (if p.val < 9 then .a else .b) else e) →
    ps.Pairwise (fun x y => x < y) → (∀ p : Fin 18, p ∈ ps ↔ q.panels.getLsbD p.val = true) →
    l.takeRequest e doubles a q =
      ps.foldl (fun l p => l.startFlash (place p).1 (place p).2 q.grade q.capture a) l) ∧
  ∀ (ctx : JudgeCtx) (edges : List (Fin 18 × EdgeKind)) (st x : Stage) (j h r : Judging)
    (v : Vector (Option TrackEntry) 18),
    (∀ p : Fin 18, v[p] = st.tracker[p].map fun e =>
      if ctx.own.getLsbD p.val = true then
        (if (p, .release) ∈ edges then e.release ctx.time else e).agree
          (ctx.pressed.getLsbD p.val) ctx.time
      else if (p, .release) ∈ edges then e.release ctx.time else e) →
    x = { st with
      tracker := v
      lastPressedA := if ctx.bus = .a then ctx.pressed else st.lastPressedA
      lastPressedB := if ctx.bus = .b then ctx.pressed else st.lastPressedB } →
    j = edges.foldl (fun j g => if j.halted = true ∨ g.2 = .release then j else j.press ctx g.1)
      { stage := x, heads := [], flashes := [], halted := false } →
    h = (if j.halted = true then j else passHeads ctx j.heads j) →
    r = sweepTable (takeClosed ctx) (sweepTable (takeMine ctx) (holdPart ctx h)) →
    st.judge ctx edges =
      (if r.halted = true then { r.stage.emptySession r.heads with state := .failed } else r.stage,
        r.flashes)

/-! ### Lamps (chapter 9) -/

/-- The lamp byte and flashes (R146, R148, R150). A running flash whose end lies 1 to 250,000 µs ahead gives
the lamp byte, else the mode does. A flash starts on an enabled lamp with such an end. At the expiry
compare the flashes that end there leave, and the compare is armed for the nearest end left; a
FLASH_EXPIRY at another time only lets time pass (log 2). -/
def Obligations.LampBytesAndFlashes : Prop :=
  (∀ (lamp : Lamp) (pressed : Bool) (t : LocalTime),
    (∀ f, lamp.flash = some f → lamp.flashEnable = true → 1 ≤ elapsed t f.endAt →
      elapsed t f.endAt ≤ 250000 → lampByte lamp pressed t = f.level) ∧
    ((lamp.flashEnable = false ∨ ∀ f, lamp.flash = some f →
        elapsed t f.endAt = 0 ∨ 250000 < elapsed t f.endAt) →
      lampByte lamp pressed t = match lamp.mode with
        | .off => 0
        | .steady => lamp.level
        | .follow => if pressed = true then lamp.level else lamp.base)) ∧
  (∀ (l : LampCtl) (d : Side) (p : Fin 9) (g : Grade) (cap a e : LocalTime),
    e = later cap ((l.flashSettings d).durationMs * 1000) →
    ((l.lamps d)[p].flashEnable = true → (l.flashSettings d).durationMs ≠ 0 → 1 ≤ elapsed a e →
      elapsed a e ≤ 250000 → ∃ v : Vector Lamp 9,
        l.startFlash d p g cap a = { l.setLamps d v with
          expiry := match l.expiry with
            | none => some e
            | some x => if elapsed a e < elapsed a x then some e else some x } ∧
        ∀ q : Fin 9, v[q] = if q = p then
            { (l.lamps d)[p] with flash := some ⟨e, match g with
              | .prime => (l.flashSettings d).prime
              | .solid => (l.flashSettings d).solid
              | .fair => (l.flashSettings d).fair
              | .weak => (l.flashSettings d).weak⟩ }
          else (l.lamps d)[q]) ∧
    ((l.lamps d)[p].flashEnable = false ∨ (l.flashSettings d).durationMs = 0 ∨ elapsed a e = 0 ∨
        250000 < elapsed a e → l.startFlash d p g cap a = l)) ∧
  ∀ (dt : Nat) (s : State) (t : LocalTime), Reaches s dt t →
    (s.lamps.expiry ≠ some t → exec (.flashExpiry dt) s = .next { s with localTime := t }) ∧
    (s.lamps.expiry = some t → ∃ l : LampCtl,
      exec (.flashExpiry dt) s = .next { s with localTime := t, lamps := l } ∧
      (∀ d, l.flashSettings d = s.lamps.flashSettings d) ∧
      (∀ (d : Side) (p : Fin 9), (l.lamps d)[p] =
        if (s.lamps.lamps d)[p].flash.map Flash.endAt = some t then
          { (s.lamps.lamps d)[p] with flash := none }
        else (s.lamps.lamps d)[p]) ∧
      (l.expiry = none ↔ ∀ (d : Side) (p : Fin 9), (l.lamps d)[p].flash = none) ∧
      ∀ e, l.expiry = some e → (∃ (d : Side) (p : Fin 9) (f : Flash), (l.lamps d)[p].flash = some f ∧
          f.endAt = e) ∧
        ∀ (d : Side) (p : Fin 9) (f : Flash), (l.lamps d)[p].flash = some f →
          elapsed t e ≤ elapsed t f.endAt)

/-- LAMP_SET (R151) refuses a mode above 2, then a flash enable above 1, and otherwise sets the lamps of its
set, running flashes kept; LAMP_FLASH (R152) stores the bus's flash levels and its duration, clamped to
250 ms, and answers the duration. -/
def Obligations.LampRequestsStored : Prop :=
  (∀ (dt : Nat) (s : State) (c : LocalTime) (d : Side) (lo hi mode level base en : Byte),
    Dispatches s dt 7 c →
    (2 < mode.toNat → exec (.lampSet dt [sideCode d, lo, hi, mode, level, base, en]) s =
      .next ((s.arrived dt).reply (.refused 0x40 3 1))) ∧
    (mode.toNat ≤ 2 → 1 < en.toNat →
      exec (.lampSet dt [sideCode d, lo, hi, mode, level, base, en]) s =
        .next ((s.arrived dt).reply (.refused 0x40 3 2))) ∧
    ∀ m : LampMode, (mode = 0 ∧ m = .off ∨ mode = 1 ∧ m = .steady ∨ mode = 2 ∧ m = .follow) →
      en.toNat ≤ 1 → ∃ v : Vector Lamp 9,
      exec (.lampSet dt [sideCode d, lo, hi, mode, level, base, en]) s =
        .next (((s.arrived dt).setLamps (s.lamps.setLamps d v)).reply (.ack 0x40 [])) ∧
      ∀ i : Fin 9, v[i] =
        if (BitVec.ofNat 16 (lo.toNat + 256 * hi.toNat)).getLsbD i.val = true then
          { (s.lamps.lamps d)[i] with
            mode := m, level := level, base := base, flashEnable := decide (en = 1) }
        else (s.lamps.lamps d)[i]) ∧
  ∀ (dt : Nat) (s : State) (c : LocalTime) (d : Side) (w x y z dur : Byte), Dispatches s dt 6 c →
    exec (.lampFlash dt [sideCode d, w, x, y, z, dur]) s =
      .next (((s.arrived dt).setLamps (s.lamps.setFlashSettings d
        { prime := w, solid := x, fair := y, weak := z, durationMs := min 250 dur.toNat })).reply
          (.ack 0x41 [BitVec.ofNat 8 (min 250 dur.toNat)]))

/-! ### Stages and sessions (chapter 4) -/

/-- JUDGE_PARAMS and STAGE_OFFSET (R72, R73): refused outside IDLE and STANDBY, JUDGE_PARAMS also with
windows out of order or out of range; taken, the clamped values are stored and answered. -/
def Obligations.StageSettingsStored : Prop :=
  (∀ (dt : Nat) (s : State) (c : LocalTime) (d : Side) (w1 w2 w3 w4 g r m : Nat) (p : JudgeParams)
    (pl : List Byte), Dispatches s dt 29 c → (d = .b → s.openDoubles = false) →
    w1 < 2 ^ 32 → w2 < 2 ^ 32 → w3 < 2 ^ 32 → w4 < 2 ^ 32 → g < 2 ^ 32 → r < 2 ^ 32 → m < 2 ^ 32 →
    pl = [sideCode d] ++ leBytes 4 w1 ++ leBytes 4 w2 ++ leBytes 4 w3 ++ leBytes 4 w4 ++ leBytes 4 g ++
      leBytes 4 r ++ leBytes 4 m →
    p = { w1 := w1, w2 := w2, w3 := w3, w4 := w4, grace := min 1000000 g,
          rollInterval := max 50000 (min 2000000 r), mineHalf := max 1000 (min 250000 m) } →
    ((s.stage d).state ≠ .idle → (s.stage d).state ≠ .standby →
      exec (.judgeParams dt pl) s =
        .next ((s.arrived dt).reply (.refused 0x30 4 (stateCode (s.stage d).state)))) ∧
    ((s.stage d).state = .idle ∨ (s.stage d).state = .standby →
      ¬ (1000 ≤ w1 ∧ w1 ≤ w2 ∧ w2 ≤ w3 ∧ w3 ≤ w4 ∧ w4 ≤ 250000) →
      exec (.judgeParams dt pl) s = .next ((s.arrived dt).reply (.refused 0x30 3 0))) ∧
    ((s.stage d).state = .idle ∨ (s.stage d).state = .standby →
      1000 ≤ w1 → w1 ≤ w2 → w2 ≤ w3 → w3 ≤ w4 → w4 ≤ 250000 →
      exec (.judgeParams dt pl) s =
        .next (((s.arrived dt).setStage d { s.stage d with params := p }).reply
          (.ack 0x30 (leBytes 4 w1 ++ leBytes 4 w2 ++ leBytes 4 w3 ++ leBytes 4 w4 ++
            leBytes 4 p.grace ++ leBytes 4 p.rollInterval ++ leBytes 4 p.mineHalf))))) ∧
  ∀ (dt : Nat) (s : State) (c : LocalTime) (d : Side) (o : Int), Dispatches s dt 5 c →
    (d = .b → s.openDoubles = false) → -2147483648 ≤ o → o ≤ 2147483647 →
    ((s.stage d).state ≠ .idle → (s.stage d).state ≠ .standby →
      exec (.stageOffset dt (sideCode d :: leSigned o)) s =
        .next ((s.arrived dt).reply (.refused 0x31 4 (stateCode (s.stage d).state)))) ∧
    ((s.stage d).state = .idle ∨ (s.stage d).state = .standby →
      exec (.stageOffset dt (sideCode d :: leSigned o)) s =
        .next (((s.arrived dt).setStage d
          { s.stage d with inputOffset := max (-100000) (min 100000 o) }).reply
            (.ack 0x31 (leSigned (max (-100000) (min 100000 o))))))

/-- STAGE_OPEN (R59 to R62): the nine checks in their order refuse it; taken, the session starts clear with
its settings, PLAYING when the clock runs and STANDBY when it stands, the judge parameters and input
offset kept. Doubles takes stage B's queue storage and empties its queue; a single open of stage A
returns it. That the busy-until table and the tracker have eighteen entries in single mode too, all of them
cleared, is the model's reading (log 18). -/
def Obligations.StageOpenChecksAndOpens : Prop :=
  ∀ (dt : Nat) (s : State) (c : LocalTime) (d : Side) (mode fail opts : Byte) (u life : Nat)
    (refusal : Option (Byte × Byte)) (x : Stage) (pl : List Byte), Dispatches s dt 8 c →
    u < 65536 → life < 65536 →
    pl = [sideCode d, mode] ++ leBytes 2 u ++ leBytes 2 life ++ [fail, opts] →
    refusal = (if d = .b ∧ s.openDoubles = true then some (4, stateCode s.stageA.state)
      else if d = .b ∧ s.lent = true then some (4, 0xFE)
      else if (s.stage d).state ≠ .idle then some (4, stateCode (s.stage d).state)
      else if 1 < mode.toNat then some (3, 1)
      else if mode = 1 ∧ d = .b then some (3, 1)
      else if mode = 1 ∧ d = .a ∧ s.stageB.state ≠ .idle then some (4, stateCode s.stageB.state)
      else if u = 0 then some (3, 2)
      else if life < 1 ∨ 1000 < life then some (3, 3)
      else if 1 < fail.toNat then some (3, 4)
      else none) →
    x = { state := if s.clock.running = true then .playing else .standby,
          mode := if mode = 1 then .doubles else .single,
          units := u, failEnable := decide (fail = 1), askStrays := opts.getLsbD 0,
          askAvoided := opts.getLsbD 1, life := life, earned := 0, judged := 0, combo := 0,
          maxCombo := 0, counts := ⟨0, 0, 0, 0, 0, 0, 0, 0, 0, 0, 0, 0⟩, offsetSum := 0, graded := 0,
          failed := false, overcount := false, table := [], busyUntil := Vector.replicate 18 none,
          tracker := Vector.replicate 18 none, lastPressedA := 0, lastPressedB := 0,
          lastAccepted := none, reports := [], droppedCount := 0, params := (s.stage d).params,
          inputOffset := (s.stage d).inputOffset } →
    (∀ code detail, refusal = some (code, detail) →
      exec (.stageOpen dt pl) s = .next ((s.arrived dt).reply (.refused 0x32 code detail))) ∧
    (refusal = none → d = .b →
      exec (.stageOpen dt pl) s = .next (((s.arrived dt).setStage .b x).reply (.ack 0x32 []))) ∧
    (refusal = none → d = .a → mode = 0 →
      exec (.stageOpen dt pl) s =
        .next (State.reply { s.arrived dt with stageA := x, lent := false } (.ack 0x32 []))) ∧
    (refusal = none → mode = 1 →
      exec (.stageOpen dt pl) s = .next (State.reply { s.arrived dt with
        stageA := x
        lent := true
        stageB := { s.stageB with reports := [], droppedCount := 0 } } (.ack 0x32 [])))

/-- Closing (R64, R67 to R69, R134, R143). STAGE_CLOSE is refused in IDLE and CLOSING; from FAILED, STANDBY
and PLAYING it answers, updates the clock and enters CLOSING, from STANDBY with every note DISCARDED, from
PLAYING after the flush at the close time and the emptying. Emptying counts every note DISCARDED and
every hold of the tracker, and every head passed at a failure (log 17), CUT once. The flush is the hold, mine
and closure parts at the close time with an empty pressed set. TALLY_PLACE places the TALLY in the first
room, as a command of its own (the model's choice, log 8); at a stage that is not CLOSING, or has no room,
it only lets time pass (the model's choice, log 2). -/
def Obligations.CloseEmptiesAndTallies : Prop :=
  (∀ (dt : Nat) (s : State) (c : LocalTime) (d : Side) (st x : Stage) (v : Clock × Option Int),
    Dispatches s dt 1 c → (d = .b → s.openDoubles = false) → st = s.stage d →
    v = s.clock.update (later s.localTime dt) →
    (st.state = .idle ∨ st.state = .closing → exec (.stageClose dt [sideCode d]) s =
      .next ((s.arrived dt).reply (.refused 0x33 4 (stateCode st.state)))) ∧
    ((st.state = .failed ∧ x = { st with state := .closing }) ∨
      (st.state = .standby ∧ (∀ p : Fin 18, st.tracker[p] = none) ∧ st.counts.discarded ≤ 65535 ∧
        x = { st with
          state := .closing, table := []
          counts := { st.counts with
            discarded := min 65535 (st.counts.discarded + st.table.length) } }) ∨
      (st.state = .playing ∧ x = { Stage.emptySession
        (st.flush d (s.reportDepth d) (v.1.chart + st.inputOffset)) [] with state := .closing }) →
      exec (.stageClose dt [sideCode d]) s =
        .next ((((s.arrived dt).reply (.ack 0x33 [])).storeClock v).setStage d x))) ∧
  (∀ (st : Stage) (side : Side) (depth : Nat) (time : Int) (ctx : JudgeCtx),
    ctx.side = side → ctx.depth = depth → ctx.time = time → ctx.capture = 0 → ctx.bus = side →
    ctx.own = 0 → ctx.pressed = 0 →
    st.flush side depth time = (sweepTable (takeClosed ctx) (sweepTable (takeMine ctx)
      (holdPart ctx { stage := st, heads := [], flashes := [], halted := false }))).stage) ∧
  (∀ (st : Stage) (heads : List Note) (ids : List Nat), st.counts.discarded ≤ 65535 →
    st.counts.cut ≤ 65535 → ids.Nodup →
    (∀ id, id ∈ ids ↔ (∃ (p : Fin 18) (e : TrackEntry), st.tracker[p] = some e ∧ e.id = id) ∨
      ∃ n ∈ heads, n.id = id) →
    st.emptySession heads = { st with
      table := [], tracker := Vector.replicate 18 none, judged := st.judged + ids.length,
      overcount := st.overcount || decide (ids ≠ [] ∧ st.units < st.judged + ids.length),
      counts := { st.counts with
        discarded := min 65535 (st.counts.discarded + st.table.length)
        cut := min 65535 (st.counts.cut + ids.length) } }) ∧
  ∀ (dt : Nat) (s : State) (t : LocalTime) (d : Side) (st : Stage), Reaches s dt t → st = s.stage d →
    (st.state = .closing → st.reports.length < s.reportDepth d →
      exec (.tallyPlace dt d) s = .next (State.setStage { s with localTime := t } d { st with
        state := .idle, droppedCount := 0
        reports := st.reports ++ [.tally
          { stage := d, mode := st.mode, failed := st.failed, overcount := st.overcount,
            counts := st.counts, score := min 1000000 (1000000 * st.earned / (10 * st.units)),
            earned := st.earned, judged := st.judged, maxCombo := st.maxCombo, life := st.life,
            meanOffset := if st.graded = 0 then 0 else st.offsetSum.tdiv st.graded,
            graded := st.graded, droppedBefore := st.droppedCount }] })) ∧
    (st.state ≠ .closing ∨ s.reportDepth d ≤ st.reports.length →
      exec (.tallyPlace dt d) s = .next { s with localTime := t })

/-- STAGE_STATUS (R71, R134) answers the session as it stands, in every state. The state codes are 0 to 4
and the mode codes 0 and 1, as R57 numbers them; the refusals above carry them too. -/
def Obligations.StageStatusAnswers : Prop :=
  (stateCode .idle = 0 ∧ stateCode .standby = 1 ∧ stateCode .playing = 2 ∧ stateCode .failed = 3 ∧
    stateCode .closing = 4 ∧ modeCode .single = 0 ∧ modeCode .doubles = 1) ∧
  ∀ (dt : Nat) (s : State) (c : LocalTime) (d : Side) (st : Stage), Dispatches s dt 1 c →
    (d = .b → s.openDoubles = false) → st = s.stage d →
    exec (.stageStatus dt [sideCode d]) s = .next ((s.arrived dt).reply (.ack 0x34
      ([stateCode st.state, modeCode st.mode] ++
        leBytes 4 (min 1000000 (1000000 * st.earned / (10 * st.units))) ++
        leBytes 4 st.earned ++ leBytes 4 st.judged ++ leBytes 2 st.combo ++ leBytes 2 st.maxCombo ++
        leBytes 2 st.life ++ leBytes 2 st.table.length ++
        leBytes 1 (stagePanels.countP fun p => st.tracker[p].isSome) ++
        leBytes 1 st.reports.length)))

/-! ### The note table (chapter 5) -/

/-- NOTES (R80): the clock updates; in STANDBY and PLAYING the records are examined in order up to the first
that fails, and the ACK carries how many were taken and the stop code; in any other state it is refused.
A record after one that fails is not examined. -/
def Obligations.NotesTakenInOrder : Prop :=
  (∀ (dt : Nat) (s : State) (c : LocalTime) (d : Side) (rs : List RawNote) (now : Option Int)
    (r : Stage × Nat × Byte) (v : Clock × Option Int),
    Dispatches s dt (1 + 14 * rs.length) c → (d = .b → s.openDoubles = false) → rs ≠ [] →
    (∀ x ∈ rs, x.Fits) → v = s.clock.update (later s.localTime dt) →
    now = (if s.clock.running = true then some v.1.chart else none) → r = takeRecords now rs (s.stage d) 0 →
    ((s.stage d).state = .standby ∨ (s.stage d).state = .playing →
      exec (.notes dt (sideCode d :: rs.flatMap noteBytes)) s =
        .next ((((s.arrived dt).storeClock v).setStage d r.1).reply
          (.ack 0x35 [BitVec.ofNat 8 r.2.1, r.2.2]))) ∧
    ((s.stage d).state ≠ .standby → (s.stage d).state ≠ .playing →
      exec (.notes dt (sideCode d :: rs.flatMap noteBytes)) s =
        .next (((s.arrived dt).storeClock v).reply
          (.refused 0x35 4 (stateCode (s.stage d).state))))) ∧
  ∀ (now : Option Int) (rs : List RawNote) (st : Stage), ∃ (ns : List Note) (stop : Byte),
    takeRecords now rs st 0 = (ns.foldl Stage.takeNote st, ns.length, stop) ∧ ns.length ≤ rs.length ∧
    (∀ (i : Nat) (r : RawNote) (n : Note), rs[i]? = some r → ns[i]? = some n →
      examine ((ns.take i).foldl Stage.takeNote st) now r = .ok n) ∧
    (ns.length = rs.length → stop = 0) ∧
    ∀ r, rs[ns.length]? = some r → examine (ns.foldl Stage.takeNote st) now r = .error stop

/-- The checks of a note record (R75 to R77, R81 to R86) in their order: BAD_VALUE, ORDER, OVERLAP, STALE,
FULL; a record that passes them all becomes a note at the end of the table, raises its panels' busy-until
times to its end and becomes the last accepted. -/
def Obligations.RecordChecksInOrder : Prop :=
  (∀ (st : Stage) (now : Option Int) (r : RawNote) (bad order overlap stale full : Prop),
    (bad ↔ 3 < r.kind.toNat ∨ r.panels = 0 ∨ 4 < ((List.range 24).countP fun i => r.panels.getLsbD i) ∨
      (∃ i, r.panels.getLsbD i = true ∧ (if st.mode = .single then 9 else 18) ≤ i) ∨
      ((r.kind = 1 ∨ r.kind = 2) ∧ (r.length < 1000 ∨ 30000000 < r.length))) →
    (order ↔ ∃ id due, st.lastAccepted = some (id, due) ∧ (r.id ≤ id ∨ r.due < due)) →
    (overlap ↔ ∃ (p : Fin 18) (e : Int), r.panels.getLsbD p.val = true ∧ st.busyUntil[p] = some e ∧
      r.due ≤ e) →
    (stale ↔ ∃ x, now = some x ∧ r.due + st.params.w4 < x + st.inputOffset) →
    (full ↔ (if st.mode = .single then 192 else 384) ≤ st.table.length) →
    (bad → examine st now r = .error 3) ∧
    (¬ bad → order → examine st now r = .error 6) ∧
    (¬ bad → ¬ order → overlap → examine st now r = .error 7) ∧
    (¬ bad → ¬ order → ¬ overlap → stale → examine st now r = .error 8) ∧
    (¬ bad → ¬ order → ¬ overlap → ¬ stale → full → examine st now r = .error 9) ∧
    (¬ bad → ¬ order → ¬ overlap → ¬ stale → ¬ full → ∃ kind,
      (r.kind = 0 ∧ kind = .tap ∨ r.kind = 1 ∧ kind = .hold ∨ r.kind = 2 ∧ kind = .roll ∨
        r.kind = 3 ∧ kind = .mine) ∧
      examine st now r = .ok
        { id := r.id, due := r.due, kind := kind, panels := r.panels.setWidth 18,
          length := if kind = .hold ∨ kind = .roll then some r.length else none,
          struck := 0, worst := none })) ∧
  ∀ (st : Stage) (n : Note), ∃ b : Vector (Option Int) 18,
    st.takeNote n = { st with
      table := st.table ++ [n], lastAccepted := some (n.id, n.due), busyUntil := b } ∧
    ∀ p : Fin 18, b[p] =
      if n.panels.getLsbD p.val = true then some (n.due + n.length.getD 0) else st.busyUntil[p]

/-! ### Judging (chapters 6 to 8) -/

/-- Presses (R89, R95 to R101, R105, R119). A note is eligible when it is no mine, has the panel not yet
struck, and T lies within W4 of its due time. A press on a panel with a tracker entry strikes nothing;
otherwise it strikes the first eligible note of the table, which has the earliest due time in an ordered
table; with none it is a stray. The grade follows the worst offset. A completion (R101 to R104) carries out
the grade's result with its JUDGMENT, asks for one flash of the note's panels, and enters a HOLD or ROLL in
the completed-head list. -/
def Obligations.PressStrikesEarliest : Prop :=
  (∀ (w4 : Nat) (time : Int) (p : Fin 18) (n : Note), eligible w4 time p n = true ↔
    n.kind ≠ .mine ∧ n.panels.getLsbD p.val = true ∧ n.struck.getLsbD p.val = false ∧
      n.due - w4 ≤ time ∧ time ≤ n.due + w4) ∧
  (∀ (ctx : JudgeCtx) (p : Fin 18) (j : Judging) (pre post : List Note) (n x : Note) (o : Int),
    j.stage.tracker[p] = none → j.stage.table = pre ++ n :: post →
    (∀ m ∈ pre, eligible j.stage.params.w4 ctx.time p m = false) →
    eligible j.stage.params.w4 ctx.time p n = true → o = ctx.time - n.due →
    x = { n with struck := n.struck ||| BitVec.twoPow 18 p.val, worst := some (match n.worst with
      | none => o
      | some w => if w.natAbs ≤ o.natAbs then o else w) } →
    (x.struck ≠ x.panels → j.press ctx p =
      { j with stage := { j.stage with table := pre ++ x :: post } }) ∧
    (x.struck = x.panels → j.press ctx p =
      Judging.complete { j with stage := { j.stage with table := pre ++ post } } ctx x) ∧
    (j.stage.table.Pairwise (fun a b => a.due ≤ b.due) →
      ∀ m ∈ j.stage.table, eligible j.stage.params.w4 ctx.time p m = true → n.due ≤ m.due)) ∧
  (∀ (ctx : JudgeCtx) (p : Fin 18) (j : Judging), j.stage.tracker[p] = none →
    (∀ m ∈ j.stage.table, eligible j.stage.params.w4 ctx.time p m = false) →
    j.press ctx p = j.result ctx .stray none
      (if j.stage.askStrays = true then
        some fun _ _ dropped => .stray ctx.side (p.val + 1) ctx.time dropped
      else none)) ∧
  (∀ (ctx : JudgeCtx) (p : Fin 18) (j : Judging) (e x : TrackEntry), j.stage.tracker[p] = some e →
    x = (match e.body with
      | .roll _ => { e with body := .roll ctx.time }
      | _ => e) →
    j.press ctx p =
      { j with stage := { j.stage with tracker := j.stage.tracker.set p.val (some x) } }) ∧
  (∀ (pr : JudgeParams) (w : Int) (g : Grade), pr.w1 ≤ pr.w2 → pr.w2 ≤ pr.w3 → (gradeOf pr w = g ↔
    (g = .prime ∧ w.natAbs ≤ pr.w1) ∨ (g = .solid ∧ pr.w1 < w.natAbs ∧ w.natAbs ≤ pr.w2) ∨
      (g = .fair ∧ pr.w2 < w.natAbs ∧ w.natAbs ≤ pr.w3) ∨ (g = .weak ∧ pr.w3 < w.natAbs))) ∧
  (∀ (ctx : JudgeCtx) (j : Judging) (n : Note) (w : Int) (g : Grade) (r : Result) (a : Stage)
    (fails : Bool), n.worst = some w → g = gradeOf j.stage.params w →
    r = (match g with | .prime => .prime | .solid => .solid | .fair => .fair | .weak => .weak) →
    a = j.stage.account r (some w) →
    fails = (j.stage.failEnable && decide (0 < j.stage.life) && decide (a.life = 0)) →
    j.complete ctx n =
      { stage := { a.offer ctx.depth (judgmentReport ctx.side n r (some w) fails a) with
          failed := a.failed || fails }
        heads := if n.kind = .hold ∨ n.kind = .roll then j.heads ++ [n] else j.heads
        flashes := j.flashes ++ [{ panels := n.panels, grade := g, capture := ctx.capture }]
        halted := j.halted || fails }) ∧
  ∀ (side : Side) (n : Note) (r : Result) (off : Option Int) (fails : Bool) (a : Stage) (dropped : Nat),
    judgmentReport side n r off fails a dropped =
      .judgment side n.id r off fails a.overcount n.struck a.combo a.life
        (min 1000000 (1000000 * a.earned / (10 * a.units))) dropped

/-- Holds and rolls (R104, R115 to R118, R120 to R123): a HOLD's entries follow their panels through releases
and the pressed set; a hold is DROPPED when an entry is overdue at the earlier of T and its end, naming the
lowest-numbered such panel, and is HOLD_OK at its end otherwise. Completed heads are passed in order, panel
by panel, after a hand-over where the panel has an entry of another hold; a failure stops the passing and
keeps the heads left for the emptying (log 17). The hold part takes the holds in increasing id. -/
def Obligations.HoldsResolve : Prop :=
  (∀ (e : TrackEntry) (time : Int), e.release time =
    { e with body := (match e.body with | .held => .released time | x => x) }) ∧
  (∀ (e : TrackEntry) (pressed : Bool) (time : Int), e.agree pressed time =
    { e with body := (match e.body, pressed with
      | .held, false => .released time
      | .released _, true => .held
      | x, _ => x) }) ∧
  (∀ (ctx : JudgeCtx) (st : Stage) (n : Note) (p : Fin 18), headEntry ctx st n p =
    { id := n.id, endTime := n.due + n.length.getD 0,
      body := if n.kind = .roll then .roll ctx.time
        else if BitVec.getLsbD (if ctx.own.getLsbD p.val = true then ctx.pressed
          else if ctx.bus = .a then st.lastPressedB else st.lastPressedA) p.val = true
        then .held else .released ctx.time }) ∧
  (∀ (pr : JudgeParams) (time : Int) (b : Body) (reason : Reason), overdue pr time b = some reason ↔
    (reason = .released ∧ ∃ r, b = .released r ∧ (pr.grace : Int) < time - r) ∨
      (reason = .rollGap ∧ ∃ q, b = .roll q ∧ (pr.rollInterval : Int) < time - q)) ∧
  (∀ (ctx : JudgeCtx) (j : Judging) (id : Nat) (fin lim : Int), j.halted = false →
    (∃ (p : Fin 18) (e : TrackEntry), j.stage.tracker[p] = some e ∧ e.id = id) →
    (∀ (p : Fin 18) (e : TrackEntry), j.stage.tracker[p] = some e → e.id = id → e.endTime = fin) →
    lim = min ctx.time fin →
    (∀ (p : Fin 18) (e : TrackEntry) (reason : Reason), j.stage.tracker[p] = some e → e.id = id →
      overdue j.stage.params lim e.body = some reason →
      (∀ (q : Fin 18) (f : TrackEntry), q < p → j.stage.tracker[q] = some f → f.id = id →
        overdue j.stage.params lim f.body = none) →
      resolveHold ctx j id = Judging.result
        { j with stage := { j.stage with tracker := removeHold j.stage.tracker id } } ctx .dropped none
        (some (holdReport ctx.side id reason (p.val + 1)))) ∧
    ((∀ (p : Fin 18) (e : TrackEntry), j.stage.tracker[p] = some e → e.id = id →
        overdue j.stage.params lim e.body = none) →
      (ctx.time < fin → resolveHold ctx j id = j) ∧
      (fin ≤ ctx.time → resolveHold ctx j id = Judging.result
        { j with stage := { j.stage with tracker := removeHold j.stage.tracker id } } ctx .holdOk none
        (some (holdReport ctx.side id .completed 0))))) ∧
  (∀ (v : Vector (Option TrackEntry) 18) (id : Nat) (p : Fin 18) (e : TrackEntry),
    (removeHold v id)[p] = some e ↔ v[p] = some e ∧ e.id ≠ id) ∧
  (∀ (side : Side) (id panel dropped : Nat) (reason : Reason) (fails : Bool) (a : Stage),
    holdReport side id reason panel fails a dropped =
      .hold side id (decide (reason = .completed)) reason panel a.life
        (min 1000000 (1000000 * a.earned / (10 * a.units))) fails a.overcount dropped) ∧
  (∀ (ctx : JudgeCtx) (j : Judging) (p : Fin 18) (e : TrackEntry),
    (∀ reason, overdue j.stage.params ctx.time e.body = some reason →
      j.handOver ctx p e = Judging.result
        { j with stage := { j.stage with tracker := removeHold j.stage.tracker e.id } } ctx .dropped none
        (some (holdReport ctx.side e.id reason (p.val + 1)))) ∧
    (overdue j.stage.params ctx.time e.body = none →
      (∃ (q : Fin 18) (f : TrackEntry), q ≠ p ∧ j.stage.tracker[q] = some f ∧ f.id = e.id) →
      j.handOver ctx p e =
        { j with stage := { j.stage with tracker := j.stage.tracker.set p.val none } }) ∧
    (overdue j.stage.params ctx.time e.body = none →
      (∀ (q : Fin 18) (f : TrackEntry), q ≠ p → j.stage.tracker[q] = some f → f.id ≠ e.id) →
      j.handOver ctx p e = Judging.result
        { j with stage := { j.stage with tracker := removeHold j.stage.tracker e.id } } ctx .holdOk none
        (some (holdReport ctx.side e.id .completed 0)))) ∧
  (∀ (ctx : JudgeCtx) (n : Note) (j h : Judging) (p : Fin 18),
    (j.halted = true → Judging.passPanel ctx n j p = j) ∧
    (j.halted = false → (∀ e, j.stage.tracker[p] = some e → e.id = n.id) →
      Judging.passPanel ctx n j p = { j with stage := { j.stage with
        tracker := j.stage.tracker.set p.val (some (headEntry ctx j.stage n p)) } }) ∧
    (∀ e, j.halted = false → j.stage.tracker[p] = some e → e.id ≠ n.id → h = j.handOver ctx p e →
      Judging.passPanel ctx n j p = if h.halted = true then h else { h with stage := { h.stage with
        tracker := h.stage.tracker.set p.val (some (headEntry ctx h.stage n p)) } })) ∧
  (∀ (ctx : JudgeCtx) (j : Judging), passHeads ctx [] j = { j with heads := [] }) ∧
  (∀ (ctx : JudgeCtx) (n : Note) (ns : List Note) (j h : Judging) (ps : List (Fin 18)),
    ps.Pairwise (fun x y => x < y) → (∀ p : Fin 18, p ∈ ps ↔ n.panels.getLsbD p.val = true) →
    h = ps.foldl (Judging.passPanel ctx n) j →
    passHeads ctx (n :: ns) j =
      if h.halted = true then { h with heads := n :: ns } else passHeads ctx ns h) ∧
  (∀ (ctx : JudgeCtx) (j : Judging) (id : Nat), j.halted = true → resolveHold ctx j id = j) ∧
  ∀ (ctx : JudgeCtx) (j : Judging) (ids : List Nat), ids.Pairwise (fun x y => x < y) →
    (∀ id, id ∈ ids ↔ ∃ (p : Fin 18) (e : TrackEntry), j.stage.tracker[p] = some e ∧ e.id = id) →
    holdPart ctx j = ids.foldl (resolveHold ctx) j

/-- Mines and window closure (R106, R107, R125 to R127): a mine is hit within its half-window when a panel
of it is in the pressed set, avoided after it, and stays otherwise; a step whose window has closed is a
MISS, with the body of a HOLD or ROLL DROPPED, both reports carrying the failure of either. Both parts take
the table from the head, notes resolved leaving it and the rest keeping their order, up to a failure. That
the closure part, too, goes on past a note whose window is open, where R106 and R108 need not look, is the
model's choice (log 16). -/
def Obligations.MinesAndClosure : Prop :=
  (∀ (ctx : JudgeCtx) (n : Note) (j : Judging) (h : Nat), h = j.stage.params.mineHalf →
    (n.kind ≠ .mine → takeMine ctx n j = none) ∧
    (n.kind = .mine → n.due - h ≤ ctx.time → ctx.time ≤ n.due + h →
      (∀ p : Fin 18, n.panels.getLsbD p.val = true → ctx.pressed.getLsbD p.val = false) →
      takeMine ctx n j = none) ∧
    (n.kind = .mine → ctx.time < n.due - h → takeMine ctx n j = none) ∧
    (∀ p : Fin 18, n.kind = .mine → n.due - h ≤ ctx.time → ctx.time ≤ n.due + h →
      n.panels.getLsbD p.val = true → ctx.pressed.getLsbD p.val = true →
      (∀ q : Fin 18, q < p → n.panels.getLsbD q.val = true → ctx.pressed.getLsbD q.val = false) →
      takeMine ctx n j =
        some (j.result ctx .mineHit none (some (mineReport ctx.side n.id true (p.val + 1))))) ∧
    (n.kind = .mine → n.due + h < ctx.time → takeMine ctx n j =
      some (j.result ctx .mineAvoided none
        (if j.stage.askAvoided = true then some (mineReport ctx.side n.id false 0) else none)))) ∧
  (∀ (side : Side) (id panel dropped : Nat) (hit fails : Bool) (a : Stage),
    mineReport side id hit panel fails a dropped =
      .mine side id hit panel a.combo a.life fails a.overcount dropped) ∧
  (∀ (take : Note → Judging → Option Judging) (ns : List Note) (n : Note) (j x : Judging),
    sweep take [] j = ([], j) ∧ (j.halted = true → sweep take ns j = (ns, j)) ∧
    (j.halted = false → take n j = some x → sweep take (n :: ns) j = sweep take ns x) ∧
    (j.halted = false → take n j = none →
      sweep take (n :: ns) j = (n :: (sweep take ns j).1, (sweep take ns j).2))) ∧
  (∀ (take : Note → Judging → Option Judging) (j x : Judging) (ns : List Note),
    (ns, x) = sweep take j.stage.table j →
    sweepTable take j = { x with stage := { x.stage with table := ns } }) ∧
  ∀ (ctx : JudgeCtx) (n : Note) (j : Judging),
    (n.kind = .mine ∨ ctx.time ≤ n.due + j.stage.params.w4 → takeClosed ctx n j = none) ∧
    (n.kind = .tap → n.due + j.stage.params.w4 < ctx.time → takeClosed ctx n j =
      some (j.result ctx .miss none (some (judgmentReport ctx.side n .miss none)))) ∧
    ∀ (a b x : Stage) (fails : Bool), n.kind = .hold ∨ n.kind = .roll →
      n.due + j.stage.params.w4 < ctx.time → a = j.stage.account .miss none →
      fails = (j.stage.failEnable && decide (0 < j.stage.life) &&
        decide ((a.account .dropped none).life = 0)) →
      x = (a.offer ctx.depth (judgmentReport ctx.side n .miss none fails a)).account .dropped none →
      b = x.offer ctx.depth (holdReport ctx.side n.id .noHead 0 fails x) →
      takeClosed ctx n j = some { j with
        stage := { b with failed := b.failed || fails }, halted := j.halted || fails }

/-- The accounts after a result (R131 to R138, R140 to R142): tenths, units, life and combo by the result,
each within its bounds; overcount once J passes U; its count one higher; the worst offset of a graded step
in the offset statistics; the report made from the accounts after the result; the failure when life falls
to 0 with fail enable on. -/
def Obligations.ResultsChangeAccounts : Prop :=
  (∀ (st a : Stage) (r : Result) (w : Option Int) (tenths units : Nat) (life : Int),
    (r, tenths, units, life) ∈ ([(.prime, 10, 1, 8), (.solid, 8, 1, 6), (.fair, 5, 1, 2),
      (.weak, 2, 1, -30), (.miss, 0, 1, -60), (.holdOk, 10, 1, 4), (.dropped, 0, 1, -40),
      (.cut, 0, 1, 0), (.mineHit, 0, 0, -50), (.mineAvoided, 0, 0, 0), (.discarded, 0, 0, 0),
      (.stray, 0, 0, 0)] : List (Result × Nat × Nat × Int)) →
    a = st.account r w →
    (st.earned ≤ 1310700 → a.earned = min 1310700 (st.earned + tenths)) ∧
    a.judged = st.judged + units ∧
    (st.overcount = decide (st.units < st.judged) → a.overcount = decide (st.units < a.judged)) ∧
    (st.life ≤ 1000 → (a.life : Int) = max 0 (min 1000 ((st.life : Int) + life))) ∧
    (r = .prime ∨ r = .solid ∨ r = .fair → a.combo = min 65535 (st.combo + 1) ∧
      (st.combo ≤ st.maxCombo → a.maxCombo = max st.maxCombo a.combo)) ∧
    (r = .weak ∨ r = .miss ∨ r = .mineHit → a.combo = 0 ∧ a.maxCombo = st.maxCombo) ∧
    (r = .holdOk ∨ r = .dropped ∨ r = .cut ∨ r = .mineAvoided ∨ r = .discarded ∨ r = .stray →
      a.combo = st.combo ∧ a.maxCombo = st.maxCombo) ∧
    a.counts = (match r with
      | .prime => { st.counts with prime := min 65535 (st.counts.prime + 1) }
      | .solid => { st.counts with solid := min 65535 (st.counts.solid + 1) }
      | .fair => { st.counts with fair := min 65535 (st.counts.fair + 1) }
      | .weak => { st.counts with weak := min 65535 (st.counts.weak + 1) }
      | .miss => { st.counts with miss := min 65535 (st.counts.miss + 1) }
      | .holdOk => { st.counts with holdOk := min 65535 (st.counts.holdOk + 1) }
      | .dropped => { st.counts with dropped := min 65535 (st.counts.dropped + 1) }
      | .cut => { st.counts with cut := min 65535 (st.counts.cut + 1) }
      | .mineHit => { st.counts with mineHit := min 65535 (st.counts.mineHit + 1) }
      | .mineAvoided => { st.counts with mineAvoided := min 65535 (st.counts.mineAvoided + 1) }
      | .discarded => { st.counts with discarded := min 65535 (st.counts.discarded + 1) }
      | .stray => { st.counts with stray := min 65535 (st.counts.stray + 1) }) ∧
    (∀ o, w = some o → st.graded < 65535 →
      a.offsetSum = st.offsetSum + o ∧ a.graded = st.graded + 1) ∧
    (w = none ∨ 65535 ≤ st.graded → a.offsetSum = st.offsetSum ∧ a.graded = st.graded) ∧
    a.table = st.table ∧ a.tracker = st.tracker ∧ a.reports = st.reports ∧ a.state = st.state) ∧
  ∀ (j : Judging) (ctx : JudgeCtx) (r : Result) (w : Option Int) (a : Stage) (fails : Bool),
    a = j.stage.account r w →
    fails = (j.stage.failEnable && decide (0 < j.stage.life) && decide (a.life = 0)) →
    (∀ mk, j.result ctx r w (some mk) = { j with
      stage := { a.offer ctx.depth (mk fails a) with failed := a.failed || fails }
      halted := j.halted || fails }) ∧
    j.result ctx r w none = { j with
      stage := { a with failed := a.failed || fails }, halted := j.halted || fails }

/-- Report queues and the notice set (R162, R164, R166): a report joins a queue with room, with the dropped
count, or is dropped and counted; a notice not masked merges with the pending one of its kind and stage
value, or joins the set in the arbiter's order: the lowest kind code first, and among entries of one kind
stage value 0 before 1 before 0xFF. -/
def Obligations.ReportsAndNoticesQueued : Prop :=
  (∀ (st : Stage) (depth : Nat) (mk : Nat → Report),
    (st.reports.length < depth → st.offer depth mk =
      { st with reports := st.reports ++ [mk st.droppedCount], droppedCount := 0 }) ∧
    (depth ≤ st.reports.length → st.offer depth mk =
      { st with droppedCount := min 255 (st.droppedCount + 1) })) ∧
  (∀ (code : NoticeKind → Nat) (value : Option Side → Nat),
    (∀ k, code k = match k with
      | .syncStale => 0 | .clockJump => 1 | .clockLimit => 2 | .panelOffline => 3
      | .panelOnline => 4 | .panelStuck => 5 | .busDown => 6 | .busUp => 7
      | .scanLate => 8 | .busContention => 9 | .linkError => 10 | .requestShed => 11) →
    (∀ x, value x = match x with | some .a => 0 | some .b => 1 | none => 0xFF) →
    (∀ k, noticeCode k = code k) ∧
    ∀ m n : Notice, noticeKey m < noticeKey n ↔
      code m.kind < code n.kind ∨ (code m.kind = code n.kind ∧ value m.source < value n.source)) ∧
  ∀ (l : Link) (k : NoticeKind) (src : Option Side) (ps : BusSet) (x : Int) (n : Notice),
    l.notices.Pairwise (fun a b => noticeKey a < noticeKey b) →
    l.mask.getLsbD (noticeCode k) = false →
    ((∃ m ∈ l.notices, m.kind = k ∧ m.source = src ∧
        n = ⟨k, src, min 255 (m.count + 1), m.panels ||| ps, x⟩) ∨
      ((∀ m ∈ l.notices, ¬ (m.kind = k ∧ m.source = src)) ∧ n = ⟨k, src, 1, ps, x⟩)) →
    (l.raise k src ps x).notices.Pairwise (fun a b => noticeKey a < noticeKey b) ∧
    ∀ m, m ∈ (l.raise k src ps x).notices ↔
      m = n ∨ (m ∈ l.notices ∧ ¬ (m.kind = k ∧ m.source = src))

/-! ### What every step keeps -/

/-- Every step keeps the link interface's invariant (R154, R160, R164; log 3). -/
def Obligations.StepKeepsLink : Prop :=
  ∀ s t : State, LinkInv s → step s = .next t → LinkInv t

/-- Every step keeps the report queues within their depths, and doubles' hold on stage B's storage (R61,
R62, R162). -/
def Obligations.StepKeepsQueues : Prop :=
  ∀ s t : State, step s = .next t →
    (QueueInv s → DoublesInv s → QueueInv t ∧ DoublesInv t)

/-- Every step keeps the chart clock's invariant (R4, R12, R15, R17). -/
def Obligations.StepKeepsClock : Prop :=
  ∀ s t : State, ClockInv s.clock → step s = .next t → ClockInv t.clock

/-- Every step keeps each stage's life and accounts in their bounds and in agreement with its counts (R130,
R132, R133, R136 to R138, R140 to R142), J within 131,072 among them: with the units still waiting in the
note table and the tracker it stays within two for each id up to the last accepted (R76, R79, R82). -/
def Obligations.StepKeepsAccounts : Prop :=
  ∀ s t : State, step s = .next t →
    ((∀ d, (s.stage d).LifeInv) → ∀ d, (t.stage d).LifeInv) ∧
    ((∀ d, (s.stage d).AccountInv) → ∀ d, (t.stage d).AccountInv) ∧
    ((∀ d, (s.stage d).UnitsInv) → ∀ d, (t.stage d).UnitsInv)

/-- Every step keeps each stage's note table and hold tracker lawful (R77, R82, R83, R91, R113), filled only
in the states that hold them (R63 to R69), and the settings and offsets in their ranges (R72, R73, R97,
R142). -/
def Obligations.StepKeepsNotes : Prop :=
  ∀ s t : State, step s = .next t →
    ((∀ d, (s.stage d).NotesInv) → ∀ d, (t.stage d).NotesInv) ∧
    ((∀ d, (s.stage d).PlayInv s.clock.running) → ∀ d, (t.stage d).PlayInv t.clock.running) ∧
    ((∀ d, (s.stage d).OffsetInv) → ∀ d, (t.stage d).OffsetInv)

/-- Every step keeps the panels, the bus controllers and lamp control lawful (R21, R22, R26, R32, R34, R41,
R42, R54, R145, R150). -/
def Obligations.StepKeepsPanelsBusesLamps : Prop :=
  ∀ s t : State, step s = .next t →
    (SensingInv s → SensingInv t) ∧
    ((∀ d, (s.bus d).Ok) → ∀ d, (t.bus d).Ok) ∧
    (LampInv s.lamps → LampInv t.lamps)

/-- Every invariant holds after a device reset. -/
def Obligations.ResetKeepsInvariants : Prop :=
  LinkInv State.reset ∧ QueueInv State.reset ∧ DoublesInv State.reset ∧ ClockInv State.reset.clock ∧
  (∀ d, (State.reset.stage d).LifeInv) ∧ (∀ d, (State.reset.stage d).AccountInv) ∧
  (∀ d, (State.reset.stage d).UnitsInv) ∧
  (∀ d, (State.reset.stage d).NotesInv) ∧ (∀ d, (State.reset.stage d).PlayInv false) ∧
  (∀ d, (State.reset.stage d).OffsetInv) ∧ SensingInv State.reset ∧
  (∀ d, (State.reset.bus d).Ok) ∧ LampInv State.reset.lamps
end

