-- ==== Sys2Proof/Laws/State.lean ====
section
/-! SUPPORT. The fields of State after each of its updates. -/

namespace Sys2Proof.Machine

/-! ### setBus -/

@[simp] theorem State.setBus_localTime (s : State) (d : Side) (x : BusCtl) :
    (s.setBus d x).localTime = s.localTime := by cases d <;> rfl
@[simp] theorem State.setBus_resetHeld (s : State) (d : Side) (x : BusCtl) :
    (s.setBus d x).resetHeld = s.resetHeld := by cases d <;> rfl
@[simp] theorem State.setBus_lhold (s : State) (d : Side) (x : BusCtl) :
    (s.setBus d x).lhold = s.lhold := by cases d <;> rfl
@[simp] theorem State.setBus_clock (s : State) (d : Side) (x : BusCtl) :
    (s.setBus d x).clock = s.clock := by cases d <;> rfl
@[simp] theorem State.setBus_panelsA (s : State) (d : Side) (x : BusCtl) :
    (s.setBus d x).panelsA = s.panelsA := by cases d <;> rfl
@[simp] theorem State.setBus_panelsB (s : State) (d : Side) (x : BusCtl) :
    (s.setBus d x).panelsB = s.panelsB := by cases d <;> rfl
@[simp] theorem State.setBus_stuckLimit (s : State) (d : Side) (x : BusCtl) :
    (s.setBus d x).stuckLimit = s.stuckLimit := by cases d <;> rfl
@[simp] theorem State.setBus_stageA (s : State) (d : Side) (x : BusCtl) :
    (s.setBus d x).stageA = s.stageA := by cases d <;> rfl
@[simp] theorem State.setBus_stageB (s : State) (d : Side) (x : BusCtl) :
    (s.setBus d x).stageB = s.stageB := by cases d <;> rfl
@[simp] theorem State.setBus_lent (s : State) (d : Side) (x : BusCtl) :
    (s.setBus d x).lent = s.lent := by cases d <;> rfl
@[simp] theorem State.setBus_lamps (s : State) (d : Side) (x : BusCtl) :
    (s.setBus d x).lamps = s.lamps := by cases d <;> rfl
@[simp] theorem State.setBus_link (s : State) (d : Side) (x : BusCtl) :
    (s.setBus d x).link = s.link := by cases d <;> rfl
@[simp] theorem State.setBus_pending (s : State) (d : Side) (x : BusCtl) :
    (s.setBus d x).pending = s.pending := by cases d <;> rfl
@[simp] theorem State.setBus_a_busA (s : State) (x : BusCtl) : (s.setBus .a x).busA = x := rfl
@[simp] theorem State.setBus_a_busB (s : State) (x : BusCtl) : (s.setBus .a x).busB = s.busB := rfl
@[simp] theorem State.setBus_b_busA (s : State) (x : BusCtl) : (s.setBus .b x).busA = s.busA := rfl
@[simp] theorem State.setBus_b_busB (s : State) (x : BusCtl) : (s.setBus .b x).busB = x := rfl
@[simp] theorem State.setBus_bus_same (s : State) (d : Side) (x : BusCtl) :
    (s.setBus d x).bus d = x := by cases d <;> rfl
@[simp] theorem State.setBus_bus_other (s : State) (d e : Side) (x : BusCtl) (h : d ≠ e) :
    (s.setBus d x).bus e = s.bus e := by cases d <;> cases e <;> simp_all <;> rfl
@[simp] theorem State.setBus_setBus (s : State) (d : Side) (x y : BusCtl) :
    (s.setBus d x).setBus d y = s.setBus d y := by cases d <;> rfl
@[simp] theorem State.setBus_panels (s : State) (d e : Side) (x : BusCtl) :
    (s.setBus d x).panels e = s.panels e := by cases d <;> cases e <;> rfl
@[simp] theorem State.setBus_stage (s : State) (d e : Side) (x : BusCtl) :
    (s.setBus d x).stage e = s.stage e := by cases d <;> cases e <;> rfl
@[simp] theorem State.setBus_reportDepth (s : State) (d e : Side) (x : BusCtl) :
    (s.setBus d x).reportDepth e = s.reportDepth e := by cases d <;> cases e <;> rfl
@[simp] theorem State.setBus_openDoubles (s : State) (d : Side) (x : BusCtl) :
    (s.setBus d x).openDoubles = s.openDoubles := by cases d <;> rfl
@[simp] theorem State.setBus_anyPlaying (s : State) (d : Side) (x : BusCtl) :
    (s.setBus d x).anyPlaying = s.anyPlaying := by cases d <;> rfl

/-! ### setPanels -/

@[simp] theorem State.setPanels_localTime (s : State) (d : Side) (x : Vector Panel 9) :
    (s.setPanels d x).localTime = s.localTime := by cases d <;> rfl
@[simp] theorem State.setPanels_resetHeld (s : State) (d : Side) (x : Vector Panel 9) :
    (s.setPanels d x).resetHeld = s.resetHeld := by cases d <;> rfl
@[simp] theorem State.setPanels_lhold (s : State) (d : Side) (x : Vector Panel 9) :
    (s.setPanels d x).lhold = s.lhold := by cases d <;> rfl
@[simp] theorem State.setPanels_clock (s : State) (d : Side) (x : Vector Panel 9) :
    (s.setPanels d x).clock = s.clock := by cases d <;> rfl
@[simp] theorem State.setPanels_busA (s : State) (d : Side) (x : Vector Panel 9) :
    (s.setPanels d x).busA = s.busA := by cases d <;> rfl
@[simp] theorem State.setPanels_busB (s : State) (d : Side) (x : Vector Panel 9) :
    (s.setPanels d x).busB = s.busB := by cases d <;> rfl
@[simp] theorem State.setPanels_stuckLimit (s : State) (d : Side) (x : Vector Panel 9) :
    (s.setPanels d x).stuckLimit = s.stuckLimit := by cases d <;> rfl
@[simp] theorem State.setPanels_stageA (s : State) (d : Side) (x : Vector Panel 9) :
    (s.setPanels d x).stageA = s.stageA := by cases d <;> rfl
@[simp] theorem State.setPanels_stageB (s : State) (d : Side) (x : Vector Panel 9) :
    (s.setPanels d x).stageB = s.stageB := by cases d <;> rfl
@[simp] theorem State.setPanels_lent (s : State) (d : Side) (x : Vector Panel 9) :
    (s.setPanels d x).lent = s.lent := by cases d <;> rfl
@[simp] theorem State.setPanels_lamps (s : State) (d : Side) (x : Vector Panel 9) :
    (s.setPanels d x).lamps = s.lamps := by cases d <;> rfl
@[simp] theorem State.setPanels_link (s : State) (d : Side) (x : Vector Panel 9) :
    (s.setPanels d x).link = s.link := by cases d <;> rfl
@[simp] theorem State.setPanels_pending (s : State) (d : Side) (x : Vector Panel 9) :
    (s.setPanels d x).pending = s.pending := by cases d <;> rfl
@[simp] theorem State.setPanels_a_panelsA (s : State) (x : Vector Panel 9) :
    (s.setPanels .a x).panelsA = x := rfl
@[simp] theorem State.setPanels_a_panelsB (s : State) (x : Vector Panel 9) :
    (s.setPanels .a x).panelsB = s.panelsB := rfl
@[simp] theorem State.setPanels_b_panelsA (s : State) (x : Vector Panel 9) :
    (s.setPanels .b x).panelsA = s.panelsA := rfl
@[simp] theorem State.setPanels_b_panelsB (s : State) (x : Vector Panel 9) :
    (s.setPanels .b x).panelsB = x := rfl
@[simp] theorem State.setPanels_bus (s : State) (d e : Side) (x : Vector Panel 9) :
    (s.setPanels d x).bus e = s.bus e := by cases d <;> cases e <;> rfl
@[simp] theorem State.setPanels_panels_same (s : State) (d : Side) (x : Vector Panel 9) :
    (s.setPanels d x).panels d = x := by cases d <;> rfl
@[simp] theorem State.setPanels_panels_other (s : State) (d e : Side) (x : Vector Panel 9) (h : d ≠ e) :
    (s.setPanels d x).panels e = s.panels e := by cases d <;> cases e <;> simp_all <;> rfl
@[simp] theorem State.setPanels_setPanels (s : State) (d : Side) (x y : Vector Panel 9) :
    (s.setPanels d x).setPanels d y = s.setPanels d y := by cases d <;> rfl
@[simp] theorem State.setPanels_stage (s : State) (d e : Side) (x : Vector Panel 9) :
    (s.setPanels d x).stage e = s.stage e := by cases d <;> cases e <;> rfl
@[simp] theorem State.setPanels_reportDepth (s : State) (d e : Side) (x : Vector Panel 9) :
    (s.setPanels d x).reportDepth e = s.reportDepth e := by cases d <;> cases e <;> rfl
@[simp] theorem State.setPanels_openDoubles (s : State) (d : Side) (x : Vector Panel 9) :
    (s.setPanels d x).openDoubles = s.openDoubles := by cases d <;> rfl
@[simp] theorem State.setPanels_anyPlaying (s : State) (d : Side) (x : Vector Panel 9) :
    (s.setPanels d x).anyPlaying = s.anyPlaying := by cases d <;> rfl

/-! ### setStage -/

@[simp] theorem State.setStage_localTime (s : State) (d : Side) (x : Stage) :
    (s.setStage d x).localTime = s.localTime := by cases d <;> rfl
@[simp] theorem State.setStage_resetHeld (s : State) (d : Side) (x : Stage) :
    (s.setStage d x).resetHeld = s.resetHeld := by cases d <;> rfl
@[simp] theorem State.setStage_lhold (s : State) (d : Side) (x : Stage) :
    (s.setStage d x).lhold = s.lhold := by cases d <;> rfl
@[simp] theorem State.setStage_clock (s : State) (d : Side) (x : Stage) :
    (s.setStage d x).clock = s.clock := by cases d <;> rfl
@[simp] theorem State.setStage_busA (s : State) (d : Side) (x : Stage) :
    (s.setStage d x).busA = s.busA := by cases d <;> rfl
@[simp] theorem State.setStage_busB (s : State) (d : Side) (x : Stage) :
    (s.setStage d x).busB = s.busB := by cases d <;> rfl
@[simp] theorem State.setStage_panelsA (s : State) (d : Side) (x : Stage) :
    (s.setStage d x).panelsA = s.panelsA := by cases d <;> rfl
@[simp] theorem State.setStage_panelsB (s : State) (d : Side) (x : Stage) :
    (s.setStage d x).panelsB = s.panelsB := by cases d <;> rfl
@[simp] theorem State.setStage_stuckLimit (s : State) (d : Side) (x : Stage) :
    (s.setStage d x).stuckLimit = s.stuckLimit := by cases d <;> rfl
@[simp] theorem State.setStage_lent (s : State) (d : Side) (x : Stage) :
    (s.setStage d x).lent = s.lent := by cases d <;> rfl
@[simp] theorem State.setStage_lamps (s : State) (d : Side) (x : Stage) :
    (s.setStage d x).lamps = s.lamps := by cases d <;> rfl
@[simp] theorem State.setStage_link (s : State) (d : Side) (x : Stage) :
    (s.setStage d x).link = s.link := by cases d <;> rfl
@[simp] theorem State.setStage_pending (s : State) (d : Side) (x : Stage) :
    (s.setStage d x).pending = s.pending := by cases d <;> rfl
@[simp] theorem State.setStage_a_stageA (s : State) (x : Stage) :
    (s.setStage .a x).stageA = x := rfl
@[simp] theorem State.setStage_a_stageB (s : State) (x : Stage) :
    (s.setStage .a x).stageB = s.stageB := rfl
@[simp] theorem State.setStage_b_stageA (s : State) (x : Stage) :
    (s.setStage .b x).stageA = s.stageA := rfl
@[simp] theorem State.setStage_b_stageB (s : State) (x : Stage) :
    (s.setStage .b x).stageB = x := rfl
@[simp] theorem State.setStage_bus (s : State) (d e : Side) (x : Stage) :
    (s.setStage d x).bus e = s.bus e := by cases d <;> cases e <;> rfl
@[simp] theorem State.setStage_panels (s : State) (d e : Side) (x : Stage) :
    (s.setStage d x).panels e = s.panels e := by cases d <;> cases e <;> rfl
@[simp] theorem State.setStage_stage_same (s : State) (d : Side) (x : Stage) :
    (s.setStage d x).stage d = x := by cases d <;> rfl
@[simp] theorem State.setStage_stage_other (s : State) (d e : Side) (x : Stage) (h : d ≠ e) :
    (s.setStage d x).stage e = s.stage e := by cases d <;> cases e <;> simp_all <;> rfl
@[simp] theorem State.setStage_setStage (s : State) (d : Side) (x y : Stage) :
    (s.setStage d x).setStage d y = s.setStage d y := by cases d <;> rfl
@[simp] theorem State.setStage_reportDepth (s : State) (d e : Side) (x : Stage) :
    (s.setStage d x).reportDepth e = s.reportDepth e := by cases d <;> cases e <;> rfl

/-! ### setClock -/

@[simp] theorem State.setClock_localTime (s : State) (x : Clock) :
    (s.setClock x).localTime = s.localTime := rfl
@[simp] theorem State.setClock_resetHeld (s : State) (x : Clock) :
    (s.setClock x).resetHeld = s.resetHeld := rfl
@[simp] theorem State.setClock_lhold (s : State) (x : Clock) : (s.setClock x).lhold = s.lhold := rfl
@[simp] theorem State.setClock_busA (s : State) (x : Clock) : (s.setClock x).busA = s.busA := rfl
@[simp] theorem State.setClock_busB (s : State) (x : Clock) : (s.setClock x).busB = s.busB := rfl
@[simp] theorem State.setClock_panelsA (s : State) (x : Clock) :
    (s.setClock x).panelsA = s.panelsA := rfl
@[simp] theorem State.setClock_panelsB (s : State) (x : Clock) :
    (s.setClock x).panelsB = s.panelsB := rfl
@[simp] theorem State.setClock_stuckLimit (s : State) (x : Clock) :
    (s.setClock x).stuckLimit = s.stuckLimit := rfl
@[simp] theorem State.setClock_stageA (s : State) (x : Clock) :
    (s.setClock x).stageA = s.stageA := rfl
@[simp] theorem State.setClock_stageB (s : State) (x : Clock) :
    (s.setClock x).stageB = s.stageB := rfl
@[simp] theorem State.setClock_lent (s : State) (x : Clock) : (s.setClock x).lent = s.lent := rfl
@[simp] theorem State.setClock_lamps (s : State) (x : Clock) : (s.setClock x).lamps = s.lamps := rfl
@[simp] theorem State.setClock_link (s : State) (x : Clock) : (s.setClock x).link = s.link := rfl
@[simp] theorem State.setClock_pending (s : State) (x : Clock) :
    (s.setClock x).pending = s.pending := rfl
@[simp] theorem State.setClock_clock (s : State) (x : Clock) : (s.setClock x).clock = x := rfl
@[simp] theorem State.setClock_bus (s : State) (x : Clock) (d : Side) :
    (s.setClock x).bus d = s.bus d := by cases d <;> rfl
@[simp] theorem State.setClock_panels (s : State) (x : Clock) (d : Side) :
    (s.setClock x).panels d = s.panels d := by cases d <;> rfl
@[simp] theorem State.setClock_stage (s : State) (x : Clock) (d : Side) :
    (s.setClock x).stage d = s.stage d := by cases d <;> rfl
@[simp] theorem State.setClock_reportDepth (s : State) (x : Clock) (d : Side) :
    (s.setClock x).reportDepth d = s.reportDepth d := by cases d <;> rfl
@[simp] theorem State.setClock_openDoubles (s : State) (x : Clock) :
    (s.setClock x).openDoubles = s.openDoubles := rfl
@[simp] theorem State.setClock_anyPlaying (s : State) (x : Clock) :
    (s.setClock x).anyPlaying = s.anyPlaying := rfl

/-! ### setLink -/

@[simp] theorem State.setLink_localTime (s : State) (x : Link) :
    (s.setLink x).localTime = s.localTime := rfl
@[simp] theorem State.setLink_resetHeld (s : State) (x : Link) :
    (s.setLink x).resetHeld = s.resetHeld := rfl
@[simp] theorem State.setLink_lhold (s : State) (x : Link) : (s.setLink x).lhold = s.lhold := rfl
@[simp] theorem State.setLink_clock (s : State) (x : Link) : (s.setLink x).clock = s.clock := rfl
@[simp] theorem State.setLink_busA (s : State) (x : Link) : (s.setLink x).busA = s.busA := rfl
@[simp] theorem State.setLink_busB (s : State) (x : Link) : (s.setLink x).busB = s.busB := rfl
@[simp] theorem State.setLink_panelsA (s : State) (x : Link) :
    (s.setLink x).panelsA = s.panelsA := rfl
@[simp] theorem State.setLink_panelsB (s : State) (x : Link) :
    (s.setLink x).panelsB = s.panelsB := rfl
@[simp] theorem State.setLink_stuckLimit (s : State) (x : Link) :
    (s.setLink x).stuckLimit = s.stuckLimit := rfl
@[simp] theorem State.setLink_stageA (s : State) (x : Link) : (s.setLink x).stageA = s.stageA := rfl
@[simp] theorem State.setLink_stageB (s : State) (x : Link) : (s.setLink x).stageB = s.stageB := rfl
@[simp] theorem State.setLink_lent (s : State) (x : Link) : (s.setLink x).lent = s.lent := rfl
@[simp] theorem State.setLink_lamps (s : State) (x : Link) : (s.setLink x).lamps = s.lamps := rfl
@[simp] theorem State.setLink_pending (s : State) (x : Link) :
    (s.setLink x).pending = s.pending := rfl
@[simp] theorem State.setLink_link (s : State) (x : Link) : (s.setLink x).link = x := rfl
@[simp] theorem State.setLink_bus (s : State) (x : Link) (d : Side) :
    (s.setLink x).bus d = s.bus d := by cases d <;> rfl
@[simp] theorem State.setLink_panels (s : State) (x : Link) (d : Side) :
    (s.setLink x).panels d = s.panels d := by cases d <;> rfl
@[simp] theorem State.setLink_stage (s : State) (x : Link) (d : Side) :
    (s.setLink x).stage d = s.stage d := by cases d <;> rfl
@[simp] theorem State.setLink_reportDepth (s : State) (x : Link) (d : Side) :
    (s.setLink x).reportDepth d = s.reportDepth d := by cases d <;> rfl
@[simp] theorem State.setLink_openDoubles (s : State) (x : Link) :
    (s.setLink x).openDoubles = s.openDoubles := rfl
@[simp] theorem State.setLink_anyPlaying (s : State) (x : Link) :
    (s.setLink x).anyPlaying = s.anyPlaying := rfl

/-! ### setLamps -/

@[simp] theorem State.setLamps_localTime (s : State) (x : LampCtl) :
    (s.setLamps x).localTime = s.localTime := rfl
@[simp] theorem State.setLamps_resetHeld (s : State) (x : LampCtl) :
    (s.setLamps x).resetHeld = s.resetHeld := rfl
@[simp] theorem State.setLamps_lhold (s : State) (x : LampCtl) :
    (s.setLamps x).lhold = s.lhold := rfl
@[simp] theorem State.setLamps_clock (s : State) (x : LampCtl) :
    (s.setLamps x).clock = s.clock := rfl
@[simp] theorem State.setLamps_busA (s : State) (x : LampCtl) : (s.setLamps x).busA = s.busA := rfl
@[simp] theorem State.setLamps_busB (s : State) (x : LampCtl) : (s.setLamps x).busB = s.busB := rfl
@[simp] theorem State.setLamps_panelsA (s : State) (x : LampCtl) :
    (s.setLamps x).panelsA = s.panelsA := rfl
@[simp] theorem State.setLamps_panelsB (s : State) (x : LampCtl) :
    (s.setLamps x).panelsB = s.panelsB := rfl
@[simp] theorem State.setLamps_stuckLimit (s : State) (x : LampCtl) :
    (s.setLamps x).stuckLimit = s.stuckLimit := rfl
@[simp] theorem State.setLamps_stageA (s : State) (x : LampCtl) :
    (s.setLamps x).stageA = s.stageA := rfl
@[simp] theorem State.setLamps_stageB (s : State) (x : LampCtl) :
    (s.setLamps x).stageB = s.stageB := rfl
@[simp] theorem State.setLamps_lent (s : State) (x : LampCtl) : (s.setLamps x).lent = s.lent := rfl
@[simp] theorem State.setLamps_link (s : State) (x : LampCtl) : (s.setLamps x).link = s.link := rfl
@[simp] theorem State.setLamps_pending (s : State) (x : LampCtl) :
    (s.setLamps x).pending = s.pending := rfl
@[simp] theorem State.setLamps_lamps (s : State) (x : LampCtl) : (s.setLamps x).lamps = x := rfl
@[simp] theorem State.setLamps_bus (s : State) (x : LampCtl) (d : Side) :
    (s.setLamps x).bus d = s.bus d := by cases d <;> rfl
@[simp] theorem State.setLamps_panels (s : State) (x : LampCtl) (d : Side) :
    (s.setLamps x).panels d = s.panels d := by cases d <;> rfl
@[simp] theorem State.setLamps_stage (s : State) (x : LampCtl) (d : Side) :
    (s.setLamps x).stage d = s.stage d := by cases d <;> rfl
@[simp] theorem State.setLamps_reportDepth (s : State) (x : LampCtl) (d : Side) :
    (s.setLamps x).reportDepth d = s.reportDepth d := by cases d <;> rfl
@[simp] theorem State.setLamps_openDoubles (s : State) (x : LampCtl) :
    (s.setLamps x).openDoubles = s.openDoubles := rfl
@[simp] theorem State.setLamps_anyPlaying (s : State) (x : LampCtl) :
    (s.setLamps x).anyPlaying = s.anyPlaying := rfl

/-! ### tick -/

@[simp] theorem State.tick_resetHeld (s : State) (dt : Nat) :
    (s.tick dt).resetHeld = s.resetHeld := rfl
@[simp] theorem State.tick_lhold (s : State) (dt : Nat) : (s.tick dt).lhold = s.lhold := rfl
@[simp] theorem State.tick_clock (s : State) (dt : Nat) : (s.tick dt).clock = s.clock := rfl
@[simp] theorem State.tick_busA (s : State) (dt : Nat) : (s.tick dt).busA = s.busA := rfl
@[simp] theorem State.tick_busB (s : State) (dt : Nat) : (s.tick dt).busB = s.busB := rfl
@[simp] theorem State.tick_panelsA (s : State) (dt : Nat) : (s.tick dt).panelsA = s.panelsA := rfl
@[simp] theorem State.tick_panelsB (s : State) (dt : Nat) : (s.tick dt).panelsB = s.panelsB := rfl
@[simp] theorem State.tick_stuckLimit (s : State) (dt : Nat) :
    (s.tick dt).stuckLimit = s.stuckLimit := rfl
@[simp] theorem State.tick_stageA (s : State) (dt : Nat) : (s.tick dt).stageA = s.stageA := rfl
@[simp] theorem State.tick_stageB (s : State) (dt : Nat) : (s.tick dt).stageB = s.stageB := rfl
@[simp] theorem State.tick_lent (s : State) (dt : Nat) : (s.tick dt).lent = s.lent := rfl
@[simp] theorem State.tick_lamps (s : State) (dt : Nat) : (s.tick dt).lamps = s.lamps := rfl
@[simp] theorem State.tick_link (s : State) (dt : Nat) : (s.tick dt).link = s.link := rfl
@[simp] theorem State.tick_pending (s : State) (dt : Nat) : (s.tick dt).pending = s.pending := rfl
@[simp] theorem State.tick_localTime (s : State) (dt : Nat) :
    (s.tick dt).localTime = later s.localTime dt := rfl
@[simp] theorem State.tick_bus (s : State) (dt : Nat) (d : Side) :
    (s.tick dt).bus d = s.bus d := by cases d <;> rfl
@[simp] theorem State.tick_panels (s : State) (dt : Nat) (d : Side) :
    (s.tick dt).panels d = s.panels d := by cases d <;> rfl
@[simp] theorem State.tick_stage (s : State) (dt : Nat) (d : Side) :
    (s.tick dt).stage d = s.stage d := by cases d <;> rfl
@[simp] theorem State.tick_reportDepth (s : State) (dt : Nat) (d : Side) :
    (s.tick dt).reportDepth d = s.reportDepth d := by cases d <;> rfl
@[simp] theorem State.tick_openDoubles (s : State) (dt : Nat) :
    (s.tick dt).openDoubles = s.openDoubles := rfl
@[simp] theorem State.tick_anyPlaying (s : State) (dt : Nat) :
    (s.tick dt).anyPlaying = s.anyPlaying := rfl

/-! ### raise -/

@[simp] theorem State.raise_localTime (s : State) (k : NoticeKind) (src : Option Side) (ps : BusSet) (det : Int) :
    (s.raise k src ps det).localTime = s.localTime := rfl
@[simp] theorem State.raise_resetHeld (s : State) (k : NoticeKind) (src : Option Side) (ps : BusSet) (det : Int) :
    (s.raise k src ps det).resetHeld = s.resetHeld := rfl
@[simp] theorem State.raise_lhold (s : State) (k : NoticeKind) (src : Option Side) (ps : BusSet) (det : Int) :
    (s.raise k src ps det).lhold = s.lhold := rfl
@[simp] theorem State.raise_clock (s : State) (k : NoticeKind) (src : Option Side) (ps : BusSet) (det : Int) :
    (s.raise k src ps det).clock = s.clock := rfl
@[simp] theorem State.raise_busA (s : State) (k : NoticeKind) (src : Option Side) (ps : BusSet) (det : Int) :
    (s.raise k src ps det).busA = s.busA := rfl
@[simp] theorem State.raise_busB (s : State) (k : NoticeKind) (src : Option Side) (ps : BusSet) (det : Int) :
    (s.raise k src ps det).busB = s.busB := rfl
@[simp] theorem State.raise_panelsA (s : State) (k : NoticeKind) (src : Option Side) (ps : BusSet) (det : Int) :
    (s.raise k src ps det).panelsA = s.panelsA := rfl
@[simp] theorem State.raise_panelsB (s : State) (k : NoticeKind) (src : Option Side) (ps : BusSet) (det : Int) :
    (s.raise k src ps det).panelsB = s.panelsB := rfl
@[simp] theorem State.raise_stuckLimit (s : State) (k : NoticeKind) (src : Option Side) (ps : BusSet) (det : Int) :
    (s.raise k src ps det).stuckLimit = s.stuckLimit := rfl
@[simp] theorem State.raise_stageA (s : State) (k : NoticeKind) (src : Option Side) (ps : BusSet) (det : Int) :
    (s.raise k src ps det).stageA = s.stageA := rfl
@[simp] theorem State.raise_stageB (s : State) (k : NoticeKind) (src : Option Side) (ps : BusSet) (det : Int) :
    (s.raise k src ps det).stageB = s.stageB := rfl
@[simp] theorem State.raise_lent (s : State) (k : NoticeKind) (src : Option Side) (ps : BusSet) (det : Int) :
    (s.raise k src ps det).lent = s.lent := rfl
@[simp] theorem State.raise_lamps (s : State) (k : NoticeKind) (src : Option Side) (ps : BusSet) (det : Int) :
    (s.raise k src ps det).lamps = s.lamps := rfl
@[simp] theorem State.raise_pending (s : State) (k : NoticeKind) (src : Option Side) (ps : BusSet) (det : Int) :
    (s.raise k src ps det).pending = s.pending := rfl
@[simp] theorem State.raise_link (s : State) (k : NoticeKind) (src : Option Side) (ps : BusSet) (det : Int) :
    (s.raise k src ps det).link = s.link.raise k src ps det := rfl
@[simp] theorem State.raise_bus (s : State) (k : NoticeKind) (src : Option Side) (ps : BusSet) (det : Int) (d : Side) :
    (s.raise k src ps det).bus d = s.bus d := by cases d <;> rfl
@[simp] theorem State.raise_panels (s : State) (k : NoticeKind) (src : Option Side) (ps : BusSet) (det : Int) (d : Side) :
    (s.raise k src ps det).panels d = s.panels d := by cases d <;> rfl
@[simp] theorem State.raise_stage (s : State) (k : NoticeKind) (src : Option Side) (ps : BusSet) (det : Int) (d : Side) :
    (s.raise k src ps det).stage d = s.stage d := by cases d <;> rfl
@[simp] theorem State.raise_reportDepth (s : State) (k : NoticeKind) (src : Option Side) (ps : BusSet) (det : Int) (d : Side) :
    (s.raise k src ps det).reportDepth d = s.reportDepth d := by cases d <;> rfl
@[simp] theorem State.raise_openDoubles (s : State) (k : NoticeKind) (src : Option Side) (ps : BusSet) (det : Int) :
    (s.raise k src ps det).openDoubles = s.openDoubles := rfl
@[simp] theorem State.raise_anyPlaying (s : State) (k : NoticeKind) (src : Option Side) (ps : BusSet) (det : Int) :
    (s.raise k src ps det).anyPlaying = s.anyPlaying := rfl

/-! ### reply -/

@[simp] theorem State.reply_localTime (s : State) (r : Reply) :
    (s.reply r).localTime = s.localTime := rfl
@[simp] theorem State.reply_resetHeld (s : State) (r : Reply) :
    (s.reply r).resetHeld = s.resetHeld := rfl
@[simp] theorem State.reply_lhold (s : State) (r : Reply) : (s.reply r).lhold = s.lhold := rfl
@[simp] theorem State.reply_clock (s : State) (r : Reply) : (s.reply r).clock = s.clock := rfl
@[simp] theorem State.reply_busA (s : State) (r : Reply) : (s.reply r).busA = s.busA := rfl
@[simp] theorem State.reply_busB (s : State) (r : Reply) : (s.reply r).busB = s.busB := rfl
@[simp] theorem State.reply_panelsA (s : State) (r : Reply) : (s.reply r).panelsA = s.panelsA := rfl
@[simp] theorem State.reply_panelsB (s : State) (r : Reply) : (s.reply r).panelsB = s.panelsB := rfl
@[simp] theorem State.reply_stuckLimit (s : State) (r : Reply) :
    (s.reply r).stuckLimit = s.stuckLimit := rfl
@[simp] theorem State.reply_stageA (s : State) (r : Reply) : (s.reply r).stageA = s.stageA := rfl
@[simp] theorem State.reply_stageB (s : State) (r : Reply) : (s.reply r).stageB = s.stageB := rfl
@[simp] theorem State.reply_lent (s : State) (r : Reply) : (s.reply r).lent = s.lent := rfl
@[simp] theorem State.reply_lamps (s : State) (r : Reply) : (s.reply r).lamps = s.lamps := rfl
@[simp] theorem State.reply_pending (s : State) (r : Reply) : (s.reply r).pending = s.pending := rfl
@[simp] theorem State.reply_link (s : State) (r : Reply) :
    (s.reply r).link = { s.link with replies := s.link.replies ++ [r] } := rfl
@[simp] theorem State.reply_bus (s : State) (r : Reply) (d : Side) :
    (s.reply r).bus d = s.bus d := by cases d <;> rfl
@[simp] theorem State.reply_panels (s : State) (r : Reply) (d : Side) :
    (s.reply r).panels d = s.panels d := by cases d <;> rfl
@[simp] theorem State.reply_stage (s : State) (r : Reply) (d : Side) :
    (s.reply r).stage d = s.stage d := by cases d <;> rfl
@[simp] theorem State.reply_reportDepth (s : State) (r : Reply) (d : Side) :
    (s.reply r).reportDepth d = s.reportDepth d := by cases d <;> rfl
@[simp] theorem State.reply_openDoubles (s : State) (r : Reply) :
    (s.reply r).openDoubles = s.openDoubles := rfl
@[simp] theorem State.reply_anyPlaying (s : State) (r : Reply) :
    (s.reply r).anyPlaying = s.anyPlaying := rfl

/-! ### ack -/

@[simp] theorem State.ack_localTime (s : State) (k : Byte) (fs : List Byte) :
    (s.ack k fs).localTime = s.localTime := rfl
@[simp] theorem State.ack_resetHeld (s : State) (k : Byte) (fs : List Byte) :
    (s.ack k fs).resetHeld = s.resetHeld := rfl
@[simp] theorem State.ack_lhold (s : State) (k : Byte) (fs : List Byte) :
    (s.ack k fs).lhold = s.lhold := rfl
@[simp] theorem State.ack_clock (s : State) (k : Byte) (fs : List Byte) :
    (s.ack k fs).clock = s.clock := rfl
@[simp] theorem State.ack_busA (s : State) (k : Byte) (fs : List Byte) :
    (s.ack k fs).busA = s.busA := rfl
@[simp] theorem State.ack_busB (s : State) (k : Byte) (fs : List Byte) :
    (s.ack k fs).busB = s.busB := rfl
@[simp] theorem State.ack_panelsA (s : State) (k : Byte) (fs : List Byte) :
    (s.ack k fs).panelsA = s.panelsA := rfl
@[simp] theorem State.ack_panelsB (s : State) (k : Byte) (fs : List Byte) :
    (s.ack k fs).panelsB = s.panelsB := rfl
@[simp] theorem State.ack_stuckLimit (s : State) (k : Byte) (fs : List Byte) :
    (s.ack k fs).stuckLimit = s.stuckLimit := rfl
@[simp] theorem State.ack_stageA (s : State) (k : Byte) (fs : List Byte) :
    (s.ack k fs).stageA = s.stageA := rfl
@[simp] theorem State.ack_stageB (s : State) (k : Byte) (fs : List Byte) :
    (s.ack k fs).stageB = s.stageB := rfl
@[simp] theorem State.ack_lent (s : State) (k : Byte) (fs : List Byte) :
    (s.ack k fs).lent = s.lent := rfl
@[simp] theorem State.ack_lamps (s : State) (k : Byte) (fs : List Byte) :
    (s.ack k fs).lamps = s.lamps := rfl
@[simp] theorem State.ack_pending (s : State) (k : Byte) (fs : List Byte) :
    (s.ack k fs).pending = s.pending := rfl
@[simp] theorem State.ack_link (s : State) (k : Byte) (fs : List Byte) :
    (s.ack k fs).link = { s.link with replies := s.link.replies ++ [.ack k fs] } := rfl
@[simp] theorem State.ack_bus (s : State) (k : Byte) (fs : List Byte) (d : Side) :
    (s.ack k fs).bus d = s.bus d := by cases d <;> rfl
@[simp] theorem State.ack_panels (s : State) (k : Byte) (fs : List Byte) (d : Side) :
    (s.ack k fs).panels d = s.panels d := by cases d <;> rfl
@[simp] theorem State.ack_stage (s : State) (k : Byte) (fs : List Byte) (d : Side) :
    (s.ack k fs).stage d = s.stage d := by cases d <;> rfl
@[simp] theorem State.ack_reportDepth (s : State) (k : Byte) (fs : List Byte) (d : Side) :
    (s.ack k fs).reportDepth d = s.reportDepth d := by cases d <;> rfl
@[simp] theorem State.ack_openDoubles (s : State) (k : Byte) (fs : List Byte) :
    (s.ack k fs).openDoubles = s.openDoubles := rfl
@[simp] theorem State.ack_anyPlaying (s : State) (k : Byte) (fs : List Byte) :
    (s.ack k fs).anyPlaying = s.anyPlaying := rfl

/-! ### refuse -/

@[simp] theorem State.refuse_localTime (s : State) (k c e : Byte) :
    (s.refuse k c e).localTime = s.localTime := rfl
@[simp] theorem State.refuse_resetHeld (s : State) (k c e : Byte) :
    (s.refuse k c e).resetHeld = s.resetHeld := rfl
@[simp] theorem State.refuse_lhold (s : State) (k c e : Byte) :
    (s.refuse k c e).lhold = s.lhold := rfl
@[simp] theorem State.refuse_clock (s : State) (k c e : Byte) :
    (s.refuse k c e).clock = s.clock := rfl
@[simp] theorem State.refuse_busA (s : State) (k c e : Byte) : (s.refuse k c e).busA = s.busA := rfl
@[simp] theorem State.refuse_busB (s : State) (k c e : Byte) : (s.refuse k c e).busB = s.busB := rfl
@[simp] theorem State.refuse_panelsA (s : State) (k c e : Byte) :
    (s.refuse k c e).panelsA = s.panelsA := rfl
@[simp] theorem State.refuse_panelsB (s : State) (k c e : Byte) :
    (s.refuse k c e).panelsB = s.panelsB := rfl
@[simp] theorem State.refuse_stuckLimit (s : State) (k c e : Byte) :
    (s.refuse k c e).stuckLimit = s.stuckLimit := rfl
@[simp] theorem State.refuse_stageA (s : State) (k c e : Byte) :
    (s.refuse k c e).stageA = s.stageA := rfl
@[simp] theorem State.refuse_stageB (s : State) (k c e : Byte) :
    (s.refuse k c e).stageB = s.stageB := rfl
@[simp] theorem State.refuse_lent (s : State) (k c e : Byte) : (s.refuse k c e).lent = s.lent := rfl
@[simp] theorem State.refuse_lamps (s : State) (k c e : Byte) :
    (s.refuse k c e).lamps = s.lamps := rfl
@[simp] theorem State.refuse_pending (s : State) (k c e : Byte) :
    (s.refuse k c e).pending = s.pending := rfl
@[simp] theorem State.refuse_link (s : State) (k c e : Byte) :
    (s.refuse k c e).link = { s.link with replies := s.link.replies ++ [.refused k c e] } := rfl
@[simp] theorem State.refuse_bus (s : State) (k c e : Byte) (d : Side) :
    (s.refuse k c e).bus d = s.bus d := by cases d <;> rfl
@[simp] theorem State.refuse_panels (s : State) (k c e : Byte) (d : Side) :
    (s.refuse k c e).panels d = s.panels d := by cases d <;> rfl
@[simp] theorem State.refuse_stage (s : State) (k c e : Byte) (d : Side) :
    (s.refuse k c e).stage d = s.stage d := by cases d <;> rfl
@[simp] theorem State.refuse_reportDepth (s : State) (k c e : Byte) (d : Side) :
    (s.refuse k c e).reportDepth d = s.reportDepth d := by cases d <;> rfl
@[simp] theorem State.refuse_openDoubles (s : State) (k c e : Byte) :
    (s.refuse k c e).openDoubles = s.openDoubles := rfl
@[simp] theorem State.refuse_anyPlaying (s : State) (k c e : Byte) :
    (s.refuse k c e).anyPlaying = s.anyPlaying := rfl

/-! ### arrived -/

@[simp] theorem State.arrived_resetHeld (s : State) (dt : Nat) :
    (s.arrived dt).resetHeld = s.resetHeld := rfl
@[simp] theorem State.arrived_lhold (s : State) (dt : Nat) : (s.arrived dt).lhold = s.lhold := rfl
@[simp] theorem State.arrived_clock (s : State) (dt : Nat) : (s.arrived dt).clock = s.clock := rfl
@[simp] theorem State.arrived_busA (s : State) (dt : Nat) : (s.arrived dt).busA = s.busA := rfl
@[simp] theorem State.arrived_busB (s : State) (dt : Nat) : (s.arrived dt).busB = s.busB := rfl
@[simp] theorem State.arrived_panelsA (s : State) (dt : Nat) :
    (s.arrived dt).panelsA = s.panelsA := rfl
@[simp] theorem State.arrived_panelsB (s : State) (dt : Nat) :
    (s.arrived dt).panelsB = s.panelsB := rfl
@[simp] theorem State.arrived_stuckLimit (s : State) (dt : Nat) :
    (s.arrived dt).stuckLimit = s.stuckLimit := rfl
@[simp] theorem State.arrived_stageA (s : State) (dt : Nat) :
    (s.arrived dt).stageA = s.stageA := rfl
@[simp] theorem State.arrived_stageB (s : State) (dt : Nat) :
    (s.arrived dt).stageB = s.stageB := rfl
@[simp] theorem State.arrived_lent (s : State) (dt : Nat) : (s.arrived dt).lent = s.lent := rfl
@[simp] theorem State.arrived_lamps (s : State) (dt : Nat) : (s.arrived dt).lamps = s.lamps := rfl
@[simp] theorem State.arrived_pending (s : State) (dt : Nat) :
    (s.arrived dt).pending = s.pending := rfl
@[simp] theorem State.arrived_localTime (s : State) (dt : Nat) :
    (s.arrived dt).localTime = later s.localTime dt := rfl
@[simp] theorem State.arrived_link (s : State) (dt : Nat) :
    (s.arrived dt).link = { s.link with receiver := .waiting } := rfl
@[simp] theorem State.arrived_bus (s : State) (dt : Nat) (d : Side) :
    (s.arrived dt).bus d = s.bus d := by cases d <;> rfl
@[simp] theorem State.arrived_panels (s : State) (dt : Nat) (d : Side) :
    (s.arrived dt).panels d = s.panels d := by cases d <;> rfl
@[simp] theorem State.arrived_stage (s : State) (dt : Nat) (d : Side) :
    (s.arrived dt).stage d = s.stage d := by cases d <;> rfl
@[simp] theorem State.arrived_reportDepth (s : State) (dt : Nat) (d : Side) :
    (s.arrived dt).reportDepth d = s.reportDepth d := by cases d <;> rfl
@[simp] theorem State.arrived_openDoubles (s : State) (dt : Nat) :
    (s.arrived dt).openDoubles = s.openDoubles := rfl
@[simp] theorem State.arrived_anyPlaying (s : State) (dt : Nat) :
    (s.arrived dt).anyPlaying = s.anyPlaying := rfl

/-! ### Two-sided records of lamp control -/

@[simp] theorem LampCtl.setLamps_expiry (l : LampCtl) (d : Side) (x : Vector Lamp 9) :
    (l.setLamps d x).expiry = l.expiry := by cases d <;> rfl
@[simp] theorem LampCtl.setLamps_lamps_same (l : LampCtl) (d : Side) (x : Vector Lamp 9) :
    (l.setLamps d x).lamps d = x := by cases d <;> rfl
@[simp] theorem LampCtl.setLamps_flashSettings (l : LampCtl) (d e : Side) (x : Vector Lamp 9) :
    (l.setLamps d x).flashSettings e = l.flashSettings e := by cases d <;> cases e <;> rfl
@[simp] theorem LampCtl.setFlashSettings_expiry (l : LampCtl) (d : Side) (x : FlashSettings) :
    (l.setFlashSettings d x).expiry = l.expiry := by cases d <;> rfl
@[simp] theorem LampCtl.setFlashSettings_flashSettings_same (l : LampCtl) (d : Side) (x : FlashSettings) :
    (l.setFlashSettings d x).flashSettings d = x := by cases d <;> rfl
@[simp] theorem LampCtl.setFlashSettings_lamps (l : LampCtl) (d e : Side) (x : FlashSettings) :
    (l.setFlashSettings d x).lamps e = l.lamps e := by cases d <;> cases e <;> rfl

end Sys2Proof.Machine
end

