-- ==== Sys2Proof/Laws/Requests.lean ====
section
/-! SUPPORT. What time, reception, dispatch and replies do (R1, R156 to R161). -/

namespace Sys2Proof.Machine

/-! ### Time -/

theorem State.after_of_released {s : State} (h : s.resetHeld = false) (dt : Nat) (f : State → State) :
    s.after dt f = f (s.tick dt) := by
  simp [State.after, h]

theorem State.after_of_held {s : State} (h : s.resetHeld = true) (dt : Nat) (f : State → State) :
    s.after dt f = s := by
  simp [State.after, h]

/-- A property that an event keeps, whether or not RESETN is held. -/
theorem State.after_keeps {P : State → Prop} {s : State} {dt : Nat} {f : State → State} (h : P s)
    (hf : P (s.tick dt) → P (f (s.tick dt))) (ht : P (s.tick dt)) : P (s.after dt f) := by
  unfold State.after
  split
  · exact h
  · exact hf ht

/-! ### Reception and dispatch -/

theorem Completes.goodFrame {s : State} {dt : Nat} {pl : List Byte} {c : LocalTime}
    (h : Completes s dt pl.length c) : (s.tick dt).goodFrame pl = some c := by
  obtain ⟨f, hf, rfl⟩ : ∃ f, s.link.receiver = .receiving f ∧ f.capture = c := by
    have := h.receiving
    revert this
    cases s.link.receiver <;> simp [Receiver.capture?]
  have hl := h.short
  have ht := h.inTime
  simp [State.goodFrame, hf, Config.maxPayload, limitAfterLen, hl, ht]

theorem State.arrived_eq (s : State) (dt : Nat) :
    (s.tick dt).setLink { (s.tick dt).link with receiver := .waiting } = s.arrived dt := rfl

/-- A frame that does not complete: the receiver in WAITING or BREAK, the completion limit passed, or LEN
above 60 (R155, R156). -/
theorem State.goodFrame_eq_none {s : State} {dt : Nat} {pl : List Byte}
    (h : s.link.receiver = .waiting ∨ s.link.receiver = .inBreak ∨
      (∃ c, s.link.receiver.capture? = some c ∧
        (pl.length + 3) * 17 < elapsed c (later s.localTime dt)) ∨ 60 < pl.length) :
    (s.tick dt).goodFrame pl = none := by
  unfold State.goodFrame State.tick
  dsimp only
  split
  · rename_i f hf
    rw [if_neg]
    rintro ⟨hl, ht⟩
    simp only [Config.maxPayload, limitAfterLen] at hl ht
    obtain h | h | ⟨c, hc, h⟩ | h := h
    · simp [hf] at h
    · simp [hf] at h
    · obtain rfl : f.capture = c := by simpa [hf, Receiver.capture?] using hc
      omega
    · omega
  · rfl

/-- A request whose frame does not complete only lets time pass (log 2). -/
theorem State.request_of_incomplete {s : State} {dt : Nat} {pl : List Byte} (h : s.resetHeld = false)
    (hg : (s.tick dt).goodFrame pl = none) (kind : Byte) (lens : List Nat) (first : FirstByte)
    (owner : LocalTime → State → State) : s.request dt kind pl lens first owner = s.tick dt := by
  unfold State.request
  rw [State.after_of_released h, hg]

/-- A request whose frame passes tests 1 and 2 of R159 goes on to tests 4 to 6. -/
theorem Dispatches.request {s : State} {dt : Nat} {pl : List Byte} {c : LocalTime}
    (h : Dispatches s dt pl.length c) (kind : Byte) (lens : List Nat) (first : FirstByte)
    (owner : LocalTime → State → State) :
    s.request dt kind pl lens first owner =
      (s.arrived dt).checkRequest kind pl lens first (owner c) := by
  have hr := h.room
  have hp : ¬ (Config.replyDepth ≤ (s.arrived dt).link.replies.length) := by
    simp only [Config.replyDepth, State.arrived_link]; omega
  have hq : ¬ ((s.arrived dt).link.resetPending = true) := by simp [h.noReset]
  rw [State.request, State.after_of_released h.released]
  rw [h.toCompletes.goodFrame]
  dsimp only [State.receive]
  rw [State.arrived_eq, if_neg hq, if_neg hp]

/-- A request that passes tests 4 to 6 reaches its owner. -/
theorem State.checkRequest_owner {s : State} {kind : Byte} {pl : List Byte} {lens : List Nat}
    {first : FirstByte} {owner : State → State} (hl : pl.length ∈ lens)
    (h5 : first ≠ .none → (byteAt pl 0).toNat ≤ 1)
    (h6 : first = .stage → sideOf (byteAt pl 0) = .b → s.openDoubles = false) :
    s.checkRequest kind pl lens first owner = owner s := by
  unfold State.checkRequest
  have h1 : lens.contains pl.length = true := by simpa using hl
  rw [if_neg (by simpa using h1), if_neg (by rintro ⟨a, b⟩; have := h5 a; omega),
    if_neg (by rintro ⟨a, b, c⟩; simp [h6 a b] at c)]

/-- A request that is dispatched and passes every test reaches its owner at the processing time. -/
theorem Dispatches.owner {s : State} {dt : Nat} {pl : List Byte} {c : LocalTime} {n : Nat}
    (h : Dispatches s dt n c) (hn : pl.length = n) (kind : Byte) {lens : List Nat} {first : FirstByte}
    (owner : LocalTime → State → State) (hl : n ∈ lens)
    (h5 : first ≠ .none → (byteAt pl 0).toNat ≤ 1)
    (h6 : first = .stage → sideOf (byteAt pl 0) = .b → s.openDoubles = false) :
    s.request dt kind pl lens first owner = owner c (s.arrived dt) := by
  subst hn
  rw [h.request, State.checkRequest_owner hl h5 (by simpa using h6)]

/-- Everything a request can do: nothing but time; the frame discarded while a reset is pending; the
request shed; a refusal by the link interface; or its owner's act. -/
theorem State.request_cases (s : State) (dt : Nat) (kind : Byte) (pl : List Byte) (lens : List Nat)
    (first : FirstByte) (owner : LocalTime → State → State) {P : State → Prop} (h0 : P s)
    (h1 : P (s.tick dt)) (h2 : P (s.arrived dt))
    (h3 : P ((s.arrived dt).setLink ((s.arrived dt).link.shed kind)))
    (h4 : s.link.replies.length < 4 → ∀ code detail, P ((s.arrived dt).refuse kind code detail))
    (h5 : s.link.replies.length < 4 → ∀ c, P (owner c (s.arrived dt))) :
    P (s.request dt kind pl lens first owner) := by
  unfold State.request State.after
  split
  · exact h0
  · dsimp only
    split
    · exact h1
    · unfold State.receive
      rw [State.arrived_eq]
      dsimp only
      split
      · exact h2
      · split
        · exact h3
        · rename_i hfull
          have room : s.link.replies.length < 4 := by
            simp [Config.replyDepth] at hfull; omega
          unfold State.checkRequest
          split
          · exact h4 room _ _
          · split
            · exact h4 room _ _
            · split
              · exact h4 room _ _
              · exact h5 room _

/-! ### Notices -/

/-- Every notice after a raise was there before, or is the raise's own entry: a new one or a merged
one. -/
theorem mem_takeRaise {n m : Notice} {l : List Notice} (h : m ∈ takeRaise n l) :
    m ∈ l ∨ m = n ∨ ∃ o ∈ l, noticeKey o = noticeKey n ∧
      m = { o with count := min 255 (o.count + 1), panels := o.panels ||| n.panels, detail := n.detail } := by
  induction l with
  | nil => simp [takeRaise] at h; exact .inr (.inl h)
  | cons o os ih =>
    unfold takeRaise at h
    split at h
    · rename_i hk
      rcases List.mem_cons.1 h with rfl | h
      · exact .inr (.inr ⟨o, by simp, hk, rfl⟩)
      · exact .inl (by simp [h])
    · split at h
      · rcases List.mem_cons.1 h with rfl | h
        · exact .inr (.inl rfl)
        · exact .inl h
      · rcases List.mem_cons.1 h with rfl | h
        · exact .inl (by simp)
        · rcases ih h with h | h | ⟨p, hp, h⟩
          · exact .inl (by simp [h])
          · exact .inr (.inl h)
          · exact .inr (.inr ⟨p, by simp [hp], h⟩)

/-- A merge keeps the entry's place. -/
theorem noticeKey_merge (o n : Notice) (k : Nat) :
    noticeKey { o with count := k, panels := o.panels ||| n.panels, detail := n.detail } = noticeKey o :=
  rfl

theorem noticeKey_mem_takeRaise {n m : Notice} {l : List Notice} (h : m ∈ takeRaise n l) :
    noticeKey m = noticeKey n ∨ ∃ o ∈ l, noticeKey o = noticeKey m := by
  rcases mem_takeRaise h with h | rfl | ⟨o, ho, _, rfl⟩
  · exact .inr ⟨m, h, rfl⟩
  · exact .inl rfl
  · exact .inr ⟨o, ho, rfl⟩

/-- The notice set stays in the arbiter's order, one entry for a pair of kind and stage value (R164). -/
theorem takeRaise_ordered {n : Notice} {l : List Notice}
    (h : l.Pairwise fun a b => noticeKey a < noticeKey b) :
    (takeRaise n l).Pairwise fun a b => noticeKey a < noticeKey b := by
  induction l with
  | nil => simp [takeRaise]
  | cons o os ih =>
    rw [List.pairwise_cons] at h
    unfold takeRaise
    split
    · exact List.pairwise_cons.2 ⟨fun b hb => h.1 b hb, h.2⟩
    · split
      · rename_i hlt
        refine List.pairwise_cons.2 ⟨?_, List.pairwise_cons.2 h⟩
        intro b hb
        rcases List.mem_cons.1 hb with rfl | hb
        · exact hlt
        · exact hlt.trans (h.1 b hb)
      · refine List.pairwise_cons.2 ⟨?_, ih h.2⟩
        intro b hb
        rcases noticeKey_mem_takeRaise hb with hk | ⟨p, hp, hk⟩
        · omega
        · rw [← hk]; exact h.1 p hp

/-- A raise changes the notice set alone (R164). -/
@[simp] theorem Link.raise_frame (l : Link) (k : NoticeKind) (src : Option Side) (ps : BusSet) (d : Int) :
    (l.raise k src ps d).receiver = l.receiver ∧ (l.raise k src ps d).errors = l.errors ∧
      (l.raise k src ps d).replies = l.replies ∧ (l.raise k src ps d).mask = l.mask ∧
      (l.raise k src ps d).transmitter = l.transmitter ∧
      (l.raise k src ps d).lastServed = l.lastServed ∧
      (l.raise k src ps d).resetPending = l.resetPending := by
  unfold Link.raise; split <;> simp

/-- What a raise does to the notice set (R164). -/
theorem Link.raise_notices (l : Link) (k : NoticeKind) (src : Option Side) (ps : BusSet) (d : Int) :
    (l.raise k src ps d).notices =
      if l.mask.getLsbD (noticeCode k) then l.notices else takeRaise ⟨k, src, 1, ps, d⟩ l.notices := by
  unfold Link.raise; split <;> simp

theorem bump_le {n : Nat} : bump n ≤ 65535 := by simp [bump]

end Sys2Proof.Machine
end

