-- ==== Sys2Proof/Laws/Clock.lean ====
section
/-! SUPPORT. What the chart clock's operations do (chapter 1). -/

namespace Sys2Proof.Machine

/-- What the range clamp does (R7): chart time lands in its range, and only chart time and, at the upper
end, the pending correction change. -/
theorem Clock.clamp_spec (c : Clock) :
    (-60000000 ≤ c.clamp.1.chart ∧ c.clamp.1.chart ≤ 2000000000) ∧
      (c.clamp.1.correction = c.correction ∨ c.clamp.1.correction = 0) ∧
      c.clamp.1 = { c with chart := c.clamp.1.chart, correction := c.clamp.1.correction } := by
  by_cases hi : (2000000000 : Int) < c.chart
  · simp [Clock.clamp, Config.chartMax, hi]
  · by_cases lo : c.chart < -60000000
    · simp [Clock.clamp, Config.chartMax, Config.chartMin, hi, lo]
    · simp only [Clock.clamp, Config.chartMax, Config.chartMin, hi, lo, if_false]
      simp; omega

/-- A correction within the allowance is taken whole, a larger one in part (R5, step 4): the rest is no
larger than before. -/
theorem Clock.slewStep_spec (c : Clock) (d : Nat) :
    (c.slewStep d).natAbs ≤ c.allowance d ∧
      (c.correction - c.slewStep d).natAbs + (c.slewStep d).natAbs = c.correction.natAbs := by
  unfold Clock.slewStep
  omega

/-- What an update does to a clock that keeps its invariant (R5, R6, R7). -/
theorem Clock.update_inv {c : Clock} (h : ClockInv c) (t : LocalTime) : ClockInv (c.update t).1 := by
  unfold Clock.update
  split
  · rename_i hr
    dsimp only
    generalize elapsed c.lastUpdate t = d
    have hs := c.slewStep_spec d
    obtain ⟨h1, h2, h3⟩ := Clock.clamp_spec
      { c with chart := c.chart + d + c.slewStep d, correction := c.correction - c.slewStep d,
               lastUpdate := t }
    rw [h3]
    have hc := h.correction
    refine ⟨h1, ?_, h.slew, h.jump, h.silence, h.armed, fun hf => by simp [hr] at hf⟩
    rcases h2 with h2 | h2
    · dsimp only; rw [h2]; dsimp only; omega
    · dsimp only; rw [h2]; simp
  · exact ⟨h.chart, h.correction, h.slew, h.jump, h.silence, h.armed, h.stopped⟩

theorem Clock.update_running (c : Clock) (t : LocalTime) : (c.update t).1.running = c.running := by
  unfold Clock.update
  split
  · rw [(Clock.clamp_spec _).2.2]
  · rfl

theorem Clock.update_housekeeping (c : Clock) (t : LocalTime) :
    (c.update t).1.housekeeping = c.housekeeping := by
  unfold Clock.update
  split
  · rw [(Clock.clamp_spec _).2.2]
  · rfl

theorem Clock.start_inv {c : Clock} (h : ClockInv c) (p : Int) (cap t : LocalTime) :
    ClockInv (c.start p cap t).1 := by
  unfold Clock.start
  obtain ⟨h1, h2, h3⟩ := Clock.clamp_spec
    { c with
      running := true
      chart := p + elapsed cap t
      lastUpdate := t
      correction := 0
      lastSync := t
      silenceNotified := false
      housekeeping := some (later t 1000000) }
  rw [h3]
  refine ⟨h1, ?_, h.slew, h.jump, h.silence, rfl, fun hf => by simp at hf⟩
  rcases h2 with h2 | h2 <;> (dsimp only; rw [h2]; simp)

theorem Clock.start_running (c : Clock) (p : Int) (cap t : LocalTime) :
    (c.start p cap t).1.running = true := by
  unfold Clock.start
  rw [(Clock.clamp_spec _).2.2]

theorem Clock.stop_inv {c : Clock} (h : ClockInv c) : ClockInv c.stop := by
  unfold Clock.stop
  split
  · exact ⟨h.chart, by simp, h.slew, h.jump, h.silence, rfl, fun _ => rfl⟩
  · exact h

theorem Clock.stop_running (c : Clock) : c.stop.running = false := by
  unfold Clock.stop
  split
  · rfl
  · simp_all

theorem Clock.applySync_inv {c : Clock} (h : ClockInv c) (hr : c.running = true) (e : Int)
    (t : LocalTime) : ClockInv (c.applySync e t).1.1 := by
  unfold Clock.applySync
  dsimp only
  split
  · obtain ⟨h1, h2, h3⟩ := Clock.clamp_spec
      { c with lastSync := t, silenceNotified := false, chart := c.chart + e, correction := 0 }
    dsimp only
    rw [h3]
    refine ⟨h1, ?_, h.slew, h.jump, h.silence, h.armed, fun hf => by simp [hr] at hf⟩
    rcases h2 with h2 | h2 <;> (dsimp only; rw [h2]; simp)
  · rename_i hle
    dsimp only at hle ⊢
    exact ⟨h.chart, by dsimp only; omega, h.slew, h.jump, h.silence, h.armed,
      fun hf => by simp [hr] at hf⟩

theorem Clock.applySync_running (c : Clock) (e : Int) (t : LocalTime) :
    (c.applySync e t).1.1.running = c.running := by
  unfold Clock.applySync
  dsimp only
  split
  · dsimp only; rw [(Clock.clamp_spec _).2.2]
  · rfl

theorem Clock.setParams_inv {c : Clock} (h : ClockInv c) (slew jump silence : Nat) :
    ClockInv (c.setParams slew jump silence) := by
  have hc := h.correction
  have hs := h.stopped
  refine ⟨h.chart, ?_, ?_, ?_, ?_, h.armed, ?_⟩ <;>
    simp only [Clock.setParams, clampNat, clampInt] <;> first | omega | skip
  intro hr
  rw [hs hr]
  omega

theorem Clock.setParams_running (c : Clock) (slew jump silence : Nat) :
    (c.setParams slew jump silence).running = c.running := rfl

theorem Clock.afterHousekeeping_inv {c : Clock} (h : ClockInv c) (hr : c.running = true)
    (t : LocalTime) : ClockInv (c.afterHousekeeping t) :=
  ⟨h.chart, h.correction, h.slew, h.jump, h.silence, by simp [Clock.afterHousekeeping, hr],
    fun hf => by simp [Clock.afterHousekeeping, hr] at hf⟩

/-- Storing a clock is setting it, then at most one raise of CLOCK_LIMIT (R7). -/
theorem State.storeClock_cases (s : State) (r : Clock × Option Int) :
    s.storeClock r = s.setClock r.1 ∨
      ∃ x, r.2 = some x ∧ s.storeClock r = (s.setClock r.1).raise .clockLimit none 0 x := by
  unfold State.storeClock
  cases r.2 with
  | none => exact .inl rfl
  | some x => exact .inr ⟨x, rfl, rfl⟩

end Sys2Proof.Machine
end

