-- ==== Sys2Proof/Laws/Judging.lean ====
section
/-! SUPPORT. What judging can do to a stage: its tables change and results are carried out (chapters 6 and 7). -/

namespace Sys2Proof.Machine

/-- The results that carry a worst offset (R142). -/
def gradedResult : Result → Bool
  | .prime | .solid | .fair | .weak => true
  | _ => false

/-- A report maker puts the dropped count it is given into the report (R162). -/
def MakesReport (mk : Option (Bool → Stage → Nat → Report)) : Prop :=
  ∀ f, mk = some f → ∀ b st d, (f b st d).droppedBefore = d

/-- A property of a stage, and of whether a result has failed the session, that judging keeps because
table changes keep it and so does every result carried out whole. -/
structure Kept (ctx : JudgeCtx) (P : Stage → Bool → Prop) : Prop where
  tables : ∀ {st b} tracker table, P st b → P { st with tracker := tracker, table := table } b
  pressed : ∀ {st b}, P st b → P (st.notePressed ctx) b
  result : ∀ {j : Judging} r worst mk, worst.isSome = gradedResult r → MakesReport mk →
    j.halted = false → P j.stage false →
    P (j.result ctx r worst mk).stage (j.result ctx r worst mk).halted
  miss : ∀ {j : Judging} n, j.halted = false → P j.stage false →
    P (j.missWithBody ctx n).stage (j.missWithBody ctx n).halted

namespace Kept

variable {ctx : JudgeCtx} {P : Stage → Bool → Prop}

/-- Two properties that judging keeps, it keeps together. -/
theorem and {Q : Stage → Bool → Prop} (k : Kept ctx P) (q : Kept ctx Q) :
    Kept ctx fun st b => P st b ∧ Q st b :=
  ⟨fun t l h => ⟨k.tables t l h.1, q.tables t l h.2⟩, fun h => ⟨k.pressed h.1, q.pressed h.2⟩,
    fun r w mk hw hm hj h => ⟨k.result r w mk hw hm hj h.1, q.result r w mk hw hm hj h.2⟩,
    fun n hj h => ⟨k.miss n hj h.1, q.miss n hj h.2⟩⟩

/-- The property on a whole judging state. -/
abbrev On (P : Stage → Bool → Prop) (j : Judging) : Prop := P j.stage j.halted

theorem tracker (k : Kept ctx P) {st : Stage} {b : Bool} (h : P st b)
    (t : Vector (Option TrackEntry) 18) : P { st with tracker := t } b :=
  k.tables t st.table h

theorem table (k : Kept ctx P) {st : Stage} {b : Bool} (h : P st b) (t : List Note) :
    P { st with table := t } b :=
  k.tables st.tracker t h

theorem at_false {j : Judging} (h : On P j) (hj : j.halted = false) : P j.stage false := by
  rw [← hj]; exact h

theorem resultOn (k : Kept ctx P) {j : Judging} {r : Result} {worst : Option Int}
    {mk : Option (Bool → Stage → Nat → Report)} (hw : worst.isSome = gradedResult r)
    (hm : MakesReport mk) (hj : j.halted = false) (h : On P j) : On P (j.result ctx r worst mk) :=
  k.result r worst mk hw hm hj (at_false h hj)

theorem makesJudgment (side : Side) (n : Note) (r : Result) (off : Option Int) :
    MakesReport (some (judgmentReport side n r off)) := by
  rintro f ⟨⟩ b st d; rfl

theorem makesHold (side : Side) (id : Nat) (reason : Reason) (p : Nat) :
    MakesReport (some (holdReport side id reason p)) := by
  rintro f ⟨⟩ b st d; rfl

theorem makesMine (side : Side) (id : Nat) (hit : Bool) (p : Nat) :
    MakesReport (some (mineReport side id hit p)) := by
  rintro f ⟨⟩ b st d; rfl

theorem makesNone : MakesReport none := by rintro f ⟨⟩

theorem complete (k : Kept ctx P) {j : Judging} (hj : j.halted = false) (h : On P j) (n : Note) :
    On P (j.complete ctx n) := by
  have hw : (some (n.worst.getD 0)).isSome =
      gradedResult (resultOfGrade (gradeOf j.stage.params (n.worst.getD 0))) := by
    cases gradeOf j.stage.params (n.worst.getD 0) <;> rfl
  exact k.resultOn hw (makesJudgment _ _ _ _) hj h

theorem stray (k : Kept ctx P) {j : Judging} (hj : j.halted = false) (h : On P j) (p : Fin 18) :
    On P (j.stray ctx p) := by
  unfold Judging.stray
  refine k.resultOn rfl ?_ hj h
  split
  · rintro f ⟨⟩ b st d; rfl
  · exact makesNone

theorem press (k : Kept ctx P) {j : Judging} (hj : j.halted = false) (h : On P j) (p : Fin 18) :
    On P (j.press ctx p) := by
  unfold Judging.press
  split
  · exact k.tracker h _
  · split
    · rename_i n table _
      have ht : On P { j with stage := { j.stage with table := table } } := k.table h table
      dsimp only
      split
      · exact k.complete (j := { j with stage := { j.stage with table := table } }) hj ht n
      · exact ht
    · exact k.stray hj h p

theorem pressEdge (k : Kept ctx P) {j : Judging} (h : On P j) (e : Fin 18 × EdgeKind) :
    On P (pressEdge ctx j e) := by
  unfold Machine.pressEdge
  split
  · exact h
  · rename_i hc
    exact k.press (by simp_all) h _

theorem foldPress (k : Kept ctx P) (es : List (Fin 18 × EdgeKind)) {j : Judging} (h : On P j) :
    On P (es.foldl (Machine.pressEdge ctx) j) := by
  induction es generalizing j with
  | nil => exact h
  | cons e es ih => exact ih (k.pressEdge h e)

theorem dropHold (k : Kept ctx P) {j : Judging} (hj : j.halted = false) (h : On P j) (id : Nat)
    (p : Fin 18) (reason : Reason) : On P (j.dropHold ctx id p reason) :=
  k.resultOn (j := { j with stage := { j.stage with tracker := removeHold j.stage.tracker id } })
    rfl (makesHold _ _ _ _) hj (k.tracker h _)

theorem holdOk (k : Kept ctx P) {j : Judging} (hj : j.halted = false) (h : On P j) (id : Nat) :
    On P (j.holdOk ctx id) :=
  k.resultOn (j := { j with stage := { j.stage with tracker := removeHold j.stage.tracker id } })
    rfl (makesHold _ _ _ _) hj (k.tracker h _)

theorem handOver (k : Kept ctx P) {j : Judging} (hj : j.halted = false) (h : On P j) (p : Fin 18)
    (e : TrackEntry) : On P (j.handOver ctx p e) := by
  unfold Judging.handOver
  split
  · exact k.dropHold hj h _ _ _
  · dsimp only
    split
    · exact k.holdOk hj h _
    · exact k.tracker h _

theorem passPanel (k : Kept ctx P) (n : Note) {j : Judging} (h : On P j) (p : Fin 18) :
    On P (Judging.passPanel ctx n j p) := by
  unfold Judging.passPanel
  split
  · exact h
  · rename_i hj
    have hj : j.halted = false := by simpa using hj
    have fin : ∀ j', On P j' → On P (if j'.halted = true then j' else
        { j' with stage := { j'.stage with
          tracker := j'.stage.tracker.set p (some (headEntry ctx j'.stage n p)) } }) := by
      intro j' h'
      split
      · exact h'
      · exact k.tracker h' _
    apply fin
    split
    · split
      · exact h
      · exact k.handOver hj h _ _
    · exact h

theorem foldPass (k : Kept ctx P) (n : Note) (ps : List (Fin 18)) {j : Judging} (h : On P j) :
    On P (ps.foldl (Judging.passPanel ctx n) j) := by
  induction ps generalizing j with
  | nil => exact h
  | cons p ps ih => exact ih (k.passPanel n h p)

theorem passHeads (k : Kept ctx P) (ns : List Note) {j : Judging} (h : On P j) :
    On P (passHeads ctx ns j) := by
  induction ns generalizing j with
  | nil => exact h
  | cons n ns ih =>
    unfold Machine.passHeads
    dsimp only
    split
    · exact k.foldPass n _ h
    · exact ih (k.foldPass n _ h)

theorem resolveHold (k : Kept ctx P) {j : Judging} (h : On P j) (id : Nat) :
    On P (resolveHold ctx j id) := by
  unfold Machine.resolveHold
  split
  · exact h
  · rename_i hj
    have hj : j.halted = false := by simpa using hj
    split
    · exact h
    · split
      · exact k.dropHold hj h _ _ _
      · split
        · exact h
        · exact k.holdOk hj h _

theorem holdPart (k : Kept ctx P) {j : Judging} (h : On P j) : On P (holdPart ctx j) := by
  unfold Machine.holdPart
  generalize holdIds j.stage.tracker = ids
  induction ids generalizing j with
  | nil => exact h
  | cons id ids ih => exact ih (k.resolveHold h id)

theorem sweepTable (k : Kept ctx P) {take : Note → Judging → Option Judging}
    (ht : ∀ n j j', j.halted = false → On P j → take n j = some j' → On P j') {j : Judging}
    (h : On P j) : On P (sweepTable take j) := by
  have sweep : ∀ (ns : List Note) {j : Judging}, On P j → On P (sweep take ns j).2 := by
    intro ns
    induction ns with
    | nil => intro j h; exact h
    | cons n ns ih =>
      intro j h
      unfold Machine.sweep
      split
      · exact h
      · rename_i hj
        split
        · rename_i j' hn
          exact ih (ht n j j' (by simpa using hj) h hn)
        · exact ih h
  exact k.table (sweep _ h) _

theorem laterParts (k : Kept ctx P) {j : Judging} (h : On P j) : On P (laterParts ctx j) := by
  refine k.sweepTable ?_ (k.sweepTable ?_ (k.holdPart h))
  · intro n j j' hj h ht
    unfold takeClosed at ht
    split at ht
    · split at ht <;> cases ht
      · exact k.miss n hj (at_false h hj)
      · exact k.resultOn rfl (makesJudgment _ _ _ _) hj h
    · cases ht
  · intro n j j' hj h ht
    unfold takeMine at ht
    dsimp only at ht
    split at ht
    · cases ht
    · split at ht
      · cases ht
        exact k.resultOn rfl (makesMine _ _ _ _) hj h
      · split at ht
        · cases ht
          refine k.resultOn rfl ?_ hj h
          split
          · exact makesMine _ _ _ _
          · exact makesNone
        · cases ht

theorem releases (k : Kept ctx P) (es : List (Fin 18 × EdgeKind)) {st : Stage} {b : Bool} (h : P st b) :
    P (es.foldl (releaseEdge ctx) st) b := by
  induction es generalizing st with
  | nil => exact h
  | cons e es ih =>
    refine ih ?_
    unfold releaseEdge
    split
    · exact k.tracker h _
    · exact h

theorem earlierParts (k : Kept ctx P) (es : List (Fin 18 × EdgeKind)) {st : Stage} (h : P st false) :
    On P (earlierParts ctx es st) := by
  unfold Machine.earlierParts
  have h1 : P (agreeTracker ctx (es.foldl (releaseEdge ctx) (st.notePressed ctx))) false :=
    k.tracker (k.releases es (k.pressed h)) _
  have h2 := k.foldPress (j := { stage := _, heads := [], flashes := [], halted := false }) es h1
  dsimp only
  split
  · exact h2
  · exact k.passHeads _ h2

/-- What judging a record keeps (R93): the parts keep the property, whether or not they fail the
session. -/
theorem parts (k : Kept ctx P) (es : List (Fin 18 × EdgeKind)) {st : Stage} (h : P st false) :
    On P (Machine.laterParts ctx (Machine.earlierParts ctx es st)) :=
  k.laterParts (k.earlierParts es h)

end Kept

/-- The accounts and the report queue are all that emptying leaves changed besides the tables (R64). -/
theorem Stage.emptySession_keeps {P : Stage → Prop} (st : Stage) (heads : List Note) (h : P st)
    (ha : ∀ st r, r = .discarded ∨ r = .cut → P st → P (st.account r none))
    (ht : ∀ st, P st → P { st with table := [], tracker := Vector.replicate 18 none }) :
    P (st.emptySession heads) := by
  have fold : ∀ {α : Type} (r : Result) (l : List α) (st : Stage), (r = .discarded ∨ r = .cut) → P st →
      P (l.foldl (fun st _ => st.account r none) st) := by
    intro α r l
    induction l with
    | nil => intro st _ h; exact h
    | cons x xs ih => intro st hr h; exact ih _ hr (ha st r hr h)
  unfold Stage.emptySession
  exact ht _ (fold .cut _ _ (.inr rfl) (fold .discarded _ _ (.inl rfl) h))

end Sys2Proof.Machine
end

