-- ==== Sys2Proof/Laws/Accounts.lean ====
section
/-! SUPPORT. What a result does to the accounts and to the report queue (chapter 8, R162). -/

namespace Sys2Proof.Machine

/-! ### The report queue -/

/-- Everything an offer does (R162). -/
theorem Stage.offer_spec (st : Stage) (depth : Nat) (mk : Nat → Report) :
    (st.reports.length < depth ∧
      st.offer depth mk =
        { st with reports := st.reports ++ [mk st.droppedCount], droppedCount := 0 }) ∨
    (depth ≤ st.reports.length ∧
      st.offer depth mk = { st with droppedCount := min 255 (st.droppedCount + 1) }) := by
  unfold Stage.offer
  split
  · exact .inl ⟨‹_›, rfl⟩
  · exact .inr ⟨by omega, rfl⟩

/-- A stage's queue within a depth, its dropped count and its reports' within 255 (R162). -/
structure Stage.QueueOk (depth : Nat) (st : Stage) : Prop where
  length : st.reports.length ≤ depth
  dropped : st.droppedCount ≤ 255
  before : ∀ r ∈ st.reports, r.droppedBefore ≤ 255

theorem Stage.QueueOk.offer {depth : Nat} {st : Stage} (h : st.QueueOk depth) {mk : Nat → Report}
    (hm : ∀ d, (mk d).droppedBefore = d) : (st.offer depth mk).QueueOk depth := by
  rcases st.offer_spec depth mk with ⟨hr, he⟩ | ⟨_, he⟩ <;> rw [he]
  · refine ⟨by simp; omega, by simp, ?_⟩
    intro r hr
    rcases List.mem_append.1 hr with hr | hr
    · exact h.before r hr
    · rw [List.mem_singleton.1 hr, hm]; exact h.dropped
  · exact ⟨h.length, by simp, h.before⟩

/-! ### Results -/

/-- What the accounts leave alone. -/
@[simp] theorem Stage.account_frame (st : Stage) (r : Result) (w : Option Int) :
    (st.account r w).state = st.state ∧ (st.account r w).mode = st.mode ∧
      (st.account r w).units = st.units ∧ (st.account r w).failEnable = st.failEnable ∧
      (st.account r w).askStrays = st.askStrays ∧ (st.account r w).askAvoided = st.askAvoided ∧
      (st.account r w).failed = st.failed ∧ (st.account r w).table = st.table ∧
      (st.account r w).busyUntil = st.busyUntil ∧ (st.account r w).tracker = st.tracker ∧
      (st.account r w).lastPressedA = st.lastPressedA ∧
      (st.account r w).lastPressedB = st.lastPressedB ∧
      (st.account r w).lastAccepted = st.lastAccepted ∧ (st.account r w).reports = st.reports ∧
      (st.account r w).droppedCount = st.droppedCount ∧ (st.account r w).params = st.params ∧
      (st.account r w).inputOffset = st.inputOffset := by
  unfold Stage.account Stage.addOffset
  cases w <;> simp; split <;> simp

theorem Stage.account_life (st : Stage) (r : Result) (w : Option Int) :
    (st.account r w).life = lifeAfter st.life r := by
  unfold Stage.account Stage.addOffset
  cases w <;> simp; split <;> simp

theorem lifeAfter_le {life : Nat} (h : life ≤ 1000) (r : Result) : lifeAfter life r ≤ 1000 := by
  unfold lifeAfter clampLife
  split <;> omega

/-- DISCARDED and CUT leave life as it stands (R64, R138). -/
theorem lifeAfter_emptying (life : Nat) {r : Result} (h : r = .discarded ∨ r = .cut) :
    lifeAfter life r = life := by
  rcases h with rfl | rfl <;> rfl

/-- Max combo follows an increase of combo (R137). -/
theorem maxComboAfter_spec (m before after : Nat) :
    (before < after ∧ maxComboAfter m before after = max m after) ∨
      (after ≤ before ∧ maxComboAfter m before after = m) := by
  unfold maxComboAfter
  by_cases h : before < after
  · exact .inl ⟨h, if_pos h⟩
  · exact .inr ⟨by omega, if_neg h⟩

/-- What a result leaves for the accounts of a session to keep (R132, R133, R136, R137, R141, R142). -/
theorem Stage.AccountInv.account {st : Stage} (h : st.AccountInv) {r : Result} {w : Option Int}
    (hw : w.isSome = gradedResult r) : (st.account r w).AccountInv := by
  obtain ⟨hu, he, ho, hc, hs, hk, hg, hx⟩ := h
  have hk' : ∀ k ∈ (st.counts.add r).toList, k ≤ 65535 := by
    simp only [Counts.toList, List.mem_cons, List.not_mem_nil, or_false, forall_eq_or_imp,
      forall_eq] at hk ⊢
    cases r <;> simp only [Counts.add, bump] <;> omega
  simp only [Counts.toList, List.mem_cons, List.not_mem_nil, or_false, forall_eq_or_imp,
    forall_eq] at hk
  have he' : addTenths st.earned r ≤ 1310700 ∧
      addTenths st.earned r ≤ 10 * (st.judged + unitsOf r) := by
    cases r <;> simp [addTenths, tenths, unitsOf, maxEarned] <;> omega
  have ho' : (st.overcount || decide (st.units < st.judged + unitsOf r ∧ unitsOf r ≠ 0)) =
      decide (st.units < st.judged + unitsOf r) := by
    rw [ho]
    cases r <;> simp [unitsOf] <;> omega
  have hc' : comboAfter st.combo r ≤ maxComboAfter st.maxCombo st.combo (comboAfter st.combo r) ∧
      maxComboAfter st.maxCombo st.combo (comboAfter st.combo r) ≤ 65535 := by
    have hm := maxComboAfter_spec st.maxCombo st.combo (comboAfter st.combo r)
    constructor <;> cases r <;> simp only [comboAfter, bump] at hm ⊢ <;> omega
  have hs' : maxComboAfter st.maxCombo st.combo (comboAfter st.combo r) ≤
      (st.counts.add r).prime + (st.counts.add r).solid + (st.counts.add r).fair := by
    have hm := maxComboAfter_spec st.maxCombo st.combo (comboAfter st.combo r)
    cases r <;> simp only [comboAfter, Counts.add, bump] at hm ⊢ <;> omega
  have hx' : (∀ k ∈ (st.counts.add r).toList, k < 65535) →
      st.judged + unitsOf r = (st.counts.add r).prime + (st.counts.add r).solid + (st.counts.add r).fair +
        (st.counts.add r).weak + (st.counts.add r).miss + (st.counts.add r).holdOk +
        (st.counts.add r).dropped + (st.counts.add r).cut ∧
      addTenths st.earned r = min 1310700 (10 * (st.counts.add r).prime + 8 * (st.counts.add r).solid +
        5 * (st.counts.add r).fair + 2 * (st.counts.add r).weak + 10 * (st.counts.add r).holdOk) := by
    intro hlt
    simp only [Counts.toList, List.mem_cons, List.not_mem_nil, or_false, forall_eq_or_imp,
      forall_eq] at hlt hx
    cases r <;> simp only [Counts.add, bump] at hlt ⊢ <;>
      obtain ⟨h1, h2⟩ := hx (by omega) <;>
      simp only [unitsOf, addTenths, tenths, maxEarned, if_true, if_false,
        OfNat.ofNat_ne_zero] <;> omega
  have sum : ∀ x : Result, gradedResult x = true →
      min 65535 ((st.counts.add x).prime + (st.counts.add x).solid + (st.counts.add x).fair +
        (st.counts.add x).weak) = min 65535 (st.graded + 1) := by
    intro x hx
    cases x <;> simp [gradedResult] at hx <;> simp only [Counts.add, bump] <;> omega
  have same : ∀ x : Result, gradedResult x = false →
      (st.counts.add x).prime = st.counts.prime ∧ (st.counts.add x).solid = st.counts.solid ∧
        (st.counts.add x).fair = st.counts.fair ∧ (st.counts.add x).weak = st.counts.weak := by
    intro x hx
    cases x <;> simp [gradedResult] at hx <;> simp [Counts.add]
  cases w with
  | none =>
    obtain ⟨a, b, c, d⟩ := same r hw.symm
    refine ⟨hu, he', ho', hc', hs', hk', ?_, hx'⟩
    show st.graded = min 65535 ((st.counts.add r).prime + (st.counts.add r).solid +
      (st.counts.add r).fair + (st.counts.add r).weak)
    rw [a, b, c, d]; exact hg
  | some off =>
    have hg' := sum r hw.symm
    unfold Stage.account Stage.addOffset
    dsimp only
    split
    · refine ⟨hu, he', ho', hc', hs', hk', ?_, hx'⟩
      dsimp only
      omega
    · refine ⟨hu, he', ho', hc', hs', hk', ?_, hx'⟩
      dsimp only
      omega

/-! ### What judging keeps -/

/-- What a closure with a body keeps (R107): two results, two offers, the failed flag. -/
theorem Judging.missWithBody_keeps {P : Stage → Prop} {ctx : JudgeCtx} {j : Judging} (n : Note)
    (h : P j.stage) (acc : ∀ st r, r = .miss ∨ r = .dropped → P st → P (st.account r none))
    (off : ∀ st mk, (∀ d, (mk d).droppedBefore = d) → P st → P (st.offer ctx.depth mk))
    (fail : ∀ st b, P st → P { st with failed := b }) : P (j.missWithBody ctx n).stage :=
  fail _ _ (off _ _ (fun _ => rfl) (acc _ _ (.inr rfl) (off _ _ (fun _ => rfl) (acc _ _ (.inl rfl) h))))

/-- What a result keeps: the accounts, an offer if it has a report, the failed flag. -/
theorem Judging.result_keeps {P : Stage → Prop} {ctx : JudgeCtx} {j : Judging} {r : Result}
    {w : Option Int} {mk : Option (Bool → Stage → Nat → Report)} (hm : MakesReport mk)
    (h : P (j.stage.account r w))
    (off : ∀ st mk, (∀ d, (mk d).droppedBefore = d) → P st → P (st.offer ctx.depth mk))
    (fail : ∀ st b, P st → P { st with failed := b }) : P (j.result ctx r w mk).stage := by
  unfold Judging.result
  cases mk with
  | none => exact fail _ _ h
  | some mk => exact fail _ _ (off _ _ (hm mk rfl _ _) h)

theorem Stage.QueueOk.account {depth : Nat} {st : Stage} (h : st.QueueOk depth) (r : Result)
    (w : Option Int) : (st.account r w).QueueOk depth :=
  ⟨by simpa using h.length, by simpa using h.dropped, by simpa using h.before⟩

/-- The queue of the stage being judged stays within its depth (R162). -/
theorem keepsQueue (ctx : JudgeCtx) : Kept ctx fun st _ => st.QueueOk ctx.depth where
  tables := fun _ _ h => ⟨h.length, h.dropped, h.before⟩
  pressed := fun {st b} h => by
    unfold Stage.notePressed; split <;> exact ⟨h.length, h.dropped, h.before⟩
  result := fun r w mk _ hm _ h =>
    Judging.result_keeps hm (h.account r w) (fun _ _ hm h => h.offer hm)
      (fun _ _ h => ⟨h.length, h.dropped, h.before⟩)
  miss := fun n _ h =>
    Judging.missWithBody_keeps (P := Stage.QueueOk ctx.depth) n h (fun _ r _ h => h.account r none)
      (fun _ _ hm h => h.offer hm) (fun _ _ h => ⟨h.length, h.dropped, h.before⟩)

theorem Stage.AccountInv.offer {st : Stage} (h : st.AccountInv) (depth : Nat) (mk : Nat → Report) :
    (st.offer depth mk).AccountInv := by
  rcases st.offer_spec depth mk with ⟨_, he⟩ | ⟨_, he⟩ <;> rw [he] <;>
    exact ⟨h.units, h.earned, h.overcounted, h.combo, h.steps, h.counts, h.graded, h.exact⟩

/-- The accounts keep their invariant (chapter 8). -/
theorem keepsAccounts (ctx : JudgeCtx) : Kept ctx fun st _ => st.AccountInv where
  tables := fun _ _ h => ⟨h.units, h.earned, h.overcounted, h.combo, h.steps, h.counts, h.graded, h.exact⟩
  pressed := fun {st b} h => by
    unfold Stage.notePressed
    split <;> exact ⟨h.units, h.earned, h.overcounted, h.combo, h.steps, h.counts, h.graded, h.exact⟩
  result := fun r w mk hw hm _ h =>
    Judging.result_keeps hm (h.account hw) (fun _ _ _ h => h.offer _ _)
      (fun _ _ h => ⟨h.units, h.earned, h.overcounted, h.combo, h.steps, h.counts, h.graded, h.exact⟩)
  miss := fun n _ h =>
    Judging.missWithBody_keeps n h
      (fun _ r hr h => h.account (by rcases hr with rfl | rfl <;> rfl)) (fun _ _ _ h => h.offer _ _)
      (fun _ _ h => ⟨h.units, h.earned, h.overcounted, h.combo, h.steps, h.counts, h.graded, h.exact⟩)

/-- Life during judging (R138, R140): within 0 to 1000; 0 once a result has failed the session; above 0
until then with fail enable on. -/
structure Stage.LifeDuring (st : Stage) (failEnable : Bool) (halted : Bool) : Prop where
  range : st.life ≤ 1000
  same : st.failEnable = failEnable
  spent : halted = true → st.life = 0
  alive : halted = false → failEnable = true → 0 < st.life

theorem Stage.offer_life (st : Stage) (depth : Nat) (mk : Nat → Report) :
    (st.offer depth mk).life = st.life ∧ (st.offer depth mk).failEnable = st.failEnable ∧
      (st.offer depth mk).state = st.state := by
  rcases st.offer_spec depth mk with ⟨_, he⟩ | ⟨_, he⟩ <;> simp [he]

/-- Life keeps its bounds through judging (R138, R140). -/
theorem keepsLife (ctx : JudgeCtx) (fe : Bool) : Kept ctx fun st b => st.LifeDuring fe b where
  tables := fun _ _ h => ⟨h.range, h.same, h.spent, h.alive⟩
  pressed := fun {st b} h => by
    unfold Stage.notePressed; split <;> exact ⟨h.range, h.same, h.spent, h.alive⟩
  result := by
    intro j r w mk _ _ hj h
    have hl : (j.result ctx r w mk).stage.life = lifeAfter j.stage.life r := by
      unfold Judging.result
      cases mk with
      | none => exact j.stage.account_life r w
      | some mk => dsimp only; rw [(Stage.offer_life _ _ _).1, Stage.account_life]
    have hf : (j.result ctx r w mk).stage.failEnable = j.stage.failEnable := by
      unfold Judging.result
      cases mk with
      | none => simp
      | some mk => dsimp only; rw [(Stage.offer_life _ _ _).2.1]; simp
    have hh : (j.result ctx r w mk).halted = failsSession j.stage (j.stage.account r w) := by
      simp [Judging.result, hj]
    have hr := lifeAfter_le h.range r
    refine ⟨by omega, hf.trans h.same, ?_, ?_⟩
    · rw [hh, hl]
      simp [failsSession, Stage.account_life]
    · rw [hh, hl]
      simp only [failsSession, Stage.account_life, h.same]
      intro h1 h2
      have := h.alive rfl h2
      simp [h2, this] at h1
      omega
  miss := by
    intro j n hj h
    have hl : (j.missWithBody ctx n).stage.life = lifeAfter (lifeAfter j.stage.life .miss) .dropped := by
      unfold Judging.missWithBody
      dsimp only
      rw [(Stage.offer_life _ _ _).1, Stage.account_life, (Stage.offer_life _ _ _).1, Stage.account_life]
    have hf : (j.missWithBody ctx n).stage.failEnable = j.stage.failEnable := by
      unfold Judging.missWithBody
      dsimp only
      rw [(Stage.offer_life _ _ _).2.1, (Stage.account_frame _ _ _).2.2.2.1,
        (Stage.offer_life _ _ _).2.1, (Stage.account_frame _ _ _).2.2.2.1]
    have hh : (j.missWithBody ctx n).halted =
        failsSession j.stage ((j.stage.account .miss none).account .dropped none) := by
      simp [Judging.missWithBody, hj]
    have hr := lifeAfter_le (lifeAfter_le h.range .miss) .dropped
    refine ⟨by omega, hf.trans h.same, ?_, ?_⟩
    · rw [hh, hl]
      simp [failsSession, Stage.account_life]
    · rw [hh, hl]
      simp only [failsSession, Stage.account_life, h.same]
      intro h1 h2
      have := h.alive rfl h2
      simp [h2, this] at h1
      omega

/-- The failed flag, the state and the mode are not judging's to change before its end. -/
theorem keepsState (ctx : JudgeCtx) (state : StageState) (mode : Mode) :
    Kept ctx fun st _ => st.state = state ∧ st.mode = mode where
  tables := fun _ _ h => h
  pressed := fun {st b} h => by unfold Stage.notePressed; split <;> exact h
  result := fun r w mk _ hm _ h =>
    Judging.result_keeps (P := fun st => st.state = state ∧ st.mode = mode) hm (by simpa using h)
      (fun st mk _ h => by rcases st.offer_spec ctx.depth mk with ⟨_, he⟩ | ⟨_, he⟩ <;> rw [he] <;> exact h)
      (fun _ _ h => h)
  miss := fun n _ h =>
    Judging.missWithBody_keeps (P := fun st => st.state = state ∧ st.mode = mode) n h
      (fun _ r _ h => by simpa using h)
      (fun st mk _ h => by rcases st.offer_spec ctx.depth mk with ⟨_, he⟩ | ⟨_, he⟩ <;> rw [he] <;> exact h)
      (fun _ _ h => h)

end Sys2Proof.Machine
end

