-- ==== Sys2Proof/Laws/Notes.lean ====
section
/-! SUPPORT. What judging does to the note table and the hold tracker (chapters 5 to 7). -/

namespace Sys2Proof.Machine

/-! ### Trackers -/

/-- Every entry of the later tracker was there before, with its id and end. -/
def TrackerSub (later before : Vector (Option TrackEntry) 18) : Prop :=
  ∀ (p : Fin 18) e, later[p] = some e → ∃ e', before[p] = some e' ∧ e'.id = e.id ∧ e'.endTime = e.endTime

theorem TrackerSub.refl (t : Vector (Option TrackEntry) 18) : TrackerSub t t :=
  fun _ e h => ⟨e, h, rfl, rfl⟩

theorem TrackerSub.trans {a b c : Vector (Option TrackEntry) 18} (h : TrackerSub a b)
    (h' : TrackerSub b c) : TrackerSub a c := by
  intro p e he
  obtain ⟨e', he', h1, h2⟩ := h p e he
  obtain ⟨e'', he'', h3, h4⟩ := h' p e' he'
  exact ⟨e'', he'', h3.trans h1, h4.trans h2⟩

/-- An entry of a tracker after one panel's entry is set. -/
theorem tracker_set_get (t : Vector (Option TrackEntry) 18) (p q : Fin 18) (x : Option TrackEntry) :
    (t.set p x)[q] = if p = q then x else t[q] := by
  simp only [Fin.getElem_fin, Vector.getElem_set, Fin.ext_iff]

theorem TrackerSub.set {t : Vector (Option TrackEntry) 18} (p : Fin 18) {x : Option TrackEntry}
    (h : ∀ e, x = some e → ∃ e', t[p] = some e' ∧ e'.id = e.id ∧ e'.endTime = e.endTime) :
    TrackerSub (t.set p x) t := by
  intro q e he
  rw [tracker_set_get] at he
  split at he
  · rename_i hpq; subst hpq; exact h e he
  · exact ⟨e, he, rfl, rfl⟩

theorem TrackerSub.removeHold (t : Vector (Option TrackEntry) 18) (id : Nat) :
    TrackerSub (removeHold t id) t := by
  intro p e he
  simp only [Machine.removeHold, Fin.getElem_fin, Vector.getElem_ofFn] at he
  have : t[p] = some e := by
    simp only [Fin.getElem_fin]
    split at he
    · split at he
      · cases he
      · rename_i h' _; rw [h']; exact he
    · cases he
  exact ⟨e, this, rfl, rfl⟩

theorem TrackEntry.release_id (e : TrackEntry) (t : Int) :
    (e.release t).id = e.id ∧ (e.release t).endTime = e.endTime := by
  unfold TrackEntry.release; split <;> exact ⟨rfl, rfl⟩

theorem TrackEntry.agree_id (e : TrackEntry) (b : Bool) (t : Int) :
    (e.agree b t).id = e.id ∧ (e.agree b t).endTime = e.endTime := by
  unfold TrackEntry.agree; split <;> (try split) <;> exact ⟨rfl, rfl⟩

theorem TrackEntry.press_id (e : TrackEntry) (t : Int) :
    (e.press t).id = e.id ∧ (e.press t).endTime = e.endTime := by
  unfold TrackEntry.press; split <;> exact ⟨rfl, rfl⟩

/-! ### Notes of a stage -/

/-- Stages with the same tables keep the same notes. -/
theorem Stage.NotesInv.congr {st st' : Stage} (h : st.NotesInv) (ht : st'.table = st.table)
    (hr : st'.tracker = st.tracker) (hb : st'.busyUntil = st.busyUntil)
    (hl : st'.lastAccepted = st.lastAccepted) (hm : st'.mode = st.mode) : st'.NotesInv := by
  obtain ⟨a, b, c, d, e, f, g, i⟩ := h
  constructor <;> simp only [ht, hr, hb, hl, hm] <;> assumption

/-- Entries may leave the tracker or change their state. -/
theorem Stage.NotesInv.tracker {st : Stage} (h : st.NotesInv) {t : Vector (Option TrackEntry) 18}
    (hs : TrackerSub t st.tracker) : { st with tracker := t }.NotesInv := by
  refine ⟨h.capacity, h.ordered, h.disjoint, h.waiting, h.last, h.busy, ?_, ?_⟩
  · intro p e he
    obtain ⟨e', he', hid, _⟩ := hs p e he
    rw [← hid]; exact h.tracked p e' he'
  · intro p q e f he hf hef
    obtain ⟨e', he', h1, h2⟩ := hs p e he
    obtain ⟨f', hf', h3, h4⟩ := hs q f hf
    rw [← h2, ← h4]
    exact h.holds p q e' f' he' hf' (by omega)

/-- Notes may leave the table. -/
theorem Stage.NotesInv.sublist {st : Stage} (h : st.NotesInv) {l : List Note}
    (hs : l.Sublist st.table) : { st with table := l }.NotesInv := by
  refine ⟨hs.length_le.trans h.capacity, h.ordered.sublist hs, h.disjoint.sublist hs,
    fun n hn => h.waiting n (hs.subset hn), fun n hn => h.last n (hs.subset hn),
    fun n hn => h.busy n (hs.subset hn), ?_, h.holds⟩
  intro p e he
  exact ⟨fun n hn => (h.tracked p e he).1 n (hs.subset hn), (h.tracked p e he).2⟩

/-- The earliest eligible note is struck where it stands, and leaves when complete (R97, R98, R99). -/
theorem strikeTable_spec {w4 : Nat} {time : Int} {p : Fin 18} {l l' : List Note} {n' : Note}
    (h : strikeTable w4 time p l = some (n', l')) :
    ∃ before n after, l = before ++ n :: after ∧ (∀ m ∈ before, eligible w4 time p m = false) ∧
      eligible w4 time p n = true ∧ n' = n.strike p time ∧
      l' = before ++ (if n'.struck = n'.panels then after else n' :: after) := by
  induction l generalizing l' with
  | nil => cases h
  | cons n ns ih =>
    unfold strikeTable at h
    split at h
    · rename_i he
      cases h
      exact ⟨[], n, ns, rfl, by simp, he, rfl, rfl⟩
    · rename_i he
      cases hr : strikeTable w4 time p ns with
      | none => rw [hr] at h; cases h
      | some r =>
        obtain ⟨m, t⟩ := r
        rw [hr] at h
        cases h
        obtain ⟨b, x, a, h1, h2, h3, h4, h5⟩ := ih hr
        refine ⟨n :: b, x, a, by rw [h1]; rfl, ?_, h3, h4, by rw [h5]; rfl⟩
        intro m hm
        rcases List.mem_cons.1 hm with rfl | hm
        · simpa using he
        · exact h2 m hm

/-- No note is struck when none is eligible (R95). -/
theorem strikeTable_none {w4 : Nat} {time : Int} {p : Fin 18} {l : List Note} :
    strikeTable w4 time p l = none ↔ ∀ n ∈ l, eligible w4 time p n = false := by
  induction l with
  | nil => simp [strikeTable]
  | cons n ns ih =>
    unfold strikeTable
    split
    · rename_i he; simp [he]
    · rename_i he; simp [he, ih]

theorem addPanel_ne_zero (s : StageSet) (p : Fin 18) : addPanel s p ≠ 0 := by
  intro h
  have := congrArg (fun x : StageSet => x.getLsbD p.val) h
  simp [addPanel] at this

theorem addPanel_sub {s t : StageSet} {p : Fin 18} (h : s &&& t = s) (hp : t.getLsbD p.val = true) :
    addPanel s p &&& t = addPanel s p := by
  apply BitVec.eq_of_getLsbD_eq
  intro i hi
  have hs := congrArg (fun x : StageSet => x.getLsbD i) h
  simp only [BitVec.getLsbD_and] at hs
  simp only [addPanel, BitVec.getLsbD_and, BitVec.getLsbD_or, BitVec.getLsbD_twoPow]
  by_cases hi' : p.val = i
  · subst hi'; simp [hp]
  · simp [hi', hs]

/-- A struck note that is not complete waits on (R89, R98). -/
theorem Note.Waiting.strike {n : Note} {mode : Mode} (h : n.Waiting mode) {w4 : Nat} {time : Int}
    {p : Fin 18} (he : eligible w4 time p n = true) (hc : (n.strike p time).struck ≠ n.panels) :
    (n.strike p time).Waiting mode := by
  simp only [eligible, Bool.and_eq_true, bne_iff_ne, ne_eq, Bool.not_eq_true'] at he
  refine ⟨h.anyPanel, h.few, h.range, ⟨addPanel_sub h.partly.1 he.1.1.2, hc⟩, ?_, ?_, h.length⟩
  · have hz : addPanel n.struck p ≠ 0#18 := addPanel_ne_zero n.struck p
    simp [Note.strike, hz]
  · intro hk; exact absurd hk he.1.1.1

/-- A press's strike keeps the notes (R98, R99): what the table is after it. -/
theorem Stage.NotesInv.struck {st : Stage} (h : st.NotesInv) {w4 : Nat} {time : Int} {p : Fin 18}
    {n' : Note} {l' : List Note} (hs : strikeTable w4 time p st.table = some (n', l')) :
    { st with table := l' }.NotesInv := by
  obtain ⟨b, n, a, hl, _, he, hn, hl'⟩ := strikeTable_spec hs
  subst hn
  by_cases hc : (n.strike p time).struck = (n.strike p time).panels
  · rw [if_pos hc] at hl'
    exact h.sublist (by rw [hl, hl']; simp)
  · rw [if_neg hc] at hl'
    have hmem : n ∈ st.table := by rw [hl]; simp
    have old : ∀ m ∈ l', m = n.strike p time ∨ m ∈ st.table := by
      intro m hm
      rw [hl'] at hm; rw [hl]
      simp only [List.mem_append, List.mem_cons] at hm ⊢
      tauto
    have pair : ∀ R : Note → Note → Prop, st.table.Pairwise R →
        (∀ m, R m n → R m (n.strike p time)) → (∀ m, R n m → R (n.strike p time) m) → l'.Pairwise R := by
      intro R hp h1 h2
      rw [hl, List.pairwise_append, List.pairwise_cons] at hp
      rw [hl', List.pairwise_append, List.pairwise_cons]
      obtain ⟨hb, ⟨hn, ha⟩, hba⟩ := hp
      refine ⟨hb, ⟨fun m hm => h2 m (hn m hm), ha⟩, ?_⟩
      intro x hx y hy
      rcases List.mem_cons.1 hy with rfl | hy
      · exact h1 x (hba x hx n (by simp))
      · exact hba x hx y (by simp [hy])
    refine ⟨?_, pair _ h.ordered (fun _ h => h) (fun _ h => h),
      pair _ h.disjoint (fun _ h => h) (fun _ h => h), ?_, ?_, ?_, ?_, h.holds⟩
    · have := h.capacity; rw [hl] at this; dsimp only; rw [hl']; simpa using this
    · intro m hm
      rcases old m hm with rfl | hm
      · exact (h.waiting n hmem).strike he hc
      · exact h.waiting m hm
    · intro m hm
      rcases old m hm with rfl | hm
      · exact h.last n hmem
      · exact h.last m hm
    · intro m hm
      rcases old m hm with rfl | hm
      · exact h.busy n hmem
      · exact h.busy m hm
    · intro q e hq
      refine ⟨?_, (h.tracked q e hq).2⟩
      intro m hm
      rcases old m hm with rfl | hm
      · exact (h.tracked q e hq).1 n hmem
      · exact (h.tracked q e hq).1 m hm

/-! ### Judging -/

/-- Results and reports leave the tables alone. -/
theorem Judging.result_tables (j : Judging) (ctx : JudgeCtx) (r : Result) (w : Option Int)
    (mk : Option (Bool → Stage → Nat → Report)) :
    (j.result ctx r w mk).stage.table = j.stage.table ∧
      (j.result ctx r w mk).stage.tracker = j.stage.tracker ∧
      (j.result ctx r w mk).stage.busyUntil = j.stage.busyUntil ∧
      (j.result ctx r w mk).stage.lastAccepted = j.stage.lastAccepted ∧
      (j.result ctx r w mk).stage.mode = j.stage.mode ∧ (j.result ctx r w mk).heads = j.heads := by
  unfold Judging.result
  cases mk with
  | none => simp
  | some mk =>
    dsimp only
    rcases (j.stage.account r w).offer_spec ctx.depth
      (mk (failsSession j.stage (j.stage.account r w)) (j.stage.account r w)) with ⟨_, he⟩ | ⟨_, he⟩ <;>
      rw [he] <;> simp

theorem Stage.offer_tables (st : Stage) (depth : Nat) (mk : Nat → Report) :
    (st.offer depth mk).table = st.table ∧ (st.offer depth mk).tracker = st.tracker ∧
      (st.offer depth mk).busyUntil = st.busyUntil ∧ (st.offer depth mk).lastAccepted = st.lastAccepted ∧
      (st.offer depth mk).mode = st.mode := by
  rcases st.offer_spec depth mk with ⟨_, he⟩ | ⟨_, he⟩ <;> rw [he] <;> simp

theorem Judging.missWithBody_tables (j : Judging) (ctx : JudgeCtx) (n : Note) :
    (j.missWithBody ctx n).stage.table = j.stage.table ∧
      (j.missWithBody ctx n).stage.tracker = j.stage.tracker ∧
      (j.missWithBody ctx n).stage.busyUntil = j.stage.busyUntil ∧
      (j.missWithBody ctx n).stage.lastAccepted = j.stage.lastAccepted ∧
      (j.missWithBody ctx n).stage.mode = j.stage.mode ∧ (j.missWithBody ctx n).heads = j.heads := by
  unfold Judging.missWithBody
  dsimp only
  simp [Stage.offer_tables]

/-- The notes of a record's judging: the stage's own, and the completed heads, which have left the table
and are not in the tracker yet (R104). -/
structure Judging.NotesOk (j : Judging) : Prop where
  stage : j.stage.NotesInv
  distinct : j.heads.Pairwise fun m n => m.id ≠ n.id
  left : ∀ n ∈ j.heads, ∀ m ∈ j.stage.table, m.id ≠ n.id
  last : ∀ n ∈ j.heads, ∃ id due, j.stage.lastAccepted = some (id, due) ∧ n.id ≤ id
  untracked : ∀ n ∈ j.heads, ∀ (p : Fin 18) e, j.stage.tracker[p] = some e → e.id ≠ n.id

theorem Judging.NotesOk.congr {j j' : Judging} (h : j.NotesOk) (ht : j'.stage.table = j.stage.table)
    (hr : j'.stage.tracker = j.stage.tracker) (hb : j'.stage.busyUntil = j.stage.busyUntil)
    (hl : j'.stage.lastAccepted = j.stage.lastAccepted) (hm : j'.stage.mode = j.stage.mode)
    (hh : j'.heads = j.heads) : j'.NotesOk := by
  obtain ⟨a, b, c, d, e⟩ := h
  exact ⟨a.congr ht hr hb hl hm, by rwa [hh], by rwa [hh, ht], by rwa [hh, hl], by rwa [hh, hr]⟩

theorem Judging.NotesOk.result {j : Judging} (h : j.NotesOk) (ctx : JudgeCtx) (r : Result)
    (w : Option Int) (mk : Option (Bool → Stage → Nat → Report)) : (j.result ctx r w mk).NotesOk := by
  obtain ⟨a, b, c, d, e, f⟩ := j.result_tables ctx r w mk
  exact h.congr a b c d e f

theorem Judging.NotesOk.tracker {j : Judging} (h : j.NotesOk) {t : Vector (Option TrackEntry) 18}
    (hs : TrackerSub t j.stage.tracker) :
    { j with stage := { j.stage with tracker := t } }.NotesOk := by
  refine ⟨h.stage.tracker hs, h.distinct, h.left, h.last, ?_⟩
  intro n hn p e he
  obtain ⟨e', he', hid, _⟩ := hs p e he
  rw [← hid]; exact h.untracked n hn p e' he'

theorem Judging.NotesOk.sublist {j : Judging} (h : j.NotesOk) {l : List Note}
    (hs : l.Sublist j.stage.table) : { j with stage := { j.stage with table := l } }.NotesOk :=
  ⟨h.stage.sublist hs, h.distinct, fun n hn m hm => h.left n hn m (hs.subset hm), h.last, h.untracked⟩

theorem Judging.NotesOk.press {j : Judging} (h : j.NotesOk) (ctx : JudgeCtx) (p : Fin 18) :
    (j.press ctx p).NotesOk := by
  unfold Judging.press
  split
  · rename_i e he
    exact h.tracker (.set p fun e' he' => ⟨e, he, by
      cases he'; exact (TrackEntry.press_id e _).1.symm, by
      cases he'; exact (TrackEntry.press_id e _).2.symm⟩)
  · split
    · rename_i n' l' hs
      have h1 := h.stage.struck hs
      obtain ⟨b, n, a, hl, _, he, hn, hl'⟩ := strikeTable_spec hs
      have hmem : n ∈ j.stage.table := by rw [hl]; simp
      have hid : n'.id = n.id := by rw [hn]; rfl
      have old : ∀ m ∈ l', m.id = n.id ∨ m ∈ j.stage.table := by
        intro m hm
        rw [hl'] at hm; rw [hl]
        simp only [List.mem_append, List.mem_cons] at hm ⊢
        split at hm
        · tauto
        · rcases hm with hm | hm
          · tauto
          · rcases List.mem_cons.1 hm with rfl | hm
            · exact .inl hid
            · tauto
      have h2 : { j with stage := { j.stage with table := l' } }.NotesOk := by
        refine ⟨h1, h.distinct, ?_, h.last, h.untracked⟩
        intro x hx m hm
        rcases old m hm with hm | hm
        · rw [hm]; exact h.left x hx n hmem
        · exact h.left x hx m hm
      dsimp only
      split
      · rename_i hc
        rw [if_pos hc] at hl'
        unfold Judging.complete
        dsimp only
        obtain ⟨e1, e2, e3, e4, e5, e6⟩ := Judging.result_tables
          { j with stage := { j.stage with table := l' } } ctx
          (resultOfGrade (gradeOf j.stage.params (n'.worst.getD 0))) (some (n'.worst.getD 0))
          (some (judgmentReport ctx.side n' (resultOfGrade (gradeOf j.stage.params (n'.worst.getD 0)))
            (some (n'.worst.getD 0))))
        have h3 := h2.result ctx (resultOfGrade (gradeOf j.stage.params (n'.worst.getD 0)))
          (some (n'.worst.getD 0))
          (some (judgmentReport ctx.side n' (resultOfGrade (gradeOf j.stage.params (n'.worst.getD 0)))
            (some (n'.worst.getD 0))))
        dsimp only at e1 e2 e3 e4 e5 e6
        split
        · have free : ∀ m ∈ l', m.id ≠ n'.id := by
            intro m hm
            have ho := h.stage.ordered
            rw [hl, List.pairwise_append, List.pairwise_cons] at ho
            rw [hl', List.mem_append] at hm
            rw [hid]
            rcases hm with hm | hm
            · have := (ho.2.2 m hm n (by simp)).1; omega
            · have := (ho.2.1.1 m hm).1; omega
          refine ⟨h3.stage, ?_, ?_, ?_, ?_⟩
          · dsimp only
            rw [e6, List.pairwise_append]
            refine ⟨h.distinct, by simp, ?_⟩
            intro x hx y hy
            rw [List.mem_singleton.1 hy, hid]
            exact fun hxy => h.left x hx n hmem hxy.symm
          · dsimp only
            rw [e6, e1]
            intro x hx m hm
            rcases List.mem_append.1 hx with hx | hx
            · exact h2.left x hx m hm
            · rw [List.mem_singleton.1 hx]; exact free m hm
          · dsimp only
            rw [e6, e4]
            intro x hx
            rcases List.mem_append.1 hx with hx | hx
            · exact h.last x hx
            · obtain ⟨id, due, hq, hi, _⟩ := h.stage.last n hmem
              rw [List.mem_singleton.1 hx, hid]
              exact ⟨id, due, hq, hi⟩
          · dsimp only
            rw [e6, e2]
            intro x hx q e hq
            rcases List.mem_append.1 hx with hx | hx
            · exact h.untracked x hx q e hq
            · rw [List.mem_singleton.1 hx, hid]
              exact fun hh => (h.stage.tracked q e hq).1 n hmem hh.symm
        · exact ⟨h3.stage, h3.distinct, h3.left, h3.last, h3.untracked⟩
      · exact h2
    · exact h.result ctx _ _ _

theorem Judging.NotesOk.pressEdges {j : Judging} (h : j.NotesOk) (ctx : JudgeCtx)
    (es : List (Fin 18 × EdgeKind)) : (es.foldl (pressEdge ctx) j).NotesOk := by
  induction es generalizing j with
  | nil => exact h
  | cons e es ih =>
    refine ih ?_
    unfold pressEdge
    split
    · exact h
    · exact h.press ctx _

theorem Judging.NotesOk.dropHold {j : Judging} (h : j.NotesOk) (ctx : JudgeCtx) (id : Nat) (p : Fin 18)
    (reason : Reason) : (j.dropHold ctx id p reason).NotesOk := by
  unfold Judging.dropHold
  exact Judging.NotesOk.result (h.tracker (TrackerSub.removeHold _ _)) ctx _ _ _

theorem Judging.NotesOk.holdOk {j : Judging} (h : j.NotesOk) (ctx : JudgeCtx) (id : Nat) :
    (j.holdOk ctx id).NotesOk := by
  unfold Judging.holdOk
  exact Judging.NotesOk.result (h.tracker (TrackerSub.removeHold _ _)) ctx _ _ _

theorem Judging.handOver_heads (j : Judging) (ctx : JudgeCtx) (p : Fin 18) (e : TrackEntry) :
    (j.handOver ctx p e).heads = j.heads := by
  unfold Judging.handOver Judging.dropHold Judging.holdOk
  split
  · exact (Judging.result_tables _ _ _ _ _).2.2.2.2.2
  · dsimp only
    split
    · exact (Judging.result_tables _ _ _ _ _).2.2.2.2.2
    · rfl

theorem Judging.NotesOk.handOver {j : Judging} (h : j.NotesOk) (ctx : JudgeCtx) (p : Fin 18)
    (e : TrackEntry) : (j.handOver ctx p e).NotesOk := by
  unfold Judging.handOver
  split
  · exact h.dropHold ctx _ _ _
  · dsimp only
    split
    · exact h.holdOk ctx _
    · exact h.tracker (.set p fun _ h => by cases h)

/-- A head being passed (R115): the notes without it, and its entries made so far. -/
structure Judging.Passing (j : Judging) (n : Note) (rest : List Note) : Prop where
  stage : j.stage.NotesInv
  distinct : (n :: rest).Pairwise fun m k => m.id ≠ k.id
  left : ∀ m ∈ n :: rest, ∀ k ∈ j.stage.table, k.id ≠ m.id
  last : ∀ m ∈ n :: rest, ∃ id due, j.stage.lastAccepted = some (id, due) ∧ m.id ≤ id
  untracked : ∀ m ∈ rest, ∀ (p : Fin 18) e, j.stage.tracker[p] = some e → e.id ≠ m.id
  own : ∀ (p : Fin 18) e, j.stage.tracker[p] = some e → e.id = n.id → e.endTime = n.endTime

theorem Judging.Passing.congr {j j' : Judging} {n : Note} {rest : List Note} (h : j.Passing n rest)
    (ht : j'.stage.table = j.stage.table) (hr : TrackerSub j'.stage.tracker j.stage.tracker)
    (hb : j'.stage.busyUntil = j.stage.busyUntil) (hl : j'.stage.lastAccepted = j.stage.lastAccepted)
    (hm : j'.stage.mode = j.stage.mode) : j'.Passing n rest := by
  have hs : j'.stage.NotesInv := (h.stage.tracker hr).congr ht rfl hb hl hm
  refine ⟨hs, h.distinct, by rw [ht]; exact h.left, by rw [hl]; exact h.last, ?_, ?_⟩
  · intro m hm p e he
    obtain ⟨e', he', hid, _⟩ := hr p e he
    rw [← hid]; exact h.untracked m hm p e' he'
  · intro p e he hid
    obtain ⟨e', he', h1, h2⟩ := hr p e he
    rw [← h2]; exact h.own p e' he' (h1.trans hid)

theorem Judging.handOver_tables (j : Judging) (ctx : JudgeCtx) (p : Fin 18) (e : TrackEntry) :
    (j.handOver ctx p e).stage.table = j.stage.table ∧
      TrackerSub (j.handOver ctx p e).stage.tracker j.stage.tracker ∧
      (j.handOver ctx p e).stage.busyUntil = j.stage.busyUntil ∧
      (j.handOver ctx p e).stage.lastAccepted = j.stage.lastAccepted ∧
      (j.handOver ctx p e).stage.mode = j.stage.mode := by
  unfold Judging.handOver Judging.dropHold Judging.holdOk
  split
  · simp only [Judging.result_tables]
    exact ⟨trivial, TrackerSub.removeHold _ _, trivial, trivial, trivial⟩
  · dsimp only
    split
    · simp only [Judging.result_tables]
      exact ⟨trivial, TrackerSub.removeHold _ _, trivial, trivial, trivial⟩
    · exact ⟨rfl, .set p fun _ h => (by cases h), rfl, rfl, rfl⟩

/-- One entry made for a head (R115, R116). -/
theorem Judging.Passing.panel {j : Judging} {n : Note} {rest : List Note} (h : j.Passing n rest)
    (ctx : JudgeCtx) (p : Fin 18) : (Judging.passPanel ctx n j p).Passing n rest := by
  have make : ∀ j' : Judging, j'.Passing n rest →
      (if j'.halted = true then j' else
        { j' with stage := { j'.stage with
          tracker := j'.stage.tracker.set p (some (headEntry ctx j'.stage n p)) } }).Passing n rest := by
    intro j' h
    split
    · exact h
    · have get : ∀ (q : Fin 18) e, (j'.stage.tracker.set p (some (headEntry ctx j'.stage n p)))[q] = some e →
          (e.id = n.id ∧ e.endTime = n.endTime) ∨ j'.stage.tracker[q] = some e := by
        intro q e he
        rw [tracker_set_get] at he
        split at he
        · cases he; exact .inl ⟨rfl, rfl⟩
        · exact .inr he
      refine ⟨⟨h.stage.capacity, h.stage.ordered, h.stage.disjoint, h.stage.waiting, h.stage.last,
        h.stage.busy, ?_, ?_⟩, h.distinct, h.left, h.last, ?_, ?_⟩
      · intro q e he
        rcases get q e he with ⟨hi, _⟩ | he
        · rw [hi]; exact ⟨fun m hm => h.left n (by simp) m hm, h.last n (by simp)⟩
        · exact h.stage.tracked q e he
      · intro q r e f he hf hef
        rcases get q e he with ⟨hi, ht⟩ | he <;> rcases get r f hf with ⟨hi', ht'⟩ | hf
        · rw [ht, ht']
        · rw [ht]; exact (h.own r f hf (by omega)).symm
        · rw [ht']; exact h.own q e he (by omega)
        · exact h.stage.holds q r e f he hf hef
      · intro m hm q e he
        rcases get q e he with ⟨hi, _⟩ | he
        · rw [hi]; exact (List.pairwise_cons.1 h.distinct).1 m hm
        · exact h.untracked m hm q e he
      · intro q e he hid
        rcases get q e he with ⟨_, ht⟩ | he
        · exact ht
        · exact h.own q e he hid
  unfold Judging.passPanel
  split
  · exact h
  · apply make
    split
    · split
      · exact h
      · obtain ⟨a, b, c, d, e⟩ := j.handOver_tables ctx p ‹_›
        exact h.congr a b c d e
    · exact h

/-- Passing heads keeps the notes (R104, R115, R116). -/
theorem Stage.NotesInv.passHeads (ctx : JudgeCtx) (ns : List Note) {j : Judging}
    (h : ∀ j', j' = { j with heads := ns } → j'.NotesOk) : (passHeads ctx ns j).stage.NotesInv := by
  have h := h _ rfl
  clear * - h
  induction ns generalizing j with
  | nil => exact h.stage
  | cons n ns ih =>
    have hp : j.Passing n ns :=
      ⟨h.stage, h.distinct, h.left, h.last, fun m hm => h.untracked m (by simp [hm]),
        fun p e he hid => absurd hid (h.untracked n (by simp) p e he)⟩
    have hf : ∀ (ps : List (Fin 18)) {j : Judging}, j.Passing n ns →
        (ps.foldl (Judging.passPanel ctx n) j).Passing n ns := by
      intro ps
      induction ps with
      | nil => intro j h; exact h
      | cons p ps ih => intro j h; exact ih (h.panel ctx p)
    have h' := hf (panelsOf n.panels) hp
    unfold Machine.passHeads
    dsimp only
    split
    · exact h'.stage
    · refine ih ⟨h'.stage, (List.pairwise_cons.1 h'.distinct).2,
        fun m hm => h'.left m (by simp [hm]), fun m hm => h'.last m (by simp [hm]), h'.untracked⟩

/-- Resolving holds keeps the notes (R120). -/
theorem Stage.NotesInv.holdPart (ctx : JudgeCtx) {j : Judging} (h : j.stage.NotesInv) :
    (holdPart ctx j).stage.NotesInv := by
  unfold Machine.holdPart
  generalize holdIds j.stage.tracker = ids
  induction ids generalizing j with
  | nil => exact h
  | cons id ids ih =>
    refine ih ?_
    have gone : ∀ (r : Result) (mk : Option (Bool → Stage → Nat → Report)),
        (Judging.result { j with stage := { j.stage with tracker := removeHold j.stage.tracker id } }
          ctx r none mk).stage.NotesInv := by
      intro r mk
      obtain ⟨a, b, c, d, e, _⟩ := Judging.result_tables
        { j with stage := { j.stage with tracker := removeHold j.stage.tracker id } } ctx r none mk
      exact (h.tracker (TrackerSub.removeHold _ id)).congr a b c d e
    unfold resolveHold
    split
    · exact h
    · split
      · exact h
      · split
        · exact gone _ _
        · split
          · exact h
          · exact gone _ _

/-- A sweep takes notes out of the table and changes it in no other way (R90). -/
theorem sweep_sublist (take : Note → Judging → Option Judging) (ns : List Note) (j : Judging) :
    (sweep take ns j).1.Sublist ns := by
  induction ns generalizing j with
  | nil => simp [sweep]
  | cons n ns ih =>
    unfold sweep
    split
    · simp
    · split
      · exact (ih _).cons _
      · exact (ih _).cons_cons _

/-- Mines and closure keep the notes (R90, R106, R125). -/
theorem Stage.NotesInv.sweepTable {take : Note → Judging → Option Judging} {j : Judging}
    (h : j.stage.NotesInv)
    (ht : ∀ n j j', take n j = some j' → j'.stage.table = j.stage.table ∧
      j'.stage.tracker = j.stage.tracker ∧ j'.stage.busyUntil = j.stage.busyUntil ∧
      j'.stage.lastAccepted = j.stage.lastAccepted ∧ j'.stage.mode = j.stage.mode) :
    (sweepTable take j).stage.NotesInv := by
  have same : ∀ (ns : List Note) (j : Judging), (sweep take ns j).2.stage.table = j.stage.table ∧
      (sweep take ns j).2.stage.tracker = j.stage.tracker ∧
      (sweep take ns j).2.stage.busyUntil = j.stage.busyUntil ∧
      (sweep take ns j).2.stage.lastAccepted = j.stage.lastAccepted ∧
      (sweep take ns j).2.stage.mode = j.stage.mode := by
    intro ns
    induction ns with
    | nil => intro j; simp [sweep]
    | cons n ns ih =>
      intro j
      unfold sweep
      split
      · simp
      · split
        · rename_i j' hj
          obtain ⟨a, b, c, d, e⟩ := ih j'
          obtain ⟨a', b', c', d', e'⟩ := ht n j j' hj
          exact ⟨a.trans a', b.trans b', c.trans c', d.trans d', e.trans e'⟩
        · exact ih j
  obtain ⟨_, b, c, d, e⟩ := same j.stage.table j
  exact (h.sublist (sweep_sublist take j.stage.table j)).congr rfl b c d e

/-- Parts 3 to 5 keep the notes (R93). -/
theorem Stage.NotesInv.laterParts (ctx : JudgeCtx) {j : Judging} (h : j.stage.NotesInv) :
    (laterParts ctx j).stage.NotesInv := by
  refine (Stage.NotesInv.sweepTable (Stage.NotesInv.holdPart ctx h) ?_).sweepTable ?_
  · intro n j j' ht
    unfold takeMine at ht
    dsimp only at ht
    split at ht
    · cases ht
    · split at ht
      · cases ht
        obtain ⟨a, b, c, d, e, _⟩ := j.result_tables ctx .mineHit none
          (some (mineReport ctx.side n.id true (lowestPanel (n.panels &&& ctx.pressed))))
        exact ⟨a, b, c, d, e⟩
      · split at ht
        · cases ht
          obtain ⟨a, b, c, d, e, _⟩ := j.result_tables ctx .mineAvoided none
            (if j.stage.askAvoided then some (mineReport ctx.side n.id false 0) else none)
          exact ⟨a, b, c, d, e⟩
        · cases ht
  · intro n j j' ht
    unfold takeClosed at ht
    split at ht
    · split at ht <;> cases ht
      · obtain ⟨a, b, c, d, e, _⟩ := j.missWithBody_tables ctx n
        exact ⟨a, b, c, d, e⟩
      · obtain ⟨a, b, c, d, e, _⟩ := j.result_tables ctx .miss none
          (some (judgmentReport ctx.side n .miss none))
        exact ⟨a, b, c, d, e⟩
    · cases ht

/-- Parts 1 and 2 keep the notes (R93, R94, R104, R118). -/
theorem Stage.NotesInv.earlierParts (ctx : JudgeCtx) (es : List (Fin 18 × EdgeKind)) {st : Stage}
    (h : st.NotesInv) : (earlierParts ctx es st).stage.NotesInv := by
  have h0 : (st.notePressed ctx).NotesInv := by
    unfold Stage.notePressed; split <;> exact h.congr rfl rfl rfl rfl rfl
  have rel : ∀ (es : List (Fin 18 × EdgeKind)) {st : Stage}, st.NotesInv →
      (es.foldl (releaseEdge ctx) st).NotesInv := by
    intro es
    induction es with
    | nil => intro st h; exact h
    | cons e es ih =>
      intro st h
      refine ih ?_
      unfold releaseEdge
      split
      · refine h.tracker (.set e.1 ?_)
        intro x hx
        obtain ⟨y, hy, rfl⟩ := Option.map_eq_some_iff.1 hx
        exact ⟨y, hy, (TrackEntry.release_id y _).1.symm, (TrackEntry.release_id y _).2.symm⟩
      · exact h
  have h1 : (agreeTracker ctx (es.foldl (releaseEdge ctx) (st.notePressed ctx))).NotesInv := by
    refine (rel es h0).tracker ?_
    intro p e he
    simp only [Fin.getElem_fin, Vector.getElem_ofFn] at he
    split at he
    · obtain ⟨y, hy, rfl⟩ := Option.map_eq_some_iff.1 he
      exact ⟨y, hy, (TrackEntry.agree_id y _ _).1.symm, (TrackEntry.agree_id y _ _).2.symm⟩
    · exact ⟨e, he, rfl, rfl⟩
  have h2 : Judging.NotesOk
      { stage := agreeTracker ctx (es.foldl (releaseEdge ctx) (st.notePressed ctx)), heads := [],
        flashes := [], halted := false } :=
    ⟨h1, by simp, by simp, by simp, by simp⟩
  have h3 := h2.pressEdges ctx es
  unfold Machine.earlierParts
  dsimp only
  split
  · exact h3.stage
  · exact Stage.NotesInv.passHeads ctx _ fun j' hj' => by rw [hj']; exact h3

/-- An emptied session keeps its accepted ids and busy panels and holds no notes (R64). -/
theorem Stage.emptySession_tables (st : Stage) (heads : List Note) :
    (st.emptySession heads).table = [] ∧ (st.emptySession heads).tracker = Vector.replicate 18 none ∧
      (st.emptySession heads).busyUntil = st.busyUntil ∧
      (st.emptySession heads).lastAccepted = st.lastAccepted ∧
      (st.emptySession heads).state = st.state ∧ (st.emptySession heads).mode = st.mode := by
  refine ⟨rfl, rfl, ?_⟩
  exact Stage.emptySession_keeps (P := fun s => s.busyUntil = st.busyUntil ∧
    s.lastAccepted = st.lastAccepted ∧ s.state = st.state ∧ s.mode = st.mode) st heads
    ⟨rfl, rfl, rfl, rfl⟩ (fun s r _ h => by simpa using h) (fun _ h => h)

/-- A stage whose tables are empty keeps the notes. -/
theorem Stage.notesInv_of_empty {st : Stage} (ht : st.table = [])
    (hr : st.tracker = Vector.replicate 18 none) : st.NotesInv := by
  constructor <;> simp [ht, hr]

/-- Judging a record keeps the notes (R77, R83, R91, R113). -/
theorem Stage.NotesInv.judge {st : Stage} (h : st.NotesInv) (ctx : JudgeCtx)
    (es : List (Fin 18 × EdgeKind)) : (st.judge ctx es).1.NotesInv := by
  have h' := Stage.NotesInv.laterParts ctx (h.earlierParts ctx es)
  unfold Stage.judge
  dsimp only
  split
  · obtain ⟨a, b, _⟩ := Stage.emptySession_tables
      (Machine.laterParts ctx (Machine.earlierParts ctx es st)).stage
      (Machine.laterParts ctx (Machine.earlierParts ctx es st)).heads
    exact Stage.notesInv_of_empty a b
  · exact h'

end Sys2Proof.Machine
end

