-- ==== Sys2Proof/Laws/Sensing.lean ====
section
/-! SUPPORT. What a completed scan does to the panels, and what flashes do to the lamps (chapters 3 and 9). -/

namespace Sys2Proof.Machine

/-! ### Panels -/

/-- A panel that goes OFFLINE or DISABLED, released, keeps its values in range. -/
theorem Panel.Ok.leaveLink {p : Panel} (h : p.Ok) {status : LinkStatus} (hs : status ≠ .online) :
    (leaveLink p status).panel.Ok := by
  refine ⟨h.reading, h.baseline, ?_, ?_, ?_, h.press, h.release, ?_⟩ <;>
    simp [Machine.leaveLink, quietStep, hs]

theorem Panel.Ok.enable {p : Panel} (h : p.Ok) : (enablePanel p).Ok := by
  unfold enablePanel
  split
  · rename_i hd
    refine ⟨h.reading, h.baseline, by simp, by simp, by simp, h.press, h.release, ?_⟩
    intro hp
    have := (h.pressed hp).1
    rw [hd] at this; cases this
  · exact h

theorem Panel.Ok.pressTest {p : Panel} (h : p.Ok) (b : Nat) (t : LocalTime) (ho : p.status = .online)
    (hb : p.baseline.isSome = true) : (pressTest p b t).1.Ok := by
  unfold Machine.pressTest
  dsimp only
  split
  · split
    · exact ⟨h.reading, h.baseline, h.creep, h.misses, h.online, h.press, h.release, by simp⟩
    · exact h
  · split
    · exact ⟨h.reading, h.baseline, h.creep, h.misses, h.online, h.press, h.release, fun _ => ⟨ho, hb⟩⟩
    · exact h

theorem Panel.Ok.adjust {p : Panel} (h : p.Ok) (b : Nat) : (adjustBaseline p b).Ok := by
  unfold adjustBaseline
  split
  · exact ⟨h.reading, h.baseline, by simp, h.misses, h.online, h.press, h.release, h.pressed⟩
  · rename_i hp
    split
    · exact ⟨h.reading, fun x hx => by cases hx; exact h.reading, by simp, h.misses, h.online, h.press,
        h.release, fun hh => absurd hh hp⟩
    · split
      · exact ⟨h.reading, h.baseline, by simp, h.misses, h.online, h.press, h.release, h.pressed⟩
      · split
        · exact ⟨h.reading, h.baseline, by dsimp only; omega, h.misses, h.online, h.press, h.release,
            h.pressed⟩
        · have := h.reading
          exact ⟨h.reading, fun x hx => by cases hx; omega, by simp, h.misses, h.online, h.press,
            h.release, fun hh => absurd hh hp⟩

theorem Panel.Ok.takeGood {p : Panel} (h : p.Ok) {n : Nat} (hn : n ≤ 1023) (t : LocalTime) :
    (takeGood p n t).panel.Ok := by
  unfold Machine.takeGood
  dsimp only
  split
  · exact ⟨hn, fun x hx => by cases hx; exact hn, by simp [quietStep], by simp [quietStep],
      by simp [quietStep], h.press, h.release, by simp [quietStep]⟩
  · rename_i b hb
    have hq : Panel.Ok { p with reading := n, misses := 0, status := .online } :=
      ⟨hn, h.baseline, h.creep, by simp, by simp, h.press, h.release,
        fun hp => ⟨rfl, (h.pressed hp).2⟩⟩
    have ho := hq.pressTest b t rfl (by simp [hb])
    exact ho.adjust b

theorem Panel.Ok.takeFailed {p : Panel} (h : p.Ok) : (takeFailed p).panel.Ok := by
  unfold Machine.takeFailed
  dsimp only
  split
  · exact ⟨h.reading, h.baseline, by simp [quietStep], by simp [quietStep], by simp [quietStep], h.press,
      h.release, by simp [quietStep]⟩
  · rename_i hc
    refine ⟨h.reading, h.baseline, by simp [quietStep], by simp [quietStep], ?_, h.press, h.release,
      h.pressed⟩
    intro hs
    simp only [quietStep] at hs ⊢
    simp only [hs, true_and] at hc
    omega

theorem stuckTest_ok {limit : Nat} {t : LocalTime} {st : PanelStep} (h : st.panel.Ok) :
    (stuckTest limit t st).panel.Ok := by
  unfold stuckTest
  dsimp only
  split
  · exact ⟨h.reading, fun x hx => by cases hx; exact h.reading, by simp, h.misses, h.online, h.press,
      h.release, by simp⟩
  · exact h

/-- Every completion keeps a panel's values in range, its readings being in range (R43 to R50). -/
theorem Panel.Ok.takePanel {p : Panel} (h : p.Ok) (limit : Nat) {c : Completion} (i : Fin 9)
    (hc : ∀ n, c.outcomes[i] = some (.good n) → n ≤ 1023) : (takePanel limit c i p).panel.Ok := by
  have scanned : (takeScanned limit c.capture (c.enable.getLsbD i.val) c.outcomes[i] p).panel.Ok := by
    unfold takeScanned
    split
    · apply stuckTest_ok
      split
      · exact h.enable.takeGood (hc _ ‹_›) _
      · exact h.enable.takeFailed
    · split
      · exact h
      · exact h.leaveLink (by simp)
  unfold Machine.takePanel
  split
  · exact scanned
  · exact scanned
  · split
    · exact h.leaveLink (by simp)
    · exact h
  · split
    · exact h
    · exact h.leaveLink (by simp)

/-- Thresholds that pass the check of R54 keep the panels in range. -/
theorem setThresholds_ok {v : Vector Panel 9} (h : ∀ i : Fin 9, v[i].Ok) (set : BusSet) {p q : Nat}
    (hp : 1 ≤ p ∧ p ≤ 1023) (hq : q < p) (i : Fin 9) : (setThresholds v set p q)[i].Ok := by
  simp only [setThresholds, Fin.getElem_fin, Vector.getElem_ofFn]
  split
  · obtain ⟨a, b, c, d, e, _, _, f⟩ := h i
    exact ⟨a, b, c, d, e, hp, hq, f⟩
  · exact h i

/-! ### Lamps -/

/-- No flash runs on the lamps of a bus. -/
def noFlash (v : Vector Lamp 9) : Prop := ∀ p : Fin 9, v[p].flash = none

theorem flashEnds_eq_nil (v : Vector Lamp 9) : flashEnds v = [] ↔ noFlash v := by
  simp only [flashEnds, List.filterMap_eq_nil_iff, noFlash]
  constructor
  · intro h p
    have := h p (by revert p; decide)
    simpa using this
  · intro h p _
    have := h p
    simp only [Fin.getElem_fin] at this ⊢
    simp [this]

theorem nearestEnd_eq_none (e : LocalTime) (l : List LocalTime) : nearestEnd e l = none ↔ l = [] := by
  cases l with
  | nil => simp [nearestEnd]
  | cons x xs =>
    unfold nearestEnd
    split
    · simp
    · split <;> simp

/-- The nearest end is one of the ends, and none of them is nearer (R150). -/
theorem nearestEnd_spec {e x : LocalTime} {l : List LocalTime} (h : nearestEnd e l = some x) :
    x ∈ l ∧ ∀ y ∈ l, elapsed e x ≤ elapsed e y := by
  induction l generalizing x with
  | nil => cases h
  | cons a l ih =>
    unfold nearestEnd at h
    split at h
    · rename_i hn
      cases h
      rw [nearestEnd_eq_none] at hn
      subst hn
      simp
    · rename_i y hy
      obtain ⟨hm, hl⟩ := ih hy
      split at h
      · cases h
        refine ⟨by simp, ?_⟩
        intro z hz
        rcases List.mem_cons.1 hz with rfl | hz
        · omega
        · have := hl z hz; omega
      · cases h
        refine ⟨by simp [hm], ?_⟩
        intro z hz
        rcases List.mem_cons.1 hz with rfl | hz
        · omega
        · exact hl z hz

/-- Lamp control's own statement of LampInv. -/
theorem lampInv_iff (l : LampCtl) : LampInv l ↔
    (l.expiry = none ↔ noFlash l.lampsA ∧ noFlash l.lampsB) ∧
      l.flashA.durationMs ≤ 250 ∧ l.flashB.durationMs ≤ 250 := by
  constructor
  · rintro ⟨h, d⟩
    exact ⟨h.trans ⟨fun h => ⟨fun p => (h p).1, fun p => (h p).2⟩, fun h p => ⟨h.1 p, h.2 p⟩⟩, d⟩
  · rintro ⟨h, d⟩
    exact ⟨h.trans ⟨fun h p => ⟨h.1 p, h.2 p⟩, fun h => ⟨fun p => (h p).1, fun p => (h p).2⟩⟩, d⟩

/-- A flash expiry disarms the compare exactly when it leaves no flash (R150). -/
theorem LampInv.expireAt {l : LampCtl} (h : LampInv l) (e : LocalTime) : LampInv (l.expireAt e) := by
  rw [lampInv_iff] at h ⊢
  refine ⟨?_, h.2⟩
  simp only [LampCtl.expireAt]
  rw [nearestEnd_eq_none, List.append_eq_nil_iff, flashEnds_eq_nil, flashEnds_eq_nil]

/-- A flash request on one panel keeps the compare armed exactly while a flash runs (R148, R150). -/
theorem LampInv.startFlash {l : LampCtl} (h : LampInv l) (side : Side) (p : Fin 9) (g : Grade)
    (c a : LocalTime) : LampInv (l.startFlash side p g c a) := by
  unfold LampCtl.startFlash
  dsimp only
  split
  · rw [lampInv_iff] at h ⊢
    have harm : ∀ x, armExpiry l.expiry x a ≠ none := by
      intro x; unfold armExpiry; split
      · simp
      · split <;> simp
    have hset : ∀ (v : Vector Lamp 9) (x : Lamp), x.flash ≠ none → ¬ noFlash (v.set p x) := by
      intro v x hx hn
      have := hn p
      simp at this
      exact hx this
    cases side
    · refine ⟨⟨fun he => absurd he (harm _), fun hn => ?_⟩, h.2⟩
      exact absurd hn.1 (hset _ _ (by simp))
    · refine ⟨⟨fun he => absurd he (harm _), fun hn => ?_⟩, h.2⟩
      exact absurd hn.2 (hset _ _ (by simp))
  · exact h

theorem LampInv.takeRequest {l : LampCtl} (h : LampInv l) (side : Side) (d : Bool) (a : LocalTime)
    (r : FlashRequest) : LampInv (l.takeRequest side d a r) := by
  unfold LampCtl.takeRequest
  generalize stagePanels = ps
  induction ps generalizing l with
  | nil => exact h
  | cons p ps ih =>
    refine ih ?_
    dsimp only
    split
    · exact h.startFlash _ _ _ _ _
    · exact h

theorem LampInv.takeRequests {l : LampCtl} (h : LampInv l) (side : Side) (d : Bool) (a : LocalTime)
    (rs : List FlashRequest) : LampInv (rs.foldl (fun l q => l.takeRequest side d a q) l) := by
  induction rs generalizing l with
  | nil => exact h
  | cons r rs ih => exact ih (h.takeRequest side d a r)

/-- LAMP_SET leaves every flash as it runs (R151). -/
theorem LampInv.setLamps {l : LampCtl} (h : LampInv l) (side : Side) {v : Vector Lamp 9}
    (hv : ∀ p : Fin 9, v[p].flash = (l.lamps side)[p].flash) : LampInv (l.setLamps side v) := by
  obtain ⟨ha, hd⟩ := h
  cases side
  · exact ⟨by
      show l.expiry = none ↔ ∀ p : Fin 9, v[p].flash = none ∧ l.lampsB[p].flash = none
      simp only [hv]; exact ha, hd⟩
  · exact ⟨by
      show l.expiry = none ↔ ∀ p : Fin 9, l.lampsA[p].flash = none ∧ v[p].flash = none
      simp only [hv]; exact ha, hd⟩

theorem onLampSet_flash (set : BusSet) (v : Vector Lamp 9) (mode : LampMode) (level base : Byte)
    (enable : Bool) (p : Fin 9) :
    (onLampSet set (fun lamp => lamp.configure mode level base enable) v)[p].flash = v[p].flash := by
  simp only [onLampSet, Fin.getElem_fin, Vector.getElem_ofFn]
  split <;> rfl

theorem LampInv.setFlashSettings {l : LampCtl} (h : LampInv l) (side : Side) {f : FlashSettings}
    (hf : f.durationMs ≤ 250) : LampInv (l.setFlashSettings side f) := by
  obtain ⟨ha, hd⟩ := h
  cases side
  · exact ⟨ha, hf, hd.2⟩
  · exact ⟨ha, hd.1, hf⟩

end Sys2Proof.Machine
end

