-- ==== Sys2Proof/Laws/Scan.lean ====
section
/-! SUPPORT. What the events of a bus do to its controller (chapter 2). -/

namespace Sys2Proof.Machine

/-! ### Panels to poll -/

/-- The next panel is in the enable set, and no panel of the set lies before it (R23). -/
theorem nextPanel_spec {enable : BusSet} {k : Nat} {p : Fin 9} (h : nextPanel enable k = some p) :
    k ≤ p.val ∧ enable.getLsbD p.val = true := by
  have := List.find?_some h
  simpa using this

theorem mem_busPanels (p : Fin 9) : p ∈ busPanels := by revert p; decide

/-- The enable set is exhausted when it has no panel left (R27). -/
theorem nextPanel_none {enable : BusSet} {k : Nat} :
    nextPanel enable k = none ↔ ∀ p : Fin 9, k ≤ p.val → enable.getLsbD p.val = false := by
  unfold nextPanel
  rw [List.find?_eq_none]
  constructor
  · intro h p hk
    have := h p (mem_busPanels p)
    simpa [hk] using this
  · intro h p _
    simp only [Bool.and_eq_true, decide_eq_true_eq, not_and, Bool.not_eq_true]
    exact h p

/-- A reading taken from a response is at most 1023 (R25). -/
theorem responseReading_le {k : Byte} {a b c : RxChar} {n : Nat} (h : responseReading k a b c = some n) :
    n ≤ 1023 := by
  unfold responseReading at h
  split at h
  · rename_i hc
    cases h
    have := hc.2.2.2.1
    have := b.data.isLt
    omega
  · cases h

/-- The poll under way, with the phase it stands for (R37). -/
theorem BusCtl.polling_spec {c : BusCtl} {scan : Scan} {h : LocalTime} {p : Fin 9}
    (hp : c.polling = some (scan, h, p)) :
    c.scan = some scan ∧ c.finishing = none ∧ ∃ lamp, c.phase = .poll h p lamp := by
  unfold BusCtl.polling at hp
  split at hp
  · cases hp; exact ⟨by assumption, by assumption, _, by assumption⟩
  · cases hp

/-! ### What is known of the line -/

/-- Reading back the bits sent changes at most what is known of the line (R20). -/
theorem BusCtl.readBack_cases (c : BusCtl) (t : LocalTime) :
    c.readBack t = c ∨ ∃ u, c.readBack t = c.readHigh u := by
  unfold BusCtl.readBack
  split
  · exact .inl rfl
  · split
    · exact .inl rfl
    · exact .inr ⟨_, rfl⟩

/-- Hearing a response changes at most what is known of the line (R20, R24). -/
theorem BusCtl.heard_cases (c : BusCtl) (z : RxChar) (t : LocalTime) :
    c.heard z t = c ∨ ∃ u, c.heard z t = c.readHigh u := by
  unfold BusCtl.heard
  split
  · exact .inr ⟨_, rfl⟩
  · exact c.readBack_cases t

@[simp] theorem BusCtl.readBack_state (c : BusCtl) (t : LocalTime) :
    (c.readBack t).state = c.state := by
  rcases c.readBack_cases t with h | ⟨_, h⟩ <;> simp [h, BusCtl.readHigh]
@[simp] theorem BusCtl.readBack_settings (c : BusCtl) (t : LocalTime) :
    (c.readBack t).settings = c.settings := by
  rcases c.readBack_cases t with h | ⟨_, h⟩ <;> simp [h, BusCtl.readHigh]
@[simp] theorem BusCtl.readBack_pendingSettings (c : BusCtl) (t : LocalTime) :
    (c.readBack t).pendingSettings = c.pendingSettings := by
  rcases c.readBack_cases t with h | ⟨_, h⟩ <;> simp [h, BusCtl.readHigh]
@[simp] theorem BusCtl.readBack_scanNumber (c : BusCtl) (t : LocalTime) :
    (c.readBack t).scanNumber = c.scanNumber := by
  rcases c.readBack_cases t with h | ⟨_, h⟩ <;> simp [h, BusCtl.readHigh]
@[simp] theorem BusCtl.readBack_scan (c : BusCtl) (t : LocalTime) :
    (c.readBack t).scan = c.scan := by
  rcases c.readBack_cases t with h | ⟨_, h⟩ <;> simp [h, BusCtl.readHigh]
@[simp] theorem BusCtl.readBack_nextStrobe (c : BusCtl) (t : LocalTime) :
    (c.readBack t).nextStrobe = c.nextStrobe := by
  rcases c.readBack_cases t with h | ⟨_, h⟩ <;> simp [h, BusCtl.readHigh]
@[simp] theorem BusCtl.readBack_waiting (c : BusCtl) (t : LocalTime) :
    (c.readBack t).waiting = c.waiting := by
  rcases c.readBack_cases t with h | ⟨_, h⟩ <;> simp [h, BusCtl.readHigh]
@[simp] theorem BusCtl.readBack_lastCapture (c : BusCtl) (t : LocalTime) :
    (c.readBack t).lastCapture = c.lastCapture := by
  rcases c.readBack_cases t with h | ⟨_, h⟩ <;> simp [h, BusCtl.readHigh]
@[simp] theorem BusCtl.readBack_lastChart (c : BusCtl) (t : LocalTime) :
    (c.readBack t).lastChart = c.lastChart := by
  rcases c.readBack_cases t with h | ⟨_, h⟩ <;> simp [h, BusCtl.readHigh]
@[simp] theorem BusCtl.readBack_probe (c : BusCtl) (t : LocalTime) :
    (c.readBack t).probe = c.probe := by
  rcases c.readBack_cases t with h | ⟨_, h⟩ <;> simp [h, BusCtl.readHigh]
@[simp] theorem BusCtl.readBack_downSince (c : BusCtl) (t : LocalTime) :
    (c.readBack t).downSince = c.downSince := by
  rcases c.readBack_cases t with h | ⟨_, h⟩ <;> simp [h, BusCtl.readHigh]
@[simp] theorem BusCtl.readBack_phase (c : BusCtl) (t : LocalTime) :
    (c.readBack t).phase = c.phase := by
  rcases c.readBack_cases t with h | ⟨_, h⟩ <;> simp [h, BusCtl.readHigh]
@[simp] theorem BusCtl.readBack_finishing (c : BusCtl) (t : LocalTime) :
    (c.readBack t).finishing = c.finishing := by
  rcases c.readBack_cases t with h | ⟨_, h⟩ <;> simp [h, BusCtl.readHigh]
@[simp] theorem BusCtl.readBack_watching (c : BusCtl) (t : LocalTime) :
    (c.readBack t).watching = c.watching := by
  rcases c.readBack_cases t with h | ⟨_, h⟩ <;> simp [h, BusCtl.readHigh]
@[simp] theorem BusCtl.readBack_polling (c : BusCtl) (t : LocalTime) :
    (c.readBack t).polling = c.polling := by
  rcases c.readBack_cases t with h | ⟨_, h⟩ <;> simp [h, BusCtl.readHigh, BusCtl.polling]
@[simp] theorem BusCtl.heard_polling (c : BusCtl) (z : RxChar) (t : LocalTime) :
    (c.heard z t).polling = c.polling := by
  rcases c.heard_cases z t with h | ⟨_, h⟩ <;> simp [h, BusCtl.readHigh, BusCtl.polling]

/-! ### Controllers -/

namespace BusCtl.Ok

variable {c : BusCtl}

theorem config (h : c.Ok) (set : BusSettings) : { c with pendingSettings := some set }.Ok :=
  ⟨h.quiet, h.number, h.fits, h.next, h.taken, h.down, h.up⟩

theorem readHigh (h : c.Ok) (u : LocalTime) : (c.readHigh u).Ok :=
  ⟨h.quiet, h.number, h.fits, h.next, h.taken, h.down, h.up⟩

theorem readBack (h : c.Ok) (t : LocalTime) : (c.readBack t).Ok := by
  rcases c.readBack_cases t with e | ⟨u, e⟩ <;> rw [e]
  exacts [h, h.readHigh u]

theorem heard (h : c.Ok) (z : RxChar) (t : LocalTime) : (c.heard z t).Ok := by
  rcases c.heard_cases z t with e | ⟨u, e⟩ <;> rw [e]
  exacts [h, h.readHigh u]

theorem restart (h : c.Ok) (t : LocalTime) : (c.restart t).Ok :=
  ⟨h.quiet, h.number, h.fits, h.next, h.taken, fun hd => by
    obtain ⟨a, _, b, d⟩ := h.down hd; exact ⟨a, rfl, b, d⟩, h.up⟩

theorem finish (h : c.Ok) (hu : c.state = .up) (e : LocalTime) : { c with finishing := some e }.Ok :=
  ⟨h.quiet, h.number, h.fits, h.next, h.taken, fun hd => by simp [hu] at hd, h.up⟩

theorem endScan (h : c.Ok) (t : LocalTime) : (c.endScan t).Ok :=
  ⟨by simp [BusCtl.endScan, BusPhase.isQuiet], by simp [BusCtl.endScan], by simp [BusCtl.endScan],
    by simp [BusCtl.endScan], by simp [BusCtl.endScan], fun hd => by
      obtain ⟨_, a, _, d⟩ := h.down hd; exact ⟨rfl, a, rfl, d⟩, h.up⟩

theorem beginStrobe (h : c.Ok) (hu : c.state = .up) (t : LocalTime) : (c.beginStrobe t).Ok := by
  refine ⟨by simp [BusCtl.beginStrobe, BusPhase.isQuiet], by simp [BusCtl.beginStrobe],
    by simp [BusCtl.beginStrobe, Scan.FitsPhase], ?_, ?_,
    fun hd => by simp [BusCtl.beginStrobe, hu] at hd, h.up⟩
  · intro scan p hs hp
    simp only [BusCtl.beginStrobe, Option.some.injEq] at hs
    subst hs
    exact (nextPanel_spec hp).2
  · intro scan x hs hx
    simp only [BusCtl.beginStrobe, Option.some.injEq] at hs
    subst hs
    cases hx

theorem wait (h : c.Ok) (hu : c.state = .up) : { c with waiting := true }.Ok :=
  ⟨h.quiet, h.number, h.fits, h.next, h.taken, fun hd => by simp [hu] at hd, h.up⟩

theorem capture (h : c.Ok) {b : LocalTime} (hp : c.phase = .strobe b false) (t : LocalTime)
    (chart : Option Int) :
    ({ c with
      scan := c.scan.map fun scan => { scan with capture := some t, chart := chart },
      lastCapture := t, lastChart := chart, phase := .strobe b true, lineHigh := t,
      lowBreaks := [] } : BusCtl).Ok := by
  cases hs : c.scan with
  | none => have := h.quiet.1 hs; simp [hp, BusPhase.isQuiet] at this
  | some scan =>
    have hf := h.fits scan hs
    rw [hp] at hf
    refine ⟨by simp [BusPhase.isQuiet], ?_, ?_, ?_, ?_, ?_, h.up⟩
    · intro x hx; cases hx; exact h.number scan hs
    · intro x hx; cases hx; exact ⟨hf.1, rfl⟩
    · intro x p hx hn; cases hx; exact h.next scan p hs hn
    · intro x y hx hy; cases hx; cases hy; exact ⟨rfl, rfl⟩
    · intro hd; have := (h.down hd).1; rw [hs] at this; cases this

theorem notEnded (h : c.Ok) (t : LocalTime) (bs : List LocalTime) :
    { c with scan := none, phase := .quiet t, lowBreaks := bs }.Ok :=
  ⟨by simp [BusPhase.isQuiet], by simp, by simp, by simp, by simp, fun hd => by
    obtain ⟨_, a, b, d⟩ := h.down hd; exact ⟨rfl, a, b, d⟩, h.up⟩

theorem strobeSent (h : c.Ok) {b t : LocalTime} {scan : Scan} (hs : c.scan = some scan)
    (hp : c.phase = .strobe b true) (hn : scan.next.isSome = true) : { c with phase := .gap t }.Ok := by
  have hf := h.fits scan hs
  rw [hp] at hf
  refine ⟨by simp [hs, BusPhase.isQuiet], h.number, ?_, h.next, h.taken, ?_, h.up⟩
  · intro x hx; dsimp only at hx; rw [hs] at hx; cases hx; exact ⟨by rw [hf.1]; omega, hn, hf.2⟩
  · intro hd; have := (h.down hd).1; rw [hs] at this; cases this

theorem header (h : c.Ok) {g t : LocalTime} {scan : Scan} {p : Fin 9} (hs : c.scan = some scan)
    (hp : c.phase = .gap g) (hn : scan.next = some p) (lamp : Byte) :
    { c with scan := some { scan with attempts := scan.attempts + 1 }, phase := .poll t p lamp }.Ok := by
  have hf := h.fits scan hs
  rw [hp] at hf
  refine ⟨by simp [BusPhase.isQuiet], ?_, ?_, ?_, ?_, ?_, h.up⟩
  · intro x hx; cases hx; exact h.number scan hs
  · intro x hx; cases hx
    obtain ⟨a, _, d⟩ := hf
    exact ⟨by dsimp only; omega, by dsimp only; omega, hn, d⟩
  · intro x q hx hq; cases hx; exact h.next scan q hs hq
  · intro x y hx hy; cases hx; exact h.taken scan y hs hy
  · intro hd; have := (h.down hd).1; rw [hs] at this; cases this

theorem settle (h : c.Ok) {b t : LocalTime} {scan : Scan} {p q : Fin 9} {lamp : Byte}
    (hs : c.scan = some scan) (hp : c.phase = .poll b p lamp) {k : Nat}
    (hq : nextPanel scan.enable k = some q) (o : Vector (Option PollOutcome) 9) :
    { c with
      scan := some { scan with outcomes := o, next := some q, attempts := 0 },
      phase := .gap t }.Ok := by
  have hf := h.fits scan hs
  rw [hp] at hf
  refine ⟨by simp [BusPhase.isQuiet], ?_, ?_, ?_, ?_, ?_, h.up⟩
  · intro x hx; cases hx; exact h.number scan hs
  · intro x hx; cases hx; exact ⟨by dsimp only; omega, rfl, hf.2.2.2⟩
  · intro x r hx hr; cases hx; cases hr; exact (nextPanel_spec hq).2
  · intro x y hx hy; cases hx; exact h.taken scan y hs hy
  · intro hd; have := (h.down hd).1; rw [hs] at this; cases this

theorem retry (h : c.Ok) {b t : LocalTime} {scan : Scan} {p : Fin 9} {lamp : Byte}
    (hs : c.scan = some scan) (hp : c.phase = .poll b p lamp)
    (ha : scan.attempts < 1 + scan.retries.val) : { c with phase := .gap t }.Ok := by
  have hf := h.fits scan hs
  rw [hp] at hf
  refine ⟨by simp [hs, BusPhase.isQuiet], h.number, ?_, h.next, h.taken, ?_, h.up⟩
  · intro x hx; dsimp only at hx; rw [hs] at hx; cases hx
    exact ⟨ha, by simp [hf.2.2.1], hf.2.2.2⟩
  · intro hd; have := (h.down hd).1; rw [hs] at this; cases this

theorem goDown (h : c.Ok) (hu : c.state = .up) (t : LocalTime) : (c.goDown t).Ok :=
  ⟨by simp [BusCtl.goDown, BusCtl.endScan, BusPhase.isQuiet], by simp [BusCtl.goDown, BusCtl.endScan],
    by simp [BusCtl.goDown, BusCtl.endScan], by simp [BusCtl.goDown, BusCtl.endScan],
    by simp [BusCtl.goDown, BusCtl.endScan],
    fun _ => ⟨rfl, rfl, rfl, by simp [BusCtl.goDown, BusCtl.endScan, (h.up hu).2]⟩,
    fun hd => by cases hd⟩

theorem probe (h : c.Ok) (hd : c.state = .down) (t : LocalTime) :
    { c with probe := none, watching := some t }.Ok :=
  ⟨h.quiet, h.number, h.fits, h.next, h.taken,
    fun _ => ⟨(h.down hd).1, (h.down hd).2.1, (h.down hd).2.2.1, rfl⟩, fun hu => by simp [hd] at hu⟩

/-- A bus whose controller watches its line is DOWN (R34). -/
theorem watches_down (h : c.Ok) {p : LocalTime} (hw : c.watching = some p) : c.state = .down := by
  cases hs : c.state
  · have := (h.up hs).2; rw [hw] at this; cases this
  · rfl

theorem probeFails (h : c.Ok) {p : LocalTime} (hw : c.watching = some p) : (c.probeFails p).Ok := by
  have hd := h.watches_down hw
  exact ⟨h.quiet, h.number, h.fits, h.next, h.taken,
    fun _ => ⟨(h.down hd).1, (h.down hd).2.1, (h.down hd).2.2.1, rfl⟩,
    fun hu => by simp [BusCtl.probeFails, hd] at hu⟩

theorem goUp (h : c.Ok) {p : LocalTime} (hw : c.watching = some p) (u : LocalTime) : (c.goUp u).Ok := by
  have hs := (h.down (h.watches_down hw)).1
  refine ⟨by simp [BusCtl.goUp, BusCtl.restart, BusCtl.readHigh, hs, BusPhase.isQuiet], ?_, ?_, ?_, ?_, ?_, fun _ => ⟨rfl, rfl⟩⟩ <;>
    simp [BusCtl.goUp, BusCtl.restart, BusCtl.readHigh, hs]

end BusCtl.Ok

/-! ### Readings -/

/-- Outcomes whose readings are in range (R25). -/
def OutcomesOk (o : Vector (Option PollOutcome) 9) : Prop :=
  ∀ (p : Fin 9) n, o[p] = some (.good n) → n ≤ 1023

theorem OutcomesOk.none : OutcomesOk (Vector.replicate 9 none) := by intro p n h; simp at h

theorem OutcomesOk.set {o : Vector (Option PollOutcome) 9} (h : OutcomesOk o) (p : Fin 9)
    {x : PollOutcome} (hx : ∀ n, x = .good n → n ≤ 1023) : OutcomesOk (o.set p.val (some x)) := by
  intro q n hq
  simp only [Fin.getElem_fin, Vector.getElem_set] at hq
  split at hq
  · cases hq; exact hx n rfl
  · exact h q n hq

theorem OutcomesOk.contention {scan : Scan} (h : OutcomesOk scan.outcomes) :
    OutcomesOk (contentionOutcomes scan) := by
  intro p n hp
  simp only [contentionOutcomes, Fin.getElem_fin, Vector.getElem_ofFn] at hp
  split at hp
  · rename_i o ho; cases hp; exact h p n ho
  · split at hp <;> cases hp

theorem BusCtl.ReadingsOk.readBack {c : BusCtl} (h : c.ReadingsOk) (t : LocalTime) :
    (c.readBack t).ReadingsOk := by
  rcases c.readBack_cases t with e | ⟨u, e⟩ <;> rw [e] <;> exact h

theorem BusCtl.ReadingsOk.heard {c : BusCtl} (h : c.ReadingsOk) (z : RxChar) (t : LocalTime) :
    (c.heard z t).ReadingsOk := by
  rcases c.heard_cases z t with e | ⟨u, e⟩ <;> rw [e] <;> exact h

theorem BusCtl.ReadingsOk.outcomes {c : BusCtl} (h : c.ReadingsOk) {scan : Scan} (hs : c.scan = some scan) :
    OutcomesOk scan.outcomes := h scan hs

end Sys2Proof.Machine
end

