-- ==== Sys2Proof/Laws/Changes.lean ====
section
/-! SUPPORT. Everything a command can do, as a sequence of changes to the blocks. -/

namespace Sys2Proof.Machine

/-- One change of one block. `R` says whether the readings of the scans in flight are in range; each
constructor carries what its commands have checked before they make it. -/
inductive Change (R : Prop) : State → State → Prop
  | time (s t) : Change R s { s with localTime := t }
  | reset (s) : Change R s s.deviceReset
  | held (s b) : Change R s { s with resetHeld := b }
  | lhold (s b) : Change R s { s with lhold := b }
  | receiver (s r) (h : ∀ f, r = .receiving f → f.kind = none ∧ f.len = none ∧ f.payload = []) :
      Change R s (s.setLink { s.link with receiver := r })
  | discard (s f r) (h : ∀ f, r ≠ .receiving f) : Change R s (s.setLink (s.link.discard f r))
  | shed (s k) : Change R s (s.setLink (s.link.shed k))
  | reply (s r) (h : s.link.replies.length < 4) : Change R s (s.reply r)
  | raise (s k src ps d) : Change R s (s.raise k src ps d)
  | resetPending (s) : Change R s (s.setLink { s.link with resetPending := true })
  | clearErrors (s) : Change R s (s.setLink { s.link with errors := ErrorCounts.zero })
  | mask (s m) : Change R s (s.setLink { s.link with mask := m })
  | transmitter (s x) : Change R s (s.setLink { s.link with transmitter := x })
  | sendReply (s r rest) (h : s.link.replies = r :: rest) :
      Change R s (s.setLink { s.link.send (.reply r) s.localTime with replies := rest })
  | sendNotice (s n rest) (h : s.link.notices = n :: rest) :
      Change R s (s.setLink { s.link.send (.notice n) s.localTime with notices := rest })
  | sendReport (s d) : Change R s (s.sendReport d)
  | clock (s c) (h : ClockInv s.clock → ClockInv c) (hr : c.running = s.clock.running) :
      Change R s (s.setClock c)
  | clockStart (s c) (h : ClockInv s.clock → ClockInv c) (hr : c.running = true) :
      Change R s { s with clock := c, stageA := s.stageA.startPlay, stageB := s.stageB.startPlay }
  | clockStop (s) (h : s.anyPlaying = false) : Change R s (s.setClock s.clock.stop)
  | bus (s d c) (h : (s.bus d).Ok → c.Ok) (hr : (s.bus d).ReadingsOk → c.ReadingsOk) :
      Change R s (s.setBus d c)
  | thresholds (s d set p q) (h : 1 ≤ p ∧ p ≤ 1023) (hq : q < p) :
      Change R s (s.setPanels d (setThresholds (s.panels d) set p q))
  | stuckLimit (s n) (h : 31 ≤ n ∧ n ≤ 255) : Change R s { s with stuckLimit := n }
  | panels (s d v) (c : Completion) (h : R → OutcomesOk c.outcomes)
      (hv : ∀ p : Fin 9, v[p] = (takePanel s.stuckLimit c p (s.panels d)[p]).panel) :
      Change R s (s.setPanels d v)
  | judge (s d b r x) (h : (s.stage d).state = .playing) : Change R s (s.judgeRecord d b r x)
  | settings (s d params offset) (h : (s.stage d).state = .idle ∨ (s.stage d).state = .standby)
      (hp : (s.stage d).params.Ok → params.Ok)
      (hi : (s.stage d).inputOffset.natAbs ≤ 100000 → offset.natAbs ≤ 100000) :
      Change R s (s.setStage d { s.stage d with params := params, inputOffset := offset })
  | openStage (s pl) (h : openRefusal s pl = none) :
      Change R s ((s.setStage (sideOf (byteAt pl 0))
        ((s.stage (sideOf (byteAt pl 0))).openSession pl s.clock.running)).joinStorage
          (sideOf (byteAt pl 0))
          ((s.stage (sideOf (byteAt pl 0))).openSession pl s.clock.running).mode)
  | closeStage (s d x) (h : (s.stage d).state ≠ .idle ∧ (s.stage d).state ≠ .closing) :
      Change R s (s.setStage d ((s.stage d).close d (s.reportDepth d) x))
  | tally (s d) (h : (s.stage d).state = .closing)
      (hr : (s.stage d).reports.length < s.reportDepth d) :
      Change R s (s.setStage d ((s.stage d).placeTally d))
  | notes (s d now rs) (h : (s.stage d).state = .standby ∨ (s.stage d).state = .playing)
      (hr : ∀ r ∈ rs, r.id < 65536) :
      Change R s (s.setStage d (takeRecords now rs (s.stage d) 0).1)
  | lamps (s l) (h : LampInv s.lamps → LampInv l) : Change R s (s.setLamps l)

/-- A sequence of changes. -/
inductive Changes (R : Prop) : State → State → Prop
  | refl (s) : Changes R s s
  | tail {s t u} (h : Changes R s t) (c : Change R t u) : Changes R s u

/-- What every change keeps, a sequence keeps. -/
theorem Changes.keeps {R : Prop} {P : State → Prop} (hP : ∀ s t, Change R s t → P s → P t) {s t : State}
    (h : Changes R s t) (hs : P s) : P t := by
  induction h with
  | refl => exact hs
  | tail _ c ih => exact hP _ _ c ih

namespace Changes

variable {R : Prop} {s0 s t : State}

/-! ### The operations -/

theorem ifElse {c : Prop} [Decidable c] {a b : State} (ha : c → Changes R s0 a) (hb : ¬ c → Changes R s0 b) :
    Changes R s0 (if c then a else b) := by
  split
  · exact ha ‹_›
  · exact hb ‹_›

theorem after (dt : Nat) {f : State → State} (hf : Changes R s (s.tick dt) → Changes R s (f (s.tick dt))) :
    Changes R s (s.after dt f) := by
  unfold State.after
  exact ifElse (fun _ => .refl s) fun _ => hf (.tail (.refl s) (.time s _))

theorem storeClock (h : Changes R s0 s) (r : Clock × Option Int) (hi : ClockInv s.clock → ClockInv r.1)
    (hr : r.1.running = s.clock.running) : Changes R s0 (s.storeClock r) := by
  have hc := Changes.tail h (Change.clock s r.1 hi hr)
  rcases s.storeClock_cases r with he | ⟨x, _, he⟩ <;> rw [he]
  · exact hc
  · exact .tail hc (.raise _ _ _ _ _)

theorem updateClock (h : Changes R s0 s) : Changes R s0 s.updateClock :=
  h.storeClock _ (fun hi => Clock.update_inv hi _) (Clock.update_running _ _)

theorem raisePanels (h : Changes R s0 s) (k : NoticeKind) (d : Side) (set : BusSet) (x : Int) :
    Changes R s0 (s.raisePanels k d set x) :=
  ifElse (fun _ => h) fun _ => .tail h (.raise _ _ _ _ _)

theorem handRecord (h : Changes R s0 s) (r : ScanRecord) : Changes R s0 (s.handRecord r) := by
  unfold State.handRecord
  dsimp only
  generalize (if s.openDoubles = true then Side.a else r.bus) = d
  by_cases hp : (s.stage d).state = .playing
  · rw [if_pos hp]
    cases r.chart with
    | none => exact h
    | some x => exact .tail h (.judge _ _ _ _ _ hp)
  · rw [if_neg hp]; exact h

theorem sensingNotices (h : Changes R s0 s) (d : Side) (n : Byte) (steps : Vector PanelStep 9) :
    Changes R s0 (s.sensingNotices d n steps) :=
  ((h.raisePanels _ _ _ _).raisePanels _ _ _ _).raisePanels _ _ _ _

theorem takeCompletion (h : Changes R s0 s) (d : Side) (c : Completion) (ho : R → OutcomesOk c.outcomes) :
    Changes R s0 (s.takeCompletion d c) := by
  unfold State.takeCompletion
  have hn := fun n steps => (Changes.tail h (Change.panels s d (Vector.ofFn fun (p : Fin 9) =>
    (Vector.ofFn fun (p : Fin 9) => takePanel s.stuckLimit c p (s.panels d)[p])[p].panel) c ho
    (by simp))).sensingNotices d n steps
  dsimp only
  split
  · exact hn _ _
  · exact (hn _ _).handRecord _

theorem setBus (h : Changes R s0 s) (d : Side) (c : BusCtl) (hk : (s.bus d).Ok → c.Ok)
    (hr : (s.bus d).ReadingsOk → c.ReadingsOk) : Changes R s0 (s.setBus d c) :=
  .tail h (.bus s d c hk hr)

theorem endScan_readings (c : BusCtl) (t : LocalTime) : (c.endScan t).ReadingsOk := by
  intro x hx; cases hx

theorem endScan (h : Changes R s0 s) (d : Side) (t : LocalTime) :
    Changes R s0 (s.setBus d ((s.bus d).endScan t)) :=
  h.setBus d _ (fun hk => hk.endScan t) fun _ => endScan_readings _ t

theorem completeScan (h : Changes R s0 s) (d : Side) (scan : Scan) (k : CompletionKind)
    (o : Vector (Option PollOutcome) 9) (ho : R → OutcomesOk o) :
    Changes R s0 (s.completeScan d scan k o) :=
  (h.endScan d s.localTime).takeCompletion d _ ho

theorem settlePanel (h : Changes R s0 s) (d : Side) {scan : Scan} {b : LocalTime} {p : Fin 9}
    (hp : (s.bus d).polling = some (scan, b, p)) (ho : R → OutcomesOk scan.outcomes) {o : PollOutcome}
    (hx : ∀ n, o = .good n → n ≤ 1023) : Changes R s0 (s.settlePanel d scan p o) := by
  obtain ⟨h1, _, lamp, h2⟩ := BusCtl.polling_spec hp
  unfold State.settlePanel
  dsimp only
  split
  · rename_i q hq
    refine h.setBus d _ (fun hk => hk.settle h1 h2 hq _) fun hr => ?_
    intro x hs
    cases hs
    exact (hr.outcomes h1).set p hx
  · exact h.completeScan d _ _ _ fun r => (ho r).set p hx

theorem endAttempt (h : Changes R s0 s) (d : Side) {scan : Scan} {b : LocalTime} {p : Fin 9}
    (hp : (s.bus d).polling = some (scan, b, p)) (ho : R → OutcomesOk scan.outcomes) {reading : Option Nat}
    (hx : ∀ n, reading = some n → n ≤ 1023) : Changes R s0 (s.endAttempt d scan p reading) := by
  unfold State.endAttempt
  split
  · exact h.settlePanel d hp ho fun n hn => by cases hn; exact hx _ rfl
  · obtain ⟨h1, _, lamp, h2⟩ := BusCtl.polling_spec hp
    split
    · exact h.setBus d _ (fun hk => hk.retry h1 h2 ‹_›) id
    · exact h.settlePanel d hp ho fun n hn => by cases hn

theorem readBack (h : Changes R s0 s) (d : Side) : Changes R s0 (s.readBack d) :=
  h.setBus d _ (fun hk => hk.readBack _) fun hr => hr.readBack _

theorem heard (h : Changes R s0 s) (d : Side) (z : RxChar) :
    Changes R s0 (s.setBus d ((s.bus d).heard z s.localTime)) :=
  h.setBus d _ (fun hk => hk.heard _ _) fun hr => hr.heard _ _

theorem resetCompletion (h : Changes R s0 s) (d : Side) : Changes R s0 (s.resetCompletion d) := by
  unfold State.resetCompletion
  dsimp only
  have he := h.setBus d (((s.bus d).readBack s.localTime).endScan s.localTime)
    (fun hk => (hk.readBack _).endScan _) fun _ => endScan_readings _ _
  split <;> exact he.takeCompletion d _ fun _ => .none

theorem restart (h : Changes R s0 s) (d : Side) (t : LocalTime) :
    Changes R s0 (s.setBus d ((s.bus d).restart t)) :=
  h.setBus d _ (fun hk => hk.restart t) id

theorem resetBus (h : Changes R s0 s) (d : Side) : Changes R s0 (s.resetBus d) := by
  unfold State.resetBus
  dsimp only
  split
  · exact h.takeCompletion d _ fun _ => .none
  · rename_i hu
    split
    · exact (h.restart d _).takeCompletion d _ fun _ => .none
    · split
      · exact h.restart d _
      · split
        · refine (h.restart d _).setBus d _ (fun hk => hk.finish ?_ _) ?_
          · simp [BusCtl.restart, hu]
          · exact id
        · exact (h.restart d _).resetCompletion d

/-! ### Requests -/

/-- Everything a request can do, when its owner's act is a sequence of changes that queues its reply in
the room there is. -/
theorem request (dt : Nat) (kind : Byte) (pl : List Byte) (lens : List Nat) (first : FirstByte)
    {owner : LocalTime → State → State}
    (ho : ∀ c, Changes R s (s.arrived dt) → (s.arrived dt).link.replies.length < 4 →
      Changes R s (owner c (s.arrived dt))) :
    Changes R s (s.request dt kind pl lens first owner) := by
  have ht : Changes R s (s.tick dt) := .tail (.refl s) (.time s _)
  have ha : Changes R s (s.arrived dt) := .tail ht (.receiver _ .waiting (by simp))
  exact s.request_cases dt kind pl lens first owner (P := Changes R s) (.refl s) ht ha
    (.tail ha (.shed _ kind)) (fun hl _ _ => .tail ha (.reply _ _ hl)) fun hl c => ho c ha hl

theorem ack (h : Changes R s0 s) (hl : s.link.replies.length < 4) (k : Byte) (fs : List Byte) :
    Changes R s0 (s.ack k fs) := .tail h (.reply _ _ hl)

theorem refuse (h : Changes R s0 s) (hl : s.link.replies.length < 4) (k c d : Byte) :
    Changes R s0 (s.refuse k c d) := .tail h (.reply _ _ hl)

/-! ### Commands -/

theorem next {f : State} (h : Changes R s f) : ∃ t, (Host.Outcome.next f : Answer) = .next t ∧ Changes R s t :=
  ⟨f, rfl, h⟩

end Changes

end Sys2Proof.Machine
end

