-- ==== Sys2Proof/Laws/Sessions.lean ====
section
/-! SUPPORT. What judging, opening, closing and NOTES do to a stage as a whole (chapters 4 and 5). -/

namespace Sys2Proof.Machine

/-! ### Fields -/

theorem leNat_lt (bs : List Byte) : leNat bs < 256 ^ bs.length := by
  induction bs with
  | nil => simp [leNat]
  | cons b bs ih =>
    have := b.isLt
    simp only [leNat, List.length_cons, Nat.pow_succ]
    omega

/-- A field of `k` bytes is below 256^k (R173). -/
theorem fieldAt_lt (pl : List Byte) (i k : Nat) : fieldAt pl i k < 256 ^ k := by
  unfold fieldAt
  exact (leNat_lt _).trans_le (Nat.pow_le_pow_right (by omega) (by simp))

/-! ### Emptying, judging and closing -/

/-- Judging keeps what its parts keep and what the emptying of a failed session leaves (R64, R65, R93). -/
theorem Stage.judge_keeps {P : Stage → Bool → Prop} {Q : Stage → Prop} {ctx : JudgeCtx} (k : Kept ctx P)
    (go : ∀ st, P st false → Q st)
    (fail : ∀ st heads, P st true → Q { st.emptySession heads with state := .failed })
    (es : List (Fin 18 × EdgeKind)) {st : Stage} (h : P st false) : Q (st.judge ctx es).1 := by
  have hp := k.parts es h
  unfold Stage.judge
  dsimp only
  generalize Machine.laterParts ctx (Machine.earlierParts ctx es st) = j at hp ⊢
  by_cases hh : j.halted = true
  · rw [if_pos hh]
    exact fail _ _ (by rw [← hh]; exact hp)
  · rw [if_neg hh]
    have hf : j.halted = false := by simpa using hh
    exact go _ (by rw [← hf]; exact hp)

/-- The flush of a close keeps what its parts keep (R68). -/
theorem Stage.flush_keeps {P : Stage → Bool → Prop} {st : Stage} (d : Side) (n : Nat) (x : Int)
    (k : ∀ ctx : JudgeCtx, ctx.depth = n → Kept ctx P) (h : P st false) :
    ∃ b, P (st.flush d n x) b := by
  unfold Stage.flush
  exact ⟨_, (k _ rfl).laterParts (j := { stage := st, heads := [], flashes := [], halted := false }) h⟩

/-- A close keeps what the flush and the emptying keep (R67, R68). -/
theorem Stage.close_keeps {Q : Stage → Prop} {st : Stage} (d : Side) (n : Nat) (x : Int)
    (fl : st.state = .playing → Q { (st.flush d n x).emptySession [] with state := .closing })
    (em : st.state = .standby → Q { st.emptySession [] with state := .closing })
    (cl : st.state ≠ .playing → st.state ≠ .standby → Q { st with state := .closing }) :
    Q (st.close d n x) := by
  unfold Stage.close
  cases hs : st.state
  · exact cl (by simp [hs]) (by simp [hs])
  · exact em hs
  · exact fl hs
  · exact cl (by simp [hs]) (by simp [hs])
  · exact cl (by simp [hs]) (by simp [hs])

/-- What an emptying leaves changed besides the tables and the accounts: nothing (R64). -/
theorem Stage.emptySession_frame (st : Stage) (heads : List Note) :
    (st.emptySession heads).state = st.state ∧ (st.emptySession heads).mode = st.mode ∧
      (st.emptySession heads).failEnable = st.failEnable ∧ (st.emptySession heads).life = st.life ∧
      (st.emptySession heads).reports = st.reports ∧
      (st.emptySession heads).droppedCount = st.droppedCount ∧
      (st.emptySession heads).failed = st.failed ∧ (st.emptySession heads).units = st.units ∧
      (st.emptySession heads).params = st.params ∧
      (st.emptySession heads).inputOffset = st.inputOffset :=
  Stage.emptySession_keeps (P := fun s => s.state = st.state ∧ s.mode = st.mode ∧
      s.failEnable = st.failEnable ∧ s.life = st.life ∧ s.reports = st.reports ∧
      s.droppedCount = st.droppedCount ∧ s.failed = st.failed ∧ s.units = st.units ∧
      s.params = st.params ∧ s.inputOffset = st.inputOffset) st heads
    ⟨rfl, rfl, rfl, rfl, rfl, rfl, rfl, rfl, rfl, rfl⟩
    (fun s r hr h => by
      simpa [Stage.account_life, lifeAfter_emptying _ hr] using h) (fun _ h => h)

/-! ### Opening -/

/-- What an open that is not refused has checked (R59). -/
theorem openRefusal_none {s : State} {pl : List Byte} (h : openRefusal s pl = none) :
    (s.stage (sideOf (byteAt pl 0))).state = .idle ∧
      (sideOf (byteAt pl 0) = .b → s.openDoubles = false ∧ s.lent = false ∧ byteAt pl 1 ≠ 1) ∧
      (byteAt pl 1 = 1 → s.stageB.state = .idle) ∧ 1 ≤ fieldAt pl 2 2 ∧ 1 ≤ fieldAt pl 4 2 ∧
      fieldAt pl 4 2 ≤ 1000 := by
  have one : byteAt pl 1 = 1 ↔ (byteAt pl 1).toNat = 1 := by
    rw [← BitVec.toNat_inj]; rfl
  unfold openRefusal at h
  dsimp only at h
  by_cases h1 : sideOf (byteAt pl 0) = .b ∧ s.openDoubles = true
  · rw [if_pos h1] at h; cases h
  rw [if_neg h1] at h
  by_cases h2 : sideOf (byteAt pl 0) = .b ∧ s.lent = true
  · rw [if_pos h2] at h; cases h
  rw [if_neg h2] at h
  by_cases h3 : (s.stage (sideOf (byteAt pl 0))).state ≠ .idle
  · rw [if_pos h3] at h; cases h
  rw [if_neg h3] at h
  by_cases h4 : 1 < (byteAt pl 1).toNat
  · rw [if_pos h4] at h; cases h
  rw [if_neg h4] at h
  by_cases h5 : (byteAt pl 1).toNat = 1 ∧ sideOf (byteAt pl 0) = .b
  · rw [if_pos h5] at h; cases h
  rw [if_neg h5] at h
  by_cases h6 : (byteAt pl 1).toNat = 1 ∧ sideOf (byteAt pl 0) = .a ∧ s.stageB.state ≠ .idle
  · rw [if_pos h6] at h; cases h
  rw [if_neg h6] at h
  by_cases h7 : fieldAt pl 2 2 = 0
  · rw [if_pos h7] at h; cases h
  rw [if_neg h7] at h
  by_cases h8 : fieldAt pl 4 2 < 1 ∨ 1000 < fieldAt pl 4 2
  · rw [if_pos h8] at h; cases h
  refine ⟨by simpa using h3, ?_, ?_, by omega, by omega, by omega⟩
  · intro hb
    refine ⟨by simpa [hb] using h1, by simpa [hb] using h2, fun hm => h5 ⟨one.1 hm, hb⟩⟩
  · intro hm
    cases hs : sideOf (byteAt pl 0)
    · by_contra hne; exact h6 ⟨one.1 hm, hs, hne⟩
    · exact absurd ⟨one.1 hm, hs⟩ h5

/-! ### NOTES -/

/-- What taking notes keeps, a batch keeps (R80, R86). -/
theorem takeRecords_keeps {P : Stage → Prop} (now : Option Int) (rs : List RawNote)
    (hP : ∀ st n r, examine st now r = .ok n → P st → P (st.takeNote n)) {st : Stage} {k : Nat}
    (h : P st) : P (takeRecords now rs st k).1 := by
  induction rs generalizing st k with
  | nil => exact h
  | cons r rs ih =>
    unfold takeRecords
    split
    · exact ih (hP _ _ _ ‹_› h)
    · exact h

/-- What a record that is taken has passed (R80 to R86). -/
theorem examine_ok {st : Stage} {now : Option Int} {r : RawNote} {n : Note}
    (h : examine st now r = .ok n) :
    r.check st.mode = some n ∧ failsOrder st n = false ∧ failsOverlap st n = false ∧
      failsStale st now n = false ∧ st.table.length < capacityOf st.mode := by
  unfold examine at h
  cases hc : r.check st.mode with
  | none => rw [hc] at h; cases h
  | some m =>
    rw [hc] at h
    dsimp only at h
    by_cases h1 : failsOrder st m = true
    · rw [if_pos h1] at h; cases h
    rw [if_neg h1] at h
    by_cases h2 : failsOverlap st m = true
    · rw [if_pos h2] at h; cases h
    rw [if_neg h2] at h
    by_cases h3 : failsStale st now m = true
    · rw [if_pos h3] at h; cases h
    rw [if_neg h3] at h
    by_cases h4 : capacityOf st.mode ≤ st.table.length
    · rw [if_pos h4] at h; cases h
    rw [if_neg h4] at h
    cases h
    exact ⟨rfl, by simpa using h1, by simpa using h2, by simpa using h3, by omega⟩

theorem getLsbD_zero' (w i : Nat) : (0 : BitVec w).getLsbD i = false := by simp

theorem mem_stagePanels (p : Fin 18) : p ∈ stagePanels := by revert p; decide

theorem setWidth_ne_zero {b : BitVec 24} (h : b >>> (18 : Nat) = 0) (hb : panelCount b ≠ 0) :
    b.setWidth 18 ≠ 0 := by
  intro h0
  apply hb
  have hz : b = 0 := by
    apply BitVec.eq_of_getLsbD_eq
    intro i hi
    have hl := congrArg (fun x : BitVec 18 => x.getLsbD i) h0
    have hu := congrArg (fun x : BitVec 24 => x.getLsbD (i - 18)) h
    simp only [BitVec.getLsbD_setWidth, BitVec.getLsbD_ushiftRight, getLsbD_zero'] at hl hu
    by_cases h18 : i < 18
    · simpa [h18] using hl
    · have : 18 + (i - 18) = i := by omega
      rw [this] at hu
      simpa using hu
  rw [hz]; decide

theorem panelsOf_length_le (b : BitVec 24) : (panelsOf (b.setWidth 18)).length ≤ panelCount b := by
  have hm : ((panelsOf (b.setWidth 18)).map Fin.val).length ≤
      ((List.range 24).filter fun i => b.getLsbD i).length := by
    apply List.Subperm.length_le
    apply List.Nodup.subperm
    · refine List.Nodup.map Fin.val_injective ?_
      exact List.Nodup.filter _ (by decide)
    · intro i hi
      obtain ⟨p, hp, rfl⟩ := List.mem_map.1 hi
      have := (List.mem_filter.1 hp).2
      simp only [BitVec.getLsbD_setWidth, Bool.and_eq_true] at this
      exact List.mem_filter.2 ⟨List.mem_range.2 (by omega), this.2⟩
  unfold panelCount
  rwa [List.length_map] at hm

theorem shift_mono {b : BitVec 24} {m : Mode} (h : b >>> panelRange m = 0) : b >>> (18 : Nat) = 0 := by
  apply BitVec.eq_of_getLsbD_eq
  intro i hi
  have hu := congrArg (fun x : BitVec 24 => x.getLsbD (18 - panelRange m + i)) h
  simp only [BitVec.getLsbD_ushiftRight, getLsbD_zero'] at hu ⊢
  have : panelRange m + (18 - panelRange m + i) = 18 + i := by
    unfold panelRange; split <;> omega
  rwa [this] at hu

/-- A record that passes the BAD_VALUE check is a note with nothing struck, of the record's id and due
time (R75, R81, R86). -/
theorem RawNote.check_waiting {r : RawNote} {mode : Mode} {n : Note} (h : r.check mode = some n) :
    n.Waiting mode ∧ n.id = r.id ∧ n.due = r.due := by
  unfold RawNote.check at h
  cases hk : noteKindOf r.kind with
  | none => rw [hk] at h; cases h
  | some k =>
    rw [hk] at h
    dsimp only at h
    by_cases h1 : panelCount r.panels = 0 ∨ 4 < panelCount r.panels
    · rw [if_pos h1] at h; cases h
    rw [if_neg h1] at h
    by_cases h2 : r.panels >>> panelRange mode ≠ 0
    · rw [if_pos h2] at h; cases h
    rw [if_neg h2] at h
    by_cases h3 : (k = .hold ∨ k = .roll) ∧ (r.length < 1000 ∨ 30000000 < r.length)
    · rw [if_pos h3] at h; cases h
    rw [if_neg h3] at h
    cases h
    have h2 : r.panels >>> panelRange mode = 0 := by simpa using h2
    have hne := setWidth_ne_zero (shift_mono h2) (by omega)
    refine ⟨⟨hne, ?_, ?_, ?_, ?_, fun _ => rfl, ?_⟩, rfl, rfl⟩
    · have := panelsOf_length_le r.panels
      simp only [RawNote.toNote]; omega
    · simp only [RawNote.toNote]
      apply BitVec.eq_of_getLsbD_eq
      intro i hi
      have hu := congrArg (fun x : BitVec 24 => x.getLsbD i) h2
      simp only [BitVec.getLsbD_ushiftRight, getLsbD_zero', BitVec.getLsbD_setWidth] at hu ⊢
      simp [hu]
    · refine ⟨by simp [RawNote.toNote], ?_⟩
      simp only [RawNote.toNote]
      exact fun he => hne he.symm
    · simp [RawNote.toNote]
    · cases k <;> simp [RawNote.toNote, hasBody]

/-- Taking a note that passed the checks keeps the notes (R77, R82, R83, R85, R86). -/
theorem Stage.NotesInv.takeNote {st : Stage} (h : st.NotesInv) {now : Option Int} {r : RawNote} {n : Note}
    (hn : examine st now r = .ok n) : (st.takeNote n).NotesInv := by
  obtain ⟨hc, hord, hover, _, hcap⟩ := examine_ok hn
  obtain ⟨hw, _, _⟩ := RawNote.check_waiting hc
  have later : ∀ id due, st.lastAccepted = some (id, due) → id < n.id ∧ due ≤ n.due := by
    intro id due hl
    simp only [failsOrder, hl, decide_eq_false_iff_not] at hord
    omega
  have free : ∀ p : Fin 18, n.panels.getLsbD p.val = true → ∀ e, st.busyUntil[p] = some e → e < n.due := by
    intro p hp e he
    simp only [failsOverlap, List.any_eq_false] at hover
    have := hover p (List.mem_filter.2 ⟨mem_stagePanels p, hp⟩)
    rw [he] at this
    simpa using this
  have before : ∀ m ∈ st.table, m.id < n.id ∧ m.due ≤ n.due := by
    intro m hm
    obtain ⟨id, due, hl, h1, h2⟩ := h.last m hm
    have := later id due hl
    omega
  have endGe : n.due ≤ n.endTime := by unfold Note.endTime; omega
  refine ⟨?_, ?_, ?_, ?_, ?_, ?_, ?_, h.holds⟩
  · simp only [Stage.takeNote, List.length_append, List.length_singleton]; omega
  · refine List.pairwise_append.2 ⟨h.ordered, by simp, ?_⟩
    intro m hm x hx
    rw [List.mem_singleton.1 hx]; exact before m hm
  · refine List.pairwise_append.2 ⟨h.disjoint, by simp, ?_⟩
    intro m hm x hx hp
    rw [List.mem_singleton.1 hx] at hp ⊢
    obtain ⟨p, hp1, hp2⟩ : ∃ p : Fin 18, m.panels.getLsbD p.val = true ∧ n.panels.getLsbD p.val = true := by
      by_contra hne
      apply hp
      apply BitVec.eq_of_getLsbD_eq
      intro i hi
      simp only [BitVec.getLsbD_and, getLsbD_zero', Bool.and_eq_false_imp]
      intro h1
      by_contra h2
      exact hne ⟨⟨i, hi⟩, h1, by simpa using h2⟩
    obtain ⟨e, he, hle⟩ := h.busy m hm p hp1
    have := free p hp2 e he
    omega
  · intro m hm
    rcases List.mem_append.1 hm with hm | hm
    · exact h.waiting m hm
    · rw [List.mem_singleton.1 hm]; exact hw
  · intro m hm
    refine ⟨n.id, n.due, rfl, ?_⟩
    rcases List.mem_append.1 hm with hm | hm
    · have := before m hm; omega
    · rw [List.mem_singleton.1 hm]; omega
  · intro m hm p hp
    simp only [Stage.takeNote, busyAfter, Fin.getElem_fin, Vector.getElem_ofFn]
    rcases List.mem_append.1 hm with hm | hm
    · obtain ⟨e, he, hle⟩ := h.busy m hm p hp
      split
      · rename_i hq
        exact ⟨_, rfl, by have := free p hq e he; omega⟩
      · exact ⟨e, he, hle⟩
    · rw [List.mem_singleton.1 hm] at hp ⊢
      rw [if_pos hp]; exact ⟨_, rfl, le_refl _⟩
  · intro p e he
    obtain ⟨h1, id, due, hl, h2⟩ := h.tracked p e he
    have := later id due hl
    refine ⟨?_, n.id, n.due, rfl, by omega⟩
    intro m hm
    rcases List.mem_append.1 hm with hm | hm
    · exact h1 m hm
    · rw [List.mem_singleton.1 hm]; omega

end Sys2Proof.Machine
end

