-- ==== Sys2Proof/Laws/Units.lean ====
section
/-! SUPPORT. Judged units against the notes accepted (R76, R79, R133): what judging and NOTES do to them. -/

namespace Sys2Proof.Machine

/-! ### The holds of a tracker -/

theorem mem_insertId (id x : Nat) (l : List Nat) : x ∈ insertId id l ↔ x = id ∨ x ∈ l := by
  induction l with
  | nil => simp [insertId]
  | cons a l ih =>
    unfold insertId
    split_ifs with h1 h2
    · subst h1; simp
    · simp
    · simp [ih]; tauto

theorem insertId_sorted (id : Nat) {l : List Nat} (h : l.Pairwise (· < ·)) :
    (insertId id l).Pairwise (· < ·) := by
  induction l with
  | nil => simp [insertId]
  | cons a l ih =>
    unfold insertId
    rw [List.pairwise_cons] at h
    split_ifs with h1 h2
    · exact List.pairwise_cons.2 h
    · refine List.pairwise_cons.2 ⟨fun x hx => ?_, List.pairwise_cons.2 h⟩
      rcases List.mem_cons.1 hx with rfl | hx
      · exact h2
      · exact h2.trans (h.1 x hx)
    · refine List.pairwise_cons.2 ⟨fun x hx => ?_, ih h.2⟩
      rcases (mem_insertId _ _ _).1 hx with rfl | hx
      · omega
      · exact h.1 x hx

/-- Ids inserted one after another: each once, in increasing order. -/
theorem insertIds_spec (l : List Nat) {acc : List Nat} (h : acc.Pairwise (· < ·)) :
    (l.foldl (fun ids id => insertId id ids) acc).Pairwise (· < ·) ∧
      ∀ x, x ∈ l.foldl (fun ids id => insertId id ids) acc ↔ x ∈ l ∨ x ∈ acc := by
  induction l generalizing acc with
  | nil => simp [h]
  | cons a l ih =>
    obtain ⟨h1, h2⟩ := ih (insertId_sorted a h)
    refine ⟨h1, fun x => ?_⟩
    rw [List.foldl_cons, h2, mem_insertId, List.mem_cons]
    tauto

/-- The ids of the holds in a tracker (R120): each once, in increasing order. -/
theorem holdIds_spec (v : Vector (Option TrackEntry) 18) : (holdIds v).Pairwise (· < ·) ∧
    ∀ id, id ∈ holdIds v ↔ ∃ (p : Fin 18) (e : TrackEntry), v[p] = some e ∧ e.id = id := by
  obtain ⟨h1, h2⟩ := insertIds_spec
    (stagePanels.filterMap fun (p : Fin 18) => v[p].map TrackEntry.id) (acc := []) .nil
  refine ⟨h1, fun id => ?_⟩
  unfold holdIds
  rw [h2]
  simp only [List.mem_filterMap, List.not_mem_nil, or_false, Option.map_eq_some_iff]
  exact ⟨fun ⟨p, _, e, a, b⟩ => ⟨p, e, a, b⟩, fun ⟨p, e, a, b⟩ => ⟨p, mem_stagePanels p, e, a, b⟩⟩

/-- The holds of a tracker as a set. -/
def heldIds (v : Vector (Option TrackEntry) 18) : Finset Nat := (holdIds v).toFinset

theorem mem_heldIds {v : Vector (Option TrackEntry) 18} {id : Nat} :
    id ∈ heldIds v ↔ ∃ (p : Fin 18) (e : TrackEntry), v[p] = some e ∧ e.id = id := by
  unfold heldIds
  rw [List.mem_toFinset, (holdIds_spec v).2]

theorem holdIds_length (v : Vector (Option TrackEntry) 18) : (holdIds v).length = (heldIds v).card :=
  (List.toFinset_card_of_nodup ((holdIds_spec v).1.imp fun h => Nat.ne_of_lt h)).symm

theorem TrackerSub.heldIds {t t' : Vector (Option TrackEntry) 18} (h : TrackerSub t' t) :
    heldIds t' ⊆ heldIds t := by
  intro id hi
  obtain ⟨p, e, he, rfl⟩ := mem_heldIds.1 hi
  obtain ⟨e', he', hid, _⟩ := h p e he
  exact mem_heldIds.2 ⟨p, e', he', hid⟩

/-- A hold whose entries are removed is in the tracker no more; every other hold stays. -/
theorem heldIds_removeHold (t : Vector (Option TrackEntry) 18) (id : Nat) :
    heldIds (removeHold t id) = (heldIds t).erase id := by
  have get : ∀ (p : Fin 18) (e : TrackEntry), (removeHold t id)[p] = some e ↔ t[p] = some e ∧ e.id ≠ id := by
    intro p e
    simp only [removeHold, Fin.getElem_fin, Vector.getElem_ofFn]
    cases t[p.val] with
    | none => simp
    | some x =>
      dsimp only
      split
      · rename_i h
        simp only [reduceCtorEq, Option.some.injEq, ne_eq, false_iff, not_and, not_not]
        rintro rfl; exact h
      · rename_i h
        simp only [Option.some.injEq, ne_eq]
        exact ⟨fun he => ⟨he, he ▸ h⟩, fun he => he.1⟩
  ext x
  rw [Finset.mem_erase, mem_heldIds, mem_heldIds]
  constructor
  · rintro ⟨p, e, he, rfl⟩
    exact ⟨((get p e).1 he).2, p, e, ((get p e).1 he).1, rfl⟩
  · rintro ⟨hx, p, e, he, rfl⟩
    exact ⟨p, e, (get p e).2 ⟨he, hx⟩, rfl⟩

/-! ### Judged units with the units that wait -/

/-- J with the units of the notes in the table and one for each hold in the tracker. -/
def Stage.load (st : Stage) : Nat :=
  st.judged + (st.table.map Note.units).sum + (holdIds st.tracker).length

theorem Stage.account_judged (st : Stage) (r : Result) (w : Option Int) :
    (st.account r w).judged = st.judged + unitsOf r := by
  unfold Stage.account Stage.addOffset
  cases w <;> simp; split <;> simp

theorem Stage.account_load (st : Stage) (r : Result) (w : Option Int) :
    (st.account r w).load = st.load + unitsOf r := by
  simp only [Stage.load, Stage.account_judged, Stage.account_frame]
  omega

theorem Stage.offer_load (st : Stage) (depth : Nat) (mk : Nat → Report) :
    (st.offer depth mk).load = st.load := by
  rcases st.offer_spec depth mk with ⟨_, he⟩ | ⟨_, he⟩ <;> rw [he] <;> rfl

/-- Stages with the same J and tables have the same load. -/
theorem Stage.load_congr {st st' : Stage} (hj : st'.judged = st.judged) (ht : st'.table = st.table)
    (hr : st'.tracker = st.tracker) : st'.load = st.load := by
  simp only [Stage.load, hj, ht, hr]

/-- The load of another tracker whose holds the old one had is no higher. -/
theorem Stage.load_tracker {st : Stage} {t : Vector (Option TrackEntry) 18}
    (h : heldIds t ⊆ heldIds st.tracker) : { st with tracker := t }.load ≤ st.load := by
  have := Finset.card_le_card h
  simp only [Stage.load, holdIds_length]
  omega

namespace Judging

variable {j : Judging} {ctx : JudgeCtx}

theorem result_load (j : Judging) (ctx : JudgeCtx) (r : Result) (w : Option Int)
    (mk : Option (Bool → Stage → Nat → Report)) :
    (j.result ctx r w mk).stage.load = j.stage.load + unitsOf r := by
  unfold Judging.result
  cases mk with
  | none => exact (Stage.load_congr rfl rfl rfl).trans (j.stage.account_load r w)
  | some mk =>
    exact (Stage.load_congr rfl rfl rfl).trans ((Stage.offer_load _ _ _).trans (j.stage.account_load r w))

theorem result_judged (j : Judging) (ctx : JudgeCtx) (r : Result) (w : Option Int)
    (mk : Option (Bool → Stage → Nat → Report)) :
    (j.result ctx r w mk).stage.judged = j.stage.judged + unitsOf r := by
  obtain ⟨h1, h2, _⟩ := j.result_tables ctx r w mk
  have hl := j.result_load ctx r w mk
  simp only [Stage.load, h1, h2] at hl
  omega

theorem missWithBody_load (j : Judging) (ctx : JudgeCtx) (n : Note) :
    (j.missWithBody ctx n).stage.load = j.stage.load + 2 := by
  unfold Judging.missWithBody
  dsimp only
  refine (Stage.load_congr rfl rfl rfl).trans ((Stage.offer_load _ _ _).trans ?_)
  rw [Stage.account_load, Stage.offer_load, Stage.account_load]
  rfl

theorem result_heads (j : Judging) (ctx : JudgeCtx) (r : Result) (w : Option Int)
    (mk : Option (Bool → Stage → Nat → Report)) : (j.result ctx r w mk).heads = j.heads :=
  (j.result_tables ctx r w mk).2.2.2.2.2

/-- The end of a hold takes its entries from the tracker and adds one unit (R123, R133). -/
theorem end_load {id : Nat} (h : id ∈ heldIds j.stage.tracker) {r : Result} (hr : unitsOf r = 1)
    (mk : Option (Bool → Stage → Nat → Report)) :
    (Judging.result { j with stage := { j.stage with tracker := removeHold j.stage.tracker id } } ctx r none
      mk).stage.load = j.stage.load := by
  rw [result_load, hr]
  have hc := Finset.card_erase_of_mem h
  have hp := Finset.card_pos.2 ⟨id, h⟩
  simp only [Stage.load, holdIds_length, heldIds_removeHold, hc]
  omega

theorem dropHold_load {id : Nat} (h : id ∈ heldIds j.stage.tracker) (p : Fin 18) (reason : Reason) :
    (j.dropHold ctx id p reason).stage.load = j.stage.load := end_load h rfl _

theorem holdOk_load {id : Nat} (h : id ∈ heldIds j.stage.tracker) :
    (j.holdOk ctx id).stage.load = j.stage.load := end_load h rfl _

/-! ### The parts of judging -/

/-- A press adds to J what the completed note's units lose, its body waiting as a head (R76, R99, R104). -/
theorem press_load (j : Judging) (ctx : JudgeCtx) (p : Fin 18) :
    (j.press ctx p).stage.load + (j.press ctx p).heads.length ≤ j.stage.load + j.heads.length := by
  unfold Judging.press
  split
  · rename_i e he
    refine Nat.add_le_add_right (Stage.load_tracker (TrackerSub.heldIds (.set p ?_))) _
    rintro e' ⟨⟩
    exact ⟨e, he, (TrackEntry.press_id e _).1.symm, (TrackEntry.press_id e _).2.symm⟩
  · split
    · rename_i n' l' hs
      obtain ⟨b, n, a, hl, _, he, rfl, hl'⟩ := strikeTable_spec hs
      have hk : n.kind ≠ .mine := by
        simp only [eligible, Bool.and_eq_true, bne_iff_ne] at he
        exact he.1.1.1
      dsimp only
      split
      · rename_i hc
        rw [if_pos hc] at hl'
        have hg : ∀ g, unitsOf (resultOfGrade g) = 1 := by intro g; cases g <;> rfl
        have hb : n.units = 1 + if hasBody (n.strike p ctx.time) then 1 else 0 := by
          revert hk; unfold Note.units hasBody Note.strike; cases n.kind <;> simp
        unfold Judging.complete
        dsimp only
        rw [result_load, hg]
        simp only [Stage.load, hl, hl', List.map_append, List.map_cons, List.sum_append, List.sum_cons, hb,
          result_heads]
        split
        · rw [List.length_append, List.length_singleton]
          omega
        · omega
      · rename_i hc
        rw [if_neg hc] at hl'
        simp only [Stage.load, hl, hl', List.map_append, List.map_cons, List.sum_append, List.sum_cons]
        exact Nat.le_refl _
    · unfold Judging.stray
      rw [result_load, result_heads]
      exact Nat.le_refl _

theorem presses_load (es : List (Fin 18 × EdgeKind)) (j : Judging) :
    (es.foldl (pressEdge ctx) j).stage.load + (es.foldl (pressEdge ctx) j).heads.length ≤
      j.stage.load + j.heads.length := by
  induction es generalizing j with
  | nil => exact Nat.le_refl _
  | cons e es ih =>
    refine (ih _).trans ?_
    unfold pressEdge
    split
    · exact Nat.le_refl _
    · exact press_load _ _ _

/-- The load with the head `id` counted once, in the tracker or out of it. -/
def loadWith (id : Nat) (j : Judging) : Nat :=
  j.stage.judged + (j.stage.table.map Note.units).sum + (insert id (heldIds j.stage.tracker)).card

theorem load_le_loadWith (id : Nat) (j : Judging) : j.stage.load ≤ j.loadWith id := by
  have := Finset.card_le_card (Finset.subset_insert id (heldIds j.stage.tracker))
  simp only [Stage.load, loadWith, holdIds_length]
  omega

theorem loadWith_le (id : Nat) (j : Judging) : j.loadWith id ≤ j.stage.load + 1 := by
  have := Finset.card_insert_le id (heldIds j.stage.tracker)
  simp only [Stage.load, loadWith, holdIds_length]
  omega

/-- A hand-over of another hold's entry keeps the load (R116). -/
theorem handOver_load (j : Judging) {p : Fin 18} {e : TrackEntry} {id : Nat}
    (he : j.stage.tracker[p] = some e) (hid : e.id ≠ id) :
    (j.handOver ctx p e).loadWith id ≤ j.loadWith id := by
  have hin : e.id ∈ heldIds j.stage.tracker := mem_heldIds.2 ⟨p, e, he, rfl⟩
  have close : ∀ (r : Result) mk, unitsOf r = 1 →
      (Judging.result { j with stage := { j.stage with tracker := removeHold j.stage.tracker e.id } } ctx r
        none mk).loadWith id ≤ j.loadWith id := by
    intro r mk hr
    obtain ⟨h1, h2, _⟩ := Judging.result_tables
      { j with stage := { j.stage with tracker := removeHold j.stage.tracker e.id } } ctx r none mk
    have hj := Judging.result_judged
      { j with stage := { j.stage with tracker := removeHold j.stage.tracker e.id } } ctx r none mk
    rw [hr] at hj
    have hs : insert id ((heldIds j.stage.tracker).erase e.id) =
        (insert id (heldIds j.stage.tracker)).erase e.id := by
      ext x; simp only [Finset.mem_insert, Finset.mem_erase]
      constructor
      · rintro (rfl | h)
        · exact ⟨hid.symm, .inl rfl⟩
        · exact ⟨h.1, .inr h.2⟩
      · rintro ⟨h1, rfl | h2⟩
        · exact .inl rfl
        · exact .inr ⟨h1, h2⟩
    have hc := Finset.card_erase_of_mem (Finset.mem_insert_of_mem (b := id) hin)
    have hp := Finset.card_pos.2 ⟨e.id, Finset.mem_insert_of_mem (b := id) hin⟩
    simp only [loadWith, hj, h1, h2, heldIds_removeHold, hs, hc]
    omega
  unfold Judging.handOver
  split
  · exact close _ _ rfl
  · dsimp only
    split
    · exact close _ _ rfl
    · have hsub : heldIds (j.stage.tracker.set p none) ⊆ heldIds j.stage.tracker :=
        TrackerSub.heldIds (.set p (by simp))
      have := Finset.card_le_card (Finset.insert_subset_insert id hsub)
      simp only [loadWith]
      omega

theorem passPanel_load (n : Note) (j : Judging) (p : Fin 18) :
    (Judging.passPanel ctx n j p).loadWith n.id ≤ j.loadWith n.id := by
  unfold Judging.passPanel
  split
  · exact Nat.le_refl _
  · have make : ∀ j' : Judging, j'.loadWith n.id ≤ j.loadWith n.id →
        Judging.loadWith n.id (if j'.halted = true then j' else
          { j' with stage := { j'.stage with
            tracker := j'.stage.tracker.set p (some (headEntry ctx j'.stage n p)) } }) ≤
          j.loadWith n.id := by
      intro j' h
      split
      · exact h
      · refine Nat.le_trans ?_ h
        have hs : insert n.id (heldIds (j'.stage.tracker.set p (some (headEntry ctx j'.stage n p)))) ⊆
            insert n.id (heldIds j'.stage.tracker) := by
          intro x hx
          rcases Finset.mem_insert.1 hx with rfl | hx
          · exact Finset.mem_insert_self _ _
          · obtain ⟨q, e, he, rfl⟩ := mem_heldIds.1 hx
            rw [tracker_set_get] at he
            split at he
            · cases he; exact Finset.mem_insert_self _ _
            · exact Finset.mem_insert_of_mem (mem_heldIds.2 ⟨q, e, he, rfl⟩)
        have := Finset.card_le_card hs
        simp only [loadWith]
        omega
    apply make
    split
    · split
      · exact Nat.le_refl _
      · rename_i he hne
        exact handOver_load j he hne
    · exact Nat.le_refl _

/-- The load when the session is emptied with these heads: each hold and each head counted once (R64). -/
def cutLoad (j : Judging) : Nat :=
  j.stage.judged + (j.stage.table.map Note.units).sum +
    (heldIds j.stage.tracker ∪ (j.heads.map Note.id).toFinset).card

theorem cutLoad_le (j : Judging) : j.cutLoad ≤ j.stage.load + j.heads.length := by
  have h1 := Finset.card_union_le (heldIds j.stage.tracker) (j.heads.map Note.id).toFinset
  have h2 := (j.heads.map Note.id).toFinset_card_le
  simp only [cutLoad, Stage.load, holdIds_length, List.length_map] at *
  omega

/-- Passing the heads keeps the load, each head counted until it is passed (R104, R115, R116). -/
theorem passHeads_load (ns : List Note) (j : Judging) :
    (passHeads ctx ns j).cutLoad ≤ j.stage.load + ns.length := by
  induction ns generalizing j with
  | nil => exact cutLoad_le { j with heads := [] }
  | cons n ns ih =>
    have fold : ∀ (ps : List (Fin 18)) (j : Judging),
        (ps.foldl (Judging.passPanel ctx n) j).loadWith n.id ≤ j.loadWith n.id := by
      intro ps
      induction ps with
      | nil => intro j; exact Nat.le_refl _
      | cons p ps ih => intro j; exact (ih _).trans (passPanel_load n j p)
    have h1 := fold (panelsOf n.panels) j
    have h2 := loadWith_le n.id j
    unfold passHeads
    dsimp only
    generalize (panelsOf n.panels).foldl (Judging.passPanel ctx n) j = j' at h1 ⊢
    rw [List.length_cons]
    split
    · have hs : heldIds j'.stage.tracker ∪ ((n :: ns).map Note.id).toFinset =
          insert n.id (heldIds j'.stage.tracker) ∪ (ns.map Note.id).toFinset := by
        ext x; simp only [List.map_cons, List.toFinset_cons, Finset.mem_union, Finset.mem_insert]; tauto
      have h3 := Finset.card_union_le (insert n.id (heldIds j'.stage.tracker)) (ns.map Note.id).toFinset
      have h4 := (ns.map Note.id).toFinset_card_le
      simp only [cutLoad, loadWith, hs, List.length_map] at *
      omega
    · have := ih j'
      have := load_le_loadWith n.id j'
      omega

theorem resolveHold_load (j : Judging) (id : Nat) :
    (resolveHold ctx j id).stage.load = j.stage.load ∧ (resolveHold ctx j id).heads = j.heads ∧
      (j.halted = true → resolveHold ctx j id = j) := by
  unfold resolveHold
  split
  · exact ⟨rfl, rfl, fun _ => rfl⟩
  · rename_i hj
    refine and_assoc.1 ⟨?_, fun h => absurd h hj⟩
    split
    · exact ⟨rfl, rfl⟩
    · rename_i p e rest he
      have hin : id ∈ heldIds j.stage.tracker := by
        have : (p, e) ∈ holdEntries j.stage.tracker id := by rw [he]; simp
        obtain ⟨q, _, hq⟩ := List.mem_filterMap.1 this
        split at hq
        · rename_i e' hp
          split at hq <;> cases hq
          exact mem_heldIds.2 ⟨p, e, hp, ‹_›⟩
        · cases hq
      split
      · exact ⟨dropHold_load hin _ _, result_heads _ _ _ _ _⟩
      · split
        · exact ⟨rfl, rfl⟩
        · exact ⟨holdOk_load hin, result_heads _ _ _ _ _⟩

theorem holdPart_load (j : Judging) :
    (holdPart ctx j).stage.load = j.stage.load ∧ (holdPart ctx j).heads = j.heads ∧
      (j.halted = true → holdPart ctx j = j) := by
  unfold holdPart
  generalize holdIds j.stage.tracker = ids
  induction ids generalizing j with
  | nil => exact ⟨rfl, rfl, fun _ => rfl⟩
  | cons id ids ih =>
    obtain ⟨a, b, c⟩ := resolveHold_load (ctx := ctx) j id
    obtain ⟨a', b', c'⟩ := ih (resolveHold ctx j id)
    refine ⟨a'.trans a, b'.trans b, fun h => ?_⟩
    rw [List.foldl_cons, c h]
    rw [c h] at c'
    exact c' h

/-- A sweep whose `take` adds at most the units of the note it takes keeps the load. -/
theorem sweepTable_load {take : Note → Judging → Option Judging}
    (ht : ∀ n j j', take n j = some j' → j'.stage.judged ≤ j.stage.judged + n.units ∧
      j'.stage.tracker = j.stage.tracker ∧ j'.heads = j.heads) (j : Judging) :
    (sweepTable take j).stage.load ≤ j.stage.load ∧ (sweepTable take j).heads = j.heads ∧
      (j.halted = true → sweepTable take j = j) := by
  have sw : ∀ (ns : List Note) (j : Judging),
      (sweep take ns j).2.stage.judged + ((sweep take ns j).1.map Note.units).sum ≤
        j.stage.judged + (ns.map Note.units).sum ∧
      (sweep take ns j).2.stage.tracker = j.stage.tracker ∧ (sweep take ns j).2.heads = j.heads ∧
      (j.halted = true → sweep take ns j = (ns, j)) := by
    intro ns
    induction ns with
    | nil => intro j; exact ⟨Nat.le_refl _, rfl, rfl, fun _ => rfl⟩
    | cons n ns ih =>
      intro j
      unfold sweep
      split
      · exact ⟨Nat.le_refl _, rfl, rfl, fun _ => rfl⟩
      · rename_i hj
        refine and_assoc.1 (and_assoc.1 ⟨?_, fun h => absurd h hj⟩)
        split
        · rename_i j' hn
          obtain ⟨a, b, c⟩ := ht n j j' hn
          obtain ⟨a', b', c', _⟩ := ih j'
          refine ⟨⟨?_, b'.trans b⟩, c'.trans c⟩
          simp only [List.map_cons, List.sum_cons]
          omega
        · obtain ⟨a', b', c', _⟩ := ih j
          refine ⟨⟨?_, b'⟩, c'⟩
          simp only [List.map_cons, List.sum_cons]
          omega
  obtain ⟨a, b, c, d⟩ := sw j.stage.table j
  unfold sweepTable
  refine ⟨?_, c, fun h => ?_⟩
  · simp only [Stage.load, b]
    omega
  · rw [d h]

theorem laterParts_load (j : Judging) :
    (laterParts ctx j).stage.load ≤ j.stage.load ∧ (laterParts ctx j).heads = j.heads ∧
      (j.halted = true → laterParts ctx j = j) := by
  have res : ∀ (j : Judging) (r : Result) (mk : Option (Bool → Stage → Nat → Report)),
      (j.result ctx r none mk).stage.judged = j.stage.judged + unitsOf r ∧
        (j.result ctx r none mk).stage.tracker = j.stage.tracker ∧
        (j.result ctx r none mk).heads = j.heads := by
    exact fun j r mk => ⟨j.result_judged ctx r none mk, (j.result_tables ctx r none mk).2.1,
      j.result_heads ctx r none mk⟩
  have mine : ∀ n (j j' : Judging), takeMine ctx n j = some j' →
      j'.stage.judged ≤ j.stage.judged + n.units ∧ j'.stage.tracker = j.stage.tracker ∧
        j'.heads = j.heads := by
    intro n j j' h
    unfold takeMine at h
    dsimp only at h
    split at h
    · cases h
    · split at h
      · cases h
        obtain ⟨a, b, c⟩ := res j .mineHit (some
          (mineReport ctx.side n.id true (lowestPanel (n.panels &&& ctx.pressed))))
        exact ⟨by simp only [a, unitsOf]; omega, b, c⟩
      · split at h
        · cases h
          obtain ⟨a, b, c⟩ := res j .mineAvoided
            (if j.stage.askAvoided then some (mineReport ctx.side n.id false 0) else none)
          exact ⟨by simp only [a, unitsOf]; omega, b, c⟩
        · cases h
  have closed : ∀ n (j j' : Judging), takeClosed ctx n j = some j' →
      j'.stage.judged ≤ j.stage.judged + n.units ∧ j'.stage.tracker = j.stage.tracker ∧
        j'.heads = j.heads := by
    intro n j j' h
    unfold takeClosed at h
    split at h
    · rename_i hc
      split at h <;> cases h
      · rename_i hb
        obtain ⟨h1, h2, _, _, _, h6⟩ := j.missWithBody_tables ctx n
        have hl := j.missWithBody_load ctx n
        simp only [Stage.load, h1, h2] at hl
        have hu : n.units = 2 := by
          revert hb; unfold Note.units hasBody; cases n.kind <;> simp
        exact ⟨by omega, h2, h6⟩
      · rename_i hb
        obtain ⟨a, b, c⟩ := res j .miss (some (judgmentReport ctx.side n .miss none))
        have hu : n.units = 1 := by
          revert hb; have := hc.1; revert this; unfold Note.units hasBody; cases n.kind <;> simp
        exact ⟨by simp only [a, unitsOf]; omega, b, c⟩
    · cases h
  obtain ⟨a, b, c⟩ := holdPart_load (ctx := ctx) j
  obtain ⟨a', b', c'⟩ := sweepTable_load mine (holdPart ctx j)
  obtain ⟨a'', b'', c''⟩ := sweepTable_load closed (sweepTable (takeMine ctx) (holdPart ctx j))
  unfold laterParts
  refine ⟨by omega, (b''.trans b').trans b, fun h => ?_⟩
  rw [c h] at c' c'' ⊢
  rw [c' h] at c'' ⊢
  exact c'' h

end Judging

/-! ### Whole sessions -/

/-- Emptying cuts each hold and each head once (R64). -/
theorem Stage.emptySession_load (j : Judging) : (j.stage.emptySession j.heads).load ≤ j.cutLoad := by
  obtain ⟨hs, hm⟩ := insertIds_spec (j.heads.map Note.id) (holdIds_spec j.stage.tracker).1
  have fold : ∀ {α : Type} (r : Result) (l : List α) (st : Stage),
      (l.foldl (fun st _ => st.account r none) st).judged = st.judged + l.length * unitsOf r := by
    intro α r l
    induction l with
    | nil => intro st; simp
    | cons x xs ih =>
      intro st
      rw [List.foldl_cons, ih, Stage.account_judged, List.length_cons, Nat.succ_mul]
      omega
  have hc : (j.heads.foldl (fun ids n => insertId n.id ids) (holdIds j.stage.tracker)).length =
      (heldIds j.stage.tracker ∪ (j.heads.map Note.id).toFinset).card := by
    have he : j.heads.foldl (fun ids n => insertId n.id ids) (holdIds j.stage.tracker) =
        (j.heads.map Note.id).foldl (fun ids id => insertId id ids) (holdIds j.stage.tracker) := by
      rw [List.foldl_map]
    rw [he, ← List.toFinset_card_of_nodup (hs.imp fun h => Nat.ne_of_lt h)]
    congr 1
    ext x
    rw [List.mem_toFinset, hm, Finset.mem_union, List.mem_toFinset]
    unfold heldIds
    rw [List.mem_toFinset]
    tauto
  have h0 : (holdIds (Vector.replicate 18 (none : Option TrackEntry))).length = 0 := by decide
  unfold Stage.emptySession Judging.cutLoad
  simp only [Stage.load, List.map_nil, List.sum_nil, h0, fold, unitsOf, hc]
  omega

/-- Judging a record does not raise the load (R93). -/
theorem Stage.judge_load (st : Stage) (ctx : JudgeCtx) (es : List (Fin 18 × EdgeKind)) :
    (st.judge ctx es).1.load ≤ st.load := by
  have rel : ∀ (es : List (Fin 18 × EdgeKind)) (st : Stage), (es.foldl (releaseEdge ctx) st).load ≤ st.load := by
    intro es
    induction es with
    | nil => intro st; exact Nat.le_refl _
    | cons e es ih =>
      intro st
      refine (ih _).trans ?_
      unfold releaseEdge
      split
      · refine Stage.load_tracker (TrackerSub.heldIds (.set e.1 ?_))
        intro x hx
        obtain ⟨y, hy, rfl⟩ := Option.map_eq_some_iff.1 hx
        exact ⟨y, hy, (TrackEntry.release_id y _).1.symm, (TrackEntry.release_id y _).2.symm⟩
      · exact Nat.le_refl _
  have agree : ∀ st : Stage, (agreeTracker ctx st).load ≤ st.load := by
    intro st
    refine Stage.load_tracker (TrackerSub.heldIds fun p e he => ?_)
    simp only [Fin.getElem_fin, Vector.getElem_ofFn] at he
    split at he
    · obtain ⟨y, hy, rfl⟩ := Option.map_eq_some_iff.1 he
      exact ⟨y, hy, (TrackEntry.agree_id y _ _).1.symm, (TrackEntry.agree_id y _ _).2.symm⟩
    · exact ⟨e, he, rfl, rfl⟩
  have note : (st.notePressed ctx).load = st.load := by
    unfold Stage.notePressed; split <;> rfl
  have h1 := (agree _).trans (rel es (st.notePressed ctx))
  have h2 := Judging.presses_load (ctx := ctx) es
    { stage := agreeTracker ctx (es.foldl (releaseEdge ctx) (st.notePressed ctx)), heads := [], flashes := [],
      halted := false }
  have he : (earlierParts ctx es st).cutLoad ≤ st.load := by
    unfold earlierParts
    dsimp only at h2 ⊢
    rw [List.length_nil] at h2
    generalize es.foldl (pressEdge ctx) _ = j at h2 ⊢
    split
    · exact (j.cutLoad_le.trans h2).trans (by omega)
    · exact ((Judging.passHeads_load _ j).trans h2).trans (by omega)
  have hh : (earlierParts ctx es st).halted = false → (earlierParts ctx es st).heads = [] := by
    have pass : ∀ (ns : List Note) (j : Judging), (passHeads ctx ns j).halted = false →
        (passHeads ctx ns j).heads = [] := by
      intro ns
      induction ns with
      | nil => exact fun _ _ => rfl
      | cons n ns ih =>
        intro j
        unfold passHeads
        dsimp only
        split
        · rename_i hj; intro h; rw [hj] at h; cases h
        · exact ih _
    unfold earlierParts
    dsimp only
    split
    · rename_i hj; intro h; rw [hj] at h; cases h
    · exact pass _ _
  have hl : (earlierParts ctx es st).stage.load ≤ (earlierParts ctx es st).cutLoad := by
    have := Finset.card_le_card (Finset.subset_union_left (s₁ := heldIds (earlierParts ctx es st).stage.tracker)
      (s₂ := ((earlierParts ctx es st).heads.map Note.id).toFinset))
    simp only [Stage.load, Judging.cutLoad, holdIds_length]
    omega
  unfold Stage.judge
  dsimp only
  generalize earlierParts ctx es st = j at he hl hh ⊢
  obtain ⟨a, b, c⟩ := Judging.laterParts_load (ctx := ctx) j
  split
  · refine (Stage.load_congr rfl rfl rfl).le.trans ((Stage.emptySession_load _).trans ?_)
    by_cases hj : j.halted = true
    · rw [c hj]; exact he
    · have := (laterParts ctx j).cutLoad_le
      rw [b, hh (by simpa using hj)] at this
      exact (this.trans a).trans (hl.trans he)
  · exact a.trans (hl.trans he)

/-- A close does not raise the load (R64, R67, R68). -/
theorem Stage.close_load (st : Stage) (d : Side) (n : Nat) (x : Int) : (st.close d n x).load ≤ st.load := by
  have em : ∀ st : Stage, (st.emptySession []).load ≤ st.load := fun st =>
    (Stage.emptySession_load { stage := st, heads := [], flashes := [], halted := false }).trans
      (Judging.cutLoad_le _)
  refine Stage.close_keeps d n x (Q := fun s => s.load ≤ st.load) (fun _ => ?_) (fun _ => em st)
    fun _ _ => Nat.le_refl _
  exact (em _).trans (Judging.laterParts_load
    { stage := st, heads := [], flashes := [], halted := false }).1

/-- Judging and closing keep the last accepted note (R79). -/
theorem keepsAccepted (ctx : JudgeCtx) (x : Option (Nat × Int)) :
    Kept ctx fun st _ => st.lastAccepted = x where
  tables := fun _ _ h => h
  pressed := fun {st b} h => by unfold Stage.notePressed; split <;> exact h
  result := fun {j} r w mk _ _ _ h => ((j.result_tables ctx r w mk).2.2.2.1).trans h
  miss := fun {j} n _ h => ((j.missWithBody_tables ctx n).2.2.2.1).trans h

theorem Stage.emptySession_accepted (st : Stage) (heads : List Note) :
    (st.emptySession heads).lastAccepted = st.lastAccepted :=
  Stage.emptySession_keeps (P := fun s => s.lastAccepted = st.lastAccepted) st heads rfl
    (fun s r _ h => by simpa using h) fun _ h => h

theorem Stage.judge_accepted (st : Stage) (ctx : JudgeCtx) (es : List (Fin 18 × EdgeKind)) :
    (st.judge ctx es).1.lastAccepted = st.lastAccepted :=
  Stage.judge_keeps (keepsAccepted ctx st.lastAccepted) (Q := fun s => s.lastAccepted = st.lastAccepted)
    (fun _ h => h) (fun s heads h => (s.emptySession_accepted heads).trans h) es rfl

theorem Stage.close_accepted (st : Stage) (d : Side) (n : Nat) (x : Int) :
    (st.close d n x).lastAccepted = st.lastAccepted := by
  refine Stage.close_keeps d n x (Q := fun s => s.lastAccepted = st.lastAccepted) (fun _ => ?_)
    (fun _ => st.emptySession_accepted []) fun _ _ => rfl
  obtain ⟨b, hb⟩ := Stage.flush_keeps (st := st) d n x (fun ctx _ => keepsAccepted ctx st.lastAccepted) rfl
  exact (Stage.emptySession_accepted _ []).trans hb

namespace Stage.UnitsInv

variable {st st' : Stage}

/-- A load no higher with the same last accepted note keeps the invariant. -/
theorem mono (h : st.UnitsInv) (hl : st'.load ≤ st.load) (ha : st'.lastAccepted = st.lastAccepted) :
    st'.UnitsInv := by
  have hs : st'.acceptable = st.acceptable := by unfold Stage.acceptable; rw [ha]
  have := h.ids
  have := h.units
  have hu : st'.load ≤ 2 * st'.acceptable := by simp only [Stage.load] at *; omega
  exact ⟨by simp only [Stage.load] at hu; omega, by omega, hu⟩

theorem judge (h : st.UnitsInv) (ctx : JudgeCtx) (es : List (Fin 18 × EdgeKind)) :
    (st.judge ctx es).1.UnitsInv :=
  h.mono (st.judge_load ctx es) (st.judge_accepted ctx es)

theorem close (h : st.UnitsInv) (d : Side) (n : Nat) (x : Int) : (st.close d n x).UnitsInv :=
  h.mono (st.close_load d n x) (st.close_accepted d n x)

/-- A stage with nothing judged and empty tables. -/
theorem of_empty (hj : st.judged = 0) (ht : st.table = []) (hr : st.tracker = Vector.replicate 18 none)
    (ha : st.lastAccepted = none) : st.UnitsInv := by
  have hz : (holdIds (Vector.replicate 18 (none : Option TrackEntry))).length = 0 := by decide
  refine ⟨by omega, by simp [Stage.acceptable, ha], ?_⟩
  rw [hj, ht, hr, hz]
  exact Nat.zero_le _

/-- A note taken has a higher id, so room for two more units comes with it (R76, R82, R86). -/
theorem takeNote (h : st.UnitsInv) {now : Option Int} {r : RawNote} {n : Note} (hr : r.id < 65536)
    (hn : examine st now r = .ok n) : (st.takeNote n).UnitsInv := by
  obtain ⟨hc, hord, _⟩ := examine_ok hn
  obtain ⟨_, hid, _⟩ := RawNote.check_waiting hc
  have hu : n.units ≤ 2 := by unfold Note.units; cases n.kind <;> simp
  have ha : st.acceptable ≤ n.id := by
    unfold Stage.acceptable
    cases hl : st.lastAccepted with
    | none => exact Nat.zero_le _
    | some a =>
      simp only [failsOrder, hl, decide_eq_false_iff_not] at hord
      dsimp only
      omega
  have h1 := h.units
  have h2 := h.judged
  have hs : (st.takeNote n).acceptable = n.id + 1 := rfl
  refine ⟨h2, by omega, ?_⟩
  rw [hs]
  simp only [Stage.takeNote, List.map_append, List.map_cons, List.map_nil, List.sum_append, List.sum_cons,
    List.sum_nil]
  omega

theorem takeRecords (h : st.UnitsInv) (now : Option Int) {rs : List RawNote} (hr : ∀ r ∈ rs, r.id < 65536)
    (k : Nat) : (takeRecords now rs st k).1.UnitsInv := by
  induction rs generalizing st k with
  | nil => exact h
  | cons r rs ih =>
    unfold Machine.takeRecords
    split
    · rename_i n hn
      exact ih (h.takeNote (hr r (by simp)) hn) (fun x hx => hr x (by simp [hx])) _
    · exact h

end Stage.UnitsInv

/-- The ids of a NOTES payload's records are 16-bit numbers (R75, 12.4). -/
theorem rawNotes_ids (pl : List Byte) : ∀ r ∈ rawNotes pl, r.id < 65536 := by
  intro r hr
  obtain ⟨k, _, rfl⟩ := List.mem_map.1 hr
  exact fieldAt_lt pl (1 + 14 * k) 2

end Sys2Proof.Machine
end

