-- ==== Sys2Proof/Laws/Commands.lean ====
section
/-! SUPPORT. Each command is a sequence of changes. -/

namespace Sys2Proof.Machine

variable {R : Prop} (s : State)

/-- A meaning answers with the state its changes lead to. -/
def Answers (R : Prop) (s : State) (a : Answer) : Prop := ∃ t, a = .next t ∧ Changes R s t

theorem Answers.of {R : Prop} {s t : State} (h : Changes R s t) : Answers R s (.next t) := ⟨t, rfl, h⟩

theorem execDeviceReset_changes : Answers R s (execDeviceReset s) :=
  .of (.tail (.tail (.refl s) (.reset s)) (.held _ true))

theorem execPartReset_changes (dt : Nat) : Answers R s (execPartReset dt s) := .of <| .after dt fun h => by
  split
  · exact .ifElse (fun _ => .tail h (.reset _)) fun _ => h
  · exact h

theorem execLrxBreak_changes (dt : Nat) : Answers R s (execLrxBreak dt s) := .of <| .after dt fun h => by
  split
  · exact .tail h (.receiver _ .inBreak (by simp))
  · exact h
  · exact .ifElse (fun _ => .tail h (.discard _ _ _ (by simp))) fun _ => h

theorem execFrameBreakCapture_changes (dt : Nat) : Answers R s (execFrameBreakCapture dt s) :=
  .of <| .after dt fun h => by
    split
    · exact .tail h (.receiver _ _ (by rintro f ⟨⟩; exact ⟨rfl, rfl, rfl⟩))
    · exact h

theorem execFrameFault_changes (dt : Nat) (cs : List RxChar) : Answers R s (execFrameFault dt cs s) :=
  .of <| .after dt fun h => by
    split
    · exact .ifElse (fun _ => .tail h (.discard _ _ _ (by simp))) fun _ => h
    · exact h

theorem execFrameTimeout_changes (dt : Nat) (bs : List Byte) : Answers R s (execFrameTimeout dt bs s) :=
  .of <| .after dt fun h => by
    split
    · exact .ifElse (fun _ => .tail h (.discard _ _ _ (by simp))) fun _ => h
    · exact h

theorem execUnknownKind_changes (dt : Nat) (k : Byte) (pl : List Byte) :
    Answers R s (execUnknownKind dt k pl s) := .of <| .after dt fun h => by
  split
  · exact h
  · split
    · exact h
    · have ha : Changes R s (s.arrived dt) := .tail h (.receiver _ .waiting (by simp))
      refine .ifElse (fun _ => ha) fun _ => .ifElse (fun _ => .tail ha (.shed _ k)) fun hl => ?_
      exact ha.refuse (by simp [Config.replyDepth] at hl ⊢; omega) _ _ _

theorem execIdent_changes (dt : Nat) (pl : List Byte) : Answers R s (execIdent dt pl s) :=
  .of <| .request dt _ pl _ _ fun _ h hl => h.ack hl _ _

theorem execResetPart_changes (dt : Nat) (pl : List Byte) : Answers R s (execResetPart dt pl s) :=
  .of <| .request dt _ pl _ _ fun _ h hl => .tail (h.ack hl _ _) (.resetPending _)

theorem execLinkStatus_changes (dt : Nat) (pl : List Byte) : Answers R s (execLinkStatus dt pl s) :=
  .of <| .request dt _ pl _ _ fun _ h hl => .tail (h.ack hl _ _) (.clearErrors _)

theorem execNoticeMask_changes (dt : Nat) (pl : List Byte) : Answers R s (execNoticeMask dt pl s) :=
  .of <| .request dt _ pl _ _ fun _ h hl => (Changes.tail h (.mask _ (BitVec.ofNat 12 (fieldAt pl 0 2)))).ack hl _ _

theorem storeClock_replies (r : Clock × Option Int) :
    (s.storeClock r).link.replies = s.link.replies := by
  rcases s.storeClock_cases r with he | ⟨x, _, he⟩ <;> rw [he] <;> simp [State.raise]

theorem updateClock_replies : s.updateClock.link.replies = s.link.replies := storeClock_replies s _

theorem execClockStart_changes (dt : Nat) (pl : List Byte) : Answers R s (execClockStart dt pl s) :=
  .of <| .request dt _ pl _ _ fun c h hl => by
    refine .ifElse (fun _ => h.refuse hl _ _ _) fun _ => .ifElse (fun _ => h.refuse hl _ _ _) fun _ => ?_
    have hs := Changes.tail h (Change.clockStart _
      ((s.arrived dt).clock.start (signedAt pl 0) c (s.arrived dt).localTime).1
      (fun hi => Clock.start_inv hi _ _ _) (Clock.start_running _ _ _ _))
    rcases (s.arrived dt).storeClock_cases
      ((s.arrived dt).clock.start (signedAt pl 0) c (s.arrived dt).localTime) with he | ⟨x, _, he⟩
    · rw [he]; exact hs.ack hl _ _
    · rw [he]
      exact (Changes.tail hs (.raise _ _ _ _ x)).ack (by simpa [State.raise] using hl) _ _

theorem execClockStop_changes (dt : Nat) (pl : List Byte) : Answers R s (execClockStop dt pl s) :=
  .of <| .request dt _ pl _ _ fun _ h hl => by
    refine .ifElse (fun _ => h.refuse hl _ _ _) fun hp => ?_
    refine (Changes.tail h.updateClock (.clockStop _ ?_)).ack ?_ _ _
    · have : (s.arrived dt).updateClock.anyPlaying = (s.arrived dt).anyPlaying := by
        unfold State.updateClock
        rcases (s.arrived dt).storeClock_cases _ with he | ⟨x, _, he⟩ <;> rw [he] <;> rfl
      rw [this]; simpa using hp
    · simpa [updateClock_replies] using hl

theorem updateClock_clock : s.updateClock.clock = (s.clock.update s.localTime).1 := by
  unfold State.updateClock
  rcases s.storeClock_cases (s.clock.update s.localTime) with he | ⟨x, _, he⟩ <;> rw [he] <;> rfl

theorem execSync_changes (dt : Nat) (pl : List Byte) : Answers R s (execSync dt pl s) :=
  .of <| .request dt _ pl _ _ fun c h hl => by
    refine .ifElse (fun _ => h.refuse hl _ _ _) fun hr => .ifElse (fun _ => h.refuse hl _ _ _) fun _ => ?_
    have hrun : (s.arrived dt).updateClock.clock.running = true := by
      rw [updateClock_clock, Clock.update_running]; simpa using hr
    have hu := h.updateClock
    have hs := hu.storeClock ((s.arrived dt).updateClock.clock.applySync
      ((s.arrived dt).updateClock.clock.syncError (signedAt pl 0) c (s.arrived dt).updateClock.localTime)
      (s.arrived dt).updateClock.localTime).1 (fun hi => Clock.applySync_inv hi hrun _ _)
      (Clock.applySync_running _ _ _)
    dsimp only
    split
    · exact (Changes.tail hs (.raise _ _ _ _ _)).ack
        (by simpa [State.raise, storeClock_replies, updateClock_replies] using hl) _ _
    · exact hs.ack (by simpa [storeClock_replies, updateClock_replies] using hl) _ _

theorem execClockParams_changes (dt : Nat) (pl : List Byte) : Answers R s (execClockParams dt pl s) :=
  .of <| .request dt _ pl _ _ fun _ h hl =>
    (Changes.tail h (.clock _ _ (fun hi => Clock.setParams_inv hi _ _ _) rfl)).ack hl _ _

theorem execClockRead_changes (dt : Nat) (pl : List Byte) : Answers R s (execClockRead dt pl s) :=
  .of <| .request dt _ pl _ _ fun _ h hl =>
    h.updateClock.ack (by simpa [updateClock_replies] using hl) _ _

theorem execBusConfig_changes (dt : Nat) (pl : List Byte) : Answers R s (execBusConfig dt pl s) :=
  .of <| .request dt _ pl _ _ fun _ h hl =>
    .ifElse (fun _ => h.refuse hl _ _ _) fun _ =>
      (h.setBus _ _ (fun hk => hk.config _) id).ack (by simpa using hl) _ _

theorem sensingNotices_replies (d : Side) (n : Byte) (steps : Vector PanelStep 9) :
    (s.sensingNotices d n steps).link.replies = s.link.replies := by
  have hr : ∀ (s : State) k d set x, (s.raisePanels k d set x).link.replies = s.link.replies := by
    intro s k d set x
    unfold State.raisePanels
    split
    · rfl
    · simp [State.raise]
  unfold State.sensingNotices
  rw [hr, hr, hr]

theorem handRecord_replies (r : ScanRecord) : (s.handRecord r).link.replies = s.link.replies := by
  unfold State.handRecord
  dsimp only
  generalize (if s.openDoubles = true then Side.a else r.bus) = d
  by_cases hp : (s.stage d).state = .playing
  · rw [if_pos hp]
    cases r.chart with
    | none => rfl
    | some x => simp [State.judgeRecord]
  · rw [if_neg hp]

theorem takeCompletion_replies (d : Side) (c : Completion) :
    (s.takeCompletion d c).link.replies = s.link.replies := by
  unfold State.takeCompletion
  dsimp only
  split
  · rw [sensingNotices_replies, State.setPanels_link]
  · rw [handRecord_replies, sensingNotices_replies, State.setPanels_link]

theorem resetBus_replies (d : Side) : (s.resetBus d).link.replies = s.link.replies := by
  unfold State.resetBus State.resetCompletion
  dsimp only
  repeat' split
  all_goals simp [takeCompletion_replies]

theorem execBusReset_changes (dt : Nat) (pl : List Byte) : Answers R s (execBusReset dt pl s) :=
  .of <| .request dt _ pl _ _ fun _ h hl =>
    (h.resetBus _).ack (by simpa [resetBus_replies] using hl) _ _

theorem execPanelThresholds_changes (dt : Nat) (pl : List Byte) :
    Answers R s (execPanelThresholds dt pl s) :=
  .of <| .request dt _ pl _ _ fun _ h hl => by
    refine .ifElse (fun hp => ?_) fun _ => h.refuse hl _ _ _
    exact (Changes.tail h (.thresholds _ _ _ _ _ ⟨hp.1, hp.2.1⟩ hp.2.2)).ack (by simpa using hl) _ _

theorem execPanelRead_changes (dt : Nat) (pl : List Byte) : Answers R s (execPanelRead dt pl s) :=
  .of <| .request dt _ pl _ _ fun _ h hl => h.ack hl _ _

theorem execStuckLimit_changes (dt : Nat) (pl : List Byte) : Answers R s (execStuckLimit dt pl s) :=
  .of <| .request dt _ pl _ _ fun _ h hl =>
    (Changes.tail h (.stuckLimit _ (clampNat 31 255 (byteAt pl 0).toNat)
      (by unfold clampNat; omega))).ack hl _ _

theorem takesSettings_iff {x : StageState} : takesSettings x = true ↔ x = .idle ∨ x = .standby := by
  cases x <;> simp [takesSettings]

/-- The windows that pass the check of R72 and the clamped values are in their ranges. -/
theorem paramsOf_ok {pl : List Byte} (h : (paramsOf pl).windowsOk = true) : (paramsOf pl).Ok := by
  simp only [JudgeParams.windowsOk, decide_eq_true_eq] at h
  refine ⟨by omega, ?_, ?_, ?_⟩ <;> simp only [paramsOf, clampNat] <;> omega

theorem execJudgeParams_changes (dt : Nat) (pl : List Byte) : Answers R s (execJudgeParams dt pl s) :=
  .of <| .request dt _ pl _ _ fun _ h hl => by
    refine .ifElse (fun _ => h.refuse hl _ _ _) fun ht => .ifElse (fun _ => h.refuse hl _ _ _) fun hw => ?_
    exact (Changes.tail h (.settings _ (sideOf (byteAt pl 0)) _ _
      (takesSettings_iff.1 (by simpa using ht)) (fun _ => paramsOf_ok (by simpa using hw)) id)).ack
      (by simpa using hl) _ _

theorem execStageOffset_changes (dt : Nat) (pl : List Byte) : Answers R s (execStageOffset dt pl s) :=
  .of <| .request dt _ pl _ _ fun _ h hl => by
    refine .ifElse (fun _ => h.refuse hl _ _ _) fun ht => ?_
    exact (Changes.tail h (.settings _ (sideOf (byteAt pl 0)) _ _
      (takesSettings_iff.1 (by simpa using ht)) id
      (fun _ => by unfold clampInt; omega))).ack (by simpa using hl) _ _

theorem execStageOpen_changes (dt : Nat) (pl : List Byte) : Answers R s (execStageOpen dt pl s) :=
  .of <| .request dt _ pl _ _ fun _ h hl => by
    cases ho : openRefusal (s.arrived dt) pl with
    | some r => exact h.refuse hl _ _ _
    | none =>
      refine (Changes.tail h (.openStage _ _ ho)).ack ?_ _ _
      have : ∀ (t : State) d m, (t.joinStorage d m).link = t.link := by
        intro t d m; cases d <;> cases m <;> rfl
      simpa [this] using hl

theorem execStageClose_changes (dt : Nat) (pl : List Byte) : Answers R s (execStageClose dt pl s) :=
  .of <| .request dt _ pl _ _ fun _ h hl => by
    refine .ifElse (fun _ => h.refuse hl _ _ _) fun ht => ?_
    have hk := (h.ack hl 0x33 []).updateClock
    have hst : ∀ d, ((s.arrived dt).ack 0x33 []).updateClock.stage d = (s.arrived dt).stage d := by
      intro d
      unfold State.updateClock
      rcases ((s.arrived dt).ack 0x33 []).storeClock_cases _ with he | ⟨x, _, he⟩ <;> rw [he] <;>
        cases d <;> rfl
    have hc := Changes.tail hk (Change.closeStage _ (sideOf (byteAt pl 0))
      (((s.arrived dt).ack 0x33 []).updateClock.clock.chart +
        ((s.arrived dt).stage (sideOf (byteAt pl 0))).inputOffset)
      (by rw [hst]; exact not_or.1 ht))
    rw [hst] at hc
    exact hc

theorem execStageStatus_changes (dt : Nat) (pl : List Byte) : Answers R s (execStageStatus dt pl s) :=
  .of <| .request dt _ pl _ _ fun _ h hl => h.ack hl _ _

theorem execNotes_changes (dt : Nat) (pl : List Byte) : Answers R s (execNotes dt pl s) :=
  .of <| .request dt _ pl _ _ fun _ h hl => by
    have hl' : (s.arrived dt).updateClock.link.replies.length < 4 := by
      simpa [updateClock_replies] using hl
    refine .ifElse (fun ht => ?_) fun _ => h.updateClock.refuse hl' _ _ _
    exact (Changes.tail h.updateClock (.notes _ _ _ _ ht (rawNotes_ids pl))).ack (by simpa using hl') _ _

theorem execLampSet_changes (dt : Nat) (pl : List Byte) : Answers R s (execLampSet dt pl s) :=
  .of <| .request dt _ pl _ _ fun _ h hl => by
    refine .ifElse (fun _ => h.refuse hl _ _ _) fun _ => .ifElse (fun _ => h.refuse hl _ _ _) fun _ => ?_
    exact (Changes.tail h (.lamps _ _ fun hi => hi.setLamps _ fun p => onLampSet_flash _ _ _ _ _ _ p)).ack
      (by simpa using hl) _ _

theorem execLampFlash_changes (dt : Nat) (pl : List Byte) : Answers R s (execLampFlash dt pl s) :=
  .of <| .request dt _ pl _ _ fun _ h hl =>
    (Changes.tail h (.lamps _ _ fun hi => hi.setFlashSettings _ (by
      dsimp only; unfold clampNat; omega))).ack (by simpa using hl) _ _

theorem execFrameStart_changes (dt : Nat) : Answers R s (execFrameStart dt s) := .of <| .after dt fun h => by
  refine .ifElse (fun _ => ?_) fun _ => h
  unfold State.startFrame
  split
  · exact .tail h (.sendReply _ _ _ ‹_›)
  · exact .tail h (.sendNotice _ _ _ ‹_›)
  · exact .tail h (.sendReport _ _)
  · exact h

theorem execTransmitFrameEnd_changes (dt : Nat) : Answers R s (execTransmitFrameEnd dt s) :=
  .of <| .after dt fun h => by
    split
    · exact .ifElse (fun _ => .tail h (.transmitter _ _)) fun _ => h
    · exact h

theorem execTransmitGapEnd_changes (dt : Nat) : Answers R s (execTransmitGapEnd dt s) :=
  .of <| .after dt fun h => by
    split
    · exact .ifElse (fun _ => .tail h (.transmitter _ _)) fun _ => h
    · exact h

theorem execLholdAssert_changes (dt : Nat) : Answers R s (execLholdAssert dt s) :=
  .of (.tail (.after dt fun h => h) (.lhold _ true))

theorem execLholdRelease_changes (dt : Nat) : Answers R s (execLholdRelease dt s) :=
  .of (.tail (.after dt fun h => h) (.lhold _ false))

theorem execTallyPlace_changes (dt : Nat) (d : Side) : Answers R s (execTallyPlace dt d s) :=
  .of <| .after dt fun h => .ifElse (fun ht => .tail h (.tally _ _ ht.1 ht.2)) fun _ => h

theorem execHousekeeping_changes (dt : Nat) : Answers R s (execHousekeeping dt s) :=
  .of <| .after dt fun h => by
  refine .ifElse (fun ha => ?_) fun _ => h
  have hu := h.updateClock
  unfold State.housekeep
  dsimp only
  have hinv : ∀ b, ClockInv (s.tick dt).updateClock.clock →
      ClockInv { (s.tick dt).updateClock.clock.afterHousekeeping (s.tick dt).updateClock.localTime with
        silenceNotified := b } := by
    intro b hi
    have hrun : (s.tick dt).updateClock.clock.running = true := by
      rw [← hi.armed, updateClock_clock, Clock.update_housekeeping, ha]; rfl
    obtain ⟨a, b, c, d, e, f, g⟩ := Clock.afterHousekeeping_inv hi hrun (s.tick dt).updateClock.localTime
    exact ⟨a, b, c, d, e, f, g⟩
  split
  · exact .tail (.tail hu (.clock _ _ (hinv true) rfl)) (.raise _ _ _ _ _)
  · exact .tail hu (.clock _ _ (fun hi => hinv _ hi) rfl)

/-! ### Events of a bus -/

theorem execStrobeCompare_changes (dt : Nat) (d : Side) : Answers R s (execStrobeCompare dt d s) :=
  .of <| .after dt fun h => by
    refine .ifElse (fun hc => ?_) fun _ => h
    split
    · refine h.setBus d _ (fun hk => hk.beginStrobe hc.1 _) fun _ => ?_
      intro x hx; cases hx; exact OutcomesOk.none
    · exact h.setBus d _ (fun hk => hk.wait hc.1) id

theorem execLateStrobe_changes (dt : Nat) (d : Side) : Answers R s (execLateStrobe dt d s) :=
  .of <| .after dt fun h => by
    dsimp only
    split
    · refine .ifElse (fun hc => ?_) fun _ => h
      refine .tail (h.setBus d _ (fun hk => hk.beginStrobe hc.1 _) fun _ => ?_) (.raise _ _ _ _ _)
      intro x hx; cases hx; exact OutcomesOk.none
    · exact h

theorem storeClock_bus (r : Clock × Option Int) (d : Side) : (s.storeClock r).bus d = s.bus d := by
  rcases s.storeClock_cases r with he | ⟨x, _, he⟩ <;> rw [he] <;> cases d <;> rfl

theorem execStrobeCapture_changes (dt : Nat) (d : Side) (high : Bool) :
    Answers R s (execStrobeCapture dt d high s) := .of <| .after dt fun h => by
  split
  · rename_i b hp
    refine .ifElse (fun ht => .ifElse (fun _ => ?_) fun _ => ?_) fun _ => h
    · have hb : (s.tick dt).updateClock.bus d = (s.tick dt).bus d := storeClock_bus _ _ _
      refine h.updateClock.setBus d _ (fun hk => hk.capture (by rw [hb]; exact hp) _ _) fun hr => ?_
      intro x hx
      obtain ⟨y, hy, rfl⟩ := Option.map_eq_some_iff.1 hx
      exact hr y hy
    · exact .tail (h.setBus d _ (fun hk => hk.notEnded _ _) fun _ x hx => by cases hx) (.raise _ _ _ _ _)
  · exact h

theorem execStrobeSent_changes (dt : Nat) (d : Side) (hR : R → (s.bus d).ReadingsOk) :
    Answers R s (execStrobeSent dt d s) := .of <| .after dt fun h => by
  dsimp only
  split
  · rename_i b scan hp hs hf
    refine .ifElse (fun _ => ?_) fun _ => h
    split
    · exact (h.readBack d).completeScan d _ _ _ fun r => (hR r).outcomes (by cases d <;> exact hs)
    · rename_i q hq
      exact h.setBus d _ (fun hk => (hk.readBack _).strobeSent (by simpa using hs) (by simpa using hp)
        (by simp [hq])) fun hr => hr.readBack _
  · exact h

theorem execPollHeader_changes (dt : Nat) (d : Side) : Answers R s (execPollHeader dt d s) :=
  .of <| .after dt fun h => by
    dsimp only
    split
    · rename_i g scan hp hs hf
      split
      · exact h
      · rename_i p hn
        refine .ifElse (fun _ => ?_) fun _ => h
        refine h.setBus d _ (fun hk => hk.header hs hp hn _) fun hr => ?_
        intro x hx; cases hx; exact hr scan hs
    · exact h

theorem execPollResponse_changes (dt : Nat) (d : Side) (x y z : RxChar)
    (hR : R → (s.bus d).ReadingsOk) : Answers R s (execPollResponse dt d x y z s) :=
  .of <| .after dt fun h => by
    split
    · rename_i scan b p hp
      refine .ifElse (fun _ => ?_) fun _ => h
      exact (h.heard d z).endAttempt d (by simpa using hp) (fun r => (hR r).outcomes (by
        have := (BusCtl.polling_spec hp).1; cases d <;> exact this)) fun n hn => responseReading_le hn
    · exact h

theorem execResponseLimit_changes (dt : Nat) (d : Side) (hR : R → (s.bus d).ReadingsOk) :
    Answers R s (execResponseLimit dt d s) := .of <| .after dt fun h => by
  split
  · rename_i scan b p hp
    refine .ifElse (fun _ => ?_) fun _ => h
    exact (h.readBack d).endAttempt d (by simpa [State.readBack] using hp) (fun r => (hR r).outcomes (by
      have := (BusCtl.polling_spec hp).1; cases d <;> exact this)) fun n hn => by cases hn
  · exact h

theorem execContention_changes (dt : Nat) (d : Side) (hR : R → (s.bus d).ReadingsOk) :
    Answers R s (execContention dt d s) := .of <| .after dt fun h => by
  dsimp only
  split
  · rename_i scan hs hf
    refine .ifElse (fun _ => ?_) fun _ => h
    exact ((Changes.tail h (.raise _ _ _ _ _)).readBack d).completeScan d _ _ _ fun r =>
      ((hR r).outcomes (by cases d <;> exact hs)).contention
  · exact h

theorem execStuckLine_changes (dt : Nat) (line : LowLine) : Answers R s (execStuckLine dt line s) :=
  .of <| .after dt fun h => by
    dsimp only
    split
    · exact h
    · exact h
    · rename_i hu _
      refine .ifElse (fun _ => ?_) fun _ => h
      have hd := Changes.tail (h.setBus line.bus _ (fun hk => hk.goDown hu (s.tick dt).localTime)
        fun _ y hy => by cases hy)
        (.raise _ .busDown (some line.bus) 0 ((s.tick dt).bus line.bus).scanNumber.toNat)
      refine hd.takeCompletion line.bus _ fun _ => ?_
      unfold BusCtl.downCompletion
      split
      · split <;> exact OutcomesOk.none
      · exact OutcomesOk.none

theorem execDownProbe_changes (dt : Nat) (d : Side) : Answers R s (execDownProbe dt d s) :=
  .of <| .after dt fun h => .ifElse (fun hc => h.setBus d _ (fun hk => hk.probe hc.1 _) id) fun _ => h

theorem execProbeLow_changes (dt : Nat) (d : Side) : Answers R s (execProbeLow dt d s) :=
  .of <| .after dt fun h => by
    dsimp only
    split
    · rename_i p hw
      exact .ifElse (fun _ => h.setBus d _ (fun hk => hk.probeFails hw) id) fun _ => h
    · exact h

theorem execBusUp_changes (dt : Nat) (d : Side) : Answers R s (execBusUp dt d s) :=
  .of <| .after dt fun h => by
    dsimp only
    split
    · rename_i p hw
      refine .ifElse (fun _ => ?_) fun _ => h
      exact .tail (h.setBus d _ (fun hk => hk.goUp hw _) id) (.raise _ _ _ _ _)
    · exact h

theorem execBusResetCompletion_changes (dt : Nat) (d : Side) (m : Bool) :
    Answers R s (execBusResetCompletion dt d m s) := .of <| .after dt fun h => by
  dsimp only
  split
  · exact h
  · refine .ifElse (fun _ => h) fun _ => .ifElse (fun _ => ?_) fun _ => ?_
    · exact .ifElse (fun _ => (Changes.tail h (.raise _ _ _ _ _)).resetCompletion d) fun _ => h
    · exact .ifElse (fun _ => h.resetCompletion d) fun _ => h

theorem execFlashExpiry_changes (dt : Nat) : Answers R s (execFlashExpiry dt s) :=
  .of <| .after dt fun h =>
    .ifElse (fun _ => .tail h (.lamps _ _ fun hi => hi.expireAt _)) fun _ => h

theorem execPowerUp_changes : Answers R s (execPowerUp s) := .of (.tail (.refl s) (.reset s))

theorem execResetnRelease_changes : Answers R s (execResetnRelease s) :=
  .of (.tail (.refl s) (.held s false))

end Sys2Proof.Machine
end

