-- ==== Sys2Proof/Laws/Exec.lean ====
section
/-! SUPPORT. What every command and every step does, and what they keep. -/

namespace Sys2Proof.Machine

/-- Every command answers a next state, which a sequence of changes leads to. -/
theorem exec_changes {R : Prop} (i : Instr) (s : State) (hR : ∀ d, R → (s.bus d).ReadingsOk) :
    Answers R s (exec i s) :=
  match i with
  | .deviceReset => execDeviceReset_changes s
  | .partReset dt => execPartReset_changes s dt
  | .lrxBreak dt => execLrxBreak_changes s dt
  | .frameBreakCapture dt => execFrameBreakCapture_changes s dt
  | .frameFault dt chars => execFrameFault_changes s dt chars
  | .frameTimeout dt received => execFrameTimeout_changes s dt received
  | .unknownKind dt kind payload => execUnknownKind_changes s dt kind payload
  | .ident dt payload => execIdent_changes s dt payload
  | .resetPart dt payload => execResetPart_changes s dt payload
  | .linkStatus dt payload => execLinkStatus_changes s dt payload
  | .noticeMask dt payload => execNoticeMask_changes s dt payload
  | .clockStart dt payload => execClockStart_changes s dt payload
  | .clockStop dt payload => execClockStop_changes s dt payload
  | .sync dt payload => execSync_changes s dt payload
  | .clockParams dt payload => execClockParams_changes s dt payload
  | .clockRead dt payload => execClockRead_changes s dt payload
  | .busConfig dt payload => execBusConfig_changes s dt payload
  | .busReset dt payload => execBusReset_changes s dt payload
  | .panelThresholds dt payload => execPanelThresholds_changes s dt payload
  | .panelRead dt payload => execPanelRead_changes s dt payload
  | .stuckLimit dt payload => execStuckLimit_changes s dt payload
  | .judgeParams dt payload => execJudgeParams_changes s dt payload
  | .stageOffset dt payload => execStageOffset_changes s dt payload
  | .stageOpen dt payload => execStageOpen_changes s dt payload
  | .stageClose dt payload => execStageClose_changes s dt payload
  | .stageStatus dt payload => execStageStatus_changes s dt payload
  | .notes dt payload => execNotes_changes s dt payload
  | .lampSet dt payload => execLampSet_changes s dt payload
  | .lampFlash dt payload => execLampFlash_changes s dt payload
  | .frameStart dt => execFrameStart_changes s dt
  | .transmitFrameEnd dt => execTransmitFrameEnd_changes s dt
  | .transmitGapEnd dt => execTransmitGapEnd_changes s dt
  | .lholdAssert dt => execLholdAssert_changes s dt
  | .lholdRelease dt => execLholdRelease_changes s dt
  | .tallyPlace dt stage => execTallyPlace_changes s dt stage
  | .housekeeping dt => execHousekeeping_changes s dt
  | .strobeCompare dt bus => execStrobeCompare_changes s dt bus
  | .lateStrobe dt bus => execLateStrobe_changes s dt bus
  | .strobeCapture dt bus lineHigh => execStrobeCapture_changes s dt bus lineHigh
  | .strobeSent dt bus => execStrobeSent_changes s dt bus (hR bus)
  | .pollHeader dt bus => execPollHeader_changes s dt bus
  | .pollResponse dt bus forceH forceL check => execPollResponse_changes s dt bus forceH forceL check (hR bus)
  | .responseLimit dt bus => execResponseLimit_changes s dt bus (hR bus)
  | .contention dt bus => execContention_changes s dt bus (hR bus)
  | .stuckLine dt line => execStuckLine_changes s dt line
  | .downProbe dt bus => execDownProbe_changes s dt bus
  | .probeLow dt bus => execProbeLow_changes s dt bus
  | .busUp dt bus => execBusUp_changes s dt bus
  | .busResetCompletion dt bus mismatch => execBusResetCompletion_changes s dt bus mismatch
  | .flashExpiry dt => execFlashExpiry_changes s dt
  | .powerUp => execPowerUp_changes s
  | .resetnRelease => execResetnRelease_changes s

/-- What every change keeps, every command keeps. -/
theorem exec_keeps {P : State → Prop} (hP : ∀ s t, Change False s t → P s → P t) {i : Instr}
    {s t : State} (h : exec i s = .next t) (hs : P s) : P t := by
  obtain ⟨u, hu, hc⟩ := exec_changes (R := False) i s fun _ => False.elim
  rw [hu] at h
  cases h
  exact hc.keeps hP hs

/-- What every change keeps, and what does not depend on the queue, every step keeps. -/
theorem step_keeps {P : State → Prop} (hP : ∀ s t, Change False s t → P s → P t)
    (hq : ∀ s q, P s → P { s with pending := q }) {s t : State} (h : step s = .next t) (hs : P s) :
    P t := by
  unfold step at h
  split at h
  · cases h; exact hs
  · exact exec_keeps hP h (hq _ _ hs)

end Sys2Proof.Machine
end

