-- ==== Sys2Proof/Laws/Fields.lean ====
section
/-! SUPPORT. Fields read back, the check value and the bits of a frame (R167, R173, R174). -/

namespace Sys2Proof.Machine

/-! ### Fields -/

@[simp] theorem leBytes_length (k n : Nat) : (leBytes k n).length = k := by
  induction k generalizing n with
  | zero => rfl
  | succ k ih => simp [leBytes, ih]

/-- An unsigned field holds its number, modulo its range (R173). -/
theorem leNat_leBytes (k n : Nat) : leNat (leBytes k n) = n % 256 ^ k := by
  induction k generalizing n with
  | zero => simp [leBytes, leNat, Nat.mod_one]
  | succ k ih =>
    rw [leBytes, leNat, ih, BitVec.toNat_ofNat, pow_succ 256 k, Nat.mul_comm (256 ^ k) 256, Nat.mod_mul]

@[simp] theorem leSigned_length (i : Int) : (leSigned i).length = 4 := by simp [leSigned]

/-- A signed field of 4 bytes reads back (R173). -/
theorem signed_leSigned {i : Int} (h : -2147483648 ≤ i) (h' : i ≤ 2147483647) :
    (BitVec.ofNat 32 (leNat (leSigned i))).toInt = i := by
  have hb := (BitVec.ofInt 32 i).isLt
  unfold leSigned
  rw [leNat_leBytes, Nat.mod_eq_of_lt (by omega), BitVec.ofNat_toNat, BitVec.setWidth_eq,
    BitVec.toInt_ofInt]
  exact Int.bmod_eq_of_le (by omega) (by omega)

/-- The field at the place where it was put in a payload. -/
theorem fieldAt_append (a f b : List Byte) :
    fieldAt (a ++ f ++ b) a.length f.length = leNat f := by
  simp [fieldAt]

/-- An unsigned field put after `a` in a payload reads back, modulo its range. -/
theorem fieldAt_leBytes {a b : List Byte} {i k n : Nat} (hi : a.length = i) :
    fieldAt (a ++ (leBytes k n ++ b)) i k = n % 256 ^ k := by
  have := fieldAt_append a (leBytes k n) b
  rw [leBytes_length, hi, List.append_assoc, leNat_leBytes] at this
  exact this

/-- A signed field put after `a` in a payload reads back. -/
theorem signedAt_leSigned {a b : List Byte} {i : Nat} {x : Int} (hi : a.length = i)
    (h : -2147483648 ≤ x) (h' : x ≤ 2147483647) : signedAt (a ++ (leSigned x ++ b)) i = x := by
  have := fieldAt_append a (leSigned x) b
  rw [leSigned_length, hi, List.append_assoc] at this
  rw [signedAt, this, signed_leSigned h h']

/-- A byte put after `a` in a payload. -/
theorem byteAt_append {a b : List Byte} {i : Nat} {x : Byte} (hi : a.length = i) :
    byteAt (a ++ (x :: b)) i = x := by
  subst hi
  simp [byteAt]

/-! ### The check value -/

/-- A shift of the check register, undone. -/
def crcUnshift (r : Byte) : Byte :=
  if r.getLsbD 0 then ((r ^^^ 0x07) >>> 1) ||| 0x80 else r >>> 1

theorem crcUnshift_shift (r : Byte) : crcUnshift (crcShift r) = r := by
  revert r; decide

/-- The check register takes each byte without loss: its steps are injective in the register and in the
byte (R174). -/
theorem crcShift_inj {a b : Byte} (h : crcShift a = crcShift b) : a = b := by
  rw [← crcUnshift_shift a, h, crcUnshift_shift]

theorem crcStep_inj_reg {r r' b : Byte} (h : crcStep r b = crcStep r' b) : r = r' := by
  unfold crcStep at h
  have := crcShift_inj (crcShift_inj (crcShift_inj (crcShift_inj (crcShift_inj (crcShift_inj
    (crcShift_inj (crcShift_inj h)))))))
  simpa using congrArg (· ^^^ b) this

theorem crcStep_inj_byte {r b b' : Byte} (h : crcStep r b = crcStep r b') : b = b' := by
  unfold crcStep at h
  have := crcShift_inj (crcShift_inj (crcShift_inj (crcShift_inj (crcShift_inj (crcShift_inj
    (crcShift_inj (crcShift_inj h)))))))
  simpa using congrArg (r ^^^ ·) this

theorem crcStep_self (r : Byte) : crcStep r r = 0 := by
  simp [crcStep, crcShift]

/-! ### Frames -/

theorem charBits_length (b : Byte) : (charBits b).length = 11 := by simp [charBits, dataBits]

theorem flatMap_charBits_length (bs : List Byte) : (bs.flatMap charBits).length = 11 * bs.length := by
  induction bs with
  | nil => rfl
  | cons b bs ih => simp only [List.flatMap_cons, List.length_append, charBits_length, ih,
      List.length_cons]; omega

theorem frameBytes_length (f : OutFrame) : (frameBytes f).length = (framePayload f).length + 3 := by
  simp [frameBytes, leBytes]

end Sys2Proof.Machine
end

