-- ==== Sys2Proof/Laws/Offsets.lean ====
section
/-! SUPPORT. What judging does to worst offsets and to the offset sum (R97, R98, R142). -/

namespace Sys2Proof.Machine

/-- OffsetInv without its clause on stages that do not play. -/
structure Stage.OffsetOk (st : Stage) : Prop where
  params : st.params.Ok
  input : st.inputOffset.natAbs ≤ 100000
  worst : ∀ n ∈ st.table, ∀ w, n.worst = some w → w.natAbs ≤ st.params.w4
  sum : st.offsetSum.natAbs ≤ 250000 * st.graded

namespace Stage.OffsetOk

variable {st st' : Stage}

theorem congr (h : st.OffsetOk) (hp : st'.params = st.params) (hi : st'.inputOffset = st.inputOffset)
    (ht : st'.table = st.table) (hs : st'.offsetSum = st.offsetSum) (hg : st'.graded = st.graded) :
    st'.OffsetOk := by
  obtain ⟨a, b, c, d⟩ := h
  constructor <;> simp only [hp, hi, ht, hs, hg] <;> assumption

theorem table (h : st.OffsetOk) {l : List Note} (hl : ∀ n ∈ l, ∀ w, n.worst = some w → w.natAbs ≤ st.params.w4) :
    { st with table := l }.OffsetOk :=
  ⟨h.params, h.input, hl, h.sum⟩

/-- A result adds a worst offset within W4, or none (R142). -/
theorem account (h : st.OffsetOk) (r : Result) {w : Option Int}
    (hw : ∀ x, w = some x → x.natAbs ≤ st.params.w4) : (st.account r w).OffsetOk := by
  have hwin := h.params.windows
  have hsum := h.sum
  cases w with
  | none => exact ⟨h.params, h.input, h.worst, h.sum⟩
  | some x =>
    have hx := hw x rfl
    unfold Stage.account Stage.addOffset
    dsimp only
    split
    · refine ⟨h.params, h.input, h.worst, ?_⟩
      dsimp only
      omega
    · exact ⟨h.params, h.input, h.worst, h.sum⟩

theorem offer (h : st.OffsetOk) (depth : Nat) (mk : Nat → Report) : (st.offer depth mk).OffsetOk := by
  rcases st.offer_spec depth mk with ⟨_, he⟩ | ⟨_, he⟩ <;> rw [he] <;>
    exact h.congr rfl rfl rfl rfl rfl

theorem emptied (h : st.OffsetOk) (heads : List Note) : (st.emptySession heads).OffsetOk :=
  Stage.emptySession_keeps (P := Stage.OffsetOk) st heads h
    (fun _ r _ h => h.account r (w := none) (by simp)) fun _ h =>
      (h.table (l := []) (by simp)).congr rfl rfl rfl rfl rfl

/-- A press's strike is within W4, and so is the worst offset after it (R97, R98). -/
theorem struck (h : st.OffsetOk) {time : Int} {p : Fin 18} {n' : Note} {l' : List Note}
    (hs : strikeTable st.params.w4 time p st.table = some (n', l')) :
    (∃ w, n'.worst = some w ∧ w.natAbs ≤ st.params.w4) ∧ { st with table := l' }.OffsetOk := by
  obtain ⟨b, n, a, hl, _, he, hn, hl'⟩ := strikeTable_spec hs
  have hmem : n ∈ st.table := by rw [hl]; simp
  have hw : ∃ w, n'.worst = some w ∧ w.natAbs ≤ st.params.w4 := by
    refine ⟨_, by rw [hn]; rfl, ?_⟩
    simp only [eligible, Bool.and_eq_true, decide_eq_true_eq] at he
    have := he.2
    unfold worseOffset
    split
    · omega
    · rename_i w hw
      have := h.worst n hmem w hw
      split <;> omega
  refine ⟨hw, h.table ?_⟩
  intro m hm w hmw
  have : m = n' ∨ m ∈ st.table := by
    rw [hl'] at hm; rw [hl]
    simp only [List.mem_append, List.mem_cons] at hm ⊢
    split at hm
    · tauto
    · simp only [List.mem_cons] at hm; tauto
  rcases this with rfl | hm
  · obtain ⟨x, hx, hle⟩ := hw
    rw [hx] at hmw; cases hmw; exact hle
  · exact h.worst m hm w hmw

end Stage.OffsetOk

namespace Judging

variable {j : Judging}

theorem offsets_result (h : j.stage.OffsetOk) (ctx : JudgeCtx) (r : Result) {w : Option Int}
    (hw : ∀ x, w = some x → x.natAbs ≤ j.stage.params.w4) (mk : Option (Bool → Stage → Nat → Report)) :
    (j.result ctx r w mk).stage.OffsetOk := by
  have ha := h.account r hw
  unfold Judging.result
  cases mk with
  | none => exact ha.congr rfl rfl rfl rfl rfl
  | some mk => exact (ha.offer _ _).congr rfl rfl rfl rfl rfl

theorem offsets_missWithBody (h : j.stage.OffsetOk) (ctx : JudgeCtx) (n : Note) :
    (j.missWithBody ctx n).stage.OffsetOk :=
  ((((h.account .miss (w := none) (by simp)).offer _ _).account .dropped (w := none) (by simp)).offer _ _).congr
    rfl rfl rfl rfl rfl

theorem offsets_press (h : j.stage.OffsetOk) (ctx : JudgeCtx) (p : Fin 18) :
    (j.press ctx p).stage.OffsetOk := by
  unfold Judging.press
  split
  · exact h.congr rfl rfl rfl rfl rfl
  · split
    · rename_i n l hs
      obtain ⟨⟨w, hw, hle⟩, ht⟩ := h.struck hs
      dsimp only
      split
      · unfold Judging.complete
        dsimp only
        refine offsets_result (j := { j with stage := { j.stage with table := l } }) ht ctx _ ?_ _
        intro x hx
        cases hx
        rw [hw]; exact hle
      · exact ht
    · exact offsets_result h ctx _ (by simp) _

theorem offsets_pressEdges (h : j.stage.OffsetOk) (ctx : JudgeCtx) (es : List (Fin 18 × EdgeKind)) :
    (es.foldl (pressEdge ctx) j).stage.OffsetOk := by
  induction es generalizing j with
  | nil => exact h
  | cons e es ih =>
    refine ih ?_
    unfold pressEdge
    split
    · exact h
    · exact offsets_press h ctx _

theorem offsets_dropHold (h : j.stage.OffsetOk) (ctx : JudgeCtx) (id : Nat) (p : Fin 18) (r : Reason) :
    (j.dropHold ctx id p r).stage.OffsetOk :=
  offsets_result (j := { j with stage := { j.stage with tracker := removeHold j.stage.tracker id } })
    (h.congr rfl rfl rfl rfl rfl) ctx _ (by simp) _

theorem offsets_holdOk (h : j.stage.OffsetOk) (ctx : JudgeCtx) (id : Nat) :
    (j.holdOk ctx id).stage.OffsetOk :=
  offsets_result (j := { j with stage := { j.stage with tracker := removeHold j.stage.tracker id } })
    (h.congr rfl rfl rfl rfl rfl) ctx _ (by simp) _

theorem offsets_passPanel (h : j.stage.OffsetOk) (ctx : JudgeCtx) (n : Note) (p : Fin 18) :
    (passPanel ctx n j p).stage.OffsetOk := by
  have make : ∀ j' : Judging, j'.stage.OffsetOk →
      (if j'.halted = true then j' else
        { j' with stage := { j'.stage with
          tracker := j'.stage.tracker.set p (some (headEntry ctx j'.stage n p)) } }).stage.OffsetOk := by
    intro j' h
    split
    · exact h
    · exact h.congr rfl rfl rfl rfl rfl
  unfold Judging.passPanel
  split
  · exact h
  · apply make
    split
    · split
      · exact h
      · unfold Judging.handOver
        split
        · exact offsets_dropHold h ctx _ _ _
        · dsimp only
          split
          · exact offsets_holdOk h ctx _
          · exact h.congr rfl rfl rfl rfl rfl
    · exact h

theorem offsets_passHeads (ctx : JudgeCtx) (ns : List Note) (h : j.stage.OffsetOk) :
    (passHeads ctx ns j).stage.OffsetOk := by
  induction ns generalizing j with
  | nil => exact h
  | cons n ns ih =>
    have fold : ∀ (ps : List (Fin 18)) {j : Judging}, j.stage.OffsetOk →
        (ps.foldl (Judging.passPanel ctx n) j).stage.OffsetOk := by
      intro ps
      induction ps with
      | nil => intro j h; exact h
      | cons p ps ih => intro j h; exact ih (offsets_passPanel h ctx n p)
    unfold passHeads
    dsimp only
    split
    · exact fold _ h
    · exact ih (fold _ h)

theorem offsets_holdPart (ctx : JudgeCtx) (h : j.stage.OffsetOk) : (holdPart ctx j).stage.OffsetOk := by
  unfold holdPart
  generalize holdIds j.stage.tracker = ids
  induction ids generalizing j with
  | nil => exact h
  | cons id ids ih =>
    refine ih ?_
    unfold resolveHold
    split
    · exact h
    · split
      · exact h
      · split
        · exact offsets_dropHold h ctx _ _ _
        · split
          · exact h
          · exact offsets_holdOk h ctx _

theorem offsets_sweepTable {take : Note → Judging → Option Judging} (h : j.stage.OffsetOk)
    (ht : ∀ n j j', take n j = some j' → j.stage.OffsetOk → j'.stage.OffsetOk ∧
      j'.stage.table = j.stage.table ∧ j'.stage.params = j.stage.params) :
    (sweepTable take j).stage.OffsetOk := by
  have sw : ∀ (ns : List Note) {j : Judging}, j.stage.OffsetOk → (sweep take ns j).2.stage.OffsetOk ∧
      (sweep take ns j).2.stage.params = j.stage.params := by
    intro ns
    induction ns with
    | nil => intro j h; exact ⟨h, rfl⟩
    | cons n ns ih =>
      intro j h
      unfold sweep
      split
      · exact ⟨h, rfl⟩
      · split
        · rename_i j' hj
          obtain ⟨a, _, c⟩ := ht n j j' hj h
          exact ⟨(ih a).1, (ih a).2.trans c⟩
        · exact ih h
  obtain ⟨a, b⟩ := sw j.stage.table h
  refine a.table fun n hn w hw => ?_
  rw [b]
  exact h.worst n ((sweep_sublist take _ j).subset hn) w hw

theorem offsets_laterParts (ctx : JudgeCtx) (h : j.stage.OffsetOk) : (laterParts ctx j).stage.OffsetOk := by
  have params : ∀ (j : Judging) r mk, (j.result ctx r none mk).stage.params = j.stage.params := by
    intro j r mk
    unfold Judging.result
    cases mk with
    | none => simp
    | some mk =>
      dsimp only
      rcases (j.stage.account r none).offer_spec ctx.depth
        (mk (failsSession j.stage (j.stage.account r none)) (j.stage.account r none)) with ⟨_, he⟩ | ⟨_, he⟩ <;>
        rw [he] <;> simp
  have offerParams : ∀ (st : Stage) n mk, (st.offer n mk).params = st.params := by
    intro st n mk
    rcases st.offer_spec n mk with ⟨_, he⟩ | ⟨_, he⟩ <;> rw [he]
  refine offsets_sweepTable (offsets_sweepTable (offsets_holdPart ctx h) ?_) ?_
  · intro n j j' ht h
    unfold takeMine at ht
    dsimp only at ht
    split at ht
    · cases ht
    · split at ht
      · cases ht
        exact ⟨offsets_result h ctx _ (by simp) _, (j.result_tables ctx _ _ _).1, params _ _ _⟩
      · split at ht
        · cases ht
          exact ⟨offsets_result h ctx _ (by simp) _, (j.result_tables ctx _ _ _).1, params _ _ _⟩
        · cases ht
  · intro n j j' ht h
    unfold takeClosed at ht
    split at ht
    · split at ht <;> cases ht
      · refine ⟨offsets_missWithBody h ctx n, (j.missWithBody_tables ctx n).1, ?_⟩
        unfold Judging.missWithBody
        dsimp only
        simp [offerParams]
      · exact ⟨offsets_result h ctx _ (by simp) _, (j.result_tables ctx _ _ _).1, params _ _ _⟩
    · cases ht

end Judging

/-- Judging a record keeps the offsets (R97, R98, R142). -/
theorem Stage.OffsetOk.judge {st : Stage} (h : st.OffsetOk) (ctx : JudgeCtx)
    (es : List (Fin 18 × EdgeKind)) : (st.judge ctx es).1.OffsetOk := by
  have rel : ∀ (es : List (Fin 18 × EdgeKind)) {st : Stage}, st.OffsetOk →
      (es.foldl (releaseEdge ctx) st).OffsetOk := by
    intro es
    induction es with
    | nil => intro st h; exact h
    | cons e es ih =>
      intro st h
      refine ih ?_
      unfold releaseEdge
      split
      · exact h.congr rfl rfl rfl rfl rfl
      · exact h
  have h0 : (st.notePressed ctx).OffsetOk := by
    unfold Stage.notePressed; split <;> exact h.congr rfl rfl rfl rfl rfl
  have agree : ∀ st : Stage, st.OffsetOk → (agreeTracker ctx st).OffsetOk := by
    intro st h; unfold agreeTracker; exact h.congr rfl rfl rfl rfl rfl
  have h1 := agree _ (rel es h0)
  have h2 : (earlierParts ctx es st).stage.OffsetOk := by
    unfold earlierParts
    have hp := Judging.offsets_pressEdges
      (j := { stage := agreeTracker ctx (es.foldl (releaseEdge ctx) (st.notePressed ctx)), heads := [],
              flashes := [], halted := false }) h1 ctx es
    dsimp only
    split
    · exact hp
    · exact Judging.offsets_passHeads ctx _ hp
  have h3 := Judging.offsets_laterParts ctx h2
  unfold Stage.judge
  dsimp only
  split
  · exact (h3.emptied _).congr rfl rfl rfl rfl rfl
  · exact h3

/-- A close keeps the offsets (R67, R68). -/
theorem Stage.OffsetOk.close {st : Stage} (h : st.OffsetOk) (d : Side) (n : Nat) (x : Int) :
    (st.close d n x).OffsetOk := by
  refine Stage.close_keeps d n x (fun _ => ?_) (fun _ => (h.emptied _).congr rfl rfl rfl rfl rfl)
    fun _ _ => h.congr rfl rfl rfl rfl rfl
  have hf : (st.flush d n x).OffsetOk := by
    unfold Stage.flush
    exact Judging.offsets_laterParts
      (j := { stage := st, heads := [], flashes := [], halted := false }) _ h
  exact (hf.emptied _).congr rfl rfl rfl rfl rfl

end Sys2Proof.Machine
end

