-- ==== Sys2Proof/WellFormed.lean ====
section
/-! DEFINITION. Well-formed commands: the operands that a command of the EB2416 can have. -/

namespace Sys2Proof

/-- An elapsed time is below one turn of the timebase, the condition under which two events of the
device are ordered (R1). -/
def wfElapsed (dt : Nat) : Bool := decide (dt < 2 ^ 32)

/-- LEN of a good frame is at most 60 (R156); a longer one is a FRAME_FAULT. -/
def wfPayload (payload : List Byte) : Bool := decide (payload.length ≤ Config.maxPayload)

/-- The KIND of an UNKNOWN_KIND is not a request code (R159, test 3). -/
def wfUnknown (kind : Byte) : Bool := !Machine.requestCodes.contains kind

/-- The characters of a FRAME_FAULT end with the frame's first fault (R157). -/
def wfFault (chars : List RxChar) : Bool :=
  (Machine.frameFaultOf chars).isSome && (Machine.frameFaultOf chars.dropLast).isNone

/-- The bytes of a FRAME_TIMEOUT make no whole frame and no oversize frame (R156). -/
def wfPartial (received : List Byte) : Bool := (Machine.frameLimitOf received).isSome

/-- Well-formedness of a command. -/
def Instr.wf : Instr → Bool
  | .deviceReset => true
  | .partReset dt => wfElapsed dt
  | .lrxBreak dt => wfElapsed dt
  | .frameBreakCapture dt => wfElapsed dt
  | .frameFault dt chars => wfElapsed dt && wfFault chars
  | .frameTimeout dt received => wfElapsed dt && wfPartial received
  | .unknownKind dt kind payload => wfElapsed dt && wfUnknown kind && wfPayload payload
  | .ident dt payload => wfElapsed dt && wfPayload payload
  | .resetPart dt payload => wfElapsed dt && wfPayload payload
  | .linkStatus dt payload => wfElapsed dt && wfPayload payload
  | .noticeMask dt payload => wfElapsed dt && wfPayload payload
  | .clockStart dt payload => wfElapsed dt && wfPayload payload
  | .clockStop dt payload => wfElapsed dt && wfPayload payload
  | .sync dt payload => wfElapsed dt && wfPayload payload
  | .clockParams dt payload => wfElapsed dt && wfPayload payload
  | .clockRead dt payload => wfElapsed dt && wfPayload payload
  | .busConfig dt payload => wfElapsed dt && wfPayload payload
  | .busReset dt payload => wfElapsed dt && wfPayload payload
  | .panelThresholds dt payload => wfElapsed dt && wfPayload payload
  | .panelRead dt payload => wfElapsed dt && wfPayload payload
  | .stuckLimit dt payload => wfElapsed dt && wfPayload payload
  | .judgeParams dt payload => wfElapsed dt && wfPayload payload
  | .stageOffset dt payload => wfElapsed dt && wfPayload payload
  | .stageOpen dt payload => wfElapsed dt && wfPayload payload
  | .stageClose dt payload => wfElapsed dt && wfPayload payload
  | .stageStatus dt payload => wfElapsed dt && wfPayload payload
  | .notes dt payload => wfElapsed dt && wfPayload payload
  | .lampSet dt payload => wfElapsed dt && wfPayload payload
  | .lampFlash dt payload => wfElapsed dt && wfPayload payload
  | .frameStart dt => wfElapsed dt
  | .transmitFrameEnd dt => wfElapsed dt
  | .transmitGapEnd dt => wfElapsed dt
  | .lholdAssert dt => wfElapsed dt
  | .lholdRelease dt => wfElapsed dt
  | .tallyPlace dt _ => wfElapsed dt
  | .housekeeping dt => wfElapsed dt
  | .strobeCompare dt _ => wfElapsed dt
  | .lateStrobe dt _ => wfElapsed dt
  | .strobeCapture dt _ _ => wfElapsed dt
  | .strobeSent dt _ => wfElapsed dt
  | .pollHeader dt _ => wfElapsed dt
  | .pollResponse dt _ _ _ _ => wfElapsed dt
  | .responseLimit dt _ => wfElapsed dt
  | .contention dt _ => wfElapsed dt
  | .stuckLine dt _ => wfElapsed dt
  | .downProbe dt _ => wfElapsed dt
  | .probeLow dt _ => wfElapsed dt
  | .busUp dt _ => wfElapsed dt
  | .busResetCompletion dt _ _ => wfElapsed dt
  | .flashExpiry dt => wfElapsed dt
  | .powerUp => true
  | .resetnRelease => true

end Sys2Proof
end

