-- ==== Sys2Proof/Tests/Slice0.lean ====
section
/-! SUPPORT. Tests: ill-formed commands, the manual's worked examples, and a witness for every statement that has hypotheses. -/

namespace Sys2Proof.Tests

set_option Elab.async false

open Sys2Proof Sys2Proof.Machine

/-! ### Ill-formed commands -/

/-- An elapsed time of a whole turn of the timebase is refused (R1). -/
theorem test_wf_elapsed :
    (Instr.lrxBreak (2 ^ 32)).wf = false ∧ (Instr.lrxBreak (2 ^ 32 - 1)).wf = true := by decide

/-- A payload of 61 bytes makes no good frame (R156). -/
theorem test_wf_payload : (Instr.notes 0 (List.replicate 61 0)).wf = false ∧
    (Instr.notes 0 (List.replicate 60 0)).wf = true := by decide +kernel

/-- A request code is no unknown kind (R159). -/
theorem test_wf_unknown :
    (Instr.unknownKind 0 0x12 []).wf = false ∧ (Instr.unknownKind 0 0x15 []).wf = true := by decide

/-- A FRAME_FAULT with sound characters, and one with a character after its fault, are refused (R157). -/
theorem test_wf_fault : (Instr.frameFault 0 [sentChar 1]).wf = false ∧
    (Instr.frameFault 0 [⟨1, false, true⟩, sentChar 0]).wf = false ∧
    (Instr.frameFault 0 [⟨1, false, true⟩]).wf = true := by decide

/-- A FRAME_TIMEOUT of a whole frame, and one of an oversize frame, are refused (R156). -/
theorem test_wf_partial : (Instr.frameTimeout 0 [0x01, 0, 0x15]).wf = false ∧
    (Instr.frameTimeout 0 [0x01, 61]).wf = false ∧ (Instr.frameTimeout 0 [0x01, 0]).wf = true := by decide

/-! ### Frames and fields (chapter 12) -/

/-- The check values of 12.2. -/
theorem test_check_values : crc8 [0x01, 0x00] = 0x15 ∧ crc8 [0x12, 0x01, 0x54] = 0xCA := by
  decide +kernel

/-- The panel response of 12.2: scan number 18, force 340. -/
theorem test_panel_response :
    responseReading 18 (sentChar 0x01) (sentChar 0x54) (sentChar 0xCA) = some 340 := by decide +kernel

/-- The signed field of 12.1. -/
theorem test_signed_field : leSigned (-10000) = [0xF0, 0xD8, 0xFF, 0xFF] := by decide +kernel

/-- The NOTICE of 12.5: CLOCK_JUMP with detail 24,004. -/
theorem test_notice_bytes : framePayload (.notice ⟨.clockJump, none, 1, 0, 24004⟩) =
    [0x01, 0xFF, 0x01, 0x00, 0x00, 0xC4, 0x5D, 0x00, 0x00] := by decide +kernel

/-- The table gives no row any bits. -/
theorem test_decode_none : decodeTableWord 8 0x01 = none ∧ decodeTableWord 16 0 = none := by decide

/-! ### The chart clock (chapter 1) -/

/-- The clock of 11.2 after the first SYNC: its three corrections at the strobe captures. -/
theorem test_clock_slews :
    (({ Clock.reset with running := true, chart := 1799077, lastUpdate := 1300090, correction := -4 } : Clock).update
      1301013).1 = { Clock.reset with
        running := true, chart := 1799999, lastUpdate := 1301013, correction := -3 } := by decide +kernel

/-- A turn of the timebase between two updates (R1, R5). -/
theorem test_clock_wraps :
    (({ Clock.reset with running := true, chart := 1800000000, lastUpdate := 4294966800, correction := 10 } : Clock).update
      504).1 = { Clock.reset with
        running := true, chart := 1800001002, lastUpdate := 504, correction := 8 } := by decide +kernel

/-- The JUDGMENT of note 10 of 12.5. -/
theorem test_judgment_bytes :
    reportPayload (.judgment .a 10 .prime (some 12000) false false 0b101 1 308 142857 0) =
      [0x00, 0x0A, 0x00, 0x00, 0xE0, 0x2E, 0x00, 0x00, 0x01, 0x05, 0x00, 0x00, 0x01, 0x00, 0x34, 0x01,
        0x09, 0x2E, 0x02, 0x00, 0x00] := by decide +kernel

/-- The upper limit of chart time (1.8): excess 402, and the rest of the correction dropped. -/
theorem test_clock_limit :
    ({ Clock.reset with running := true, chart := 1999999400, correction := 50 } : Clock).update 1000 =
      ({ Clock.reset with running := true, chart := 2000000000, lastUpdate := 1000 }, some 402) := by
  decide +kernel

/-- The state a command answers; State.reset when it stops. -/
def after (a : Answer) : State :=
  match a with
  | .next s => s
  | _ => State.reset

/-- A device whose receiver holds a frame with this break capture, at this time. -/
def framingAt (capture now : LocalTime) (c : Clock) : State :=
  { State.reset with
    localTime := now, clock := c,
    link := { Link.reset with receiver := .receiving ⟨capture, none, none, []⟩ } }

/-- A running clock. -/
def runningClock (chart : Int) (lastUpdate : LocalTime) (correction : Int) : Clock :=
  { Clock.reset with
    running := true, chart := chart, lastUpdate := lastUpdate, correction := correction,
    lastSync := lastUpdate, housekeeping := some (later lastUpdate 1000000) }

/-- Slewing a small error (11.2): the SYNC finds −4. -/
theorem test_sync_slews :
    let t := after (exec (.sync 77 (leSigned 1798996))
      (framingAt 1300013 1300013 (runningClock 1799000 1300013 0)))
    t.clock.correction = -4 ∧ t.clock.chart = 1799077 ∧
      t.link.replies = [.ack 0x12 (leSigned (-4) ++ [0])] := by decide +kernel

/-- Jumping a large error (11.2): e is 24,004. -/
theorem test_sync_jumps :
    let t := after (exec (.sync 77 (leSigned 1923000))
      (framingAt 1400013 1400013 (runningClock 1898996 1400013 0)))
    t.clock.chart = 1923077 ∧ t.link.notices = [⟨.clockJump, none, 1, 0, 24004⟩] := by decide +kernel

/-- CLOCK_START of 11.1: the clock runs from 1,499,564. -/
theorem test_clock_start :
    let t := after (exec (.clockStart 77 (leSigned 1499487)) (framingAt 1000500 1000500 Clock.reset))
    t.clock.chart = 1499564 ∧ t.clock.housekeeping = some 2000577 := by decide +kernel

/-- Lowering the jump limit (1.8). -/
theorem test_clock_params :
    let t := after (exec (.clockParams 187 (leBytes 2 12000 ++ leBytes 4 5000 ++ leBytes 2 50))
      (framingAt 0 0 { Clock.reset with correction := 15000 }))
    t.clock.correction = 5000 ∧
      t.link.replies = [.ack 0x13 (leBytes 2 10000 ++ leBytes 4 5000 ++ leBytes 2 100)] := by
  decide +kernel

/-- Sync silence (1.8): the housekeeping event at 12,000,000 finds an age of 1,800,000. -/
theorem test_sync_stale :
    let s := { State.reset with
      localTime := 11999987
      clock := { runningClock 0 11999987 0 with lastSync := 10200000, housekeeping := some 12000000 }
      stageA := { Stage.reset with state := .playing } }
    (after (exec (.housekeeping 13) s)).link.notices = [⟨.syncStale, none, 1, 0, 1800000⟩] := by
  decide +kernel

/-! ### The panel buses and sensing (chapters 2 and 3) -/

/-- A late strobe (2.10): begun at 42,085 for 41,000, the next is scheduled for 43,000. -/
theorem test_late_strobe :
    let s := { State.reset with
      localTime := 42083
      busA := { BusCtl.reset with nextStrobe := 41000, waiting := true, phase := .quiet 42083 } }
    let t := after (exec (.lateStrobe 2 .a) s)
    t.busA.nextStrobe = 43000 ∧ t.busA.phase = .strobe 42085 false := by decide +kernel

/-- The first strobe after reset begins at 1,000 as scan 1 (R28, 11.1). -/
theorem test_first_strobe :
    let t := after (exec (.strobeCompare 1000 .b) State.reset)
    t.busB.scanNumber = 1 ∧ t.busB.nextStrobe = 2000 ∧ t.busA = BusCtl.reset := by decide +kernel

/-- Panel 5 of 3.7 after its scan 4, and at a capture after it. -/
def panelFive : Panel :=
  { Panel.reset with status := .online, reading := 215, baseline := some 210, creep := 1 }

/-- Panel 5 of 3.7 at scan 5: a force of 130 presses it. -/
theorem test_panel_presses :
    takeScanned 60 5013 true (some (.good 340)) panelFive =
      { panel := { panelFive with reading := 340, creep := 0, pressed := true, pressedSince := 5013 },
        edge := some .press, cameOnline := false, wentOffline := false, rezeroAge := none } := by
  decide +kernel

/-- Panel 5 of 3.7 at scan 8: a force of exactly 60 releases it, and the creep run begins. -/
theorem test_panel_releases :
    (takeScanned 60 8013 true (some (.good 270)) { panelFive with creep := 0, pressed := true, pressedSince := 5013 }).panel =
      { panelFive with reading := 270, creep := 1, pressedSince := 5013 } := by decide +kernel

/-- A stuck panel (3.7): an age of 60,000,000 is within the limit, one of 60,001,000 is not. -/
theorem test_panel_stuck :
    let p := { panelFive with reading := 400, pressed := true, pressedSince := 40013 }
    (takeScanned 60 60040013 true (some (.good 400)) p).rezeroAge = none ∧
      (takeScanned 60 60041013 true (some (.good 400)) p).rezeroAge = some 60001000 := by decide +kernel

/-- A disabled panel with its baseline set shows 0x0C (3.7). -/
theorem test_panel_flags : panelFlags { panelFive with status := .disabled } = 0x0C := by decide +kernel

/-! ### Stages (chapters 4 to 8) -/

/-- A judging context of a single-mode stage A. -/
def ctxAt (time : Int) (pressed : StageSet) : JudgeCtx :=
  { side := .a, depth := 32, time := time, capture := 1, bus := .a, own := 0x1FF, pressed := pressed }

/-- A tap. -/
def tapOn (id : Nat) (due : Int) (panels : StageSet) : Note :=
  { id := id, due := due, kind := .tap, panels := panels, length := none, struck := 0, worst := none }

/-- Stage A of 6.8 before the chord: combo 12, life 700. -/
def chordStage : Stage :=
  { Stage.reset with
    state := .playing, units := 400, life := 700, combo := 12, maxCombo := 12
    table := [tapOn 60 10000000 0b101] }

/-- A chord struck across two records (6.8): −10,000, then +26,000, which is SOLID. -/
theorem test_chord :
    let a := (chordStage.judge (ctxAt 9990000 1) [(0, .press)]).1
    let b := (a.judge (ctxAt 10026000 4) [(2, .press)])
    a.table.map Note.worst = [some (-10000)] ∧ b.1.table = [] ∧ b.1.combo = 13 ∧ b.1.life = 706 ∧
      b.1.offsetSum = 26000 ∧ b.2 = [⟨0b101, .solid, 1⟩] := by decide +kernel

/-- The earliest eligible note (6.8): a press nearer the second tap strikes the first. -/
theorem test_earliest :
    let s := { Stage.reset with
      state := .playing, life := 700, table := [tapOn 70 5000000 8, tapOn 71 5100000 8] }
    let t := (s.judge (ctxAt 5060000 8) [(3, .press)]).1
    t.table = [tapOn 71 5100000 8] ∧ t.counts.fair = 1 ∧ t.offsetSum = 60000 := by decide +kernel

/-- A short hold struck late (6.8): head and body resolve in one record. -/
theorem test_short_hold :
    let s := { Stage.reset with
      state := .playing, life := 700
      table := [{ tapOn 95 30000000 32 with kind := .hold, length := some 1000 }] }
    let t := (s.judge (ctxAt 30050000 32) [(5, .press)]).1
    t.judged = 2 ∧ t.counts.fair = 1 ∧ t.counts.holdOk = 1 ∧ t.reports.length = 2 ∧
      t.tracker = Stage.reset.tracker := by decide +kernel

/-- A hold whose release outlasts the grace (7.7): DROPPED by the record at 51,051,000. -/
theorem test_hold_dropped :
    let s := { Stage.reset with
      state := .playing, life := 608
      tracker := Stage.reset.tracker.set 4 (some ⟨200, 52000000, .released 50800000⟩) }
    let a := (s.judge (ctxAt 51050000 0) []).1
    let b := (s.judge (ctxAt 51051000 0) []).1
    a.counts.dropped = 0 ∧ b.counts.dropped = 1 ∧ b.life = 568 := by decide +kernel

/-- Mines (7.7): a standing foot is hit at 69,960,000; an untouched mine is avoided after 71,040,000. -/
theorem test_mines :
    let mine (id : Nat) (due : Int) (ps : StageSet) := { tapOn id due ps with kind := .mine }
    let s := { Stage.reset with
      state := .playing, life := 500, combo := 30, maxCombo := 30
      table := [mine 220 70000000 0b101000, mine 221 71000000 2] }
    let a := (s.judge (ctxAt 69959000 32) []).1
    let b := (s.judge (ctxAt 69960000 32) []).1
    let c := (b.judge (ctxAt 71041000 0) []).1
    a = { s with lastPressedA := 32 } ∧ b.life = 450 ∧ b.combo = 0 ∧ b.maxCombo = 30 ∧
      (b.judge (ctxAt 71040000 0) []).1.counts.mineAvoided = 0 ∧ c.counts.mineAvoided = 1 := by
  decide +kernel

/-- The jump into a full queue (11.7): stage B before it. -/
def fullStage : Stage :=
  { Stage.reset with
    state := .playing, units := 60, failEnable := true, life := 200, earned := 250, judged := 30
    combo := 14, maxCombo := 18, counts := { Counts.zero with prime := 20, solid := 5, fair := 2, miss := 3 }
    offsetSum := -54000, graded := 27, reports := List.replicate 31 (.stray .b 1 0 0)
    table := [tapOn 40 20100000 8, { tapOn 41 20200000 32 with kind := .hold, length := some 800000 },
      { tapOn 42 20300000 2 with kind := .mine }, tapOn 43 20400000 128, tapOn 44 20800000 16] }

/-- The jump into a full queue and failure (11.7). -/
theorem test_failure :
    let t := (fullStage.judge { ctxAt 20651000 0 with side := .b, bus := .b } []).1
    t.state = .failed ∧ t.life = 0 ∧ t.judged = 34 ∧ t.failed = true ∧ t.droppedCount = 3 ∧
      t.reports.length = 32 ∧
      t.counts = { Counts.zero with
        prime := 20, solid := 5, fair := 2, miss := 6, dropped := 1, mineAvoided := 1, discarded := 1 } ∧
      t.meanOffset = -2000 ∧ t.score = 416666 := by decide +kernel

/-- The TALLY of that session (12.5): its first four bytes, MISS count, mean offset and dropped-before. -/
theorem test_tally_bytes :
    let t := (fullStage.judge { ctxAt 20651000 0 with side := .b, bus := .b } []).1
    let pl := framePayload (.report (.tally (t.tallyReport .b)))
    pl.take 4 = [1, 0, 1, 0] ∧ (pl.drop 12).take 2 = [6, 0] ∧
      (pl.drop 44).take 4 = [0x30, 0xF8, 0xFF, 0xFF] ∧ byteAt pl 50 = 3 := by decide +kernel

/-- Closing stage A (11.6): the flush closes note 14, the emptying discards note 15. -/
theorem test_close :
    let s := { Stage.reset with
      state := .playing, units := 7, life := 236, failEnable := true, earned := 38, judged := 5
      table := [tapOn 14 6000000 2, tapOn 15 6300000 128] }
    let t := s.close .a 32 6136187
    t.state = .closing ∧ t.judged = 6 ∧ t.life = 176 ∧ t.counts.miss = 1 ∧ t.counts.discarded = 1 ∧
      t.score = 542857 ∧ t.reports.length = 1 := by decide +kernel

/-- Scores, the mean offset and its rounding (8.9). -/
theorem test_scores : scoreOf 48 400 = 12000 ∧ scoreOf 23 3 = 766666 ∧ scoreOf 40 3 = 1000000 ∧
    ({ Stage.reset with offsetSum := -45001, graded := 3 } : Stage).meanOffset = -15000 := by decide +kernel

/-- A note record of a batch. -/
def rawOn (id : Nat) (due : Int) (kind : Byte) (panels : BitVec 24) (length : Nat) : RawNote :=
  ⟨id, due, kind, panels, length⟩

/-- Building a table in STANDBY (5.5): the third record overlaps the hold. -/
theorem test_batch :
    let r := takeRecords none [rawOn 1 1000000 0 1 0, rawOn 2 1000000 1 4 500000, rawOn 3 1250000 0 4 0,
      rawOn 4 1500000 0 64 0] { Stage.reset with state := .standby } 0
    r.1.table.map Note.id = [1, 2] ∧ r.1.busyUntil[(2 : Fin 18)] = some 1500000 ∧ r.2 = (2, 7) := by
  decide +kernel

/-- Stale while playing (5.5). -/
theorem test_stale :
    let st := { Stage.reset with inputOffset := 10000, lastAccepted := some (499, 19800000) }
    (takeRecords (some 20000000) [rawOn 500 19870000 0 1 0] st 0).2 = (0, 8) ∧
      (takeRecords (some 20000000) [rawOn 500 19875000 0 1 0] st 0).2 = (1, 0) := by decide +kernel

/-! ### Lamps (chapter 9) -/

/-- A FOLLOW panel and a flash (9.5). -/
theorem test_flash :
    let lamp := { Lamp.reset with mode := .follow, level := 200, base := 30, flashEnable := true }
    let l := { LampCtl.reset with lampsA := LampCtl.reset.lampsA.set 4 lamp }
    let m := l.takeRequest .a false 50583 ⟨16, .prime, 50013⟩
    m.expiry = some 130013 ∧ lampByte m.lampsA[(4 : Fin 9)] true 51275 = 255 ∧
      lampByte (m.expireAt 130013).lampsA[(4 : Fin 9)] false 130275 = 30 ∧
      (m.expireAt 130013).expiry = none := by decide +kernel

/-! ### The link (chapter 10) -/

/-- The device's own frames: LTX is low through the break, then high for the mark (R167). -/
theorem test_ltx :
    let s := after (exec (.frameStart 5) { State.reset with link := { Link.reset with replies := [.ack 0x02 []] } })
    s.ltx = false ∧ (s.tick 12).ltx = false ∧ (s.tick 13).ltx = true ∧ (s.tick 14).ltx = false := by
  decide +kernel

/-- RESET_PART ends in a device reset 58 bit times after its ACK begins; one bit earlier nothing happens
(R171). -/
theorem test_part_reset :
    let s := { State.reset with
      localTime := 100, stuckLimit := 99
      link := { Link.reset with transmitter := .sending resetAck 50, resetPending := true } }
    after (exec (.partReset 8) s) = State.reset ∧ (after (exec (.partReset 7) s)).stuckLimit = 99 := by
  decide +kernel

/-! ### Witnesses: a state and operands that meet the hypotheses of each statement -/

theorem reaches_of {s : State} {dt : Nat} {t : LocalTime}
    (h : s.resetHeld = false ∧ later s.localTime dt = t) : Reaches s dt t := ⟨h.1, h.2⟩

theorem completes_of {s : State} {dt len : Nat} {c : LocalTime}
    (h : s.resetHeld = false ∧ s.link.receiver.capture? = some c ∧ len ≤ 60 ∧
      elapsed c (later s.localTime dt) ≤ (len + 3) * 17) : Completes s dt len c :=
  ⟨h.1, h.2.1, h.2.2.1, h.2.2.2⟩

theorem dispatches_of {s : State} {dt len : Nat} {c : LocalTime}
    (h : (s.resetHeld = false ∧ s.link.receiver.capture? = some c ∧ len ≤ 60 ∧
      elapsed c (later s.localTime dt) ≤ (len + 3) * 17) ∧
      s.link.resetPending = false ∧ s.link.replies.length < 4) : Dispatches s dt len c :=
  ⟨completes_of h.1, h.2.1, h.2.2⟩

/-- A device that receives a frame whose break was captured at 0. -/
def framing : State := framingAt 0 0 Clock.reset

/-- The same with four replies waiting. -/
def crowded : State :=
  { framing with link := { framing.link with replies := List.replicate 4 (.ack 0x01 []) } }

/-- The same with stages in these states and modes. -/
def staged (a b : Stage) : State := { framing with stageA := a, stageB := b }

/-- A stage in a state and a mode. -/
def stageIn (st : StageState) (m : Mode) : Stage := { Stage.reset with state := st, mode := m }

theorem witness_StepRunsFrontCommand :
    ({ State.reset with pending := [.powerUp, .frameStart 1] } : State).pending =
      .powerUp :: [.frameStart 1] ∧ State.reset.pending = [] := by decide

theorem witness_CommandsAnswerNext :
    ({ State.reset with resetHeld := true } : State).resetHeld = true ∧
      Instr.frameStart 5 ≠ .deviceReset ∧ Instr.frameStart 5 ≠ .powerUp ∧
      Instr.frameStart 5 ≠ .resetnRelease ∧ (∀ dt, Instr.frameStart 5 ≠ .lholdAssert dt) ∧
      ∀ dt, Instr.frameStart 5 ≠ .lholdRelease dt :=
  ⟨rfl, by decide, by decide, by decide, fun _ h => (by cases h), fun _ h => (by cases h)⟩

theorem witness_ResetAndPinCommands : Reaches State.reset (2 ^ 32 - 1) (BitVec.allOnes 32) :=
  reaches_of (by decide)

/-- A device that sends its RESET_PART ACK since 0. -/
def sendingAck (pending : Bool) : State :=
  { State.reset with
    link := { Link.reset with transmitter := .sending (.reply (.ack 0x02 [])) 0, resetPending := pending } }

theorem witness_TransmitterTimes :
    ((Reaches (sendingAck false) 57 57 ∧ ∀ (f : OutFrame) start, (sendingAck false).link.transmitter =
        .sending f start → (57 : LocalTime) ≠ later start (14 + 11 * ((framePayload f).length + 3))) ∧
      (∃ s : State, Reaches s 1 6 ∧ s.link.transmitter = .gap 5 ∧ (6 : LocalTime) ≠ later 5 2) ∧
      (Reaches (sendingAck false) 58 58 ∧ ¬ (sendingAck false).link.resetPending = true) ∧
      ∃ s : State, Reaches s 58 58 ∧ s.link.resetPending = true ∧
        ∀ start, s.link.transmitter ≠ .sending (.reply (.ack 0x02 [])) start) ∧
    (Reaches (sendingAck false) 58 58 ∧
      (sendingAck false).link.transmitter = .sending (.reply (.ack 0x02 [])) 0 ∧
      (58 : LocalTime) = later 0 (14 + 11 * ((framePayload (.reply (.ack 0x02 []))).length + 3)) ∧
      ¬ ((sendingAck false).link.resetPending = true ∧
        OutFrame.reply (.ack 0x02 []) = .reply (.ack 0x02 []))) ∧
    (∃ s : State, Reaches s 2 7 ∧ s.link.transmitter = .gap 5 ∧ (7 : LocalTime) = later 5 2) ∧
    (Reaches (sendingAck true) 58 (later 0 58) ∧
      (sendingAck true).link.transmitter = .sending (.reply (.ack 0x02 [])) 0 ∧
      (sendingAck true).link.resetPending = true) :=
  ⟨⟨⟨reaches_of (by decide), fun _ _ h => by cases h; decide⟩,
      ⟨{ State.reset with localTime := 5, link := { Link.reset with transmitter := .gap 5 } },
        reaches_of (by decide), rfl, by decide⟩,
      ⟨reaches_of (by decide), by decide⟩,
      { State.reset with link := { Link.reset with
          transmitter := .sending (.reply (.ack 0x03 [])) 0, resetPending := true } },
      reaches_of (by decide), rfl, fun _ h => by simp at h⟩,
    ⟨reaches_of (by decide), rfl, by decide, by decide⟩,
    ⟨{ State.reset with localTime := 5, link := { Link.reset with transmitter := .gap 5 } },
      reaches_of (by decide), rfl, by decide⟩,
    reaches_of (by decide), rfl, rfl⟩

/-- A device with one reply and one notice waiting, and a report at each stage. -/
def waitingToSend : State :=
  { State.reset with
    link := { Link.reset with replies := [.ack 0x01 []], notices := [⟨.clockJump, none, 1, 0, 5⟩] }
    stageA := { Stage.reset with reports := [.stray .a 1 0 0] }
    stageB := { Stage.reset with reports := [.stray .b 1 0 0] } }

theorem witness_FrameStartChooses :
    ((∃ s : State, Reaches s 3 3 ∧ s.lhold = true ∧ s.link.transmitter = .idle ∧ s.link.replies ≠ []) ∧
      (∃ s : State, Reaches s 3 3 ∧ s.lhold = false ∧ ∃ f start, s.link.transmitter = .sending f start) ∧
      ∃ s : State, Reaches s 1 1 ∧ s.lhold = false ∧ ∃ start, s.link.transmitter = .gap start) ∧
    Reaches waitingToSend 3 3 ∧ waitingToSend.link.transmitter = .idle ∧ waitingToSend.lhold = false ∧
    waitingToSend.link.replies = [.ack 0x01 []] ∧
    (∃ s : State, Reaches s 3 3 ∧ s.link.transmitter = .idle ∧ s.lhold = false ∧ s.link.replies = [] ∧
      s.link.notices = [⟨.clockJump, none, 1, 0, 5⟩]) ∧
    (∃ s : State, Reaches s 3 3 ∧ s.link.transmitter = .idle ∧ s.lhold = false ∧ s.link.replies = [] ∧
      s.link.notices = [] ∧ (s.stage .a).reports = [.stray .a 1 0 0] ∧
      (.a ≠ s.link.lastServed ∨ (s.stage (otherSide .a)).reports = [])) ∧
    (∃ s : State, Reaches s 3 3 ∧ s.link.transmitter = .idle ∧ s.lhold = false ∧ s.link.replies = [] ∧
      s.link.notices = [] ∧ (s.stage .b).reports = [.stray .b 1 0 0] ∧ .b = s.link.lastServed ∧
      (s.stage (otherSide .b)).reports = []) ∧
    (Reaches State.reset 3 3 ∧ State.reset.link.replies = [] ∧ State.reset.link.notices = [] ∧
      State.reset.stageA.reports = [] ∧ State.reset.stageB.reports = []) :=
  ⟨⟨⟨{ waitingToSend with lhold := true }, reaches_of (by decide), rfl, rfl, by decide⟩,
      ⟨sendingAck false, reaches_of (by decide), rfl, _, _, rfl⟩,
      { State.reset with link := { Link.reset with transmitter := .gap 0 } }, reaches_of (by decide), rfl, _,
      rfl⟩,
    reaches_of (by decide), rfl, rfl, rfl,
    ⟨{ waitingToSend with link := { waitingToSend.link with replies := [] } }, reaches_of (by decide), rfl,
      rfl, rfl, rfl⟩,
    ⟨{ waitingToSend with link := Link.reset }, reaches_of (by decide), rfl, rfl, rfl, rfl, rfl, by decide⟩,
    ⟨{ waitingToSend with link := Link.reset, stageA := Stage.reset }, reaches_of (by decide), rfl, rfl, rfl,
      rfl, rfl, rfl, rfl⟩,
    reaches_of (by decide), rfl, rfl, rfl, rfl⟩

/-- A RESET_PART ACK under way since local time 0. -/
def sendingAt (t : LocalTime) : State :=
  { State.reset with
    localTime := t
    link := { Link.reset with transmitter := .sending (.reply (.ack 0x02 [])) 0 } }

/-- LTX in the break, in the mark and in KIND 0x80 of that frame, least significant bit first (R167). -/
theorem test_ltx_levels : (sendingAt 12).ltx = false ∧ (sendingAt 13).ltx = true ∧
    (sendingAt 21).ltx = false ∧ (sendingAt 22).ltx = true ∧ (sendingAt 58).ltx = true := by decide +kernel

theorem witness_FrameBitsAndLengths :
    let n : Notice := ⟨.busUp, some .b, 255, 0x1FF, 2147483647⟩
    let least : Notice := { n with detail := -2147483648 }
    let t : Tally :=
      { stage := .b, mode := .doubles, failed := true, overcount := true,
        counts := ⟨65535, 65535, 65535, 65535, 65535, 65535, 65535, 65535, 65535, 65535, 65535, 65535⟩,
        score := 1000000, earned := 1310700, judged := 4294967295, maxCombo := 65535, life := 1000,
        meanOffset := -2147483648, graded := 65535, droppedBefore := 255 }
    (n.count < 256 ∧ -2147483648 ≤ n.detail ∧ n.detail ≤ 2147483647 ∧ -2147483648 ≤ least.detail) ∧
    ((65535 : Nat) < 65536 ∧ (1000000 : Nat) < 2 ^ 32 ∧ (255 : Nat) < 256 ∧
      (∀ o, some (-250000 : Int) = some o → -2147483648 ≤ o ∧ o ≤ 2147483647) ∧
      ∀ o, (none : Option Int) = some o → -2147483648 ≤ o ∧ o ≤ 2147483647) ∧
    (t.counts.prime < 65536 ∧ t.counts.stray < 65536 ∧ t.score < 2 ^ 32 ∧ t.earned < 2 ^ 32 ∧
      t.judged < 2 ^ 32 ∧ t.maxCombo < 65536 ∧ t.life < 65536 ∧ -2147483648 ≤ t.meanOffset ∧
      t.meanOffset ≤ 2147483647 ∧ t.graded < 65536 ∧ t.droppedBefore < 256) ∧
    ((∃ s : State, s.link.transmitter = .sending (.reply (.ack 0x02 [])) 0 ∧ s.localTime = 57 ∧
        (frameBits (.reply (.ack 0x02 [])))[elapsed 0 s.localTime]? = some true) ∧
      (∃ s : State, s.link.transmitter = .sending (.reply (.ack 0x02 [])) 0 ∧
        14 + 11 * ((framePayload (.reply (.ack 0x02 []))).length + 3) ≤ elapsed 0 s.localTime) ∧
      State.reset.link.transmitter = .idle) := by
  refine ⟨by decide, ⟨by decide, by decide, by decide, fun o h => ?_, fun o h => by cases h⟩, by decide,
    ⟨sendingAt 57, rfl, rfl, by decide +kernel⟩, ⟨sendingAt 58, rfl, by decide⟩, rfl⟩
  cases h
  decide

theorem witness_CheckCatchesByteErrors : (0x01 : Byte) ≠ 0x81 := by decide

theorem witness_FieldsReadBack : 65535 < 256 ^ 2 ∧ 0 < 256 ^ 0 ∧ 4294967295 < 256 ^ 4 ∧
    (-2147483648 : Int) ≤ -2147483648 ∧ (2147483647 : Int) ≤ 2147483647 := by decide

theorem witness_FrameFaultsFound :
    (List.replicate 60 (0 : Byte)).length ≤ 60 ∧ 60 < (61 : Byte).toNat ∧
    (3 = (((List.range 8).map (7 : Byte).getLsbD) ++ [false]).count true ∧
      4 = (((List.range 8).map (7 : Byte).getLsbD) ++ [true]).count true) ∧
    (charFault ⟨7, false, true⟩ = some .parity ∧
      1 = ((true :: false :: (List.range 8).reverse.map (7 : Byte).getLsbD ++ [false]).takeWhile
        (· == false)).length + 1) ∧
    (charFault ⟨0, false, false⟩ = some .framing ∧
      11 = ((false :: false :: (List.range 8).reverse.map (0 : Byte).getLsbD ++ [false]).takeWhile
        (· == false)).length) ∧
    ((60 : Byte).toNat ≤ 60 ∧ (List.replicate 59 (0 : Byte)).length < (60 : Byte).toNat ∧
      (List.replicate 60 (0 : Byte)).length = (60 : Byte).toNat) := by decide +kernel

/-- A low stop bit of LEN that ends at the limit of 51, the parity bit before it low too: the line can return
high up to bit time 61, and a break is recognised at 62 (R155 to R157). -/
theorem test_late_framing : frameFaultOf [sentChar 1, ⟨0xFF, false, false⟩] = some (.framing, 61) ∧
    frameFaultOf [sentChar 1, sentChar 1, ⟨0xFF, false, false⟩] = some (.framing, 68) := by decide +kernel

theorem witness_BreakOpensFrame :
    ((Reaches State.reset 1 1 ∧ State.reset.link.receiver ≠ .inBreak) ∧ framing.link.receiver ≠ .inBreak) ∧
    (Reaches State.reset 13 13 ∧ State.reset.link.receiver = .waiting) ∧
    (Reaches framing 13 13 ∧ framing.link.receiver = .receiving ⟨0, none, none, []⟩ ∧ 13 ≤ elapsed 0 13) ∧
    (Reaches framing 12 12 ∧ elapsed 0 12 < 13) ∧
    ∃ s : State, Reaches s 1 1 ∧ s.link.receiver = .inBreak :=
  ⟨⟨⟨reaches_of (by decide), by decide⟩, by decide⟩,
    ⟨reaches_of (by decide), rfl⟩, ⟨reaches_of (by decide), rfl, by decide⟩,
    ⟨reaches_of (by decide), by decide⟩,
    { framing with link := { framing.link with receiver := .inBreak } }, reaches_of (by decide), rfl⟩

theorem witness_FaultDiscardsFrame :
    ((Reaches State.reset 51 51 ∧ State.reset.link.receiver.capture? = none) ∧
      (Reaches framing 52 52 ∧ framing.link.receiver.capture? = some 0 ∧
        frameFaultOf [sentChar 1, sentChar 61] = some (.oversize, 51) ∧ ¬ elapsed 0 52 ≤ 51) ∧
      frameFaultOf [] = none ∧ (Reaches framing 50 50 ∧ elapsed 0 50 ≠ 51)) ∧
    (Reaches framing 51 51 ∧ framing.link.receiver.capture? = some 0 ∧
      frameFaultOf [sentChar 1, sentChar 61] = some (.oversize, 51) ∧ elapsed 0 51 ≤ 51 ∧
      framing.link.errors = ErrorCounts.zero) ∧
    (Reaches framing 1071 1071 ∧
      frameFaultOf ([sentChar 1, sentChar 60] ++ [⟨1, false, true⟩]) = some (.parity, 1071) ∧
      elapsed 0 1071 ≤ 1071) ∧
    (Reaches framing 51 51 ∧ ([0x01] : List Byte).length ≤ 1 ∧ elapsed 0 51 = 51) ∧
    (Reaches framing 1071 1071 ∧ (60 : Byte).toNat ≤ 60 ∧
      (List.replicate 60 (0 : Byte)).length ≤ (60 : Byte).toNat ∧
      elapsed 0 1071 = ((60 : Byte).toNat + 3) * 17) :=
  ⟨⟨⟨reaches_of (by decide), rfl⟩,
      ⟨reaches_of (by decide), rfl, by decide +kernel, by decide⟩, rfl, reaches_of (by decide), by decide⟩,
    ⟨reaches_of (by decide), rfl, by decide +kernel, by decide, rfl⟩,
    ⟨reaches_of (by decide), by decide +kernel, by decide⟩, ⟨reaches_of (by decide), by decide, by decide⟩,
    reaches_of (by decide), by decide, by decide +kernel, by decide⟩

theorem witness_FramesDiscardedOrShed :
    (((∃ f, requestOf (.ident 51 []) = some (f, 51, [])) ∧ Reaches State.reset 51 51 ∧
        State.reset.link.receiver = .waiting) ∧
      (∃ s : State, Reaches s 51 51 ∧ s.link.receiver = .inBreak) ∧
      (Reaches framing 52 52 ∧ framing.link.receiver.capture? = some 0 ∧
        (([] : List Byte).length + 3) * 17 < elapsed 0 52) ∧
      60 < (List.replicate 61 (0 : Byte)).length ∧ requestCodes.contains 0x21 = true) ∧
    ((∃ f, requestOf (.ident 51 []) = some (f, 51, []) ∧ (0x01 : Byte) = f.kind) ∧
      Completes crowded 51 0 0 ∧ crowded.link.resetPending = false ∧ 4 ≤ crowded.link.replies.length) ∧
    (requestCodes.contains 0x15 = false ∧ Completes crowded 51 ([] : List Byte).length 0) ∧
    ∃ s : State, Completes s 51 0 0 ∧ s.link.resetPending = true :=
  ⟨⟨⟨⟨_, rfl⟩, reaches_of (by decide), rfl⟩,
      ⟨{ framing with link := { framing.link with receiver := .inBreak } }, reaches_of (by decide), rfl⟩,
      ⟨reaches_of (by decide), rfl, by decide⟩, by decide, by decide⟩,
    ⟨⟨_, rfl, rfl⟩, completes_of (by decide), rfl, by decide⟩, ⟨by decide, completes_of (by decide)⟩,
    { framing with link := { framing.link with resetPending := true } }, completes_of (by decide), rfl⟩

theorem witness_RequestsCheckedInOrder :
    (∃ f, requestOf (.ident 68 [7]) = some (f, 68, [7]) ∧ Dispatches framing 68 1 0 ∧ 1 ∉ f.lens) ∧
    (∃ f, requestOf (.busReset 68 [2]) = some (f, 68, [2]) ∧ Dispatches framing 68 1 0 ∧ 1 ∈ f.lens ∧
      f.first ≠ .none ∧ 1 < (byteAt [2] 0).toNat) ∧
    ∃ f, requestOf (.stageStatus 68 [1]) = some (f, 68, [1]) ∧
      Dispatches (staged (stageIn .closing .doubles) Stage.reset) 68 1 0 ∧ 1 ∈ f.lens ∧
      f.first = .stage ∧ byteAt [1] 0 = 1 ∧
      (staged (stageIn .closing .doubles) Stage.reset).openDoubles = true :=
  ⟨⟨_, rfl, dispatches_of (by decide), by decide⟩,
    ⟨_, rfl, dispatches_of (by decide), by decide, by decide, by decide⟩,
    _, rfl, dispatches_of (by decide), by decide, rfl, rfl, rfl⟩

theorem witness_UnknownKindRefused :
    (∀ k ∈ ([0x01, 0x02, 0x03, 0x04, 0x10, 0x11, 0x12, 0x13, 0x14, 0x20, 0x21, 0x22, 0x23, 0x24,
      0x30, 0x31, 0x32, 0x33, 0x34, 0x35, 0x40, 0x41] : List Byte), (0x42 : Byte) ≠ k) ∧
    Dispatches framing 1071 (List.replicate 60 (0 : Byte)).length 0 :=
  ⟨by decide, dispatches_of (by decide +kernel)⟩

theorem witness_IdentAnswers : Dispatches framing 51 0 0 := dispatches_of (by decide)

theorem witness_ResetPartQueuesAck : Dispatches framing 51 0 0 := dispatches_of (by decide)

theorem witness_LinkStatusReadsAndClears :
    Dispatches framing 51 0 0 ∧ Completes crowded 51 0 0 ∧ crowded.link.resetPending = false ∧
      4 ≤ crowded.link.replies.length :=
  ⟨dispatches_of (by decide), completes_of (by decide), rfl, by decide⟩

theorem witness_NoticeMaskStored :
    Dispatches framing 85 2 0 ∧ Link.reset.mask.getLsbD (noticeCode .scanLate) = true :=
  ⟨dispatches_of (by decide), by decide⟩

theorem witness_ClockUpdateSlews :
    (∃ c : Clock, c.running = false) ∧
    (∃ c : Clock, c.running = true ∧ 2000000000 <
      c.chart + elapsed c.lastUpdate 1 + max (-((elapsed c.lastUpdate 1 * c.slewLimit / 1000000 : Nat) : Int))
        (min ((elapsed c.lastUpdate 1 * c.slewLimit / 1000000 : Nat) : Int) c.correction)) ∧
    (∃ c : Clock, c.running = true ∧
      c.chart + elapsed c.lastUpdate 1 + max (-((elapsed c.lastUpdate 1 * c.slewLimit / 1000000 : Nat) : Int))
        (min ((elapsed c.lastUpdate 1 * c.slewLimit / 1000000 : Nat) : Int) c.correction) < -60000000) ∧
    ∃ c : Clock, c.running = true ∧
      c.chart + elapsed c.lastUpdate 1 + max (-((elapsed c.lastUpdate 1 * c.slewLimit / 1000000 : Nat) : Int))
        (min ((elapsed c.lastUpdate 1 * c.slewLimit / 1000000 : Nat) : Int) c.correction) = 2000000000 :=
  ⟨⟨Clock.reset, rfl⟩, ⟨runningClock 2000000000 0 0, rfl, by decide +kernel⟩,
    ⟨runningClock (-60000002) 0 0, rfl, by decide +kernel⟩,
    runningClock 1999999999 0 0, rfl, by decide +kernel⟩

theorem witness_ClockStartRuns :
    Dispatches framing 119 4 0 ∧ framing.clock.running = false ∧
    ((-2147483648 : Int) ≤ 2147483647 ∧ (2000000000 : Int) < 2147483647) ∧
    ((-60000000 : Int) ≤ 2000000000 ∧ (2000000000 : Int) ≤ 2000000000) ∧
    ∃ s : State, Dispatches s 119 4 0 ∧ s.clock.running = true :=
  ⟨dispatches_of (by decide), rfl, by decide, by decide,
    framingAt 0 0 (runningClock 0 0 0), dispatches_of (by decide), rfl⟩

theorem witness_ClockStopHolds :
    (Dispatches framing 51 0 0 ∧ framing.stageA.state ≠ .playing ∧ framing.stageB.state ≠ .playing ∧
      framing.clock.running = false) ∧
    (∃ s : State, Dispatches s 51 0 0 ∧ s.stageA.state ≠ .playing ∧ s.stageB.state ≠ .playing ∧
      s.clock.running = true) ∧
    (∃ s : State, Dispatches s 51 0 0 ∧ s.stageA.state = .playing) ∧
    ∃ s : State, Dispatches s 51 0 0 ∧ s.stageA.state ≠ .playing ∧ s.stageB.state = .playing :=
  ⟨⟨dispatches_of (by decide), by decide, by decide, rfl⟩,
    ⟨framingAt 0 0 (runningClock 0 0 0), dispatches_of (by decide), by decide, by decide, rfl⟩,
    ⟨staged (stageIn .playing .single) Stage.reset, dispatches_of (by decide), rfl⟩,
    staged Stage.reset (stageIn .playing .single), dispatches_of (by decide), by decide, rfl⟩

/-- Chart time after the update at 119, and what position gives an error of exactly the jump limit, one
more, and one that leaves the range. -/
theorem witness_SyncFollowsPosition :
    (Dispatches framing 119 4 0 ∧ framing.clock.running = false) ∧
    ∃ (s : State) (u : Clock × Option Int), Dispatches s 119 4 0 ∧ s.clock.running = true ∧
      u = s.clock.update (later s.localTime 119) ∧
      ((1999920000 : Int) - (u.1.chart - elapsed 0 (later s.localTime 119))).natAbs ≤ u.1.jumpLimit ∧
      u.1.jumpLimit < ((1999920001 : Int) - (u.1.chart - elapsed 0 (later s.localTime 119))).natAbs ∧
      u.1.chart + (1999920001 - (u.1.chart - elapsed 0 (later s.localTime 119))) ≤ 2000000000 ∧
      u.1.jumpLimit < ((2000000000 : Int) - (u.1.chart - elapsed 0 (later s.localTime 119))).natAbs ∧
      2000000000 < u.1.chart + (2000000000 - (u.1.chart - elapsed 0 (later s.localTime 119))) :=
  ⟨⟨dispatches_of (by decide), rfl⟩, framingAt 0 0 (runningClock 1999900000 0 0), _,
    dispatches_of (by decide), rfl, rfl, by decide +kernel, by decide +kernel, by decide +kernel,
    by decide +kernel, by decide +kernel⟩

theorem witness_ClockParamsClamped :
    Dispatches framing 187 8 0 ∧ 65535 < 65536 ∧ 4294967295 < 4294967296 ∧
      100000 = max 1000 (min 100000 4294967295) :=
  ⟨dispatches_of (by decide), by decide⟩

theorem witness_ClockReadAnswers : Dispatches framing 51 0 0 := dispatches_of (by decide)

theorem witness_HousekeepingEvent :
    (Reaches State.reset 5 5 ∧ State.reset.clock.housekeeping ≠ some 5) ∧
    (∃ (s : State) (ls : LocalTime), Reaches s 1000000 16000000 ∧ s.clock.housekeeping = some 16000000 ∧
      ls = (if 15000000 < elapsed (s.clock.update 16000000).1.lastSync 16000000 then 16000000 - 15000000
        else (s.clock.update 16000000).1.lastSync) ∧
      (s.stageA.state = .playing ∨ s.stageB.state = .playing) ∧
      (s.clock.update 16000000).1.silenceMs * 1000 < elapsed ls 16000000 ∧
      (s.clock.update 16000000).1.silenceNotified = false) ∧
    ∃ s : State, Reaches s 1000000 1000000 ∧ s.clock.housekeeping = some 1000000 ∧
      ¬ (s.stageA.state = .playing ∨ s.stageB.state = .playing) :=
  ⟨⟨reaches_of (by decide), by decide⟩,
    ⟨{ State.reset with
        localTime := 15000000
        clock := { runningClock 0 15000000 0 with lastSync := 500000 }
        stageB := stageIn .playing .single }, 1000000,
      reaches_of (by decide), by decide +kernel, by decide +kernel, Or.inr rfl, by decide +kernel,
      by decide +kernel⟩,
    { State.reset with clock := runningClock 0 0 0 }, reaches_of (by decide), by decide, by decide⟩

theorem witness_BusConfigPends :
    (∃ x : BusSettings, Dispatches framing 136 5 0 ∧ x.period.val = (2 : Byte).toNat ∧
      x.retries.val = min 2 (255 : Byte).toNat ∧
      x.enable = BitVec.ofNat 9 ((0xFF : Byte).toNat + 256 * (0xFF : Byte).toNat)) ∧
    2 < (3 : Byte).toNat :=
  ⟨⟨⟨2, 2, 0x1FF⟩, dispatches_of (by decide), by decide, by decide, by decide⟩, by decide⟩

/-- A scan in flight in scan 5, polling panel 1 of panels 1 and 2 with one retry. -/
def someScan : Scan :=
  { number := 5, capture := some 13, chart := some 1000, enable := 3, retries := 1, next := some 0,
    attempts := 1, outcomes := Vector.replicate 9 none }

/-- A bus with that scan in a phase. -/
def busIn (phase : BusPhase) : BusCtl :=
  { BusCtl.reset with scanNumber := 5, scan := some someScan, phase := phase }

/-- A device that receives a frame, and whose bus A stands so. -/
def busFraming (b : BusCtl) : State := { framing with busA := b }

theorem witness_BusResetByState :
    (∃ s : State, Dispatches s 68 1 0 ∧ (s.bus .a).state = .down) ∧
    (Dispatches framing 68 1 0 ∧ (framing.bus .b).state = .up ∧ (framing.bus .b).scan = none) ∧
    (∃ s : State, Dispatches s 68 1 0 ∧ (s.bus .a).state = .up ∧ (s.bus .a).scan = some someScan ∧
      (s.bus .a).finishing = none ∧ (s.bus .a).sendingUntil (later s.localTime 68) = some 76) ∧
    (∃ s : State, Dispatches s 68 1 0 ∧ (s.bus .a).state = .up ∧ (s.bus .a).scan = some someScan ∧
      (s.bus .a).finishing = none ∧ (s.bus .a).sendingUntil (later s.localTime 68) = none) ∧
    ∃ s : State, Dispatches s 68 1 0 ∧ (s.bus .a).state = .up ∧ (s.bus .a).scan = some someScan ∧
      (s.bus .a).finishing = some 76 :=
  ⟨⟨busFraming { BusCtl.reset with state := .down }, dispatches_of (by decide), rfl⟩,
    ⟨dispatches_of (by decide), rfl, rfl⟩,
    ⟨busFraming (busIn (.poll 65 0 0)), dispatches_of (by decide), rfl, rfl, rfl, by decide +kernel⟩,
    ⟨busFraming (busIn (.poll 46 0 0)), dispatches_of (by decide), rfl, rfl, rfl, by decide +kernel⟩,
    busFraming { busIn (.poll 65 0 0) with finishing := some 76 }, dispatches_of (by decide), rfl, rfl, rfl⟩

theorem witness_PanelThresholdsStored :
    Dispatches framing 170 7 0 ∧ 65535 < 65536 ∧ ¬ (1 ≤ 1024 ∧ 1024 ≤ 1023 ∧ 0 < 1024) ∧
      (1 ≤ 1023 ∧ 1023 ≤ 1023 ∧ 1022 < 1023) :=
  ⟨dispatches_of (by decide), by decide⟩

theorem witness_PanelReadAndStuckLimit : Dispatches framing 68 1 0 := dispatches_of (by decide)

theorem witness_StrobesKeepSchedule :
    ((∃ s : State, Reaches s 1000 1000 ∧ (s.bus .a).state = .down) ∧
      (∃ s : State, Reaches s 1000 1000 ∧ (s.bus .a).waiting = true ∧ (s.bus .a).scan ≠ none) ∧
      (Reaches State.reset 999 999 ∧ (999 : LocalTime) ≠ (State.reset.bus .a).nextStrobe ∧
        (State.reset.bus .a).waiting = false) ∧
      ∃ s : State, Reaches s 1 1 ∧ (s.bus .a).waiting = true ∧
        ∀ since, (s.bus .a).phase = .quiet since → (1 : LocalTime) ≠ later since 2) ∧
    (Reaches State.reset 1000 1000 ∧ elapsed 1000 1000 < 1 * (1000 * 2 ^ (0 : Fin 3).val) ∧
      (∀ j, 1 ≤ j → elapsed 1000 1000 < j * (1000 * 2 ^ (0 : Fin 3).val) → 1 ≤ j) ∧
      (State.reset.bus .a).state = .up ∧ (State.reset.bus .a).waiting = false ∧
      (1000 : LocalTime) = (State.reset.bus .a).nextStrobe ∧ (State.reset.bus .a).scan = none) ∧
    (∃ s : State, Reaches s 1000 1000 ∧ (s.bus .a).state = .up ∧ (s.bus .a).waiting = false ∧
      (1000 : LocalTime) = (s.bus .a).nextStrobe ∧ (s.bus .a).scan = some someScan) ∧
    ∃ s : State, Reaches s 2 42085 ∧ (s.bus .a).state = .up ∧ (s.bus .a).waiting = true ∧
      (s.bus .a).phase = .quiet 42083 ∧ (s.bus .a).scan = none ∧ (42085 : LocalTime) = later 42083 2 ∧
      elapsed (s.bus .a).nextStrobe 42085 < 2 * (1000 * 2 ^ (s.bus .a).settings.period.val) ∧
      ∀ j, 1 ≤ j → elapsed (s.bus .a).nextStrobe 42085 < j * (1000 * 2 ^ (s.bus .a).settings.period.val) →
        2 ≤ j := by
  refine ⟨⟨⟨{ State.reset with busA := { BusCtl.reset with state := .down } }, reaches_of (by decide), rfl⟩,
      ⟨{ State.reset with busA := { busIn (.gap 2000) with waiting := true } }, reaches_of (by decide), rfl,
        by decide⟩,
      ⟨reaches_of (by decide), by decide, rfl⟩,
      { State.reset with busA := { BusCtl.reset with waiting := true } }, reaches_of (by decide), rfl,
      fun _ h => by cases h; decide⟩,
    ⟨reaches_of (by decide), by decide, fun j h _ => h, rfl, rfl, rfl, rfl⟩,
    ⟨{ State.reset with busA := busIn (.gap 2000) }, reaches_of (by decide), rfl, rfl, rfl, rfl⟩,
    { State.reset with
      localTime := 42083
      busA := { BusCtl.reset with nextStrobe := 41000, waiting := true, phase := .quiet 42083 } },
    reaches_of (by decide), rfl, rfl, rfl, rfl, by decide, by decide, fun j _ h => ?_⟩
  have : (1085 : Nat) < j * 1000 := h
  omega

/-- A device whose bus A stands so. -/
def busState (t : LocalTime) (b : BusCtl) : State := { State.reset with localTime := t, busA := b }

theorem witness_StrobeCaptureTaken :
    let s := { busState 1000 (busIn (.strobe 1000 false)) with clock := runningClock 0 0 0 }
    (Reaches s 12 1012 ∧ ∀ x, (s.bus .a).phase = .strobe x false → (1012 : LocalTime) ≠ later x 13) ∧
    Reaches s 13 1013 ∧ (s.bus .a).phase = .strobe 1000 false ∧ (1013 : LocalTime) = later 1000 13 ∧
      some ((s.clock.update 1013).1.chart) =
        (if s.clock.running = true then some (s.clock.update 1013).1.chart else none) :=
  ⟨⟨reaches_of (by decide), fun _ h => by cases h; decide⟩,
    reaches_of (by decide), rfl, by decide, rfl⟩

theorem witness_HeadersFollowStrobe :
    ((∃ s : State, Reaches s 11 1024 ∧ (s.bus .a).scan ≠ none ∧ (s.bus .a).finishing = none ∧
        ∀ x, (s.bus .a).phase = .strobe x true → (1024 : LocalTime) ≠ later x 25) ∧
      (∃ s : State, Reaches s 12 1025 ∧ (s.bus .a).phase = .strobe 1000 true ∧
        (s.bus .a).finishing ≠ none) ∧
      (∃ s : State, Reaches s 1 1026 ∧ (s.bus .a).phase = .gap 1027) ∧
      ∃ s : State, Reaches s 2 2 ∧ (s.bus .a).phase = .gap 2 ∧
        ∀ scan, (s.bus .a).scan = some scan → scan.next = none) ∧
    (∃ scan : Scan, ∃ s : State, Reaches s 12 1025 ∧ (s.bus .a).phase = .strobe 1000 true ∧
      (s.bus .a).scan = some scan ∧ (s.bus .a).finishing = none ∧ (1025 : LocalTime) = later 1000 25 ∧
      scan.next = none) ∧
    (∃ s : State, Reaches s 12 1025 ∧ (s.bus .a).phase = .strobe 1000 true ∧
      (s.bus .a).scan = some someScan ∧ (s.bus .a).finishing = none ∧ someScan.next = some 0) ∧
    (∃ s : State, Reaches s 2 1027 ∧ (s.bus .a).phase = .gap 1027 ∧ (s.bus .a).scan = some someScan ∧
      (s.bus .a).finishing = none ∧ someScan.next = some 0) ∧
    ((9 : Byte).toNat = (8 : Fin 9).val + 1 ∧
      (busIn (.strobe 1000 true)).phase = .strobe 1000 true ∧
      (strobeBits 5)[elapsed 1000 1013]? = some true ∧ (strobeBits 5).length ≤ elapsed 1000 1025 ∧
      (headerBits 0 9)[elapsed 1000 1012]? = some true ∧ (headerBits 0 9).length ≤ elapsed 1000 1022 ∧
      ([] : List Bool).length ≤ elapsed 1000 1000) :=
  ⟨⟨⟨busState 1013 (busIn (.strobe 1000 true)), reaches_of (by decide), by decide, rfl,
        fun _ h => by cases h; decide⟩,
      ⟨busState 1013 { busIn (.strobe 1000 true) with finishing := some 1025 }, reaches_of (by decide), rfl,
        by decide⟩,
      ⟨busState 1025 (busIn (.gap 1027)), reaches_of (by decide), rfl⟩,
      busState 0 { BusCtl.reset with phase := .gap 2 }, reaches_of (by decide), rfl,
      fun _ h => (nomatch h)⟩,
    ⟨{ someScan with enable := 0, next := none }, busState 1013 { busIn (.strobe 1000 true) with
      scan := some { someScan with enable := 0, next := none } }, reaches_of (by decide), rfl, rfl, rfl,
      by decide, rfl⟩,
    ⟨busState 1013 (busIn (.strobe 1000 true)), reaches_of (by decide), rfl, rfl, rfl, rfl⟩,
    ⟨busState 1025 (busIn (.gap 1027)), reaches_of (by decide), rfl, rfl, rfl, rfl⟩,
    by decide, rfl, by decide +kernel, by decide +kernel, by decide +kernel, by decide +kernel, by decide⟩

/-- The STROBE of scan 18 and the header of panel 5 with lamp byte 200, on the line (12.6). -/
theorem test_bus_bits :
    (strobeBits 0x12).drop 14 = [false, false, true, false, false, true, false, false, false, false, true] ∧
    (headerBits 4 0xC8).take 11 =
      [false, true, false, true, false, false, false, false, false, false, true] := by decide +kernel

theorem witness_AttemptEnds :
    let s := busState 1100 (busIn (.poll 1027 0 0))
    let last := busState 1100 { busIn (.poll 1027 1 0) with scan := some { someScan with next := some 1 } }
    let spent := busState 1100 { busIn (.poll 1027 0 0) with scan := some { someScan with attempts := 2 } }
    ((Reaches s 30 1130 ∧ (s.bus .a).phase = .poll 1027 0 0 ∧ 102 < elapsed 1027 1130) ∧
      (∃ s : State, Reaches s 22 1049 ∧ (s.bus .a).phase = .poll 1027 0 0 ∧ elapsed 1027 1049 ≤ 22) ∧
      (Reaches s 28 1128 ∧ (1128 : LocalTime) ≠ later 1027 102) ∧
      ∃ s : State, Reaches s 29 1129 ∧ (s.bus .a).phase = .poll 1027 0 0 ∧ (s.bus .a).finishing ≠ none) ∧
    (Reaches s 29 1129 ∧ (s.bus .a).phase = .poll 1027 0 0 ∧ (s.bus .a).scan = some someScan ∧
      (s.bus .a).finishing = none ∧ 22 < elapsed 1027 1129 ∧ elapsed 1027 1129 ≤ 102 ∧
      some 5 = responseReading someScan.number (sentChar 0) (sentChar 5) (sentChar (crc8 [5, 0, 5])) ∧
      nextPanel someScan.enable 1 = some 1) ∧
    ((1129 : LocalTime) = later 1027 102 ∧ someScan.attempts < 1 + someScan.retries.val) ∧
    (Reaches spent 29 1129 ∧ (spent.bus .a).scan = some { someScan with attempts := 2 } ∧
      1 + someScan.retries.val ≤ 2 ∧ nextPanel someScan.enable (0 + 1) = some 1) ∧
    (Reaches last 29 1129 ∧ (last.bus .a).phase = .poll 1027 1 0 ∧
      nextPanel someScan.enable (1 + 1) = none) :=
  ⟨⟨⟨reaches_of (by decide), rfl, by decide⟩,
      ⟨busState 1027 (busIn (.poll 1027 0 0)), reaches_of (by decide), rfl, by decide⟩,
      ⟨reaches_of (by decide), by decide⟩,
      busState 1100 { busIn (.poll 1027 0 0) with finishing := some 1049 }, reaches_of (by decide), rfl,
      by decide⟩,
    ⟨reaches_of (by decide), rfl, rfl, rfl, by decide, by decide, by decide +kernel, by decide⟩, by decide,
    ⟨reaches_of (by decide), rfl, by decide, by decide⟩, reaches_of (by decide), rfl, by decide⟩

theorem witness_ContentionCompletesScan :
    let s := busState 1013 (busIn (.strobe 1000 true))
    let p := busState 1027 (busIn (.poll 1027 0 0))
    ((∃ s : State, Reaches s 0 1014 ∧ (s.bus .a).phase = .strobe 1000 true ∧
        ¬ elapsed 1000 1014 < 13 ∧ (strobeBits (s.bus .a).scanNumber)[elapsed 1000 1014]? ≠ some true) ∧
      (Reaches p 0 1027 ∧ (headerBits 0 0)[elapsed 1027 1027]? ≠ some true) ∧
      Reaches State.reset 1 1 ∧ (State.reset.bus .a).scan = none) ∧
    (Reaches s 0 1013 ∧ (s.bus .a).scan = some someScan ∧ (s.bus .a).finishing = none ∧
      (s.bus .a).phase = .strobe 1000 true ∧ 13 ≤ elapsed 1000 1013 ∧
      (strobeBits (s.bus .a).scanNumber)[elapsed 1000 1013]? = some true) ∧
    (Reaches p 1 1028 ∧ (p.bus .a).phase = .poll 1027 0 0 ∧
      (headerBits 0 0)[elapsed 1027 1028]? = some true ∧
      ∀ q : Fin 9, (1 : BusSet).getLsbD q.val = decide (q = 0)) ∧
    ∀ q : Fin 9, (Vector.ofFn fun (i : Fin 9) => if i.val < 2 then some PollOutcome.failed else none)[q] =
      match someScan.outcomes[q] with
      | some o => some o
      | none => if someScan.enable.getLsbD q.val = true then some .failed else none :=
  ⟨⟨⟨busState 1014 (busIn (.strobe 1000 true)), reaches_of (by decide), rfl, by decide,
        by decide +kernel⟩,
      ⟨reaches_of (by decide), by decide +kernel⟩, reaches_of (by decide), rfl⟩,
    ⟨reaches_of (by decide), rfl, rfl, rfl, by decide, by decide +kernel⟩,
    ⟨reaches_of (by decide), rfl, by decide +kernel, by decide +kernel⟩, by decide +kernel⟩

/-- A break of 1,000 to 1,013 (R31, R32): not ended and low from its begin, the bus goes DOWN at 1,044 and not
before; ended with the line high, a low period is not stuck 1 µs later. -/
theorem test_stuck_line :
    let s := busState 1000 (busIn (.strobe 1000 false))
    let low := after (exec (.strobeCapture 13 .a false) s)
    let high := after (exec (.strobeCapture 13 .a true) s)
    (after (exec (.stuckLine 31 ⟨.a, 1000⟩) low)).busA.downSince = 1044 ∧
      (after (exec (.stuckLine 31 ⟨.a, 1013⟩) low)).busA.state = .down ∧
      (after (exec (.stuckLine 30 ⟨.a, 1000⟩) low)).busA.state = .up ∧
      (after (exec (.stuckLine 1 ⟨.a, 983⟩) high)).busA.state = .up := by decide +kernel

theorem witness_StuckLineGoesDown :
    (∃ s : State, Reaches s 31 31 ∧ (s.bus .a).state = .down) ∧
    (∃ (s : State) (x : LocalTime) (k : Completion), Reaches s 31 1100 ∧ (s.bus .a).state = .up ∧
      k.kind = .down ∧ k.outcomes = Vector.replicate 9 none ∧ (s.bus .a).scan = some someScan ∧
      someScan.capture = some x ∧ k.number = someScan.number ∧ k.capture = x ∧
      k.chart = someScan.chart ∧ k.enable = someScan.enable ∧ (∀ x, (s.bus .a).phase ≠ .strobe x false) ∧
      (s.bus .a).stuckAt 1069 1100 = true) ∧
    (∃ k : Completion, Reaches State.reset 31 31 ∧ (State.reset.bus .b).state = .up ∧ k.kind = .down ∧
      k.outcomes = Vector.replicate 9 none ∧
      (∀ scan, (State.reset.bus .b).scan = some scan → scan.capture = none) ∧
      k.number = (State.reset.bus .b).scanNumber ∧ k.capture = (State.reset.bus .b).lastCapture ∧
      k.chart = (State.reset.bus .b).lastChart ∧ k.enable = (State.reset.bus .b).settings.enable ∧
      (State.reset.bus .b).stuckAt 0 31 = true ∧ (State.reset.bus .b).stuckAt 1 31 = false) ∧
    (∃ s : State, Reaches s 31 1100 ∧ (s.bus .a).state = .up ∧ (s.bus .a).phase = .strobe 1069 false) ∧
    ((busIn (.strobe 1000 true)).phase = .strobe 1000 true ∧ (strobeBits 5)[17]? = some true ∧
      17 < elapsed 1000 1020 ∧ ∀ k, (strobeBits 5)[k]? = some true → k < elapsed 1000 1020 → k ≤ 17) ∧
    ((busIn (.poll 1027 0 0)).phase = .poll 1027 0 0 ∧
      ∀ k, (headerBits 0 0)[k]? = some true → elapsed 1027 1027 ≤ k) ∧
    ∀ x, BusCtl.reset.phase ≠ .strobe x true :=
  ⟨⟨busState 0 { BusCtl.reset with state := .down }, reaches_of (by decide), rfl⟩,
    ⟨busState 1069 (busIn (.gap 1200)), 13, ⟨.down, 5, 13, some 1000, 3, Vector.replicate 9 none⟩,
      reaches_of (by decide), rfl, rfl, rfl, rfl, rfl, rfl, rfl, rfl, rfl, fun _ h => (nomatch h),
      by decide +kernel⟩,
    ⟨⟨.down, 0, 0, none, BitVec.allOnes 9, Vector.replicate 9 none⟩, reaches_of (by decide), rfl, rfl, rfl,
      fun _ h => (nomatch h), rfl, rfl, rfl, rfl, by decide +kernel, by decide +kernel⟩,
    ⟨busState 1069 (busIn (.strobe 1069 false)), reaches_of (by decide), rfl, rfl⟩,
    ⟨rfl, by decide +kernel, by decide, fun k h h' =>
      (by decide +kernel : ∀ k < elapsed 1000 1020, (strobeBits 5)[k]? = some true → k ≤ 17) k h' h⟩,
    ⟨rfl, fun k _ => (by decide : elapsed 1027 1027 = 0) ▸ Nat.zero_le k⟩, fun _ h => (nomatch h)⟩

theorem witness_ProbesRecoverBus :
    let d := busState 0 { BusCtl.reset with state := .down, probe := some 10000 }
    let w := busState 10000 { BusCtl.reset with state := .down, watching := some 10000 }
    ((Reaches d 9999 9999 ∧ (d.bus .a).probe ≠ some 9999) ∧
      (Reaches w 14 10014 ∧ (∀ p, (w.bus .a).watching = some p → 13 < elapsed p 10014) ∧
        ∀ p, (w.bus .a).watching = some p → (10014 : LocalTime) ≠ later p 13) ∧
      Reaches State.reset 1 1 ∧ (State.reset.bus .a).state = .up ∧ (State.reset.bus .a).watching = none) ∧
    (Reaches d 10000 10000 ∧ (d.bus .a).state = .down ∧ (d.bus .a).probe = some 10000) ∧
    (Reaches w 13 10013 ∧ (w.bus .a).watching = some 10000 ∧ elapsed 10000 10013 ≤ 13 ∧
      (10013 : LocalTime) = later 10000 13) :=
  ⟨⟨⟨reaches_of (by decide), by decide⟩,
      ⟨reaches_of (by decide), fun _ h => by cases h; decide, fun _ h => by cases h; decide⟩,
      reaches_of (by decide), rfl, rfl⟩,
    ⟨reaches_of (by decide), rfl, rfl⟩, reaches_of (by decide), rfl, by decide, by decide⟩

theorem witness_BusResetStops :
    let b : BusCtl := { busIn (.poll 1027 0 0) with finishing := some 1038 }
    let n : BusCtl := { BusCtl.reset with scanNumber := 5, finishing := some 1013 }
    ((Reaches (busState 1027 b) 10 1037 ∧ b.finishing ≠ some 1037) ∧
      (Reaches (busState 1027 b) 0 1027 ∧ b.bitAt 1027 ≠ some true) ∧
      (Reaches State.reset 0 0 ∧ (State.reset.bus .a).finishing = none) ∧
      ∃ s : State, Reaches s 13 13 ∧ (s.bus .a).phase = .strobe 0 false ∧ (s.bus .a).finishing = some 13) ∧
    (Reaches (busState 1027 b) 11 1038 ∧ b.finishing = some 1038 ∧ (∀ x, b.phase ≠ .strobe x false) ∧
      b.scan = some someScan) ∧
    (Reaches (busState 1027 b) 1 1028 ∧ b.bitAt 1028 = some true ∧ b.sendingUntil 1028 = some 1038) ∧
    (Reaches (busState 1013 n) 0 1013 ∧ n.finishing = some 1013 ∧ (∀ x, n.phase ≠ .strobe x false) ∧
      n.scan = none) :=
  ⟨⟨⟨reaches_of (by decide), by decide⟩, ⟨reaches_of (by decide), by decide +kernel⟩,
      ⟨reaches_of (by decide), rfl⟩,
      busState 0 { busIn (.strobe 0 false) with finishing := some 13 }, reaches_of (by decide), rfl, rfl⟩,
    ⟨reaches_of (by decide), rfl, fun _ h => (nomatch h), rfl⟩,
    ⟨reaches_of (by decide), by decide +kernel, by decide +kernel⟩,
    reaches_of (by decide), rfl, fun _ h => (nomatch h), rfl⟩

/-- A completion with one good reading of 340 on panel 1, panel 2 failed, panel 3 left out. -/
def someCompletion (kind : CompletionKind) : Completion :=
  { kind := kind, number := 5, capture := 5013, chart := some 1000, enable := 3,
    outcomes := (Vector.replicate 9 none |>.set 0 (some (.good 340))).set 1 (some .failed) }

theorem witness_PanelTakesOutcome :
    let k := someCompletion .contention
    let down := { panelFive with pressed := true, pressedSince := 5000 }
    let stuck := { down with pressedSince := 4234972308 }
    ((k.kind = .normal ∨ k.kind = .contention) ∧ k.enable.getLsbD (0 : Fin 9).val = true ∧
      k.outcomes[(0 : Fin 9)] = some (.good 340) ∧ Panel.reset.baseline = none) ∧
    (panelFive.baseline = some 210 ∧ panelFive.pressed = false ∧ panelFive.pressAt ≤ 340 - 210) ∧
    (down.pressed = true ∧ down.releaseAt < 340 - 210 ∧
      elapsed down.pressedSince k.capture ≤ 60 * 1000000) ∧
    (stuck.baseline = some 210 ∧ stuck.pressed = true ∧ stuck.releaseAt < 340 - 210 ∧
      60 * 1000000 < elapsed stuck.pressedSince k.capture) ∧
    ((∃ p : Panel, p.baseline = some 221 ∧ p.pressed = false ∧ 340 - 221 < p.pressAt) ∧
      ∃ p : Panel, p.baseline = some 280 ∧ p.pressed = true ∧ 340 - 280 ≤ p.releaseAt) ∧
    (k.enable.getLsbD (1 : Fin 9).val = true ∧ k.outcomes[(1 : Fin 9)] = some .failed ∧
      (∃ p : Panel, p.status = .online ∧ 2 ≤ p.misses) ∧
      (∃ p : Panel, p.pressed = false ∧ p.status = .online ∧ p.misses < 2) ∧
      (stuck.status = .online ∧ stuck.misses < 2) ∧
      (Panel.reset.status = .offline ∧ Panel.reset.pressed = false) ∧
      ∃ p : Panel, p.pressed = false ∧ p.status = .disabled) ∧
    (k.enable.getLsbD (2 : Fin 9).val = false ∧ panelFive.status ≠ .disabled) ∧
    ((someCompletion .down).kind = .down ∧ panelFive.status = .online ∧ Panel.reset.status ≠ .online) ∧
    ((someCompletion (.reset true)).kind = .reset true ∧ ∃ p : Panel, p.status = .disabled) ∧
    ((someCompletion (.reset false)).kind = .reset false ∧ down.status ≠ .disabled ∧
      (takePanel 60 (someCompletion (.reset false)) 0 down).edge = none ∧
      (takePanel 60 (someCompletion (.reset true)) 0 down).edge = some .release) := by
  refine ⟨⟨Or.inr rfl, by decide, by decide +kernel, rfl⟩, by decide, by decide, by decide,
    ⟨⟨{ panelFive with baseline := some 221 }, by decide⟩,
      ⟨{ panelFive with baseline := some 280, pressed := true }, by decide⟩⟩,
    ⟨by decide, by decide +kernel, ⟨{ panelFive with misses := 2 }, by decide⟩, ⟨panelFive, by decide⟩,
      by decide, by decide, ⟨{ panelFive with status := .disabled }, by decide⟩⟩,
    by decide, by decide, ⟨rfl, { panelFive with status := .disabled }, rfl⟩, by decide⟩

/-- A tracker with one hold on panels 5 and 6, its last part released. -/
def heldTracker : Vector (Option TrackEntry) 18 :=
  ((Vector.replicate 18 none).set 4 (some ⟨2, 2000000, .held⟩)).set 5 (some ⟨2, 2000000, .released 1500000⟩)

theorem heldTracker_get (p : Fin 18) (e : TrackEntry) (h : heldTracker[p] = some e) :
    (p = 4 ∧ e = ⟨2, 2000000, .held⟩) ∨ (p = 5 ∧ e = ⟨2, 2000000, .released 1500000⟩) := by
  simp only [heldTracker, Fin.getElem_fin, Vector.getElem_set, Vector.getElem_replicate] at h
  split at h
  · exact .inr ⟨Fin.ext (by simpa using Eq.symm ‹_›), by cases h; rfl⟩
  · split at h
    · exact .inl ⟨Fin.ext (by simpa using Eq.symm ‹_›), by cases h; rfl⟩
    · cases h

/-- A PLAYING stage A in doubles, with panel 1 of each bus as given. -/
def doublesWith (p : Panel) : State :=
  { staged (stageIn .playing .doubles) Stage.reset with
    panelsA := (Vector.replicate 9 Panel.reset).set 0 p
    panelsB := (Vector.replicate 9 Panel.reset).set 0 p }

theorem witness_CompletionReachesStage :
    let k := someCompletion .normal
    let playing := staged (stageIn .playing .single) Stage.reset
    let doubles := doublesWith panelFive
    let stuck := doublesWith { panelFive with pressed := true, pressedSince := 4234972308 }
    (Side.b = (if State.reset.openDoubles = true then .a else .b) ∧ (State.reset.stage .b).state ≠ .playing) ∧
    (Side.a = (if playing.openDoubles = true then .a else .a) ∧ (playing.stage .a).state = .playing ∧
      (someCompletion .down).chart = some 1000 ∧ (someCompletion .down).kind ≠ .reset false) ∧
    (Side.a = (if doubles.openDoubles = true then .a else .b) ∧ (doubles.stage .a).state = .playing) ∧
    (∀ p : Fin 9, (0 : BusSet).getLsbD p.val = (takePanel 60 k p (State.reset.panels .b)[p]).wentOffline ∧
      (1 : BusSet).getLsbD p.val = (takePanel 60 k p (State.reset.panels .b)[p]).cameOnline ∧
      (0 : BusSet).getLsbD p.val = (takePanel 60 k p (State.reset.panels .b)[p]).rezeroAge.isSome ∧
      (takePanel 60 k p (State.reset.panels .b)[p]).rezeroAge.getD 0 ≤ 0) ∧
    ((∀ p : Fin 9, (1 : BusSet).getLsbD p.val = (takePanel 60 k p (stuck.panels .b)[p]).rezeroAge.isSome ∧
      (takePanel 60 k p (stuck.panels .b)[p]).rezeroAge.getD 0 ≤ 60000001) ∧
      (takePanel 60 k 0 (stuck.panels .b)[(0 : Fin 9)]).rezeroAge = some 60000001) ∧
    ((∀ p : Fin 9, (p.addNat 9 : Fin 18).val =
        if doubles.openDoubles = true ∧ Side.b = .b then p.val + 9 else p.val) ∧
      (∀ q : Fin 18, (0x3FE00 : StageSet).getLsbD q.val = true ↔ ∃ p : Fin 9, p.addNat 9 = q) ∧
      ∀ q : Fin 18, (0x200 : StageSet).getLsbD q.val = true ↔ ∃ p : Fin 9, p.addNat 9 = q ∧
        (takePanel doubles.stuckLimit k p (doubles.panels .b)[p]).panel.pressed = true) ∧
    ((∀ p : Fin 18, (busPanelOf .a true p).2.val = p.val % 9 ∧
        (busPanelOf .a true p).1 = if (true : Bool) = true then (if p.val < 9 then .a else .b) else .a) ∧
      [(0 : Fin 18), 9].Pairwise (fun x y => x < y) ∧
      ∀ p : Fin 18, p ∈ [(0 : Fin 18), 9] ↔ (0x201 : StageSet).getLsbD p.val = true) ∧
    ∀ p : Fin 18, (heldTracker.set 4 (some ⟨2, 2000000, .released 1600000⟩))[p] = heldTracker[p].map fun e =>
      if (0x1FF : StageSet).getLsbD p.val = true then
        (if (p, .release) ∈ [((4 : Fin 18), EdgeKind.release)] then e.release 1600000 else e).agree
          ((0 : StageSet).getLsbD p.val) 1600000
      else if (p, .release) ∈ [((4 : Fin 18), EdgeKind.release)] then e.release 1600000 else e := by
  decide +kernel

/-- A lamp with its flash enabled. -/
def flashLamp (f : Option Flash) : Lamp := { Lamp.reset with flashEnable := true, flash := f }

/-- Lamp control with this lamp on bus A's panel 1, armed for its flash. -/
def oneLamp (lamp : Lamp) : LampCtl :=
  { LampCtl.reset with lampsA := LampCtl.reset.lampsA.set 0 lamp, expiry := lamp.flash.map Flash.endAt }

theorem witness_LampBytesAndFlashes :
    (1 ≤ elapsed 50000 300000 ∧ elapsed 50000 300000 ≤ 250000) ∧
    (elapsed 50000 50000 = 0 ∧ 250000 < elapsed 50000 300001) ∧
    (((oneLamp (flashLamp none)).lamps .a)[(0 : Fin 9)].flashEnable = true ∧
      ((oneLamp (flashLamp none)).flashSettings .a).durationMs ≠ 0 ∧
      1 ≤ elapsed 50583 (later 50013 (80 * 1000)) ∧ elapsed 50583 (later 50013 (80 * 1000)) ≤ 250000) ∧
    (LampCtl.reset.lamps .b)[(8 : Fin 9)].flashEnable = false ∧
    (Reaches State.reset 7 7 ∧ State.reset.lamps.expiry ≠ some 7) ∧
    ∃ s : State, Reaches s 7 7 ∧ s.lamps.expiry = some 7 :=
  ⟨by decide, by decide, by decide +kernel, by decide +kernel, ⟨reaches_of (by decide), by decide⟩,
    { State.reset with lamps := oneLamp (flashLamp (some ⟨7, 255⟩)) }, reaches_of (by decide), rfl⟩

theorem witness_LampRequestsStored :
    Dispatches framing 170 7 0 ∧ Dispatches framing 153 6 0 ∧ 2 < (3 : Byte).toNat ∧ (2 : Byte).toNat ≤ 2 ∧
      1 < (2 : Byte).toNat ∧ (1 : Byte).toNat ≤ 1 :=
  ⟨dispatches_of (by decide), dispatches_of (by decide), by decide⟩

theorem witness_StageSettingsStored :
    (Dispatches framing 544 29 0 ∧ Dispatches framing 136 5 0 ∧ framing.openDoubles = false ∧
      (framing.stage .b).state = .idle) ∧
    (Dispatches (staged (stageIn .closing .single) Stage.reset) 544 29 0 ∧
      Dispatches (staged (stageIn .closing .single) Stage.reset) 136 5 0 ∧
      ((staged (stageIn .closing .single) Stage.reset).stage .a).state ≠ .idle ∧
      ((staged (stageIn .closing .single) Stage.reset).stage .a).state ≠ .standby) ∧
    (1000 ≤ 1000 ∧ 1000 ≤ 250000 ∧ 250000 ≤ 250000 ∧ 250000 < 2 ^ 32) ∧
    ¬ (1000 ≤ 999 ∧ 999 ≤ 999 ∧ 999 ≤ 999 ∧ 999 ≤ 999 ∧ 999 ≤ 250000) ∧
    (-2147483648 : Int) ≤ -100001 :=
  ⟨⟨dispatches_of (by decide), dispatches_of (by decide), rfl, rfl⟩,
    ⟨dispatches_of (by decide), dispatches_of (by decide), by decide, by decide⟩, by decide, by decide,
    by decide⟩

/-- What openRefusal's clauses find: nothing on a device after reset; stage A open in doubles. -/
theorem witness_StageOpenChecksAndOpens :
    let d := { staged (stageIn .closing .doubles) Stage.reset with lent := true }
    (Dispatches framing 187 8 0 ∧ 65535 < 65536 ∧ ¬ (Side.b = .b ∧ framing.openDoubles = true) ∧
      ¬ (Side.b = .b ∧ framing.lent = true) ∧ (framing.stage .b).state = .idle ∧ ¬ 1 < (0 : Byte).toNat ∧
      ¬ ((0 : Byte) = 1) ∧ ¬ (65535 = 0) ∧ ¬ (1000 < 1 ∨ 1000 < 1000) ∧ ¬ 1 < (1 : Byte).toNat) ∧
    ((framing.stage .a).state = .idle ∧ ¬ ((1 : Byte) = 1 ∧ Side.a = .b) ∧
      ¬ ((1 : Byte) = 1 ∧ Side.a = .a ∧ framing.stageB.state ≠ .idle)) ∧
    (Dispatches d 187 8 0 ∧ (Side.b = .b ∧ d.openDoubles = true)) :=
  ⟨⟨dispatches_of (by decide), by decide, by decide, by decide, rfl, by decide, by decide, by decide,
      by decide, by decide⟩, ⟨rfl, by decide, by decide⟩, dispatches_of (by decide), rfl, rfl⟩

theorem witness_CloseEmptiesAndTallies :
    (Dispatches framing 68 1 0 ∧ framing.openDoubles = false ∧ (framing.stage .b).state = .idle) ∧
    (Dispatches (staged (stageIn .failed .single) Stage.reset) 68 1 0 ∧
      ((staged (stageIn .failed .single) Stage.reset).stage .a).state = .failed) ∧
    (Dispatches (staged (stageIn .standby .single) Stage.reset) 68 1 0 ∧
      ((staged (stageIn .standby .single) Stage.reset).stage .a).state = .standby ∧
      (∀ p : Fin 18, (stageIn .standby .single).tracker[p] = none) ∧
      (stageIn .standby .single).counts.discarded ≤ 65535) ∧
    (Dispatches (staged (stageIn .playing .single) Stage.reset) 68 1 0 ∧
      ((staged (stageIn .playing .single) Stage.reset).stage .a).state = .playing) ∧
    ((fullStage.counts.discarded ≤ 65535 ∧ fullStage.counts.cut ≤ 65535) ∧ [2, 7].Nodup ∧
      ∀ id, id ∈ [2, 7] ↔ (∃ (p : Fin 18) (e : TrackEntry), heldTracker[p] = some e ∧ e.id = id) ∨
        ∃ n ∈ [tapOn 7 10000000 1], n.id = id) ∧
    (∃ ctx : JudgeCtx, ctx.side = .b ∧ ctx.depth = 32 ∧ ctx.time = 6136187 ∧ ctx.capture = 0 ∧
      ctx.bus = .b ∧ ctx.own = 0 ∧ ctx.pressed = 0) ∧
    (∃ s : State, Reaches s 1 1 ∧ (s.stage .b).state = .closing ∧
      (s.stage .b).reports.length < s.reportDepth .b) ∧
    (Reaches State.reset 1 1 ∧ (State.reset.stage .a).state ≠ .closing) := by
  refine ⟨⟨dispatches_of (by decide), rfl, rfl⟩, ⟨dispatches_of (by decide), rfl⟩,
    ⟨dispatches_of (by decide), rfl, by decide, by decide⟩, ⟨dispatches_of (by decide), rfl⟩,
    ⟨by decide, by decide, fun id => ⟨fun h => ?_, ?_⟩⟩, ⟨⟨.b, 32, 6136187, 0, .b, 0, 0⟩, by decide⟩,
    ⟨{ State.reset with stageB := stageIn .closing .single }, reaches_of (by decide), rfl, by decide⟩,
    reaches_of (by decide), by decide⟩
  · rcases List.mem_cons.1 h with rfl | h
    · exact .inl ⟨4, ⟨2, 2000000, .held⟩, by decide, rfl⟩
    · exact .inr ⟨_, List.mem_singleton.2 rfl, (List.mem_singleton.1 h).symm⟩
  · rintro (⟨p, e, h, rfl⟩ | ⟨n, h, rfl⟩)
    · obtain ⟨-, rfl⟩ | ⟨-, rfl⟩ := heldTracker_get p e h <;> decide
    · rw [List.mem_singleton.1 h]; decide

theorem witness_StageStatusAnswers : Dispatches framing 68 1 0 ∧ framing.openDoubles = false :=
  ⟨dispatches_of (by decide), rfl⟩

theorem witness_NotesTakenInOrder :
    let rs := [rawOn 1 (-2147483648) 0 1 0, rawOn 65535 2147483647 3 0xFFFFFF 4294967295]
    (Dispatches (staged (stageIn .standby .single) Stage.reset) 544 (1 + 14 * rs.length) 0 ∧ rs ≠ [] ∧
      (∀ x ∈ rs, x.Fits) ∧
      ((staged (stageIn .standby .single) Stage.reset).stage .a).state = .standby) ∧
    (Dispatches framing 544 (1 + 14 * rs.length) 0 ∧ (framing.stage .a).state ≠ .standby ∧
      (framing.stage .a).state ≠ .playing) ∧
    rs[1]? = some (rawOn 65535 2147483647 3 0xFFFFFF 4294967295) := by
  refine ⟨⟨dispatches_of (by decide), by decide, ?_, rfl⟩, ⟨dispatches_of (by decide), by decide, by decide⟩,
    rfl⟩
  intro x hx
  rcases List.mem_cons.mp hx with rfl | hx
  · exact ⟨by decide, by decide, by decide⟩
  · rw [List.mem_singleton.mp hx]
    exact ⟨by decide, by decide, by decide⟩

/-- A record for each answer of the checks, at a stage whose panel 1 is busy until 1,000,000 and whose last
note is 9 at 900,000; the first value of each range that passes or fails. -/
theorem witness_RecordChecksInOrder :
    let st := { Stage.reset with
      lastAccepted := some (9, 900000)
      busyUntil := (Vector.replicate 18 none).set 0 (some 1000000) }
    3 < (rawOn 10 0 4 1 0).kind.toNat ∧
    4 < ((List.range 24).countP fun i => (rawOn 10 0 0 0x1F 0).panels.getLsbD i) ∧
    (rawOn 10 0 0 0x200 0).panels.getLsbD 9 = true ∧
    (rawOn 10 0 1 1 999).length < 1000 ∧ 30000000 < (rawOn 10 0 1 1 30000001).length ∧
    (st.lastAccepted = some (9, 900000) ∧ (rawOn 9 900000 0 1 0).id ≤ 9 ∧ (rawOn 10 899999 0 1 0).due < 900000) ∧
    ((rawOn 10 1000000 0 1 0).panels.getLsbD (0 : Fin 18).val = true ∧
      st.busyUntil[(0 : Fin 18)] = some 1000000 ∧ (rawOn 10 1000000 0 1 0).due ≤ 1000000) ∧
    ((rawOn 10 1000001 0 1 0).due + st.params.w4 < 1135002 + st.inputOffset ∧
      ¬ (rawOn 10 1000001 0 1 0).due + st.params.w4 < 1135001 + st.inputOffset) ∧
    192 ≤ (List.replicate 192 (tapOn 1 0 1)).length ∧ ¬ 192 ≤ st.table.length := by decide +kernel

theorem witness_PressStrikesEarliest :
    let j : Judging := ⟨chordStage, [], [], false⟩
    let n := tapOn 60 10000000 0b101
    let half := { n with struck := 0b100, worst := some 5 }
    (j.stage.tracker[(0 : Fin 18)] = none ∧ j.stage.table = [] ++ n :: [] ∧
      (∀ m ∈ ([] : List Note), eligible 135000 9865000 0 m = false) ∧
      eligible j.stage.params.w4 9865000 0 n = true ∧ eligible j.stage.params.w4 10135000 0 n = true) ∧
    (n.struck ||| BitVec.twoPow 18 (0 : Fin 18).val ≠ n.panels ∧
      half.struck ||| BitVec.twoPow 18 (0 : Fin 18).val = half.panels ∧
      eligible 135000 10135000 0 half = true) ∧
    [tapOn 1 5 1, tapOn 2 5 2].Pairwise (fun a b => a.due ≤ b.due) ∧
    (∀ m ∈ j.stage.table, eligible j.stage.params.w4 10135001 0 m = false) ∧
    heldTracker[(4 : Fin 18)] = some ⟨2, 2000000, .held⟩ ∧ half.worst = some 5 ∧
    JudgeParams.reset.w1 ≤ JudgeParams.reset.w2 ∧ JudgeParams.reset.w2 ≤ JudgeParams.reset.w3 := by
  decide +kernel

theorem witness_HoldsResolve :
    let j : Judging := ⟨{ Stage.reset with tracker := heldTracker }, [], [], false⟩
    (j.halted = false ∧
      (∃ (p : Fin 18) (e : TrackEntry), j.stage.tracker[p] = some e ∧ e.id = 2) ∧
      ∀ (p : Fin 18) (e : TrackEntry), j.stage.tracker[p] = some e → e.id = 2 → e.endTime = 2000000) ∧
    ((1750001 : Int) = min 1750001 2000000 ∧
      j.stage.tracker[(5 : Fin 18)] = some ⟨2, 2000000, .released 1500000⟩ ∧
      overdue j.stage.params 1750001 (.released 1500000) = some .released ∧
      ∀ (q : Fin 18) (f : TrackEntry), q < 5 → j.stage.tracker[q] = some f → f.id = 2 →
        overdue j.stage.params 1750001 f.body = none) ∧
    (∀ (p : Fin 18) (e : TrackEntry), j.stage.tracker[p] = some e → e.id = 2 →
      overdue j.stage.params 1750000 e.body = none) ∧
    (1750000 : Int) < 2000000 ∧
    ((4 : Fin 18) ≠ 5 ∧ j.stage.tracker[(4 : Fin 18)] = some ⟨2, 2000000, .held⟩ ∧ (2 : Nat) ≠ 3 ∧
      j.stage.tracker[(0 : Fin 18)] = none) ∧
    (∀ (q : Fin 18) (f : TrackEntry), q ≠ 4 → (heldTracker.set 5 none)[q] = some f → f.id ≠ 2) ∧
    ([(4 : Fin 18), 5].Pairwise (fun x y => x < y) ∧
      ∀ p : Fin 18, p ∈ [(4 : Fin 18), 5] ↔ (0b110000 : StageSet).getLsbD p.val = true) ∧
    ([2].Pairwise (fun x y => x < y) ∧
      ∀ id, id ∈ [2] ↔ ∃ (p : Fin 18) (e : TrackEntry), j.stage.tracker[p] = some e ∧ e.id = id) ∧
    ∃ h : Judging, h.halted = true := by
  refine ⟨⟨rfl, ⟨4, ⟨2, 2000000, .held⟩, by decide, rfl⟩, fun p e h _ => ?_⟩,
    ⟨by decide, by decide, by decide, ?_⟩, ?_, by decide, by decide +kernel, fun q f hq h => ?_,
    by decide +kernel,
    ⟨by decide, fun id => ⟨fun h => ⟨4, ⟨2, 2000000, .held⟩, by decide, ?_⟩, ?_⟩⟩,
    ⟨Stage.reset, [], [], true⟩, rfl⟩
  · obtain ⟨-, rfl⟩ | ⟨-, rfl⟩ := heldTracker_get p e h <;> rfl
  · intro q f hq h _
    obtain ⟨-, rfl⟩ | ⟨rfl, -⟩ := heldTracker_get q f h
    · rfl
    · exact absurd hq (by decide)
  · intro p e h _
    obtain ⟨-, rfl⟩ | ⟨-, rfl⟩ := heldTracker_get p e h <;> decide
  · simp only [Fin.getElem_fin, Vector.getElem_set] at h
    split at h
    · cases h
    · obtain ⟨rfl, -⟩ | ⟨rfl, -⟩ := heldTracker_get q f h
      · exact absurd rfl hq
      · exact absurd rfl ‹¬ 5 = _›
  · exact (List.mem_singleton.1 h).symm
  · rintro ⟨p, e, h, rfl⟩
    obtain ⟨-, rfl⟩ | ⟨-, rfl⟩ := heldTracker_get p e h <;> decide

theorem witness_MinesAndClosure :
    let mine := { tapOn 220 70000000 0b101000 with kind := .mine }
    let tap := tapOn 14 6000000 2
    let h : Int := JudgeParams.reset.mineHalf
    (tap.kind ≠ .mine ∧ mine.kind = .mine) ∧
    (mine.due - h ≤ 69960000 ∧ (69960000 : Int) ≤ mine.due + h ∧
      (∀ p : Fin 18, mine.panels.getLsbD p.val = true → (0b10000 : StageSet).getLsbD p.val = false)) ∧
    (69959999 : Int) < mine.due - h ∧
    (mine.panels.getLsbD (5 : Fin 18).val = true ∧ (0b100000 : StageSet).getLsbD (5 : Fin 18).val = true ∧
      ∀ q : Fin 18, q < 5 → mine.panels.getLsbD q.val = true → (0b100000 : StageSet).getLsbD q.val = false) ∧
    mine.due + h < 70040001 ∧
    (6135000 : Int) ≤ tap.due + JudgeParams.reset.w4 ∧ tap.due + JudgeParams.reset.w4 < 6135001 ∧
    ((takeClosed (ctxAt 6135001 0) tap ⟨chordStage, [], [], false⟩).isSome = true ∧
      takeClosed (ctxAt 6135000 0) tap ⟨chordStage, [], [], false⟩ = none ∧
      ∃ j : Judging, j.halted = true) ∧
    ∃ n : Note, n.kind = .roll ∧ n.due + JudgeParams.reset.w4 < 6135001 := by
  refine ⟨by decide, by decide, by decide, by decide, by decide, by decide, by decide,
    ⟨by decide +kernel, by decide +kernel, ⟨chordStage, [], [], true⟩, rfl⟩, ?_⟩
  exact ⟨{ tapOn 14 6000000 2 with kind := .roll, length := some 1000 }, by decide⟩

theorem witness_ResultsChangeAccounts :
    (Result.weak, 2, 1, (-30 : Int)) ∈ ([(.prime, 10, 1, 8), (.solid, 8, 1, 6), (.fair, 5, 1, 2),
      (.weak, 2, 1, -30), (.miss, 0, 1, -60), (.holdOk, 10, 1, 4), (.dropped, 0, 1, -40),
      (.cut, 0, 1, 0), (.mineHit, 0, 0, -50), (.mineAvoided, 0, 0, 0), (.discarded, 0, 0, 0),
      (.stray, 0, 0, 0)] : List (Result × Nat × Nat × Int)) ∧
    fullStage.earned ≤ 1310700 ∧ fullStage.overcount = decide (fullStage.units < fullStage.judged) ∧
    fullStage.life ≤ 1000 ∧ fullStage.combo ≤ fullStage.maxCombo ∧ fullStage.graded < 65535 ∧
    ∃ st : Stage, 65535 ≤ st.graded :=
  ⟨by decide, by decide, by decide, by decide, by decide, by decide,
    { Stage.reset with graded := 65535 }, by decide⟩

theorem witness_ReportsAndNoticesQueued :
    let l := waitingToSend.link
    fullStage.reports.length < 32 ∧ 31 ≤ fullStage.reports.length ∧
    l.notices.Pairwise (fun a b => noticeKey a < noticeKey b) ∧
    l.mask.getLsbD (noticeCode .clockJump) = false ∧
    (∃ m ∈ l.notices, m.kind = .clockJump ∧ m.source = none) ∧
    (l.mask.getLsbD (noticeCode .busUp) = false ∧
      ∀ m ∈ l.notices, ¬ (m.kind = .busUp ∧ m.source = some .b)) := by decide +kernel

/-! ### A state in the middle of a session, for the invariants -/

/-- Stage A of it: a tap half struck, a hold being held. -/
def midStage : Stage :=
  { Stage.reset with
    state := .playing, units := 9, failEnable := true, life := 308, earned := 10, judged := 1, combo := 1
    maxCombo := 1, counts := { Counts.zero with prime := 1 }, offsetSum := -3000, graded := 1
    table := [{ tapOn 3 1900000 3 with struck := 1, worst := some 5000 }]
    busyUntil := ((Vector.replicate 18 none).set 0 (some 1900000)).set 1 (some 1900000)
    tracker := heldTracker, lastAccepted := some (3, 1900000), droppedCount := 2
    reports := [.judgment .a 2 .prime (some (-3000)) false false 48 1 308 111111 255] }

/-- It: the clock runs, bus A polls panel 1, a flash runs on lamp 1, a panel is pressed, a reply and a
notice wait, a frame is being received, and a reply is about to be sent. -/
def midSession : State :=
  { framingAt 0 1099 (runningClock 1900000 1013 7) with
    busA := { busIn (.poll 1027 0 0) with lastCapture := 13, lastChart := some 1000 }
    panelsA := (Vector.replicate 9 Panel.reset).set 4 { panelFive with pressed := true, pressedSince := 13 }
    stageA := midStage
    lamps := oneLamp (flashLamp (some ⟨80013, 255⟩))
    link := { (framingAt 0 0 Clock.reset).link with
      replies := [.ack 0x01 []], notices := [⟨.panelOnline, some .a, 255, 1, 5⟩, ⟨.linkError, none, 1, 0, 6⟩] }
    pending := [.frameStart 1] }

theorem midSession_steps : ∃ t, step midSession = .next t := ⟨_, rfl⟩

theorem witness_StepKeepsLink : LinkInv midSession ∧ ∃ t, step midSession = .next t := by
  refine ⟨⟨by decide, ?_, by decide, by decide, ?_⟩, midSession_steps⟩
  · exact ⟨by decide, by decide, by decide, by decide, by decide, by decide, by decide⟩
  · intro f h
    cases h
    exact ⟨rfl, rfl, rfl⟩

theorem witness_StepKeepsQueues :
    QueueInv midSession ∧ DoublesInv midSession ∧ ∃ t, step midSession = .next t := by
  refine ⟨⟨by decide, by decide, by decide, by decide, ?_⟩, ⟨by decide, by decide, rfl⟩, midSession_steps⟩
  intro r h
  cases List.mem_singleton.mp h
  decide

theorem witness_StepKeepsClock : ClockInv midSession.clock ∧ ∃ t, step midSession = .next t :=
  ⟨⟨by decide, by decide, by decide, by decide, by decide, by decide, by decide⟩, midSession_steps⟩

theorem forall_stage {P : Stage → Prop} (ha : P midStage) (hb : P Stage.reset) :
    ∀ d, P (midSession.stage d) := by
  intro d
  cases d
  · exact ha
  · exact hb

theorem witness_StepKeepsAccounts :
    (∀ d, (midSession.stage d).LifeInv) ∧ (∀ d, (midSession.stage d).AccountInv) ∧
      (∀ d, (midSession.stage d).UnitsInv) ∧ ∃ t, step midSession = .next t := by
  refine ⟨forall_stage ?_ ?_, forall_stage ?_ ?_, forall_stage ?_ ?_, midSession_steps⟩
  · exact ⟨by decide, by decide, by decide⟩
  · exact ⟨by decide, by decide, by decide⟩
  · exact ⟨by decide, by decide, by decide, by decide, by decide, by decide, by decide, by decide⟩
  · exact ⟨by decide, by decide, by decide, by decide, by decide, by decide, by decide, by decide⟩
  · exact ⟨by decide, by decide, by decide⟩
  · exact ⟨by decide, by decide, by decide⟩

theorem midStage_notes : midStage.NotesInv := by
  refine ⟨by decide, by decide, by decide, ?_, ?_, ?_, fun p e h => ?_, fun p q e f h h' _ => ?_⟩
  · intro n hn
    cases List.mem_singleton.mp hn
    exact ⟨by decide, by decide, by decide, by decide, by decide, by decide, by decide⟩
  · intro n hn
    cases List.mem_singleton.mp hn
    exact ⟨3, 1900000, rfl, by decide, by decide⟩
  · intro n hn p hp
    cases List.mem_singleton.mp hn
    exact ⟨1900000, by revert p; decide, by decide⟩
  · refine ⟨?_, 3, 1900000, rfl, ?_⟩ <;> obtain ⟨-, rfl⟩ | ⟨-, rfl⟩ := heldTracker_get p e h <;> decide
  · obtain ⟨-, rfl⟩ | ⟨-, rfl⟩ := heldTracker_get p e h <;>
      obtain ⟨-, rfl⟩ | ⟨-, rfl⟩ := heldTracker_get q f h' <;> rfl

theorem reset_notes : Stage.reset.NotesInv := by
  refine ⟨by decide, .nil, .nil, ?_, ?_, ?_, fun p e h => ?_, fun p q e f h => ?_⟩
  · intro n hn
    cases hn
  · intro n hn
    cases hn
  · intro n hn
    cases hn
  · simp [Stage.reset] at h
  · simp [Stage.reset] at h

theorem witness_StepKeepsNotes :
    (∀ d, (midSession.stage d).NotesInv) ∧ (∀ d, (midSession.stage d).PlayInv midSession.clock.running) ∧
      (∀ d, (midSession.stage d).OffsetInv) ∧ ∃ t, step midSession = .next t := by
  refine ⟨forall_stage midStage_notes reset_notes, forall_stage (P := fun st => st.PlayInv true) ?_ ?_,
    forall_stage ?_ ?_, midSession_steps⟩
  · exact ⟨by decide, by decide, by decide, by decide⟩
  · exact ⟨by decide, by decide, by decide, by decide⟩
  · refine ⟨⟨by decide, by decide, by decide, by decide⟩, by decide, fun n hn w hw => ?_, by decide, by decide⟩
    cases List.mem_singleton.mp hn
    cases hw
    decide
  · exact ⟨⟨by decide, by decide, by decide, by decide⟩, by decide, by simp [Stage.reset], by decide, by decide⟩

/-- Panel.Ok with its one quantifier settled by cases on the baseline. -/
theorem midPanels (p : Fin 9) : midSession.panelsA[p].Ok := by
  have good : Panel.Ok Panel.reset := ⟨by decide, by simp [Panel.reset], by decide, by decide, by decide,
    by decide, by decide, by decide⟩
  have five : Panel.Ok { panelFive with pressed := true, pressedSince := 13 } :=
    ⟨by decide, by simp [panelFive], by decide, by decide, by decide, by decide, by decide, by decide⟩
  simp only [midSession, Fin.getElem_fin, Vector.getElem_set, Vector.getElem_replicate]
  split
  · exact five
  · exact good

theorem witness_StepKeepsPanelsBusesLamps :
    SensingInv midSession ∧ (∀ d, (midSession.bus d).Ok) ∧ LampInv midSession.lamps ∧
      ∃ t, step midSession = .next t := by
  refine ⟨⟨midPanels, fun p => ?_, ?_, ?_, by decide⟩, ?_, ⟨by decide +kernel, by decide⟩, midSession_steps⟩
  · have good : Panel.Ok Panel.reset := ⟨by decide, by simp [Panel.reset], by decide, by decide, by decide,
      by decide, by decide, by decide⟩
    simpa [midSession, framingAt, State.reset] using good
  · intro scan h p n hn
    cases h
    simp [someScan] at hn
  · intro scan h
    cases h
  · intro d
    cases d
    · refine ⟨by decide, ?_, ?_, ?_, ?_, by decide, by decide⟩
      · intro scan h
        cases h
        rfl
      · intro scan h
        cases h
        exact ⟨by decide, by decide, rfl, rfl⟩
      · intro scan p h hp
        cases h
        cases hp
        decide
      · intro scan t h ht
        cases h
        cases ht
        exact ⟨rfl, rfl⟩
    · exact ⟨by decide, fun _ h => (nomatch h), fun _ h => (nomatch h), fun _ _ h => (nomatch h),
        fun _ _ h => (nomatch h), by decide, by decide⟩

end Sys2Proof.Tests
end

section
/-! SUPPORT. The link interface's own requests: IDENT, LINK_STATUS and NOTICE_MASK (R161, R164, R168 to R170). -/

namespace Sys2Proof.Machine

/-! ### The commands' meanings -/

theorem exec_ident (dt : Nat) (pl : List Byte) (s : State) :
    exec (.ident dt pl) s = execIdent dt pl s := rfl

theorem exec_linkStatus (dt : Nat) (pl : List Byte) (s : State) :
    exec (.linkStatus dt pl) s = execLinkStatus dt pl s := rfl

theorem exec_noticeMask (dt : Nat) (pl : List Byte) (s : State) :
    exec (.noticeMask dt pl) s = execNoticeMask dt pl s := rfl

theorem exec_deviceReset (s : State) : exec .deviceReset s = execDeviceReset s := rfl

/-! ### Dispatch -/

/-- A request of one allowed length whose first byte names no bus and no stage: tests 4 to 6 of R159 pass
it, and once dispatched it reaches its owner. -/
theorem Dispatches.owner_of_unnamed {s : State} {dt n : Nat} {pl : List Byte} {c : LocalTime}
    (h : Dispatches s dt n c) (hn : pl.length = n) (kind : Byte) (owner : LocalTime → State → State) :
    s.request dt kind pl [n] .none owner = owner c (s.arrived dt) :=
  h.owner hn kind owner (List.mem_singleton_self n) (absurd rfl) nofun

/-- A good frame found with the reply queue full is shed, whatever it asks (test 2 of R159, R161). -/
theorem Completes.request_shed {s : State} {dt n : Nat} {pl : List Byte} {c : LocalTime}
    (h : Completes s dt n c) (hn : pl.length = n) (hreset : s.link.resetPending = false)
    (hfull : 4 ≤ s.link.replies.length) (kind : Byte) (lens : List Nat) (first : FirstByte)
    (owner : LocalTime → State → State) :
    s.request dt kind pl lens first owner =
      (s.arrived dt).setLink ((s.arrived dt).link.shed kind) := by
  subst hn
  have hpending : ¬ (s.arrived dt).link.resetPending = true := by simp [hreset]
  have hdepth : Config.replyDepth ≤ (s.arrived dt).link.replies.length := hfull
  rw [State.request, State.after_of_released h.released, h.goodFrame]
  dsimp only [State.receive]
  rw [State.arrived_eq, if_neg hpending, if_pos hdepth]

/-- Shedding raises the shed count and no other (R161). -/
@[simp] theorem Link.shed_errors (l : Link) (kind : Byte) :
    (l.shed kind).errors = { l.errors with shed := min 65535 (l.errors.shed + 1) } := by
  simp [Link.shed, bump]

/-- A shed request gets no reply (R161). -/
@[simp] theorem Link.shed_replies (l : Link) (kind : Byte) : (l.shed kind).replies = l.replies := by
  simp [Link.shed]

/-! ### The notice mask -/

/-- A masked kind's raise is not taken (R164). -/
theorem Link.raise_of_masked {l : Link} {k : NoticeKind} (h : l.mask.getLsbD (noticeCode k) = true)
    (src : Option Side) (ps : BusSet) (x : Int) : l.raise k src ps x = l := by
  rw [Link.raise, if_pos h]

/-- The mask after a device reset masks SCAN_LATE alone (R170). -/
theorem reset_mask_iff (k : NoticeKind) :
    Link.reset.mask.getLsbD (noticeCode k) = true ↔ k = .scanLate := by
  cases k <;> decide

/-- The number of a field of two bytes. -/
theorem fieldAt_pair (lo hi : Byte) : fieldAt [lo, hi] 0 2 = lo.toNat + 256 * hi.toNat := by
  simp [fieldAt, leNat]

/-- The mask taken from two bytes, as a field again: bits 12 to 15 are zero (R170). -/
theorem leBytes_mask (lo hi : Byte) :
    leBytes 2 (BitVec.ofNat 12 (lo.toNat + 256 * hi.toNat)).toNat = [lo, hi &&& 0x0F] := by
  have hlo := lo.isLt
  have hhigh : (hi &&& 0x0F).toNat = hi.toNat % 16 :=
    Nat.and_two_pow_sub_one_eq_mod hi.toNat 4
  simp only [leBytes, BitVec.toNat_ofNat, List.cons.injEq, and_true]
  refine ⟨BitVec.eq_of_toNat_eq ?_, BitVec.eq_of_toNat_eq ?_⟩
  · rw [BitVec.toNat_ofNat]
    omega
  · rw [BitVec.toNat_ofNat, hhigh]
    omega

/-! ### The statements about IDENT, LINK_STATUS and NOTICE_MASK -/

/-- Settles O16: IDENT reaches its owner in every state in which it is dispatched, and the owner's figures
are the part's. -/
theorem identAnswers : Obligations.IdentAnswers := by
  intro dt s c h
  rw [exec_ident, execIdent, h.owner_of_unnamed rfl]
  rfl

/-- Settles O18: dispatched, the owner answers the counts before it clears them; with the reply queue full
the owner is not reached. -/
theorem linkStatusReadsAndClears : Obligations.LinkStatusReadsAndClears := by
  constructor
  · intro dt s c h
    rw [exec_linkStatus, execLinkStatus, h.owner_of_unnamed rfl]
    rfl
  · intro dt s c h hreset hfull
    rw [exec_linkStatus, execLinkStatus, h.request_shed rfl hreset hfull]
    exact ⟨_, rfl, by simp, by simp⟩

/-- Settles O19: the mask stored and answered, the raises it masks, and its value after a device reset. -/
theorem noticeMaskStored : Obligations.NoticeMaskStored := by
  refine ⟨?stored, ?masked, ?reset⟩
  case stored =>
    intro dt lo hi s c h
    rw [exec_noticeMask, execNoticeMask, h.owner_of_unnamed rfl]
    dsimp only
    rw [fieldAt_pair, leBytes_mask]
    rfl
  case masked => exact fun _ _ src ps x h => Link.raise_of_masked h src ps x
  case reset =>
    intro s
    exact ⟨_, exec_deviceReset s, rfl, reset_mask_iff⟩

end Sys2Proof.Machine
end

section
/-! SUPPORT. What every step keeps (chapters 1 to 10): each invariant is kept by every change of a block, so by
every step. -/

namespace Sys2Proof.Machine

/-! ### Sending a report (R62, R163, R166) -/

theorem State.sendReport_of_nil {s : State} {d : Side} (h : (s.stage d).reports = []) : s.sendReport d = s := by
  unfold State.sendReport
  rw [h]

theorem State.returnStorage_eq (s : State) :
    s.returnStorage =
      { s with lent := s.lent && !(s.stageA.state == .idle && s.stageA.reports.isEmpty) } := by
  unfold State.returnStorage
  split
  · rename_i h
    simp [h.2.1, h.2.2]
  · rename_i h
    have keep : (s.lent && !(s.stageA.state == .idle && s.stageA.reports.isEmpty)) = s.lent := by
      cases hl : s.lent
      · rfl
      · rw [hl] at h
        simp
        tauto
    rw [keep]

/-- The head of a stage's queue goes to the transmitter, and stage B's storage returns when stage A is IDLE
and its queue empty after that. -/
theorem State.sendReport_of_cons {s : State} {d : Side} {r : Report} {rest : List Report}
    (h : (s.stage d).reports = r :: rest) :
    s.sendReport d = State.setStage { s with
      link := { s.link with transmitter := .sending (.report r) s.localTime, lastServed := d }
      lent := s.lent && !(s.stageA.state == .idle && (if d = .a then rest else s.stageA.reports).isEmpty) } d
        { s.stage d with reports := rest } := by
  unfold State.sendReport
  rw [h]
  dsimp only
  rw [State.returnStorage_eq]
  cases d <;> rfl

/-! ### Judging and opening as changes of a stage -/

/-- A record judged changes its stage by what judging makes of it, and the lamps by the flashes that asks for
(R92, R103). -/
theorem State.judgeRecord_spec (s : State) (d : Side) (b : Bool) (r : ScanRecord) (x : Int) :
    ∃ (ctx : JudgeCtx) (es : List (Fin 18 × EdgeKind)) (l : LampCtl), ctx.depth = s.reportDepth d ∧
      (LampInv s.lamps → LampInv l) ∧
      s.judgeRecord d b r x = (s.setStage d ((s.stage d).judge ctx es).1).setLamps l :=
  ⟨_, _, _, rfl, fun hl => hl.takeRequests d b _ _, by
    unfold State.judgeRecord
    simp only [State.setStage_lamps, State.setStage_localTime]
    rfl⟩

theorem Stage.openSession_mode (st : Stage) (pl : List Byte) (running : Bool) :
    (st.openSession pl running).mode = if byteAt pl 1 = 1 then .doubles else .single := rfl

/-! ### The link interface (O54) -/

theorem LinkInv.of_link_eq {s t : State} (h : LinkInv s) (he : t.link = s.link) : LinkInv t := by
  obtain ⟨replies, errors, ordered, counts, partialFrame⟩ := h
  constructor <;> rw [he] <;> assumption

theorem reset_linkInv : LinkInv State.reset :=
  ⟨by decide, by constructor <;> decide, .nil, nofun, nofun⟩

/-- A count of 1 to 255 is what every raise leaves (R164). -/
theorem takeRaise_counts {n : Notice} {l : List Notice} (hn : n.count = 1)
    (h : ∀ m ∈ l, 1 ≤ m.count ∧ m.count ≤ 255) : ∀ m ∈ takeRaise n l, 1 ≤ m.count ∧ m.count ≤ 255 := by
  intro m hm
  rcases mem_takeRaise hm with hm | rfl | ⟨o, ho, _, rfl⟩
  · exact h m hm
  · omega
  · dsimp only; omega

/-- Every fault counted leaves the error counts in range (R154, R157). -/
theorem ErrorCounts.Bounded.count {e : ErrorCounts} (h : e.Bounded) (f : LinkFault) : (e.count f).Bounded := by
  obtain ⟨parity, framing, check, oversize, timeout, truncated, shed⟩ := h
  cases f <;> constructor <;> first | assumption | exact bump_le

/-- A raise keeps the interface lawful, whatever the receiver and the error counts have become (R164). -/
theorem LinkInv.raise {s : State} (h : LinkInv s) {l : Link} (hr : l.replies = s.link.replies)
    (hn : l.notices = s.link.notices) (he : l.errors.Bounded)
    (hp : ∀ f, l.receiver = .receiving f → f.kind = none ∧ f.len = none ∧ f.payload = [])
    (k : NoticeKind) (src : Option Side) (ps : BusSet) (x : Int) :
    LinkInv (s.setLink (l.raise k src ps x)) := by
  obtain ⟨receiver, errors, replies, _⟩ := l.raise_frame k src ps x
  refine ⟨?_, ?_, ?_, ?_, ?_⟩ <;> rw [State.setLink_link]
  · rw [replies, hr]; exact h.replies
  · rw [errors]; exact he
  · rw [Link.raise_notices, hn]
    split
    · exact h.ordered
    · exact takeRaise_ordered h.ordered
  · rw [Link.raise_notices, hn]
    split
    · exact h.counts
    · exact takeRaise_counts rfl h.counts
  · rw [receiver]; exact hp

theorem Change.keeps_linkInv {R : Prop} {s t : State} (c : Change R s t) (h : LinkInv s) : LinkInv t := by
  have ⟨replies, errors, ordered, counts, partialFrame⟩ := h
  cases c with
  | reset => exact reset_linkInv.of_link_eq rfl
  | receiver r hr => exact ⟨replies, errors, ordered, counts, hr⟩
  | discard f r hr =>
    exact h.raise (l := { s.link with receiver := r, errors := s.link.errors.count f }) rfl rfl (errors.count f)
      (fun x hx => absurd hx (hr x)) _ _ _ _
  | shed k =>
    exact h.raise (l := { s.link with errors := { s.link.errors with shed := bump s.link.errors.shed } }) rfl rfl
      { errors with shed := bump_le } partialFrame _ _ _ _
  | reply r hl =>
    exact ⟨by simpa using hl, errors, ordered, counts, partialFrame⟩
  | raise k src ps x => exact h.raise rfl rfl errors partialFrame k src ps x
  | clearErrors =>
    have zero : ErrorCounts.zero.Bounded := by constructor <;> decide
    exact ⟨replies, zero, ordered, counts, partialFrame⟩
  | resetPending => exact ⟨replies, errors, ordered, counts, partialFrame⟩
  | mask => exact ⟨replies, errors, ordered, counts, partialFrame⟩
  | transmitter => exact ⟨replies, errors, ordered, counts, partialFrame⟩
  | sendReply r rest hs =>
    rw [hs] at replies
    exact ⟨Nat.le_of_succ_le replies, errors, ordered, counts, partialFrame⟩
  | sendNotice n rest hs =>
    rw [hs] at ordered counts
    exact ⟨replies, errors, ordered.of_cons, fun m hm => counts m (List.mem_cons_of_mem n hm), partialFrame⟩
  | sendReport d =>
    cases hr : (s.stage d).reports with
    | nil => rwa [State.sendReport_of_nil hr]
    | cons r rest =>
      rw [State.sendReport_of_cons hr]
      cases d <;> exact ⟨replies, errors, ordered, counts, partialFrame⟩
  | openStage pl _ =>
    refine h.of_link_eq ?_
    have hj : ∀ (t : State) d m, (t.joinStorage d m).link = t.link := by
      intro t d m; cases d <;> cases m <;> rfl
    rw [hj, State.setStage_link]
  | judge d b r x _ => exact h.of_link_eq (by simp [State.judgeRecord])
  | _ => exact h.of_link_eq (by simp)

/-- Settles O54: every change of a block keeps the link interface lawful. -/
theorem stepKeepsLink : Obligations.StepKeepsLink := fun _ _ h hs =>
  step_keeps (fun _ _ c h => c.keeps_linkInv h) (fun _ _ h => h.of_link_eq rfl) hs h

/-! ### Report queues and doubles (O55) -/

/-- The queues of both stages and doubles' hold on stage B's storage, by stage (R61, R62, R162). -/
structure State.QueuesOk (s : State) : Prop where
  queueA : s.stageA.QueueOk (s.reportDepth .a)
  queueB : s.stageB.QueueOk 32
  doubles : DoublesInv s

theorem State.queuesOk_iff {s : State} : s.QueuesOk ↔ QueueInv s ∧ DoublesInv s := by
  constructor
  · rintro ⟨⟨depthA, droppedA, beforeA⟩, ⟨depthB, droppedB, beforeB⟩, doubles⟩
    refine ⟨⟨depthA, depthB, droppedA, droppedB, fun r hr => ?_⟩, doubles⟩
    exact (List.mem_append.1 hr).elim (beforeA r) (beforeB r)
  · rintro ⟨⟨depthA, depthB, droppedA, droppedB, before⟩, doubles⟩
    exact ⟨⟨depthA, droppedA, fun r hr => before r (List.mem_append_left _ hr)⟩,
      ⟨depthB, droppedB, fun r hr => before r (List.mem_append_right _ hr)⟩, doubles⟩

theorem Stage.QueueOk.empty {st : Stage} (hr : st.reports = []) (hd : st.droppedCount = 0) (depth : Nat) :
    st.QueueOk depth := by
  constructor <;> simp [hr, hd]

/-- A stage's queue and dropped count decide whether it is in order. -/
theorem Stage.QueueOk.congr {depth : Nat} {st st' : Stage} (h : st.QueueOk depth)
    (hr : st'.reports = st.reports) (hd : st'.droppedCount = st.droppedCount) : st'.QueueOk depth := by
  obtain ⟨a, b, c⟩ := h
  constructor <;> simp only [hr, hd] <;> assumption

namespace State.QueuesOk

variable {s t : State}

theorem congr (h : s.QueuesOk) (ha : t.stageA = s.stageA) (hb : t.stageB = s.stageB)
    (hl : t.lent = s.lent) : t.QueuesOk := by
  obtain ⟨a, b, ⟨holds, idle, single⟩⟩ := h
  refine ⟨?_, by rwa [hb], ⟨?_, by rwa [hl, hb], by rwa [hb]⟩⟩
  · simpa only [State.reportDepth, ha, hl] using a
  · simpa only [State.openDoubles, ha, hl] using holds

/-- A stage changes its session, its queue in order and its mode kept; one in IDLE stays there and places
nothing in an empty queue. -/
theorem setStage (h : s.QueuesOk) (d : Side) {x : Stage}
    (queue : (s.stage d).QueueOk (s.reportDepth d) → x.QueueOk (s.reportDepth d))
    (mode : x.mode = (s.stage d).mode)
    (idle : (s.stage d).state = .idle → x.state = .idle ∧ ((s.stage d).reports = [] → x.reports = [])) :
    (s.setStage d x).QueuesOk := by
  obtain ⟨a, b, ⟨holds, lentIdle, single⟩⟩ := h
  cases d with
  | a =>
    refine ⟨queue a, b, ⟨fun ho => holds ?_, lentIdle, single⟩⟩
    simp only [State.openDoubles, State.setStage_a_stageA, mode, Bool.and_eq_true, bne_iff_ne] at ho ⊢
    exact ⟨ho.1, fun hi => ho.2 (idle hi).1⟩
  | b =>
    refine ⟨a, queue b, ⟨holds, fun hl => ?_, mode.trans single⟩⟩
    obtain ⟨hi, hr⟩ := lentIdle hl
    exact ⟨(idle hi).1, (idle hi).2 hr⟩

/-- A stage that is not IDLE changes its session, its queue in order and its mode kept. -/
theorem setStage_of_open (h : s.QueuesOk) {d : Side} {x : Stage} (hopen : (s.stage d).state ≠ .idle)
    (queue : (s.stage d).QueueOk (s.reportDepth d) → x.QueueOk (s.reportDepth d))
    (mode : x.mode = (s.stage d).mode) : (s.setStage d x).QueuesOk :=
  h.setStage d queue mode fun hi => absurd hi hopen

theorem returnStorage (h : s.QueuesOk) : s.returnStorage.QueuesOk := by
  have ⟨⟨_, dropped, before⟩, b, ⟨_, _, single⟩⟩ := h
  unfold State.returnStorage
  split
  · rename_i hc
    obtain ⟨_, hidle, hempty⟩ := hc
    refine ⟨⟨by simp [hempty], dropped, before⟩, b, ⟨fun ho => ?_, nofun, single⟩⟩
    simp [State.openDoubles, hidle] at ho
  · exact h

theorem sendReport (h : s.QueuesOk) (d : Side) : (s.sendReport d).QueuesOk := by
  unfold State.sendReport
  split
  · exact h
  · rename_i r rest hr
    have hs : (s.setStage d { s.stage d with reports := rest }).QueuesOk := by
      refine h.setStage d (fun hq => ⟨?_, hq.dropped, fun x hx => hq.before x ?_⟩) rfl fun hi => ⟨hi, ?_⟩
      · have := hq.length
        rw [hr] at this
        exact Nat.le_of_succ_le this
      · rw [hr]
        exact List.mem_cons_of_mem r hx
      · rw [hr]
        nofun
    apply returnStorage
    exact hs.congr rfl rfl rfl

theorem startPlay (h : s.QueuesOk) (c : Clock) :
    ({ s with clock := c, stageA := s.stageA.startPlay, stageB := s.stageB.startPlay } : State).QueuesOk := by
  have start : ∀ (s : State) (d : Side), s.QueuesOk → (s.setStage d (s.stage d).startPlay).QueuesOk := by
    intro s d h
    unfold Stage.startPlay
    split
    · rename_i hs
      exact h.setStage_of_open (by simp [hs]) (fun hq => hq.congr rfl rfl) rfl
    · exact h.setStage d id rfl fun hi => ⟨hi, id⟩
  exact (start _ .b (start s .a h)).congr rfl rfl rfl

/-- An open gives an empty queue; doubles takes stage B's storage, which stands empty in IDLE then (R61,
R62). -/
theorem openStage (h : s.QueuesOk) {pl : List Byte} (ho : openRefusal s pl = none) :
    ((s.setStage (sideOf (byteAt pl 0))
      ((s.stage (sideOf (byteAt pl 0))).openSession pl s.clock.running)).joinStorage (sideOf (byteAt pl 0))
        ((s.stage (sideOf (byteAt pl 0))).openSession pl s.clock.running).mode).QueuesOk := by
  obtain ⟨_, hside, hidle, _⟩ := openRefusal_none ho
  obtain ⟨a, b, ⟨holds, lentIdle, single⟩⟩ := h
  have empty : ∀ (st : Stage) (n : Nat), (st.openSession pl s.clock.running).QueueOk n :=
    fun _ n => .empty rfl rfl n
  cases hd : sideOf (byteAt pl 0) with
  | b =>
    obtain ⟨_, hlent, hmode⟩ := hside hd
    refine ⟨a, empty _ _, ⟨holds, fun hl => ?_, if_neg hmode⟩⟩
    exact absurd hl (by simp [State.joinStorage, hlent])
  | a =>
    cases hm : ((s.stage .a).openSession pl s.clock.running).mode with
    | single =>
      refine ⟨empty _ _, b, ⟨fun hopen => ?_, nofun, single⟩⟩
      have hm' : (s.stageA.openSession pl s.clock.running).mode = .single := hm
      simp [State.openDoubles, State.joinStorage, State.setStage, hm', State.stage] at hopen
    | doubles =>
      have hbyte : byteAt pl 1 = 1 := by
        by_contra hne
        rw [Stage.openSession_mode, if_neg hne] at hm
        cases hm
      exact ⟨empty _ _, .empty rfl rfl _, ⟨fun _ => rfl, fun _ => ⟨hidle hbyte, rfl⟩, single⟩⟩

end State.QueuesOk

theorem Stage.QueueOk.judge {st : Stage} {ctx : JudgeCtx} (h : st.QueueOk ctx.depth)
    (es : List (Fin 18 × EdgeKind)) : (st.judge ctx es).1.QueueOk ctx.depth :=
  Stage.judge_keeps (keepsQueue ctx) (fun _ h => h)
    (fun st heads h => by
      obtain ⟨_, _, _, _, reports, dropped, _⟩ := st.emptySession_frame heads
      exact h.congr reports dropped) es h

theorem Stage.judge_mode (st : Stage) (ctx : JudgeCtx) (es : List (Fin 18 × EdgeKind)) :
    (st.judge ctx es).1.mode = st.mode :=
  Stage.judge_keeps (keepsState ctx st.state st.mode) (Q := fun x => x.mode = st.mode) (fun _ h => h.2)
    (fun x heads h => (x.emptySession_frame heads).2.1.trans h.2) es ⟨rfl, rfl⟩

theorem Stage.QueueOk.close {st : Stage} {n : Nat} (h : st.QueueOk n) (d : Side) (x : Int) :
    (st.close d n x).QueueOk n := by
  have emptied : ∀ st : Stage, st.QueueOk n → { st.emptySession [] with state := .closing }.QueueOk n := by
    intro st h
    obtain ⟨_, _, _, _, reports, dropped, _⟩ := st.emptySession_frame []
    exact h.congr reports dropped
  refine Stage.close_keeps d n x (fun _ => ?_) (fun _ => emptied st h) fun _ _ => h.congr rfl rfl
  obtain ⟨_, hf⟩ := Stage.flush_keeps (P := fun st _ => st.QueueOk n) d n x
    (fun ctx hc => hc ▸ keepsQueue ctx) h
  exact emptied _ hf

theorem Stage.close_mode (st : Stage) (d : Side) (n : Nat) (x : Int) : (st.close d n x).mode = st.mode := by
  refine Stage.close_keeps (Q := fun s => s.mode = st.mode) d n x (fun _ => ?_)
    (fun _ => (st.emptySession_frame []).2.1) fun _ _ => rfl
  obtain ⟨_, hf⟩ := Stage.flush_keeps d n x (fun ctx _ => keepsState ctx st.state st.mode) ⟨rfl, rfl⟩
  exact ((st.flush d n x).emptySession_frame []).2.1.trans hf.2

/-- NOTES takes notes alone (R80, R86). -/
theorem takeRecords_frame (now : Option Int) (rs : List RawNote) (st : Stage) (k : Nat) :
    (takeRecords now rs st k).1 = { st with
      table := (takeRecords now rs st k).1.table
      busyUntil := (takeRecords now rs st k).1.busyUntil
      lastAccepted := (takeRecords now rs st k).1.lastAccepted } :=
  takeRecords_keeps (P := fun x => x = { st with
    table := x.table, busyUntil := x.busyUntil, lastAccepted := x.lastAccepted }) now rs
    (fun x n _ _ hx => by rw [hx]; rfl) rfl

theorem Change.keeps_queuesOk {R : Prop} {s t : State} (c : Change R s t) (h : s.QueuesOk) : t.QueuesOk := by
  cases c with
  | reset => exact ⟨.empty rfl rfl _, .empty rfl rfl _, ⟨nofun, nofun, rfl⟩⟩
  | sendReport d => exact h.sendReport d
  | clockStart c _ _ => exact h.startPlay c
  | bus d c _ _ => exact h.congr (by simp) (by simp) (by simp)
  | thresholds d => exact h.congr (by simp) (by simp) (by simp)
  | panels d => exact h.congr (by simp) (by simp) (by simp)
  | judge d b r x hp =>
    obtain ⟨ctx, es, l, hdepth, _, he⟩ := s.judgeRecord_spec d b r x
    rw [he]
    exact (h.setStage_of_open (by simp [hp]) (fun hq => hdepth ▸ (hdepth ▸ hq).judge es)
      (Stage.judge_mode _ _ _)).congr rfl rfl rfl
  | settings d params offset _ _ _ => exact h.setStage d (fun hq => hq.congr rfl rfl) rfl fun hi => ⟨hi, id⟩
  | openStage pl ho => exact h.openStage ho
  | closeStage d x hs =>
    exact h.setStage_of_open hs.1 (fun hq => hq.close d x) (Stage.close_mode _ _ _ _)
  | tally d hs hr =>
    refine h.setStage_of_open (by simp [hs]) (fun hq => ⟨?_, Nat.zero_le _, fun r hmem => ?_⟩) rfl
    · simpa [Stage.placeTally] using hr
    · rcases List.mem_append.1 hmem with hmem | hmem
      · exact hq.before r hmem
      · rw [List.mem_singleton.1 hmem]
        exact hq.dropped
  | notes d now rs hs _ =>
    have hne : (s.stage d).state ≠ .idle := by rcases hs with hs | hs <;> simp [hs]
    rw [takeRecords_frame]
    exact h.setStage_of_open hne (fun hq => hq.congr rfl rfl) rfl
  | _ => exact h.congr rfl rfl rfl

/-- Settles O55: every change of a block keeps the queues and the lending of stage B's storage. -/
theorem stepKeepsQueues : Obligations.StepKeepsQueues := fun _ _ hs hq hd =>
  State.queuesOk_iff.1 (step_keeps (fun _ _ c h => c.keeps_queuesOk h) (fun _ _ h => h.congr rfl rfl rfl) hs
    (State.queuesOk_iff.2 ⟨hq, hd⟩))

/-! ### The chart clock (O56) -/

theorem reset_clockInv : ClockInv State.reset.clock :=
  ⟨by decide, by decide, by decide, by decide, by decide, rfl, fun _ => rfl⟩

theorem Change.keeps_clockInv {R : Prop} {s t : State} (c : Change R s t) (h : ClockInv s.clock) :
    ClockInv t.clock := by
  cases c with
  | reset => exact reset_clockInv
  | clock c hc _ => exact hc h
  | clockStart c hc _ => exact hc h
  | clockStop _ => exact Clock.stop_inv h
  | sendReport d =>
    cases hr : (s.stage d).reports with
    | nil => rwa [State.sendReport_of_nil hr]
    | cons r rest => rwa [State.sendReport_of_cons hr, State.setStage_clock]
  | openStage pl _ =>
    have join : ∀ (t : State) d m, (t.joinStorage d m).clock = t.clock := by
      intro t d m; cases d <;> cases m <;> rfl
    rwa [join, State.setStage_clock]
  | judge d b r x _ => simpa [State.judgeRecord] using h
  | _ => simpa using h

/-- Settles O56: every change of a block keeps the chart clock in range. -/
theorem stepKeepsClock : Obligations.StepKeepsClock := fun _ _ h hs =>
  step_keeps (P := fun s => ClockInv s.clock) (fun _ _ c h => c.keeps_clockInv h) (fun _ _ h => h) hs h

end Sys2Proof.Machine
end

section
/-! SUPPORT. What every step keeps of each stage (chapters 4 to 8), and the invariants after a device reset. -/

namespace Sys2Proof.Machine

/-- A property of a stage, and of whether the clock runs, that everything done to a stage keeps: the sending
of its reports, the start and the stop of the clock, the judging of a record, new settings, an open, a
close, the TALLY and NOTES. -/
structure StageKept (Q : Bool → Stage → Prop) : Prop where
  reset : Q false Stage.reset
  reports : ∀ {b st} reports n, Q b st → Q b { st with reports := reports, droppedCount := n }
  startPlay : ∀ {b st}, Q b st → Q true st.startPlay
  stop : ∀ {b st}, st.state ≠ .playing → Q b st → Q false st
  judge : ∀ {b st} ctx es, st.state = .playing → Q b st → Q b (st.judge ctx es).1
  settings : ∀ {b st} params offset, st.state = .idle ∨ st.state = .standby → (st.params.Ok → params.Ok) →
    (st.inputOffset.natAbs ≤ 100000 → offset.natAbs ≤ 100000) → Q b st →
    Q b { st with params := params, inputOffset := offset }
  openSession : ∀ {b st} pl, st.state = .idle → 1 ≤ fieldAt pl 2 2 → 1 ≤ fieldAt pl 4 2 →
    fieldAt pl 4 2 ≤ 1000 → Q b st → Q b (st.openSession pl b)
  close : ∀ {b st} d n x, st.state ≠ .idle → st.state ≠ .closing → Q b st → Q b (st.close d n x)
  placeTally : ∀ {b st} d, st.state = .closing → Q b st → Q b (st.placeTally d)
  takeRecords : ∀ {b st} now rs, st.state = .standby ∨ st.state = .playing → (∀ r ∈ rs, r.id < 65536) →
    Q b st → Q b (takeRecords now rs st 0).1

theorem State.forall_stage_setStage {P : Stage → Prop} {s : State} {d : Side} {x : Stage}
    (h : ∀ e, P (s.stage e)) (hx : P x) : ∀ e, P ((s.setStage d x).stage e) := by
  intro e
  by_cases he : d = e
  · subst he
    rwa [State.setStage_stage_same]
  · rw [State.setStage_stage_other s d e x he]
    exact h e

/-- Joining the storage changes reports alone of a stage (R61, R62). -/
theorem State.joinStorage_stage {P : Stage → Prop}
    (hP : ∀ st reports n, P st → P { st with reports := reports, droppedCount := n }) {s : State} (d : Side)
    (m : Mode) (h : ∀ e, P (s.stage e)) : ∀ e, P ((s.joinStorage d m).stage e) := by
  intro e
  cases d <;> cases m <;> cases e <;> first | exact h .a | exact h .b | exact hP _ _ _ (h .b)

theorem Change.keeps_stages {Q : Bool → Stage → Prop} (k : StageKept Q) {R : Prop} {s t : State}
    (c : Change R s t) (h : ∀ d, Q s.clock.running (s.stage d)) : ∀ d, Q t.clock.running (t.stage d) := by
  have same : t.clock = s.clock → t.stageA = s.stageA → t.stageB = s.stageB →
      ∀ d, Q t.clock.running (t.stage d) := by
    intro hc ha hb d
    rw [hc]
    cases d
    · exact (congrArg (Q s.clock.running) ha).mpr (h .a)
    · exact (congrArg (Q s.clock.running) hb).mpr (h .b)
  cases c with
  | reset =>
    intro d
    cases d <;> exact k.reset
  | sendReport d =>
    cases hr : (s.stage d).reports with
    | nil => rwa [State.sendReport_of_nil hr]
    | cons r rest =>
      rw [State.sendReport_of_cons hr, State.setStage_clock]
      refine State.forall_stage_setStage (P := Q s.clock.running) (fun e => ?_) (k.reports _ _ (h d))
      cases e
      · exact h .a
      · exact h .b
  | clock c _ hr =>
    intro d
    rw [State.setClock_clock, State.setClock_stage, hr]
    exact h d
  | clockStart c _ hr =>
    intro d
    dsimp only
    rw [hr]
    cases d
    · exact k.startPlay (h .a)
    · exact k.startPlay (h .b)
  | clockStop hp =>
    intro d
    rw [State.setClock_clock, State.setClock_stage, Clock.stop_running]
    simp only [State.anyPlaying, Bool.or_eq_false_iff, beq_eq_false_iff_ne] at hp
    refine k.stop ?_ (h d)
    cases d
    · exact hp.1
    · exact hp.2
  | judge d b r x hp =>
    obtain ⟨ctx, es, l, _, _, he⟩ := s.judgeRecord_spec d b r x
    rw [he]
    simp only [State.setLamps_clock, State.setLamps_stage, State.setStage_clock]
    exact State.forall_stage_setStage h (k.judge ctx es hp (h d))
  | settings d params offset hs hp hi =>
    rw [State.setStage_clock]
    exact State.forall_stage_setStage h (k.settings params offset hs hp hi (h d))
  | openStage pl ho =>
    obtain ⟨hidle, _, _, hu, hl, hl'⟩ := openRefusal_none ho
    have join : ∀ (t : State) d m, (t.joinStorage d m).clock = t.clock := by
      intro t d m; cases d <;> cases m <;> rfl
    rw [join, State.setStage_clock]
    exact State.joinStorage_stage (P := Q s.clock.running) (fun _ _ _ => k.reports _ _) _ _
      (State.forall_stage_setStage h (k.openSession pl hidle hu hl hl' (h _)))
  | closeStage d x hs =>
    rw [State.setStage_clock]
    exact State.forall_stage_setStage h (k.close d _ x hs.1 hs.2 (h d))
  | tally d hs _ =>
    rw [State.setStage_clock]
    exact State.forall_stage_setStage h (k.placeTally d hs (h d))
  | notes d now rs hs hr =>
    rw [State.setStage_clock]
    exact State.forall_stage_setStage h (k.takeRecords now rs hs hr (h d))
  | _ => exact same (by simp) (by simp) (by simp)

/-- What everything done to a stage keeps, every step keeps of both stages. -/
theorem StageKept.step {Q : Bool → Stage → Prop} (k : StageKept Q) {s t : State} (hs : step s = .next t)
    (h : ∀ d, Q s.clock.running (s.stage d)) : ∀ d, Q t.clock.running (t.stage d) :=
  step_keeps (P := fun s => ∀ d, Q s.clock.running (s.stage d)) (fun _ _ c => c.keeps_stages k)
    (fun _ _ h d => by cases d; exacts [h .a, h .b]) hs h

theorem Stage.startPlay_keeps {P : Stage → Prop} {st : Stage}
    (hp : st.state = .standby → P { st with state := .playing }) (h : P st) : P st.startPlay := by
  unfold Stage.startPlay
  split
  · exact hp ‹_›
  · exact h

/-! ### Life (O57) -/

theorem Stage.LifeInv.during {st : Stage} (h : st.LifeInv) (hp : st.state = .playing) :
    st.LifeDuring st.failEnable false :=
  ⟨h.range, rfl, nofun, fun _ hf => h.alive hf (.inr hp)⟩

theorem keptLife : StageKept fun _ st => st.LifeInv where
  reset := ⟨by decide, nofun, nofun⟩
  reports := fun _ _ h => ⟨h.range, h.failed, h.alive⟩
  startPlay := fun h => Stage.startPlay_keeps (fun hs => ⟨h.range, nofun, fun hf _ => h.alive hf (.inl hs)⟩) h
  stop := fun _ h => h
  judge := by
    intro _ st ctx es hp h
    refine Stage.judge_keeps ((keepsLife ctx st.failEnable).and (keepsState ctx .playing st.mode)) ?_ ?_ es
      ⟨h.during hp, hp, rfl⟩
    · rintro x ⟨during, hstate, _⟩
      exact ⟨during.range, fun hf => by simp [hstate] at hf,
        fun hf _ => during.alive rfl (during.same ▸ hf)⟩
    · rintro x heads ⟨during, _⟩
      obtain ⟨_, _, _, life, _⟩ := x.emptySession_frame heads
      have spent : (x.emptySession heads).life = 0 := life.trans (during.spent rfl)
      exact ⟨spent.le.trans (by decide), fun _ => spent, fun _ hs => by simp at hs⟩
  settings := fun _ _ _ _ _ h => ⟨h.range, h.failed, h.alive⟩
  openSession := by
    intro b st pl _ _ hl hl' _
    refine ⟨hl', fun hf => ?_, fun _ _ => hl⟩
    simp only [Stage.openSession] at hf
    split at hf <;> cases hf
  close := by
    intro _ st d n x _ _ h
    have closed : ∀ st : Stage, st.life ≤ 1000 → { st with state := .closing }.LifeInv :=
      fun st hl => ⟨hl, nofun, fun _ hs => by simp at hs⟩
    have emptied : ∀ st : Stage, st.life ≤ 1000 → (st.emptySession []).life ≤ 1000 := by
      intro st hl
      obtain ⟨_, _, _, life, _⟩ := st.emptySession_frame []
      rwa [life]
    refine Stage.close_keeps d n x (fun hp => ?_) (fun _ => closed _ (emptied _ h.range))
      fun _ _ => closed _ h.range
    obtain ⟨_, hf⟩ := Stage.flush_keeps d n x (fun ctx _ => keepsLife ctx st.failEnable) (h.during hp)
    exact closed _ (emptied _ hf.range)
  placeTally := fun _ _ h => ⟨h.range, nofun, fun _ hs => by simp [Stage.placeTally] at hs⟩
  takeRecords := by
    intro _ st now rs _ _ h
    rw [takeRecords_frame]
    exact ⟨h.range, h.failed, h.alive⟩

/-! ### Accounts (O57) -/

/-- The accounts do not depend on the state, the tables, the settings and the queue. -/
theorem Stage.AccountInv.congr {st st' : Stage} (h : st.AccountInv) (hu : st'.units = st.units)
    (he : st'.earned = st.earned) (hj : st'.judged = st.judged) (ho : st'.overcount = st.overcount)
    (hc : st'.combo = st.combo) (hm : st'.maxCombo = st.maxCombo) (hk : st'.counts = st.counts)
    (hg : st'.graded = st.graded) : st'.AccountInv := by
  obtain ⟨a, b, c, d, e, f, g, i⟩ := h
  constructor <;> simp only [hu, he, hj, ho, hc, hm, hk, hg] <;> assumption

theorem Stage.AccountInv.emptied {st : Stage} (h : st.AccountInv) (heads : List Note) (x : StageState) :
    { st.emptySession heads with state := x }.AccountInv := by
  have emptied : (st.emptySession heads).AccountInv :=
    Stage.emptySession_keeps st heads h
      (fun _ _ hr h => h.account (by rcases hr with rfl | rfl <;> rfl))
      fun _ h => h.congr rfl rfl rfl rfl rfl rfl rfl rfl
  generalize st.emptySession heads = y at emptied ⊢
  exact emptied.congr rfl rfl rfl rfl rfl rfl rfl rfl

/-- A session that begins: nothing judged, units 1 to 65,535. -/
theorem Stage.AccountInv.of_fresh {st : Stage} (hu : 1 ≤ st.units ∧ st.units ≤ 65535) (he : st.earned = 0)
    (hj : st.judged = 0) (ho : st.overcount = false) (hc : st.combo = 0) (hm : st.maxCombo = 0)
    (hk : st.counts = Counts.zero) (hg : st.graded = 0) : st.AccountInv := by
  constructor <;> simp [hu, he, hj, ho, hc, hm, hk, hg, Counts.zero, Counts.toList]

theorem fieldAt_two_lt (pl : List Byte) (i : Nat) : fieldAt pl i 2 < 65536 :=
  (fieldAt_lt pl i 2).trans_le (by norm_num)

theorem keptAccounts : StageKept fun _ st => st.AccountInv where
  reset := .of_fresh (by decide) rfl rfl rfl rfl rfl rfl rfl
  reports := fun _ _ h => h.congr rfl rfl rfl rfl rfl rfl rfl rfl
  startPlay := fun h => Stage.startPlay_keeps (fun _ => h.congr rfl rfl rfl rfl rfl rfl rfl rfl) h
  stop := fun _ h => h
  judge := fun ctx es _ h => Stage.judge_keeps (keepsAccounts ctx) (fun _ h => h)
    (fun _ heads h => h.emptied heads .failed) es h
  settings := fun _ _ _ _ _ h => h.congr rfl rfl rfl rfl rfl rfl rfl rfl
  openSession := fun pl _ hu _ _ _ =>
    .of_fresh ⟨hu, by have := fieldAt_two_lt pl 2; simp only [Stage.openSession]; omega⟩ rfl rfl rfl rfl rfl rfl rfl
  close := by
    intro _ st d n x _ _ h
    refine Stage.close_keeps d n x (fun _ => ?_)
      (fun _ => h.emptied [] .closing) fun _ _ => h.congr rfl rfl rfl rfl rfl rfl rfl rfl
    obtain ⟨_, hf⟩ := Stage.flush_keeps d n x (fun ctx _ => keepsAccounts ctx) h
    exact Stage.AccountInv.emptied hf [] .closing
  placeTally := fun _ _ h => h.congr rfl rfl rfl rfl rfl rfl rfl rfl
  takeRecords := by
    intro _ st now rs _ _ h
    rw [takeRecords_frame]
    exact h.congr rfl rfl rfl rfl rfl rfl rfl rfl

/-! ### Judged units (O57) -/

theorem keptUnits : StageKept fun _ st => st.UnitsInv where
  reset := .of_empty rfl rfl rfl rfl
  reports := fun _ _ h => h.mono (Stage.load_congr rfl rfl rfl).le rfl
  startPlay := fun h =>
    Stage.startPlay_keeps (fun _ => h.mono (Stage.load_congr rfl rfl rfl).le rfl) h
  stop := fun _ h => h
  judge := fun ctx es _ h => h.judge ctx es
  settings := fun _ _ _ _ _ h => h.mono (Stage.load_congr rfl rfl rfl).le rfl
  openSession := fun _ _ _ _ _ _ => .of_empty rfl rfl rfl rfl
  close := fun d n x _ _ h => h.close d n x
  placeTally := fun _ _ h => h.mono (Stage.load_congr rfl rfl rfl).le rfl
  takeRecords := fun now _ _ hr h => h.takeRecords now hr 0

/-- Settles O57: everything done to a stage keeps its life, its accounts and its judged units. -/
theorem stepKeepsAccounts : Obligations.StepKeepsAccounts := fun _ _ hs =>
  ⟨keptLife.step hs, keptAccounts.step hs, keptUnits.step hs⟩

/-! ### Notes (O58) -/

theorem keptNotes : StageKept fun _ st => st.NotesInv where
  reset := Stage.notesInv_of_empty rfl rfl
  reports := fun _ _ h => h.congr rfl rfl rfl rfl rfl
  startPlay := fun h => Stage.startPlay_keeps (fun _ => h.congr rfl rfl rfl rfl rfl) h
  stop := fun _ h => h
  judge := fun ctx es _ h => h.judge ctx es
  settings := fun _ _ _ _ _ h => h.congr rfl rfl rfl rfl rfl
  openSession := fun _ _ _ _ _ _ => Stage.notesInv_of_empty rfl rfl
  close := fun d n x _ _ h => Stage.close_keeps d n x (fun _ => Stage.notesInv_of_empty rfl rfl)
    (fun _ => Stage.notesInv_of_empty rfl rfl) fun _ _ => h.congr rfl rfl rfl rfl rfl
  placeTally := fun _ _ h => h.congr rfl rfl rfl rfl rfl
  takeRecords := fun now rs _ _ h => takeRecords_keeps now rs (fun _ _ _ hn h => h.takeNote hn) h

/-! ### Tables by state (O58) -/

/-- A stage with empty tables has them as its state requires, when the clock fits the state. -/
theorem Stage.PlayInv.of_empty {st : Stage} {b : Bool} (ht : st.table = [])
    (hr : st.tracker = Vector.replicate 18 none) (hp : st.state = .playing → b = true)
    (hs : st.state = .standby → b = false) : st.PlayInv b :=
  ⟨fun h => absurd ht h, fun p h => by simp [hr] at h, hp, hs⟩

/-- Judging leaves a stage PLAYING, or FAILED with empty tables (R64, R65). -/
theorem Stage.judge_state {st : Stage} (hp : st.state = .playing) (ctx : JudgeCtx)
    (es : List (Fin 18 × EdgeKind)) :
    (st.judge ctx es).1.state = .playing ∨ (st.judge ctx es).1.state = .failed ∧
      (st.judge ctx es).1.table = [] ∧ (st.judge ctx es).1.tracker = Vector.replicate 18 none :=
  Stage.judge_keeps (keepsState ctx .playing st.mode)
    (Q := fun x => x.state = .playing ∨ x.state = .failed ∧ x.table = [] ∧
      x.tracker = Vector.replicate 18 none)
    (fun _ h => .inl h.1) (fun _ _ _ => .inr ⟨rfl, rfl, rfl⟩) es ⟨hp, rfl⟩

/-- A close leaves a stage CLOSING, with empty tables unless it neither waited nor played (R67, R68). -/
theorem Stage.close_state (st : Stage) (d : Side) (n : Nat) (x : Int) :
    (st.close d n x).state = .closing ∧
      ((st.close d n x).table = [] ∧ (st.close d n x).tracker = Vector.replicate 18 none ∨
        st.state ≠ .playing ∧ st.state ≠ .standby ∧ (st.close d n x).table = st.table ∧
          (st.close d n x).tracker = st.tracker) :=
  Stage.close_keeps d n x
    (Q := fun s => s.state = .closing ∧ (s.table = [] ∧ s.tracker = Vector.replicate 18 none ∨
      st.state ≠ .playing ∧ st.state ≠ .standby ∧ s.table = st.table ∧ s.tracker = st.tracker))
    (fun _ => ⟨rfl, .inl ⟨rfl, rfl⟩⟩) (fun _ => ⟨rfl, .inl ⟨rfl, rfl⟩⟩) fun hp hs =>
      ⟨rfl, .inr ⟨hp, hs, rfl, rfl⟩⟩

/-- A stage that neither waits nor plays has empty tables (R63 to R66). -/
theorem Stage.PlayInv.empty {st : Stage} {b : Bool} (h : st.PlayInv b) (hp : st.state ≠ .playing)
    (hs : st.state ≠ .standby) : st.table = [] ∧ st.tracker = Vector.replicate 18 none := by
  constructor
  · by_contra hne
    rcases h.table hne with hq | hq
    exacts [hs hq, hp hq]
  · ext i hi : 1
    rw [Vector.getElem_replicate]
    by_contra hne
    exact hp (h.tracker ⟨i, hi⟩ hne)

theorem keptPlay : StageKept fun b st => st.PlayInv b where
  reset := .of_empty rfl rfl nofun nofun
  reports := fun _ _ h => ⟨h.table, h.tracker, h.playing, h.standby⟩
  startPlay := by
    intro b st h
    unfold Stage.startPlay
    split
    · exact ⟨fun _ => .inr rfl, fun _ _ => rfl, fun _ => rfl, nofun⟩
    · rename_i hs
      exact ⟨h.table, h.tracker, fun _ => rfl, fun hq => absurd hq hs⟩
  stop := fun hp h => ⟨h.table, h.tracker, fun hq => absurd hq hp, fun _ => rfl⟩
  judge := by
    intro b st ctx es hp h
    rcases Stage.judge_state hp ctx es with hs | ⟨hs, ht, hr⟩
    · exact ⟨fun _ => .inr hs, fun _ _ => hs, fun _ => h.playing hp, fun hq => by simp [hs] at hq⟩
    · exact .of_empty ht hr (fun hq => by simp [hs] at hq) fun hq => by simp [hs] at hq
  settings := fun _ _ _ _ _ h => ⟨h.table, h.tracker, h.playing, h.standby⟩
  openSession := fun {b} _ pl _ _ _ _ _ => by
    refine .of_empty rfl rfl ?_ ?_ <;> cases b <;> simp [Stage.openSession]
  close := by
    intro b st d n x _ _ h
    obtain ⟨hs, he⟩ := st.close_state d n x
    obtain ⟨ht, hr⟩ : (st.close d n x).table = [] ∧ (st.close d n x).tracker = Vector.replicate 18 none := by
      rcases he with he | ⟨hp, hq, ht, hr⟩
      · exact he
      · rw [ht, hr]
        exact h.empty hp hq
    exact .of_empty ht hr (fun hq => by simp [hs] at hq) fun hq => by simp [hs] at hq
  placeTally := by
    intro b st d hs h
    obtain ⟨ht, hr⟩ := h.empty (by simp [hs]) (by simp [hs])
    exact .of_empty ht hr nofun nofun
  takeRecords := by
    intro b st now rs hs _ h
    rw [takeRecords_frame]
    exact ⟨fun _ => hs, h.tracker, h.playing, h.standby⟩

/-! ### Settings and offsets (O58) -/

theorem Stage.OffsetInv.ok {st : Stage} (h : st.OffsetInv) : st.OffsetOk :=
  ⟨h.params, h.input, h.worst, h.sum⟩

theorem Stage.OffsetOk.inv {st : Stage} (h : st.OffsetOk)
    (fresh : st.state ≠ .playing → ∀ n ∈ st.table, n.worst = none) : st.OffsetInv :=
  ⟨h.params, h.input, h.worst, fresh, h.sum⟩

theorem Stage.OffsetOk.inv_of_empty {st : Stage} (h : st.OffsetOk) (ht : st.table = []) : st.OffsetInv :=
  h.inv fun _ => by simp [ht]

/-- A record taken has no worst offset yet (R75, R86). -/
theorem RawNote.check_worst {r : RawNote} {mode : Mode} {n : Note} (h : r.check mode = some n) :
    n.worst = none := by
  unfold RawNote.check at h
  cases hk : noteKindOf r.kind with
  | none => rw [hk] at h; cases h
  | some k =>
    rw [hk] at h
    dsimp only at h
    repeat' split at h
    all_goals cases h
    rfl

theorem Stage.OffsetInv.takeNote {st : Stage} (h : st.OffsetInv) {now : Option Int} {r : RawNote} {n : Note}
    (hn : examine st now r = .ok n) : (st.takeNote n).OffsetInv := by
  have hw := RawNote.check_worst (examine_ok hn).1
  have new : ∀ m ∈ (st.takeNote n).table, m ∈ st.table ∨ m.worst = none := by
    intro m hm
    rcases List.mem_append.1 hm with hm | hm
    · exact .inl hm
    · exact .inr (List.mem_singleton.1 hm ▸ hw)
  refine ⟨h.params, h.input, fun m hm w hmw => ?_, fun hs m hm => ?_, h.sum⟩
  · rcases new m hm with hm | hm
    · exact h.worst m hm w hmw
    · rw [hm] at hmw; cases hmw
  · exact (new m hm).elim (h.fresh hs m) id

theorem keptOffsets : StageKept fun _ st => st.OffsetInv where
  reset := ⟨⟨by decide, by decide, by decide, by decide⟩, by decide, nofun, nofun, by decide⟩
  reports := fun _ _ h => ⟨h.params, h.input, h.worst, h.fresh, h.sum⟩
  startPlay := fun h =>
    Stage.startPlay_keeps (fun _ => ⟨h.params, h.input, h.worst, fun hp => absurd rfl hp, h.sum⟩) h
  stop := fun _ h => h
  judge := by
    intro _ st ctx es hp h
    refine (h.ok.judge ctx es).inv fun hne => ?_
    rcases Stage.judge_state hp ctx es with hs | ⟨_, ht, _⟩
    · exact absurd hs hne
    · simp [ht]
  settings := by
    intro _ st params offset hs hp hi h
    have fresh := h.fresh (by rcases hs with hs | hs <;> simp [hs])
    refine ⟨hp h.params, hi h.input, fun n hn w hw => ?_, fun _ => fresh, h.sum⟩
    rw [fresh n hn] at hw
    cases hw
  openSession := fun pl _ _ _ _ h => ⟨h.params, h.input, nofun, fun _ => nofun, Nat.le_refl 0⟩
  close := by
    intro _ st d n x _ _ h
    refine (h.ok.close d n x).inv fun _ m hm => ?_
    rcases (st.close_state d n x).2 with ⟨ht, _⟩ | ⟨hp, _, ht, _⟩
    · simp [ht] at hm
    · exact h.fresh hp m (ht ▸ hm)
  placeTally := fun _ hs h =>
    ⟨h.params, h.input, h.worst, fun _ => h.fresh (by simp [hs]), h.sum⟩
  takeRecords := fun now rs _ _ h => takeRecords_keeps now rs (fun _ _ _ hn h => h.takeNote hn) h

/-- Settles O58: everything done to a stage keeps its notes, its tables' fit to its state, and its offsets. -/
theorem stepKeepsNotes : Obligations.StepKeepsNotes := fun _ _ hs =>
  ⟨keptNotes.step hs, keptPlay.step hs, keptOffsets.step hs⟩

end Sys2Proof.Machine
end

section
/-! SUPPORT. What every step keeps of the sensing units, the bus controllers and lamp control (chapters 2, 3 and
9), and the invariants after a device reset. -/

namespace Sys2Proof.Machine

/-! ### The blocks that a report sent and storage joined leave alone -/

/-- Sending a report and joining the storage change no bus, no panel and no lamp (R62, R163). -/
theorem State.sendReport_other (s : State) (d : Side) :
    (s.sendReport d).busA = s.busA ∧ (s.sendReport d).busB = s.busB ∧ (s.sendReport d).panelsA = s.panelsA ∧
      (s.sendReport d).panelsB = s.panelsB ∧ (s.sendReport d).stuckLimit = s.stuckLimit ∧
      (s.sendReport d).lamps = s.lamps := by
  cases hr : (s.stage d).reports with
  | nil => simp [State.sendReport_of_nil hr]
  | cons r rest => simp [State.sendReport_of_cons hr]

theorem State.joinStorage_other (s : State) (d : Side) (m : Mode) :
    (s.joinStorage d m).busA = s.busA ∧ (s.joinStorage d m).busB = s.busB ∧
      (s.joinStorage d m).panelsA = s.panelsA ∧ (s.joinStorage d m).panelsB = s.panelsB ∧
      (s.joinStorage d m).stuckLimit = s.stuckLimit ∧ (s.joinStorage d m).lamps = s.lamps := by
  cases d <;> cases m <;> simp [State.joinStorage]

/-- Judging a record changes no bus and no panel (R92). -/
theorem State.judgeRecord_other (s : State) (d : Side) (b : Bool) (r : ScanRecord) (x : Int) :
    (s.judgeRecord d b r x).busA = s.busA ∧ (s.judgeRecord d b r x).busB = s.busB ∧
      (s.judgeRecord d b r x).panelsA = s.panelsA ∧ (s.judgeRecord d b r x).panelsB = s.panelsB ∧
      (s.judgeRecord d b r x).stuckLimit = s.stuckLimit := by
  simp [State.judgeRecord]

/-! ### Sensing (O59) -/

/-- The sensing units by side. -/
theorem sensingInv_iff (s : State) :
    SensingInv s ↔ (∀ d (p : Fin 9), (s.panels d)[p].Ok) ∧ (∀ d, (s.bus d).ReadingsOk) ∧
      31 ≤ s.stuckLimit ∧ s.stuckLimit ≤ 255 := by
  constructor
  · rintro ⟨pa, pb, ra, rb, stuck⟩
    exact ⟨fun d => by cases d; exacts [pa, pb], fun d => by cases d; exacts [ra, rb], stuck⟩
  · rintro ⟨panels, readings, stuck⟩
    exact ⟨panels .a, panels .b, readings .a, readings .b, stuck⟩

theorem SensingInv.panels {s : State} (h : SensingInv s) (d : Side) (p : Fin 9) : (s.panels d)[p].Ok :=
  ((sensingInv_iff s).1 h).1 d p

theorem SensingInv.readings {s : State} (h : SensingInv s) (d : Side) : (s.bus d).ReadingsOk :=
  ((sensingInv_iff s).1 h).2.1 d

theorem SensingInv.congr {s t : State} (h : SensingInv s) (ha : t.busA = s.busA) (hb : t.busB = s.busB)
    (hp : t.panelsA = s.panelsA) (hq : t.panelsB = s.panelsB) (hs : t.stuckLimit = s.stuckLimit) :
    SensingInv t := by
  obtain ⟨pa, pb, ra, rb, stuck⟩ := h
  constructor <;> simpa only [ha, hb, hp, hq, hs]

theorem SensingInv.setPanels {s : State} (h : SensingInv s) (d : Side) {v : Vector Panel 9}
    (hv : ∀ p : Fin 9, v[p].Ok) : SensingInv (s.setPanels d v) := by
  obtain ⟨pa, pb, ra, rb, stuck⟩ := h
  cases d
  · exact ⟨hv, pb, ra, rb, stuck⟩
  · exact ⟨pa, hv, ra, rb, stuck⟩

theorem SensingInv.setBus {s : State} (h : SensingInv s) (d : Side) {c : BusCtl} (hc : c.ReadingsOk) :
    SensingInv (s.setBus d c) := by
  obtain ⟨pa, pb, ra, rb, stuck⟩ := h
  cases d
  · exact ⟨pa, pb, hc, rb, stuck⟩
  · exact ⟨pa, pb, ra, hc, stuck⟩

/-- A panel after reset is lawful (R41). -/
theorem Panel.reset_ok : Panel.reset.Ok :=
  ⟨by decide, nofun, by decide, by decide, nofun, by decide, by decide, nofun⟩

theorem BusCtl.reset_readingsOk : BusCtl.reset.ReadingsOk := nofun

theorem reset_sensingInv : SensingInv State.reset := by
  have panels : ∀ p : Fin 9, (Vector.replicate 9 Panel.reset)[p].Ok := by
    intro p
    simpa using Panel.reset_ok
  exact ⟨panels, panels, BusCtl.reset_readingsOk, BusCtl.reset_readingsOk, by decide⟩

theorem Change.keeps_sensingInv {s t : State} (c : Change True s t) (h : SensingInv s) : SensingInv t := by
  cases c with
  | reset => exact reset_sensingInv.congr rfl rfl rfl rfl rfl
  | sendReport d =>
    obtain ⟨ba, bb, pa, pb, stuck, _⟩ := s.sendReport_other d
    exact h.congr ba bb pa pb stuck
  | bus d c _ hr => exact h.setBus d (hr (h.readings d))
  | thresholds d set p q hp hq => exact h.setPanels d (setThresholds_ok (h.panels d) set hp hq)
  | stuckLimit n hn => exact ⟨h.panelsA, h.panelsB, h.readingsA, h.readingsB, hn⟩
  | panels d v c ho hv =>
    refine h.setPanels d fun p => ?_
    rw [hv p]
    exact (h.panels d p).takePanel _ p fun n hn => ho trivial p n hn
  | judge d b r x _ =>
    obtain ⟨ba, bb, pa, pb, stuck⟩ := s.judgeRecord_other d b r x
    exact h.congr ba bb pa pb stuck
  | openStage pl _ =>
    obtain ⟨ba, bb, pa, pb, stuck, _⟩ := State.joinStorage_other (s.setStage (sideOf (byteAt pl 0))
      ((s.stage (sideOf (byteAt pl 0))).openSession pl s.clock.running)) (sideOf (byteAt pl 0))
      ((s.stage (sideOf (byteAt pl 0))).openSession pl s.clock.running).mode
    refine h.congr ?_ ?_ ?_ ?_ ?_
    · rw [ba, State.setStage_busA]
    · rw [bb, State.setStage_busB]
    · rw [pa, State.setStage_panelsA]
    · rw [pb, State.setStage_panelsB]
    · rw [stuck, State.setStage_stuckLimit]
  | _ => exact h.congr (by simp) (by simp) (by simp) (by simp) (by simp)

/-- A step keeps the sensing units lawful: the readings in flight are in range, so those taken are. -/
theorem SensingInv.step {s t : State} (h : SensingInv s) (hs : step s = .next t) : SensingInv t := by
  unfold Machine.step at hs
  split at hs
  · cases hs
    exact h
  · rename_i i rest _
    have hq : SensingInv { s with pending := rest } := h.congr rfl rfl rfl rfl rfl
    obtain ⟨u, hu, hc⟩ := exec_changes (R := True) i { s with pending := rest } fun d _ => hq.readings d
    rw [hu] at hs
    cases hs
    exact hc.keeps (fun _ _ c h => c.keeps_sensingInv h) hq

/-! ### Bus controllers and lamp control (O59) -/

/-- A controller after reset is lawful (R21). -/
theorem BusCtl.reset_ok : BusCtl.reset.Ok :=
  ⟨by decide, nofun, nofun, nofun, nofun, nofun, fun _ => ⟨rfl, rfl⟩⟩

theorem Change.keeps_busOk {R : Prop} {s t : State} (c : Change R s t) (h : ∀ d, (s.bus d).Ok) :
    ∀ d, (t.bus d).Ok := by
  have same : t.busA = s.busA → t.busB = s.busB → ∀ d, (t.bus d).Ok := by
    intro ha hb d
    cases d
    · exact (congrArg BusCtl.Ok ha).mpr (h .a)
    · exact (congrArg BusCtl.Ok hb).mpr (h .b)
  cases c with
  | reset =>
    intro d
    cases d <;> exact BusCtl.reset_ok
  | sendReport d => exact same (s.sendReport_other d).1 (s.sendReport_other d).2.1
  | bus d c hc _ =>
    intro e
    by_cases he : d = e
    · subst he
      rw [State.setBus_bus_same]
      exact hc (h d)
    · rw [State.setBus_bus_other s d e c he]
      exact h e
  | judge d b r x _ => exact same (s.judgeRecord_other d b r x).1 (s.judgeRecord_other d b r x).2.1
  | openStage pl _ =>
    refine same ?_ ?_
    · rw [(State.joinStorage_other _ _ _).1, State.setStage_busA]
    · rw [(State.joinStorage_other _ _ _).2.1, State.setStage_busB]
  | _ => exact same (by simp) (by simp)

/-- Lamp control after reset is lawful (R145): no flash runs and no compare is armed. -/
theorem LampCtl.reset_inv : LampInv LampCtl.reset := by
  refine ⟨⟨fun _ p => ?_, fun _ => rfl⟩, by decide, by decide⟩
  simp [LampCtl.reset, Lamp.reset]

theorem Change.keeps_lampInv {R : Prop} {s t : State} (c : Change R s t) (h : LampInv s.lamps) :
    LampInv t.lamps := by
  cases c with
  | reset => exact LampCtl.reset_inv
  | sendReport d =>
    obtain ⟨_, _, _, _, _, lamps⟩ := s.sendReport_other d
    rwa [lamps]
  | judge d b r x _ =>
    obtain ⟨_, _, l, _, hl, he⟩ := s.judgeRecord_spec d b r x
    rw [he]
    exact hl h
  | openStage pl _ =>
    obtain ⟨_, _, _, _, _, lamps⟩ := State.joinStorage_other (s.setStage (sideOf (byteAt pl 0))
      ((s.stage (sideOf (byteAt pl 0))).openSession pl s.clock.running)) (sideOf (byteAt pl 0))
      ((s.stage (sideOf (byteAt pl 0))).openSession pl s.clock.running).mode
    rwa [lamps, State.setStage_lamps]
  | lamps l hl => exact hl h
  | _ => simpa using h

/-- Settles O59: every change of a block keeps the panels, the bus controllers and lamp control lawful; the
panels need the readings in flight to be in range as well. -/
theorem stepKeepsPanelsBusesLamps : Obligations.StepKeepsPanelsBusesLamps := fun _ _ hs =>
  ⟨fun h => h.step hs,
    step_keeps (P := fun s => ∀ d, (s.bus d).Ok) (fun _ _ c h => c.keeps_busOk h)
      (fun _ _ h d => by cases d; exacts [h .a, h .b]) hs,
    step_keeps (P := fun s => LampInv s.lamps) (fun _ _ c h => c.keeps_lampInv h) (fun _ _ h => h) hs⟩

/-! ### After a device reset (O60) -/

theorem reset_queueInv : QueueInv State.reset :=
  ⟨by decide, by decide, by decide, by decide, nofun⟩

theorem reset_doublesInv : DoublesInv State.reset := ⟨nofun, nofun, rfl⟩

/-- What everything done to a stage keeps holds of both stages after a device reset. -/
theorem StageKept.after_reset {Q : Bool → Stage → Prop} (k : StageKept Q) (d : Side) :
    Q false (State.reset.stage d) := by
  cases d <;> exact k.reset

/-- Settles O60, invariant by invariant. -/
theorem resetKeepsInvariants : Obligations.ResetKeepsInvariants :=
  ⟨reset_linkInv, reset_queueInv, reset_doublesInv, reset_clockInv, keptLife.after_reset,
    keptAccounts.after_reset, keptUnits.after_reset, keptNotes.after_reset, keptPlay.after_reset,
    keptOffsets.after_reset, reset_sensingInv, fun d => by cases d <;> exact BusCtl.reset_ok,
    LampCtl.reset_inv⟩

end Sys2Proof.Machine
end

section
/-! SUPPORT. Reading a payload field by field; the check value; characters and frames (12.1 to 12.3, R155 to R157,
R167). -/

namespace Sys2Proof.Machine

/-! ### Fields -/

/-- Settles O9. -/
theorem fieldsReadBack : Obligations.FieldsReadBack := by
  constructor
  · intro k n before after h
    rw [List.append_assoc, fieldAt_leBytes rfl, Nat.mod_eq_of_lt h]
  · intro i before after h h'
    rw [List.append_assoc, signedAt_leSigned rfl h h']

/-! What stands before a field is passed over; at the field its number is read. -/

theorem fieldAt_append_right {a bs : List Byte} {i : Nat} (h : a.length ≤ i) (k : Nat) :
    fieldAt (a ++ bs) i k = fieldAt bs (i - a.length) k := by
  rw [fieldAt, List.drop_append, List.drop_eq_nil_of_le h, List.nil_append, fieldAt]

@[simp] theorem fieldAt_cons_succ (b : Byte) (bs : List Byte) (i k : Nat) :
    fieldAt (b :: bs) (i + 1) k = fieldAt bs i k := rfl

@[simp] theorem fieldAt_leBytes_zero (k n : Nat) (bs : List Byte) :
    fieldAt (leBytes k n ++ bs) 0 k = n % 256 ^ k :=
  fieldAt_leBytes (a := []) rfl

@[simp] theorem fieldAt_leBytes_last (k n : Nat) : fieldAt (leBytes k n) 0 k = n % 256 ^ k := by
  simpa using fieldAt_leBytes_zero k n []

@[simp] theorem fieldAt_leBytes_append {m i : Nat} (h : m ≤ i) (n : Nat) (bs : List Byte) (k : Nat) :
    fieldAt (leBytes m n ++ bs) i k = fieldAt bs (i - m) k := by
  rw [fieldAt_append_right (by simpa using h), leBytes_length]

@[simp] theorem fieldAt_leSigned_append {i : Nat} (h : 4 ≤ i) (x : Int) (bs : List Byte) (k : Nat) :
    fieldAt (leSigned x ++ bs) i k = fieldAt bs (i - 4) k :=
  fieldAt_leBytes_append h _ bs k

@[simp] theorem signedAt_cons_succ (b : Byte) (bs : List Byte) (i : Nat) :
    signedAt (b :: bs) (i + 1) = signedAt bs i := rfl

@[simp] theorem signedAt_leBytes_append {m i : Nat} (h : m ≤ i) (n : Nat) (bs : List Byte) :
    signedAt (leBytes m n ++ bs) i = signedAt bs (i - m) := by
  rw [signedAt, fieldAt_leBytes_append h, signedAt]

@[simp] theorem signedAt_leSigned_zero {x : Int} (h : -2147483648 ≤ x) (h' : x ≤ 2147483647)
    (bs : List Byte) : signedAt (leSigned x ++ bs) 0 = x :=
  signedAt_leSigned (a := []) rfl h h'

@[simp] theorem signedAt_leSigned_last {x : Int} (h : -2147483648 ≤ x) (h' : x ≤ 2147483647) :
    signedAt (leSigned x) 0 = x := by
  simpa using signedAt_leSigned_zero h h' []

@[simp] theorem byteAt_cons_zero (b : Byte) (bs : List Byte) : byteAt (b :: bs) 0 = b := rfl

@[simp] theorem byteAt_cons_succ (b : Byte) (bs : List Byte) (i : Nat) :
    byteAt (b :: bs) (i + 1) = byteAt bs i := rfl

theorem byteAt_append_right {a bs : List Byte} {i : Nat} (h : a.length ≤ i) :
    byteAt (a ++ bs) i = byteAt bs (i - a.length) := by
  rw [byteAt, List.getD_append_right _ _ _ _ h, byteAt]

@[simp] theorem byteAt_leBytes_append {m i : Nat} (h : m ≤ i) (n : Nat) (bs : List Byte) :
    byteAt (leBytes m n ++ bs) i = byteAt bs (i - m) := by
  rw [byteAt_append_right (by simpa using h), leBytes_length]

@[simp] theorem byteAt_leSigned_append {i : Nat} (h : 4 ≤ i) (x : Int) (bs : List Byte) :
    byteAt (leSigned x ++ bs) i = byteAt bs (i - 4) :=
  byteAt_leBytes_append h _ bs

/-! ### The check value -/

theorem crc8_append (xs ys : List Byte) : crc8 (xs ++ ys) = ys.foldl crcStep (crc8 xs) :=
  List.foldl_append

theorem foldl_crcStep_inj {r r' : Byte} (bs : List Byte)
    (h : bs.foldl crcStep r = bs.foldl crcStep r') : r = r' := by
  induction bs generalizing r r' with
  | nil => exact h
  | cons b bs ih => exact crcStep_inj_reg (ih h)

theorem crcShift_eq : crcShift = fun r : Byte => if r.getLsbD 7 = true then (r <<< 1) ^^^ 0x07 else r <<< 1 := by
  funext r
  rw [crcShift, BitVec.msb_eq_getLsbD_last]

/-- Settles O8: the recurrence; steps lose nothing of the register or of the byte; a register that takes itself
is cleared. -/
theorem checkCatchesByteErrors : Obligations.CheckCatchesByteErrors := by
  refine ⟨rfl, fun bs b => ?_, fun pre post a b hab h => ?_, fun bs => ?_⟩
  · rw [crc8_append, ← crcShift_eq]
    rfl
  · rw [crc8_append, crc8_append] at h
    exact hab (crcStep_inj_byte (foldl_crcStep_inj post h))
  · rw [crc8_append]
    exact crcStep_self _

/-! ### The bits of a frame (R167) -/

theorem frameBits_eq (f : OutFrame) (body : List Byte)
    (hb : body = frameKind f :: BitVec.ofNat 8 (framePayload f).length :: framePayload f) :
    frameBits f = List.replicate 13 false ++ [true] ++ (body ++ [crc8 body]).flatMap charBits := by
  rw [hb]
  rfl

theorem frameBits_length (f : OutFrame) :
    (frameBits f).length = 14 + 11 * ((framePayload f).length + 3) := by
  rw [frameBits, List.length_append, flatMap_charBits_length, frameBytes_length]
  rfl

/-- Even parity over the data and the parity bit, with the stop bit: an odd number of high bits in all. -/
theorem charBits_odd (b : Byte) : (charBits b).count true % 2 = 1 := by
  revert b; decide

theorem charBits_getElem? (b : Byte) {k : Nat} (h : k < 8) : (charBits b)[k + 1]? = some (b.getLsbD k) := by
  interval_cases k <;> rfl

theorem State.ltx_of_sending {s : State} {f : OutFrame} {start : LocalTime}
    (h : s.link.transmitter = .sending f start) :
    s.ltx = (frameBits f).getD (elapsed start s.localTime) true := by
  rw [State.ltx, h]

/-- A bit within a list, and high after its end. -/
theorem getD_of_getElem? {bits : List Bool} {i : Nat} {b : Bool} (h : bits[i]? = some b) :
    bits.getD i true = b := by
  rw [List.getD_eq_getElem?_getD, h, Option.getD_some]

theorem getD_of_length_le {bits : List Bool} {i : Nat} (h : bits.length ≤ i) : bits.getD i true = true := by
  rw [List.getD_eq_getElem?_getD, List.getElem?_eq_none h, Option.getD_none]

theorem reportFlags_bits (off fl ov : Bool) : (reportFlags off fl ov).getLsbD 0 = off ∧
    (reportFlags off fl ov).getLsbD 1 = fl ∧ (reportFlags off fl ov).getLsbD 2 = ov ∧
    reportFlags off fl ov >>> 3 = 0 := by
  revert off fl ov; decide

theorem sideCode_eq (d : Side) : sideCode d = if d = .a then 0 else 1 := by cases d <;> rfl

theorem boolByte_eq (b : Bool) : boolByte b = if b = true then 1 else 0 := rfl

theorem boolByte_not (b : Bool) : boolByte (!b) = if b = true then 0 else 1 := by cases b <;> rfl

theorem modeCode_eq (m : Mode) : modeCode m = if m = .single then 0 else 1 := by cases m <;> rfl

theorem noticeByte (k : NoticeKind) : BitVec.ofNat 8 (noticeCode k) = match k with
    | .syncStale => (0 : Byte) | .clockJump => 1 | .clockLimit => 2 | .panelOffline => 3
    | .panelOnline => 4 | .panelStuck => 5 | .busDown => 6 | .busUp => 7
    | .scanLate => 8 | .busContention => 9 | .linkError => 10 | .requestShed => 11 := by
  cases k <;> rfl

theorem notice_fields (n : Notice) {pl : List Byte} (hpl : pl = framePayload (.notice n)) (hc : n.count < 256)
    (hl : -2147483648 ≤ n.detail) (hh : n.detail ≤ 2147483647) :
    byteAt pl 0 = BitVec.ofNat 8 (noticeCode n.kind) ∧ byteAt pl 1 = sourceCode n.source ∧
      fieldAt pl 2 1 = n.count ∧ fieldAt pl 3 2 = n.panels.toNat ∧ signedAt pl 5 = n.detail := by
  have hp : n.panels.toNat < 65536 := n.panels.isLt.trans (by decide)
  subst hpl
  simp [framePayload, hl, hh, Nat.mod_eq_of_lt, hp, hc]
  rfl

theorem judgment_fields {d : Side} {id combo life score dropped : Nat} {res : Result} {off : Option Int}
    {fl ov : Bool} {struck : StageSet} {pl : List Byte}
    (hpl : pl = framePayload (.report (.judgment d id res off fl ov struck combo life score dropped)))
    (h1 : id < 65536) (h2 : combo < 65536) (h3 : life < 65536) (h4 : score < 4294967296) (h5 : dropped < 256)
    (ho : ∀ o, off = some o → -2147483648 ≤ o ∧ o ≤ 2147483647) :
    byteAt pl 0 = sideCode d ∧ fieldAt pl 1 2 = id ∧ byteAt pl 3 = resultCode res ∧
      signedAt pl 4 = off.getD 0 ∧ byteAt pl 8 = reportFlags off.isSome fl ov ∧
      fieldAt pl 9 3 = struck.toNat ∧ fieldAt pl 12 2 = combo ∧ fieldAt pl 14 2 = life ∧
      fieldAt pl 16 4 = score ∧ fieldAt pl 20 1 = dropped := by
  have hs : struck.toNat < 16777216 := struck.isLt.trans (by decide)
  obtain ⟨hl, hh⟩ : -2147483648 ≤ off.getD 0 ∧ off.getD 0 ≤ 2147483647 := by
    cases off with
    | none => decide
    | some o => exact ho o rfl
  subst hpl
  simp [framePayload, reportPayload, Nat.mod_eq_of_lt, hl, hh, hs, h1, h2, h3, h4, h5]

theorem hold_fields {d : Side} {id panel life score dropped : Nat} {ok : Bool} {reason : Reason} {fl ov : Bool}
    {pl : List Byte}
    (hpl : pl = framePayload (.report (.hold d id ok reason panel life score fl ov dropped)))
    (h1 : id < 65536) (h2 : panel < 256) (h3 : life < 65536) (h4 : score < 4294967296) (h5 : dropped < 256) :
    byteAt pl 0 = sideCode d ∧ fieldAt pl 1 2 = id ∧ byteAt pl 3 = boolByte (!ok) ∧
      byteAt pl 4 = reasonCode reason ∧ fieldAt pl 5 1 = panel ∧ fieldAt pl 6 2 = life ∧
      fieldAt pl 8 4 = score ∧ byteAt pl 12 = reportFlags false fl ov ∧ fieldAt pl 13 1 = dropped := by
  subst hpl
  simp [framePayload, reportPayload, Nat.mod_eq_of_lt, h1, h2, h3, h4, h5]

theorem mine_fields {d : Side} {id panel combo life dropped : Nat} {hit fl ov : Bool} {pl : List Byte}
    (hpl : pl = framePayload (.report (.mine d id hit panel combo life fl ov dropped)))
    (h1 : id < 65536) (h2 : panel < 256) (h3 : combo < 65536) (h4 : life < 65536) (h5 : dropped < 256) :
    byteAt pl 0 = sideCode d ∧ fieldAt pl 1 2 = id ∧ byteAt pl 3 = boolByte (!hit) ∧ fieldAt pl 4 1 = panel ∧
      fieldAt pl 5 2 = combo ∧ fieldAt pl 7 2 = life ∧ byteAt pl 9 = reportFlags false fl ov ∧
      fieldAt pl 10 1 = dropped := by
  subst hpl
  simp [framePayload, reportPayload, Nat.mod_eq_of_lt, h1, h2, h3, h4, h5]

theorem stray_fields {d : Side} {panel dropped : Nat} {time : Int} {pl : List Byte}
    (hpl : pl = framePayload (.report (.stray d panel time dropped))) (h1 : panel < 256) (h2 : dropped < 256)
    (hl : -2147483648 ≤ time) (hh : time ≤ 2147483647) :
    byteAt pl 0 = sideCode d ∧ fieldAt pl 1 1 = panel ∧ signedAt pl 2 = time ∧ fieldAt pl 6 1 = dropped := by
  subst hpl
  simp [framePayload, reportPayload, Nat.mod_eq_of_lt, hl, hh, h1, h2]

/-- The bytes of the TALLY before the counts. -/
theorem tally_bytes {t : Tally} {pl : List Byte} (hpl : pl = framePayload (.report (.tally t))) :
    byteAt pl 0 = sideCode t.stage ∧ byteAt pl 1 = modeCode t.mode ∧ byteAt pl 2 = boolByte t.failed ∧
      byteAt pl 3 = boolByte t.overcount := by
  subst hpl
  simp [framePayload, reportPayload]

/-- The twelve counts of the TALLY, each modulo its range. -/
theorem tally_counts {t : Tally} {pl : List Byte} (hpl : pl = framePayload (.report (.tally t))) :
    fieldAt pl 4 2 = t.counts.prime % 65536 ∧ fieldAt pl 6 2 = t.counts.solid % 65536 ∧
      fieldAt pl 8 2 = t.counts.fair % 65536 ∧ fieldAt pl 10 2 = t.counts.weak % 65536 ∧
      fieldAt pl 12 2 = t.counts.miss % 65536 ∧ fieldAt pl 14 2 = t.counts.holdOk % 65536 ∧
      fieldAt pl 16 2 = t.counts.dropped % 65536 ∧ fieldAt pl 18 2 = t.counts.cut % 65536 ∧
      fieldAt pl 20 2 = t.counts.mineHit % 65536 ∧ fieldAt pl 22 2 = t.counts.mineAvoided % 65536 ∧
      fieldAt pl 24 2 = t.counts.discarded % 65536 ∧ fieldAt pl 26 2 = t.counts.stray % 65536 := by
  subst hpl
  simp [framePayload, reportPayload, countBytes]

/-- The fields of the TALLY after the counts, each modulo its range. -/
theorem tally_rest {t : Tally} {pl : List Byte} (hpl : pl = framePayload (.report (.tally t))) :
    fieldAt pl 28 4 = t.score % 4294967296 ∧ fieldAt pl 32 4 = t.earned % 4294967296 ∧
      fieldAt pl 36 4 = t.judged % 4294967296 ∧ fieldAt pl 40 2 = t.maxCombo % 65536 ∧
      fieldAt pl 42 2 = t.life % 65536 ∧
      (-2147483648 ≤ t.meanOffset → t.meanOffset ≤ 2147483647 → signedAt pl 44 = t.meanOffset) ∧
      fieldAt pl 48 2 = t.graded % 65536 ∧ fieldAt pl 50 1 = t.droppedBefore % 256 := by
  subst hpl
  simp +contextual [framePayload, reportPayload, countBytes]

/-- Settles O7: the bits of the characters and of the frame, then the payloads field by field. -/
theorem frameBitsAndLengths : Obligations.FrameBitsAndLengths := by
  refine ⟨fun f => ⟨frameBits_length f, _, rfl, frameBits_eq f _ rfl⟩,
    fun b => ⟨charBits_length b, rfl, rfl, charBits_odd b, fun k hk => charBits_getElem? b hk⟩,
    fun s => ⟨fun f start hs => ⟨fun bit hbit => ?bit, fun hle => ?after⟩, fun hn => ?silent⟩,
    fun n => ?notice, fun r => ?lengths, fun f => ?kinds, reportFlags_bits, fun _ _ _ _ => ⟨rfl, rfl⟩,
    fun n pl hpl hc hl hh => ?noticeFields, ?judgment, ?hold, ?mine, ?stray, fun t pl hpl => ?tally⟩
  case bit => rw [State.ltx_of_sending hs, getD_of_getElem? hbit]
  case after =>
    rw [State.ltx_of_sending hs]
    exact getD_of_length_le (by rwa [frameBits_length])
  case silent =>
    unfold State.ltx
    split
    · exact absurd ‹_› (hn _ _)
    · rfl
  case notice => simp [framePayload]
  case lengths => cases r <;> simp [framePayload, reportPayload, countBytes]
  case kinds =>
    cases f with
    | reply r => cases r <;> rfl
    | notice n => rfl
    | report r => cases r <;> rfl
  case noticeFields =>
    obtain ⟨kind, source, rest⟩ := notice_fields n hpl hc hl hh
    exact ⟨kind.trans (noticeByte n.kind), source.trans (by cases n.source with
      | none => rfl
      | some d => cases d <;> rfl), rest⟩
  case judgment =>
    intro d id combo life score dropped res off fl ov struck pl hpl h1 h2 h3 h4 h5 ho
    obtain ⟨side, id_eq, result, rest⟩ := judgment_fields hpl h1 h2 h3 h4 h5 ho
    exact ⟨side.trans (sideCode_eq d), id_eq, result.trans (by cases res <;> rfl), rest⟩
  case hold =>
    intro d id panel life score dropped ok reason fl ov pl hpl h1 h2 h3 h4 h5
    obtain ⟨side, id_eq, okay, why, rest⟩ := hold_fields hpl h1 h2 h3 h4 h5
    exact ⟨side.trans (sideCode_eq d), id_eq, okay.trans (boolByte_not ok),
      why.trans (by cases reason <;> rfl), rest⟩
  case mine =>
    intro d id panel combo life dropped hit fl ov pl hpl h1 h2 h3 h4 h5
    obtain ⟨side, id_eq, okay, rest⟩ := mine_fields hpl h1 h2 h3 h4 h5
    exact ⟨side.trans (sideCode_eq d), id_eq, okay.trans (boolByte_not hit), rest⟩
  case stray =>
    intro d panel dropped time pl hpl h1 h2 hl hh
    obtain ⟨side, rest⟩ := stray_fields hpl h1 h2 hl hh
    exact ⟨side.trans (sideCode_eq d), rest⟩
  case tally =>
    obtain ⟨b0, b1, b2, b3⟩ := tally_bytes hpl
    obtain ⟨c1, c2, c3, c4, c5, c6, c7, c8, c9, c10, c11, c12⟩ := tally_counts hpl
    obtain ⟨score, earned, judged, maxCombo, life, mean, graded, dropped⟩ := tally_rest hpl
    have read : ∀ {x v r : Nat}, x = v % r → v < r → x = v := fun hx hv => hx.trans (Nat.mod_eq_of_lt hv)
    exact ⟨⟨b0.trans (sideCode_eq _), b1.trans (modeCode_eq _), b2, b3⟩, read c1, read c2, read c3, read c4,
      read c5, read c6, read c7, read c8, read c9, read c10, read c11, read c12, read score, read earned,
      read judged, read maxCombo, read life, mean, read graded, read dropped⟩

/-! ### Characters and frames received (R155 to R157) -/

/-- A list of bits holds an odd number of ones when its exclusive-or is 1. -/
theorem oddOnes_eq (bits : List Bool) : oddOnes bits = decide (bits.count true % 2 = 1) := by
  have fold : ∀ a, bits.foldl xor a = xor a (decide (bits.count true % 2 = 1)) := by
    induction bits with
    | nil => simp
    | cons b bs ih =>
      intro a
      rw [List.foldl_cons, ih]
      cases b
      · simp
      · have flip : decide ((bs.count true + 1) % 2 = 1) = !decide (bs.count true % 2 = 1) := by
          rcases Nat.mod_two_eq_zero_or_one (bs.count true) with h | h <;> simp [Nat.add_mod, h]
        simp [flip]
  rw [oddOnes, fold, Bool.false_xor]

theorem oddOnes_append (xs ys : List Bool) : oddOnes (xs ++ ys) = xor (oddOnes xs) (oddOnes ys) := by
  simp only [oddOnes_eq, List.count_append]
  rcases Nat.mod_two_eq_zero_or_one (xs.count true) with h | h <;>
    rcases Nat.mod_two_eq_zero_or_one (ys.count true) with h' | h' <;> simp [Nat.add_mod, h, h']

/-- A character received as it was sent has no fault. -/
theorem charFault_sentChar (b : Byte) : charFault (sentChar b) = none := by
  have even : oddOnes (dataBits b ++ [oddOnes (dataBits b)]) = false := by
    rw [oddOnes_append]
    cases oddOnes (dataBits b) <;> rfl
  simp [charFault, sentChar, even]

@[simp] theorem sentChar_data (b : Byte) : (sentChar b).data = b := rfl

/-- The fault of a character, by its stop bit and its parity (R155). -/
theorem charFault_cases (d : Byte) (p st : Bool) (ones : Nat)
    (ho : ones = (((List.range 8).map d.getLsbD) ++ [p]).count true) :
    (charFault ⟨d, p, st⟩ = none ↔ st = true ∧ ones % 2 = 0) ∧
      (st = true → ones % 2 = 1 → charFault ⟨d, p, st⟩ = some .parity) ∧
      (st = false → ones % 2 = 0 → charFault ⟨d, p, st⟩ = some .framing) ∧
      (st = false → ones % 2 = 1 →
        charFault ⟨d, p, st⟩ = some .parity ∨ charFault ⟨d, p, st⟩ = some .framing) := by
  have hodd : oddOnes (dataBits d ++ [p]) = decide (ones % 2 = 1) := by
    rw [oddOnes_eq, ho]
    rfl
  have left_open : (if Config.parityJudgedFirst = true then some LinkFault.parity else some .framing) =
      some .parity ∨
      (if Config.parityJudgedFirst = true then some LinkFault.parity else some .framing) = some .framing :=
    (ite_eq_or_eq _ _ _)
  have found : ¬ (if Config.parityJudgedFirst = true then some LinkFault.parity else some .framing) = none := by
    rcases left_open with h | h <;> simp [h]
  rcases Nat.mod_two_eq_zero_or_one ones with h | h <;> cases st <;> simp [charFault, hodd, h, found]

/-- Sound payload characters are passed over to the character after them. -/
theorem bodyFault_sound (pl got : List Byte) (m : Nat) (rest : List RxChar) :
    bodyFault (pl.length + m) got (pl.map sentChar ++ rest) = bodyFault m (got ++ pl) rest := by
  induction pl generalizing got with
  | nil => simp
  | cons b bs ih =>
    rw [List.length_cons, Nat.add_right_comm, List.map_cons, List.cons_append, bodyFault,
      charFault_sentChar]
    dsimp only
    rw [ih, sentChar_data, List.append_assoc]
    rfl

/-- The sound character after the payload is CHECK. -/
theorem bodyFault_check (got : List Byte) (x : Byte) :
    bodyFault 0 got [sentChar x] = if x = crc8 got then none else some (.check, 0) := by
  rw [bodyFault, charFault_sentChar]
  rfl

theorem frameFaultOf_kind {c : RxChar} {f : LinkFault} (h : charFault c = some f) (rest : List RxChar) :
    frameFaultOf (c :: rest) = some (f, 51) := by
  cases rest <;> simp [frameFaultOf, h, limitBeforeLen]

theorem frameFaultOf_len {c : RxChar} {f : LinkFault} (h : charFault c = some f) (k : Byte)
    (rest : List RxChar) : frameFaultOf (sentChar k :: c :: rest) = some (f, 51 + lateReturn c) := by
  simp [frameFaultOf, charFault_sentChar, h, limitBeforeLen]

theorem frameFaultOf_oversize {l : Byte} (h : 60 < l.toNat) (k : Byte) (rest : List RxChar) :
    frameFaultOf (sentChar k :: sentChar l :: rest) = some (.oversize, 51) := by
  simp [frameFaultOf, charFault_sentChar, limitBeforeLen, Config.maxPayload, h]

/-- With a sound KIND and a sound LEN of at most 60 the faults are those of the payload and CHECK. -/
theorem frameFaultOf_body {l : Byte} (h : l.toNat ≤ 60) (k : Byte) (rest : List RxChar) :
    frameFaultOf (sentChar k :: sentChar l :: rest) =
      (bodyFault l.toNat [k, l] rest).map fun f => (f.1, (l.toNat + 3) * 17 + f.2) := by
  simp [frameFaultOf, charFault_sentChar, limitAfterLen, Config.maxPayload, Nat.not_lt.2 h]

/-- The low period that a low stop bit belongs to, counted back from it. -/
theorem lateReturn_eq {c : RxChar} {low : Nat}
    (h : low = ((c.stop :: c.parity :: (List.range 8).reverse.map c.data.getLsbD ++ [false]).takeWhile
      (· == false)).length) :
    lateReturn c = if c.stop = true then 0 else 12 - low := by
  unfold lateReturn
  cases hs : c.stop with
  | true => rfl
  | false =>
    have bits : (false :: dataBits c.data ++ [c.parity]).reverse =
        c.parity :: (List.range 8).reverse.map c.data.getLsbD ++ [false] := rfl
    have test : (fun b : Bool => !b) = fun b => b == false := by
      funext b
      cases b <;> rfl
    have stop_too : low = ((c.parity :: (List.range 8).reverse.map c.data.getLsbD ++ [false]).takeWhile
        (· == false)).length + 1 := by
      rw [h, hs]
      rfl
    rw [if_neg Bool.false_ne_true, if_neg Bool.false_ne_true, bits, test, stop_too]
    omega

/-- Settles O10: the character's fault, then the frame's by the place of its first bad character. -/
theorem frameFaultsFound : Obligations.FrameFaultsFound := by
  refine ⟨charFault_cases, fun k pl x hl => ?whole, fun k l rest h => frameFaultOf_oversize h k rest,
    fun c f rest k l got low late hc hlow hlate => ?bad⟩
  case whole =>
    have hlen : (BitVec.ofNat 8 pl.length).toNat = pl.length := by
      rw [BitVec.toNat_ofNat]
      omega
    have check := bodyFault_sound pl [k, BitVec.ofNat 8 pl.length] 0 [sentChar x]
    rw [List.map_append, List.map_cons, List.map_cons, List.cons_append, List.cons_append,
      frameFaultOf_body (by rwa [hlen]), hlen]
    erw [check]
    rw [bodyFault_check, List.cons_append, List.cons_append, List.nil_append]
    split <;> rfl
  case bad =>
    have hback : lateReturn c = late := (lateReturn_eq hlow).trans hlate.symm
    refine ⟨frameFaultOf_kind hc rest, hback ▸ frameFaultOf_len hc k rest, fun hl hg => ?payload,
      fun hl hg => ?check⟩
    case payload =>
      obtain ⟨m, hm⟩ : ∃ m, l.toNat = got.length + (m + 1) := ⟨l.toNat - got.length - 1, by omega⟩
      rw [List.cons_append, List.cons_append, frameFaultOf_body hl]
      conv_lhs => rw [show bodyFault l.toNat = bodyFault (got.length + (m + 1)) by rw [hm], bodyFault_sound]
      simp [bodyFault, hc]
    case check =>
      rw [List.cons_append, List.cons_append, frameFaultOf_body hl]
      conv_lhs => rw [show bodyFault l.toNat = bodyFault (got.length + 0) by rw [hg]; rfl, bodyFault_sound]
      simp [bodyFault, hc, hback]

end Sys2Proof.Machine
end

section
/-! SUPPORT. The commands' meanings, the time they act at, and what dispatch makes of a request (R1, R159). -/

namespace Sys2Proof.Machine

/-! ### The commands' meanings -/

theorem exec_partReset (dt : Nat) (s : State) : exec (.partReset dt) s = execPartReset dt s := rfl
theorem exec_lrxBreak (dt : Nat) (s : State) : exec (.lrxBreak dt) s = execLrxBreak dt s := rfl
theorem exec_frameBreakCapture (dt : Nat) (s : State) :
    exec (.frameBreakCapture dt) s = execFrameBreakCapture dt s := rfl
theorem exec_frameFault (dt : Nat) (cs : List RxChar) (s : State) :
    exec (.frameFault dt cs) s = execFrameFault dt cs s := rfl
theorem exec_frameTimeout (dt : Nat) (bs : List Byte) (s : State) :
    exec (.frameTimeout dt bs) s = execFrameTimeout dt bs s := rfl
theorem exec_unknownKind (dt : Nat) (kd : Byte) (pl : List Byte) (s : State) :
    exec (.unknownKind dt kd pl) s = execUnknownKind dt kd pl s := rfl
theorem exec_resetPart (dt : Nat) (pl : List Byte) (s : State) :
    exec (.resetPart dt pl) s = execResetPart dt pl s := rfl
theorem exec_clockStart (dt : Nat) (pl : List Byte) (s : State) :
    exec (.clockStart dt pl) s = execClockStart dt pl s := rfl
theorem exec_clockStop (dt : Nat) (pl : List Byte) (s : State) :
    exec (.clockStop dt pl) s = execClockStop dt pl s := rfl
theorem exec_sync (dt : Nat) (pl : List Byte) (s : State) : exec (.sync dt pl) s = execSync dt pl s := rfl
theorem exec_clockParams (dt : Nat) (pl : List Byte) (s : State) :
    exec (.clockParams dt pl) s = execClockParams dt pl s := rfl
theorem exec_clockRead (dt : Nat) (pl : List Byte) (s : State) :
    exec (.clockRead dt pl) s = execClockRead dt pl s := rfl
theorem exec_busConfig (dt : Nat) (pl : List Byte) (s : State) :
    exec (.busConfig dt pl) s = execBusConfig dt pl s := rfl
theorem exec_busReset (dt : Nat) (pl : List Byte) (s : State) :
    exec (.busReset dt pl) s = execBusReset dt pl s := rfl
theorem exec_panelThresholds (dt : Nat) (pl : List Byte) (s : State) :
    exec (.panelThresholds dt pl) s = execPanelThresholds dt pl s := rfl
theorem exec_panelRead (dt : Nat) (pl : List Byte) (s : State) :
    exec (.panelRead dt pl) s = execPanelRead dt pl s := rfl
theorem exec_stuckLimit (dt : Nat) (pl : List Byte) (s : State) :
    exec (.stuckLimit dt pl) s = execStuckLimit dt pl s := rfl
theorem exec_judgeParams (dt : Nat) (pl : List Byte) (s : State) :
    exec (.judgeParams dt pl) s = execJudgeParams dt pl s := rfl
theorem exec_stageOffset (dt : Nat) (pl : List Byte) (s : State) :
    exec (.stageOffset dt pl) s = execStageOffset dt pl s := rfl
theorem exec_stageOpen (dt : Nat) (pl : List Byte) (s : State) :
    exec (.stageOpen dt pl) s = execStageOpen dt pl s := rfl
theorem exec_stageClose (dt : Nat) (pl : List Byte) (s : State) :
    exec (.stageClose dt pl) s = execStageClose dt pl s := rfl
theorem exec_stageStatus (dt : Nat) (pl : List Byte) (s : State) :
    exec (.stageStatus dt pl) s = execStageStatus dt pl s := rfl
theorem exec_notes (dt : Nat) (pl : List Byte) (s : State) :
    exec (.notes dt pl) s = execNotes dt pl s := rfl
theorem exec_lampSet (dt : Nat) (pl : List Byte) (s : State) :
    exec (.lampSet dt pl) s = execLampSet dt pl s := rfl
theorem exec_lampFlash (dt : Nat) (pl : List Byte) (s : State) :
    exec (.lampFlash dt pl) s = execLampFlash dt pl s := rfl
theorem exec_frameStart (dt : Nat) (s : State) : exec (.frameStart dt) s = execFrameStart dt s := rfl
theorem exec_transmitFrameEnd (dt : Nat) (s : State) :
    exec (.transmitFrameEnd dt) s = execTransmitFrameEnd dt s := rfl
theorem exec_transmitGapEnd (dt : Nat) (s : State) :
    exec (.transmitGapEnd dt) s = execTransmitGapEnd dt s := rfl
theorem exec_lholdAssert (dt : Nat) (s : State) : exec (.lholdAssert dt) s = execLholdAssert dt s := rfl
theorem exec_lholdRelease (dt : Nat) (s : State) : exec (.lholdRelease dt) s = execLholdRelease dt s := rfl
theorem exec_tallyPlace (dt : Nat) (d : Side) (s : State) :
    exec (.tallyPlace dt d) s = execTallyPlace dt d s := rfl
theorem exec_housekeeping (dt : Nat) (s : State) : exec (.housekeeping dt) s = execHousekeeping dt s := rfl
theorem exec_strobeCompare (dt : Nat) (d : Side) (s : State) :
    exec (.strobeCompare dt d) s = execStrobeCompare dt d s := rfl
theorem exec_lateStrobe (dt : Nat) (d : Side) (s : State) :
    exec (.lateStrobe dt d) s = execLateStrobe dt d s := rfl
theorem exec_strobeCapture (dt : Nat) (d : Side) (b : Bool) (s : State) :
    exec (.strobeCapture dt d b) s = execStrobeCapture dt d b s := rfl
theorem exec_strobeSent (dt : Nat) (d : Side) (s : State) :
    exec (.strobeSent dt d) s = execStrobeSent dt d s := rfl
theorem exec_pollHeader (dt : Nat) (d : Side) (s : State) :
    exec (.pollHeader dt d) s = execPollHeader dt d s := rfl
theorem exec_pollResponse (dt : Nat) (d : Side) (k : RxChar) (l : RxChar) (z : RxChar) (s : State) :
    exec (.pollResponse dt d k l z) s = execPollResponse dt d k l z s := rfl
theorem exec_responseLimit (dt : Nat) (d : Side) (s : State) :
    exec (.responseLimit dt d) s = execResponseLimit dt d s := rfl
theorem exec_contention (dt : Nat) (d : Side) (s : State) :
    exec (.contention dt d) s = execContention dt d s := rfl
theorem exec_stuckLine (dt : Nat) (d : LowLine) (s : State) :
    exec (.stuckLine dt d) s = execStuckLine dt d s := rfl
theorem exec_downProbe (dt : Nat) (d : Side) (s : State) :
    exec (.downProbe dt d) s = execDownProbe dt d s := rfl
theorem exec_probeLow (dt : Nat) (d : Side) (s : State) :
    exec (.probeLow dt d) s = execProbeLow dt d s := rfl
theorem exec_busUp (dt : Nat) (d : Side) (s : State) : exec (.busUp dt d) s = execBusUp dt d s := rfl
theorem exec_busResetCompletion (dt : Nat) (d : Side) (b : Bool) (s : State) :
    exec (.busResetCompletion dt d b) s = execBusResetCompletion dt d b s := rfl
theorem exec_flashExpiry (dt : Nat) (s : State) : exec (.flashExpiry dt) s = execFlashExpiry dt s := rfl
theorem exec_powerUp (s : State) : exec .powerUp s = execPowerUp s := rfl
theorem exec_resetnRelease (s : State) : exec .resetnRelease s = execResetnRelease s := rfl

/-! ### Time -/

/-- An event of the running device acts at its local time (R1). -/
theorem Reaches.after {s : State} {dt : Nat} {t : LocalTime} (h : Reaches s dt t) (f : State → State) :
    s.after dt f = f { s with localTime := t } := by
  rw [State.after_of_released h.released, State.tick, h.time]

theorem Reaches.tick {s : State} {dt : Nat} {t : LocalTime} (h : Reaches s dt t) :
    s.tick dt = { s with localTime := t } := by
  rw [State.tick, h.time]

/-- Every command but those of the pins and of power is an event of the running device (R1, R167). -/
theorem exec_eq_after (i : Instr) (s : State) (h1 : i ≠ .deviceReset) (h2 : i ≠ .powerUp)
    (h3 : i ≠ .resetnRelease) (h4 : ∀ dt, i ≠ .lholdAssert dt) (h5 : ∀ dt, i ≠ .lholdRelease dt) :
    ∃ dt f, exec i s = .next (s.after dt f) := by
  cases i with
  | deviceReset => exact absurd rfl h1
  | powerUp => exact absurd rfl h2
  | resetnRelease => exact absurd rfl h3
  | lholdAssert dt => exact absurd rfl (h4 dt)
  | lholdRelease dt => exact absurd rfl (h5 dt)
  | _ => exact ⟨_, _, rfl⟩

/-! ### Requests -/

/-- Every request of the catalogue is dispatched by its entry there (10.9, R159). -/
theorem exec_request {i : Instr} {f : RequestForm} {dt : Nat} {pl : List Byte}
    (h : requestOf i = some (f, dt, pl)) (s : State) :
    ∃ owner, exec i s = .next (s.request dt f.kind pl f.lens f.first owner) := by
  cases i <;> cases h <;> exact ⟨_, rfl⟩

@[simp] theorem sideOf_sideCode (d : Side) : sideOf (sideCode d) = d := by cases d <;> rfl

theorem sideCode_le_one (d : Side) : (sideCode d).toNat ≤ 1 := by cases d <;> decide

/-- A request of an allowed length that names a bus, dispatched, reaches its owner: a bus code is never above
1, and test 6 of R159 is about stages. -/
theorem Dispatches.owner_of_bus {s : State} {dt n : Nat} {d : Side} {bs : List Byte} {c : LocalTime}
    (h : Dispatches s dt n c) (hn : (sideCode d :: bs).length = n) (kind : Byte)
    (owner : LocalTime → State → State) :
    s.request dt kind (sideCode d :: bs) [n] .bus owner = owner c (s.arrived dt) :=
  h.owner hn kind owner (List.mem_singleton_self n) (fun _ => sideCode_le_one d) nofun

/-- A request of an allowed length that names a stage, not stage B in doubles, reaches its owner (R159). -/
theorem Dispatches.owner_of_stage {s : State} {dt n : Nat} {d : Side} {bs : List Byte} {c : LocalTime}
    (h : Dispatches s dt n c) (hd : d = .b → s.openDoubles = false) (hn : (sideCode d :: bs).length = n)
    (kind : Byte) {lens : List Nat} (hl : n ∈ lens) (owner : LocalTime → State → State) :
    s.request dt kind (sideCode d :: bs) lens .stage owner = owner c (s.arrived dt) :=
  h.owner hn kind owner hl (fun _ => sideCode_le_one d) fun _ hb => hd (by simpa using hb)

/-- STAGE_OPEN of the allowed length reaches its owner, which itself refuses stage B in doubles (R59, R159). -/
theorem Dispatches.owner_of_openStage {s : State} {dt n : Nat} {d : Side} {bs : List Byte} {c : LocalTime}
    (h : Dispatches s dt n c) (hn : (sideCode d :: bs).length = n) (kind : Byte)
    (owner : LocalTime → State → State) :
    s.request dt kind (sideCode d :: bs) [n] .openStage owner = owner c (s.arrived dt) :=
  h.owner hn kind owner (List.mem_singleton_self n) (fun _ => sideCode_le_one d) nofun

end Sys2Proof.Machine
end

section
/-! SUPPORT. Steps, power, reset and the pins; the transmitter; the receiver; dispatch (chapters 1 and 10). -/

namespace Sys2Proof.Machine

/-! ### Steps -/

theorem step_of_cons {s : State} {i : Instr} {rest : List Instr} (h : s.pending = i :: rest) :
    step s = exec i { s with pending := rest } := by
  rw [step, h]

theorem step_of_nil {s : State} (h : s.pending = []) : step s = .next s := by
  rw [step, h]

/-- Settles O1. -/
theorem stepRunsFrontCommand : Obligations.StepRunsFrontCommand :=
  ⟨fun _ _ _ h => step_of_cons h, fun _ h => step_of_nil h⟩

/-- No change of a block touches the queue of commands. -/
theorem Change.pending_eq {R : Prop} {s t : State} (c : Change R s t) : t.pending = s.pending := by
  cases c with
  | sendReport d =>
    cases hr : (s.stage d).reports with
    | nil => rw [State.sendReport_of_nil hr]
    | cons r rest => rw [State.sendReport_of_cons hr, State.setStage_pending]
  | openStage pl _ =>
    have join : ∀ (t : State) d m, (t.joinStorage d m).pending = t.pending := by
      intro t d m; cases d <;> cases m <;> rfl
    rw [join, State.setStage_pending]
  | judge d b r x _ => simp [State.judgeRecord]
  | reset => rfl
  | _ => simp

/-- Settles O2: every command is a sequence of changes, none of which touches the queue; and every command but
five is an event of the running device. -/
theorem commandsAnswerNext : Obligations.CommandsAnswerNext := by
  constructor
  · intro i s
    obtain ⟨t, ht, hc⟩ := exec_changes (R := False) i s fun _ => False.elim
    exact ⟨t, ht, hc.keeps (P := fun u => u.pending = s.pending) (fun _ _ c h => c.pending_eq.trans h) rfl⟩
  · intro i s held h1 h2 h3 h4 h5
    obtain ⟨dt, f, h⟩ := exec_eq_after i s h1 h2 h3 h4 h5
    rw [h, State.after_of_held held]

/-! ### Power, reset and the pins -/

theorem Reaches.driveLhold {s : State} {dt : Nat} {t : LocalTime} (h : Reaches s dt t) (level : Bool) :
    s.driveLhold dt level = { s with localTime := t, lhold := level } := by
  rw [State.driveLhold, h.after, id]

/-- Settles O3. -/
theorem resetAndPinCommands : Obligations.ResetAndPinCommands := by
  refine ⟨fun _ => rfl, fun _ => rfl, fun _ => rfl, fun s dt t h => ⟨?_, ?_⟩⟩
  · rw [exec_lholdAssert, execLholdAssert, h.driveLhold]
  · rw [exec_lholdRelease, execLholdRelease, h.driveLhold]

/-- Settles O4, block by block. -/
theorem resetValues : Obligations.ResetValues := by
  refine ⟨rfl, rfl, fun d => by cases d <;> rfl, fun d p => ?panels, rfl, fun d => by cases d <;> rfl, rfl,
    fun d p => ?lamps, fun d => by cases d <;> rfl, rfl, rfl, rfl⟩
  case panels => cases d <;> simp [State.reset, State.panels, Panel.reset]
  case lamps => cases d <;> simp [State.reset, LampCtl.reset, LampCtl.lamps, Lamp.reset]

/-! ### The transmitter -/

/-- The RESET_PART ACK takes 58 bit times (R167, R171). -/
theorem frameTime_resetAck : frameTime resetAck = 58 := rfl

/-- Settles O5: each command acts at its own transmitter state and instant. -/
theorem transmitterTimes : Obligations.TransmitterTimes := by
  refine ⟨fun s dt t h => ⟨?noEnd, ?noGapEnd, ?noReset⟩, ?frameEnd, ?gapEnd, ?reset⟩
  case noEnd =>
    intro hn
    rw [exec_transmitFrameEnd, execTransmitFrameEnd, h.after]
    cases hs : s.link.transmitter with
    | sending f start =>
      dsimp only
      rw [if_neg]
      rintro ⟨ht, hr⟩
      exact hn ⟨f, start, hs, ht, hr⟩
    | _ => rfl
  case noGapEnd =>
    intro hn
    rw [exec_transmitGapEnd, execTransmitGapEnd, h.after]
    cases hs : s.link.transmitter with
    | gap start =>
      dsimp only
      rw [if_neg fun ht => hn ⟨start, hs, ht⟩]
    | _ => rfl
  case noReset =>
    intro hn
    rw [exec_partReset, execPartReset, h.after]
    cases hs : s.link.transmitter with
    | sending f start =>
      dsimp only
      rw [if_neg]
      rintro ⟨hr, rfl, ht⟩
      exact hn ⟨start, hs, hr, ht⟩
    | _ => rfl
  case frameEnd =>
    intro s dt t start f h hs ht hr
    rw [exec_transmitFrameEnd, execTransmitFrameEnd, h.after]
    simp only [hs]
    rw [if_pos ⟨ht, hr⟩]
    rfl
  case gapEnd =>
    intro s dt t start h hs ht
    rw [exec_transmitGapEnd, execTransmitGapEnd, h.after]
    simp only [hs]
    rw [if_pos ht]
    rfl
  case reset =>
    intro s dt start h hs hr
    rw [exec_partReset, execPartReset, h.after]
    simp only [hs]
    rw [if_pos ⟨hr, rfl, rfl⟩, State.deviceReset, h.released]
    rfl

/-! ### The arbiter -/

theorem State.startFrame_of_reply {s : State} {r : Reply} {rest : List Reply} (h : s.link.replies = r :: rest) :
    s.startFrame = s.setLink { s.link.send (.reply r) s.localTime with replies := rest } := by
  rw [State.startFrame, h]

theorem State.startFrame_of_notice {s : State} {n : Notice} {rest : List Notice} (h1 : s.link.replies = [])
    (h2 : s.link.notices = n :: rest) :
    s.startFrame = s.setLink { s.link.send (.notice n) s.localTime with notices := rest } := by
  rw [State.startFrame, h1, h2]

theorem State.startFrame_of_idle {s : State} (h1 : s.link.replies = []) (h2 : s.link.notices = [])
    (ha : s.stageA.reports = []) (hb : s.stageB.reports = []) : s.startFrame = s := by
  have : s.reportSource = none := by
    unfold State.reportSource
    cases s.link.lastServed <;> simp [otherSide, State.stage, ha, hb]
  unfold State.startFrame
  rw [h1, h2, this]

/-- The stage served is the one not served last, when it holds a report (R166, step 3). -/
theorem State.reportSource_eq {s : State} {d : Side} (hd : (s.stage d).reports ≠ [])
    (h : d ≠ s.link.lastServed ∨ (s.stage (otherSide d)).reports = []) : s.reportSource = some d := by
  unfold State.reportSource
  cases d <;> cases hl : s.link.lastServed <;> simp_all [otherSide]

theorem State.startFrame_of_report {s : State} {d : Side} {r : Report} {rest : List Report}
    (h1 : s.link.replies = []) (h2 : s.link.notices = []) (hd : (s.stage d).reports = r :: rest)
    (h : d ≠ s.link.lastServed ∨ (s.stage (otherSide d)).reports = []) : s.startFrame = s.sendReport d := by
  unfold State.startFrame
  rw [h1, h2, State.reportSource_eq (by simp [hd]) h]

/-- Settles O6: the arbiter's choice, and the states in which it makes none. -/
theorem frameStartChooses : Obligations.FrameStartChooses := by
  have start : ∀ (s : State) (dt : Nat) (t : LocalTime), Reaches s dt t → s.link.transmitter = .idle →
      s.lhold = false → exec (.frameStart dt) s = .next (State.startFrame { s with localTime := t }) := by
    intro s dt t h hidle hlow
    rw [exec_frameStart, execFrameStart, h.after, if_pos ⟨hidle, hlow⟩]
  constructor
  · intro s dt t h hbusy
    rw [exec_frameStart, execFrameStart, h.after, if_neg]
    rintro ⟨hidle, hlow⟩
    dsimp only at hidle hlow
    rcases hbusy with hb | ⟨f, x, hb⟩ | ⟨x, hb⟩
    · simp [hlow] at hb
    · simp [hidle] at hb
    · simp [hidle] at hb
  · intro s dt t h hidle hlow
    have go := start s dt t h hidle hlow
    refine ⟨fun r rest hr => ?_, fun n rest hr hn => ?_, fun d r rest hr hn hd hs => ?_, fun hr hn ha hb => ?_⟩
    · rw [go, State.startFrame_of_reply (s := { s with localTime := t }) hr]
      rfl
    · rw [go, State.startFrame_of_notice (s := { s with localTime := t }) hr hn]
      rfl
    · have stage_eq : ∀ e, State.stage { s with localTime := t } e = s.stage e := by intro e; cases e <;> rfl
      have head : (State.stage { s with localTime := t } d).reports = r :: rest := by rw [stage_eq, hd]
      rw [go, State.startFrame_of_report (s := { s with localTime := t }) hr hn head (by rwa [stage_eq]),
        State.sendReport_of_cons head, stage_eq]
    · rw [go, State.startFrame_of_idle (s := { s with localTime := t }) hr hn ha hb]

/-! ### The receiver -/

theorem Receiver.capture?_eq {r : Receiver} {c : LocalTime} (h : r.capture? = some c) :
    ∃ f, r = .receiving f ∧ f.capture = c := by
  cases r with
  | receiving f => exact ⟨f, rfl, Option.some.inj h⟩
  | _ => cases h

/-- Settles O11, by the receiver's state. -/
theorem breakOpensFrame : Obligations.BreakOpensFrame := by
  intro s dt t h
  have brk : exec (.lrxBreak dt) s = execLrxBreak dt s := exec_lrxBreak dt s
  rw [execLrxBreak, h.after] at brk
  have cap : exec (.frameBreakCapture dt) s = execFrameBreakCapture dt s := exec_frameBreakCapture dt s
  rw [execFrameBreakCapture, h.after] at cap
  refine ⟨?_, fun f hf hl => ?_, fun f hf hl => ?_, fun hn => ?_, fun hr => ?_⟩
  · rintro (hr | hr)
    · simp only [brk, hr]
      rfl
    · simp only [brk, hr]
      rw [← hr]
  · simp only [brk, hf]
    rw [if_neg (by omega)]
  · simp only [brk, hf]
    rw [if_pos hl]
    rfl
  · rw [cap]
    cases hr : s.link.receiver with
    | inBreak => exact absurd hr hn
    | _ => rfl
  · simp only [cap, hr]
    rfl

/-- The completion limit of the bytes received (R156). -/
theorem frameLimitOf_eq_some {bs : List Byte} {limit : Nat} :
    frameLimitOf bs = some limit ↔ (bs.length ≤ 1 ∧ limit = 51 ∨
      ∃ k l rest, bs = k :: l :: rest ∧ l.toNat ≤ 60 ∧ rest.length ≤ l.toNat ∧
        limit = (l.toNat + 3) * 17) := by
  match bs with
  | [] => simp [frameLimitOf, limitBeforeLen, eq_comm]
  | [k] => simp [frameLimitOf, limitBeforeLen, eq_comm]
  | k :: l :: rest =>
    by_cases h : l.toNat ≤ 60 ∧ rest.length ≤ l.toNat
    · simp [frameLimitOf, Config.maxPayload, limitAfterLen, h, eq_comm]
    · simp [frameLimitOf, Config.maxPayload, h]
      omega

/-- Settles O12: a fault found in time, or the limit reached, discards the partial frame. -/
theorem faultDiscardsFrame : Obligations.FaultDiscardsFrame := by
  refine ⟨fun s dt t h => ⟨fun chars hn => ?_, fun got hn => ?_⟩, ?fault, ?timeout⟩
  · rw [exec_frameFault, execFrameFault, h.after]
    dsimp only
    split
    · rename_i f fault limit hr hf
      rw [if_neg fun hle => hn ⟨f.capture, fault, limit, by rw [hr]; rfl, hf, hle⟩]
    · rfl
  · rw [exec_frameTimeout, execFrameTimeout, h.after]
    dsimp only
    split
    · rename_i f limit hr hf
      rw [if_neg fun he => hn ⟨f.capture, limit, by rw [hr]; rfl, he, frameLimitOf_eq_some.1 hf⟩]
    · rfl
  case fault =>
    intro s dt t c chars f limit e x code h hc hf hle he hx
    obtain ⟨p, hr, rfl⟩ := Receiver.capture?_eq hc
    rw [exec_frameFault, execFrameFault, h.after]
    simp only [hr, hf]
    rw [if_pos hle]
    subst he
    cases f <;> cases hx <;> rfl
  case timeout =>
    intro s dt t c got limit h hc hl he
    obtain ⟨p, hr, rfl⟩ := Receiver.capture?_eq hc
    rw [exec_frameTimeout, execFrameTimeout, h.after]
    simp only [hr, frameLimitOf_eq_some.2 hl]
    rw [if_pos he]
    rfl

/-! ### Dispatch -/

/-- A good frame is discarded while a reset is pending (test 1 of R159). -/
theorem Completes.request_discarded {s : State} {dt : Nat} {pl : List Byte} {c : LocalTime}
    (h : Completes s dt pl.length c) (hreset : s.link.resetPending = true) (kind : Byte) (lens : List Nat)
    (first : FirstByte) (owner : LocalTime → State → State) :
    s.request dt kind pl lens first owner = s.arrived dt := by
  have hpending : (s.arrived dt).link.resetPending = true := by simp [hreset]
  rw [State.request, State.after_of_released h.released, h.goodFrame]
  dsimp only [State.receive]
  rw [State.arrived_eq, if_pos hpending]

/-- UNKNOWN_KIND is dispatched as a request that has no catalogue entry is: refused with detail 0 (R159). -/
theorem exec_unknownKind_eq {kind : Byte} (hk : requestCodes.contains kind = false) (dt : Nat)
    (pl : List Byte) (s : State) :
    exec (.unknownKind dt kind pl) s =
      .next (s.request dt kind pl [pl.length] .none fun _ s => s.refuse kind unknownKindCode 0) := by
  rw [exec_unknownKind, execUnknownKind, State.request]
  congr 2
  funext s
  rw [hk, if_neg Bool.false_ne_true]
  cases s.goodFrame pl with
  | none => rfl
  | some c =>
    dsimp only
    congr 1
    funext s
    rw [State.checkRequest_owner (List.mem_singleton_self _) (absurd rfl) nofun]

/-- A dispatched frame, known or not, is a request of its kind. -/
theorem exec_dispatched {i : Instr} {kind : Byte} {dt : Nat} {pl : List Byte}
    (h : (∃ f, requestOf i = some (f, dt, pl) ∧ kind = f.kind) ∨
      (i = .unknownKind dt kind pl ∧ requestCodes.contains kind = false)) (s : State) :
    ∃ lens first owner, exec i s = .next (s.request dt kind pl lens first owner) := by
  rcases h with ⟨f, hf, rfl⟩ | ⟨rfl, hk⟩
  · obtain ⟨owner, ho⟩ := exec_request hf s
    exact ⟨_, _, _, ho⟩
  · exact ⟨_, _, _, exec_unknownKind_eq hk dt pl s⟩

/-- UNKNOWN_KIND with a request code only lets time pass (log 2). -/
theorem exec_unknownKind_of_request {kind : Byte} (hk : requestCodes.contains kind = true) {dt : Nat}
    {s : State} {t : LocalTime} (h : Reaches s dt t) (pl : List Byte) :
    exec (.unknownKind dt kind pl) s = .next { s with localTime := t } := by
  rw [exec_unknownKind, execUnknownKind, h.after, if_pos hk]

/-- Settles O13: every request and every unknown kind goes through the same dispatch. -/
theorem framesDiscardedOrShed : Obligations.FramesDiscardedOrShed := by
  refine ⟨?incomplete, fun kind dt pl s t h hk => exec_unknownKind_of_request hk h pl, ?complete⟩
  case incomplete =>
    intro i kind dt pl s t hi h hn
    have lapse : ∀ kind lens first owner, s.request dt kind pl lens first owner = { s with localTime := t } := by
      intro kind lens first owner
      rw [← h.tick, State.request_of_incomplete h.released]
      exact State.goodFrame_eq_none (by rwa [h.time])
    rcases hi with ⟨f, hf⟩ | rfl
    · obtain ⟨owner, ho⟩ := exec_request hf s
      rw [ho, lapse]
    · cases hk : requestCodes.contains kind
      · rw [exec_unknownKind_eq hk, lapse]
      · exact exec_unknownKind_of_request hk h pl
  case complete =>
    intro i kind dt pl s c hi h
    obtain ⟨lens, first, owner, he⟩ := exec_dispatched hi s
    refine ⟨fun hp => ?_, fun hp hfull => ?_⟩
    · rw [he, h.request_discarded hp]
    · rw [he, h.request_shed rfl hp hfull]
      rfl

/-- Settles O14: tests 4 to 6 of R159, whatever the request's owner. -/
theorem requestsCheckedInOrder : Obligations.RequestsCheckedInOrder := by
  intro i f dt pl s c hi h
  obtain ⟨owner, he⟩ := exec_request hi s
  rw [he, h.request, State.checkRequest]
  have allowed : pl.length ∈ f.lens → ¬ (¬ f.lens.contains pl.length = true) := by simp
  refine ⟨fun hl => ?_, fun hl hf hb => ?_, fun hl hf hb ho => ?_⟩
  · rw [if_pos (by simpa using hl)]
    rfl
  · rw [if_neg (allowed hl), if_pos ⟨hf, hb⟩]
    rfl
  · rw [if_neg (allowed hl), if_neg (by simp [hb]), if_pos ⟨hf, by simp [hb, sideOf], by simpa using ho⟩]
    rfl

/-- Settles O15. -/
theorem unknownKindRefused : Obligations.UnknownKindRefused := by
  intro kind dt pl s c hk h
  have unknown : requestCodes.contains kind = false := by
    rw [List.contains_eq_mem, decide_eq_false_iff_not]
    exact fun hmem => hk kind hmem rfl
  rw [exec_unknownKind_eq unknown, h.owner_of_unnamed rfl]
  rfl

/-- Settles O17. -/
theorem resetPartQueuesAck : Obligations.ResetPartQueuesAck := by
  intro dt s c h
  rw [exec_resetPart, execResetPart, h.owner_of_unnamed rfl]
  rfl

end Sys2Proof.Machine
end

section
/-! SUPPORT. The chart clock's update, its requests and its housekeeping event (chapter 1). -/

namespace Sys2Proof.Machine

/-! ### The range clamp and the update -/

theorem Clock.clamp_of_above {c : Clock} (h : 2000000000 < c.chart) :
    c.clamp = ({ c with chart := 2000000000, correction := 0 }, some (c.chart - 2000000000)) := by
  rw [Clock.clamp, if_pos (by exact h)]
  rfl

theorem Clock.clamp_of_below {c : Clock} (h : c.chart < -60000000) :
    c.clamp = ({ c with chart := -60000000 }, none) := by
  rw [Clock.clamp, if_neg (by simp only [Config.chartMax]; omega), if_pos (by exact h)]
  rfl

theorem Clock.clamp_of_within {c : Clock} (h : -60000000 ≤ c.chart) (h' : c.chart ≤ 2000000000) :
    c.clamp = (c, none) := by
  rw [Clock.clamp, if_neg (by simp only [Config.chartMax]; omega),
    if_neg (by simp only [Config.chartMin]; omega)]

theorem Clock.update_of_stopped {c : Clock} (h : c.running = false) (t : LocalTime) :
    c.update t = ({ c with lastUpdate := t }, none) := by
  rw [Clock.update, h, if_neg Bool.false_ne_true]

theorem Clock.update_of_running {c : Clock} (h : c.running = true) (t : LocalTime) :
    c.update t = Clock.clamp { c with
      chart := c.chart + elapsed c.lastUpdate t + c.slewStep (elapsed c.lastUpdate t)
      correction := c.correction - c.slewStep (elapsed c.lastUpdate t)
      lastUpdate := t } := by
  rw [Clock.update, h, if_pos rfl]

/-- Settles O20: an update that runs is the range clamp of the slewed chart time. -/
theorem clockUpdateSlews : Obligations.ClockUpdateSlews := by
  intro c t d a step x hd ha hs hx
  have hslew : c.slewStep (elapsed c.lastUpdate t) = step := by
    rw [hs, ha, hd]
    rfl
  have hrun : c.running = true →
      c.update t = Clock.clamp { c with chart := x, correction := c.correction - step, lastUpdate := t } := by
    intro hr
    rw [Clock.update_of_running hr, hslew, hx, hd]
  refine ⟨fun hr => Clock.update_of_stopped hr t, fun hr h => ?_, fun hr h => ?_, fun hr h h' => ?_⟩
  · rw [hrun hr, Clock.clamp_of_above h]
  · rw [hrun hr, Clock.clamp_of_below h]
  · rw [hrun hr, Clock.clamp_of_within h h']

/-! ### Positions and storing -/

theorem outOfChart_iff (p : Int) : outOfChart p = true ↔ p < -60000000 ∨ 2000000000 < p :=
  decide_eq_true_iff

theorem State.updateClock_eq (s : State) : s.updateClock = s.storeClock (s.clock.update s.localTime) := rfl

@[simp] theorem State.storeClock_clock (s : State) (r : Clock × Option Int) : (s.storeClock r).clock = r.1 := by
  rcases s.storeClock_cases r with h | ⟨x, _, h⟩ <;> simp [h]

@[simp] theorem State.storeClock_localTime (s : State) (r : Clock × Option Int) :
    (s.storeClock r).localTime = s.localTime := by
  rcases s.storeClock_cases r with h | ⟨x, _, h⟩ <;> simp [h]

@[simp] theorem State.storeClock_stage (s : State) (r : Clock × Option Int) (d : Side) :
    (s.storeClock r).stage d = s.stage d := by
  rcases s.storeClock_cases r with h | ⟨x, _, h⟩ <;> simp [h]

/-! ### Requests -/

theorem State.anyPlaying_iff (s : State) :
    s.anyPlaying = true ↔ s.stageA.state = .playing ∨ s.stageB.state = .playing := by
  simp [State.anyPlaying]

theorem Clock.start_of_above {c : Clock} {p : Int} {cap t : LocalTime} (h : 2000000000 < p + elapsed cap t) :
    c.start p cap t = ({ c with
      running := true, chart := 2000000000, lastUpdate := t, correction := 0, lastSync := t,
      silenceNotified := false, housekeeping := some (later t 1000000) },
      some (p + elapsed cap t - 2000000000)) := by
  rw [Clock.start, Clock.clamp_of_above h]

theorem Clock.start_of_within {c : Clock} {p : Int} {cap t : LocalTime} (h : -60000000 ≤ p)
    (h' : p + elapsed cap t ≤ 2000000000) :
    c.start p cap t = ({ c with
      running := true, chart := p + elapsed cap t, lastUpdate := t, correction := 0, lastSync := t,
      silenceNotified := false, housekeeping := some (later t 1000000) }, none) := by
  rw [Clock.start, Clock.clamp_of_within (by dsimp only; omega) h']

/-- Settles O21: the two refusals, and the start with the chart time above its range or in it. -/
theorem clockStartRuns : Obligations.ClockStartRuns := by
  intro dt s c t p x h ht hlo hhi hx
  have owner := exec_clockStart dt (leSigned p) s
  rw [execClockStart, h.owner_of_unnamed (leSigned_length p)] at owner
  simp only [signedAt_leSigned_last hlo hhi, State.arrived_clock, State.arrived_localTime, ← ht] at owner
  refine ⟨fun hr => ?_, fun hr hp => ?_, fun hr hp hp' => ?_⟩
  · rw [owner, if_pos hr]
    rfl
  · rw [owner, if_neg (by simp [hr]), if_pos ((outOfChart_iff p).2 hp)]
    rfl
  · rw [owner, if_neg (by simp [hr]), if_neg (by rw [outOfChart_iff]; omega)]
    by_cases hb : 2000000000 < x
    · rw [Clock.start_of_above (hx ▸ hb), if_pos hb, min_eq_left hb.le, hx]
      rfl
    · rw [Clock.start_of_within hp (by omega), if_neg hb, min_eq_right (by omega), hx]
      rfl

/-- Settles O22: the refusals by the stage that plays, and the clock running or stopped. -/
theorem clockStopHolds : Obligations.ClockStopHolds := by
  intro dt s c t u h ht hu
  have owner := exec_clockStop dt [] s
  rw [execClockStop, h.owner_of_unnamed rfl] at owner
  have silent : s.stageA.state ≠ .playing → s.stageB.state ≠ .playing →
      ¬ (s.arrived dt).anyPlaying = true := by
    rw [State.anyPlaying_iff]
    exact fun ha hb h => h.elim ha hb
  refine ⟨fun ha => ?_, fun ha hb => ?_, fun ha hb hr => ?_, fun ha hb hr => ?_⟩
  · rw [owner, if_pos ((s.arrived dt).anyPlaying_iff.2 (.inl ha)), if_pos (by exact ha)]
    rfl
  · rw [owner, if_pos ((s.arrived dt).anyPlaying_iff.2 (.inr hb)), if_neg (by exact ha)]
    rfl
  · rw [owner, if_neg (silent ha hb), State.updateClock_eq, State.arrived_clock, State.arrived_localTime, ← ht,
      ← hu]
    have hrun : u.1.running = true := by rw [hu, Clock.update_running, hr]
    dsimp only
    rw [State.storeClock_clock, Clock.stop, if_pos hrun]
    rfl
  · rw [owner, if_neg (silent ha hb), State.updateClock_eq, State.arrived_clock, State.arrived_localTime, ← ht,
      Clock.update_of_stopped hr]
    dsimp only
    rw [State.storeClock_clock, Clock.stop, if_neg (by simp [hr])]
    rfl

theorem Clock.applySync_of_slew {c : Clock} {e : Int} (h : e.natAbs ≤ c.jumpLimit) (t : LocalTime) :
    c.applySync e t =
      (({ c with correction := e, lastSync := t, silenceNotified := false }, none), false) := by
  rw [Clock.applySync, if_neg (by exact Nat.not_lt.2 h)]

theorem Clock.applySync_of_jump {c : Clock} {e : Int} (h : c.jumpLimit < e.natAbs) (t : LocalTime) :
    c.applySync e t =
      (Clock.clamp { c with
        chart := c.chart + e, correction := 0, lastSync := t, silenceNotified := false }, true) := by
  rw [Clock.applySync, if_pos (by exact h)]

theorem State.setClock_setClock (s : State) (x y : Clock) : (s.setClock x).setClock y = s.setClock y := rfl

/-- Settles O23: the refusals, then the slew, and the jump within the range and above it. -/
theorem syncFollowsPosition : Obligations.SyncFollowsPosition := by
  intro dt s c t p e u h ht hlo hhi hu he
  have owner := exec_sync dt (leSigned p) s
  rw [execSync, h.owner_of_unnamed (leSigned_length p)] at owner
  simp only [signedAt_leSigned_last hlo hhi, State.updateClock_eq, State.arrived_clock,
    State.arrived_localTime, ← ht, ← hu, State.storeClock_clock, State.storeClock_localTime] at owner
  rw [Clock.syncError, ← he] at owner
  have taken : s.clock.running = true → -60000000 ≤ p → p ≤ 2000000000 →
      exec (.sync dt (leSigned p)) s = .next (State.ack
        (if (u.1.applySync e t).2 = true then
          (((s.arrived dt).storeClock u).storeClock (u.1.applySync e t).1).raise .clockJump none 0 e
        else ((s.arrived dt).storeClock u).storeClock (u.1.applySync e t).1) 0x12
          (leSigned e ++ [boolByte (u.1.applySync e t).2])) := by
    intro hr hp hp'
    rw [owner, if_neg (by simp [hr]), if_neg (by rw [outOfChart_iff]; omega)]
  refine ⟨fun hr => ?_, fun hr hp => ?_, fun hr hp hp' hj => ?_, fun hr hp hp' hj hc => ?_,
    fun hr hp hp' hj hc => ?_⟩
  · rw [owner, if_pos (by simp [hr])]
    rfl
  · rw [owner, if_neg (by simp [hr]), if_pos ((outOfChart_iff p).2 hp)]
    rfl
  · rw [taken hr hp hp', Clock.applySync_of_slew hj]
    rfl
  · rw [taken hr hp hp', Clock.applySync_of_jump hj]
    by_cases hb : u.1.chart + e < -60000000
    · rw [Clock.clamp_of_below hb, max_eq_left hb.le]
      rfl
    · rw [Clock.clamp_of_within (by dsimp only; omega) hc, max_eq_right (by omega)]
      rfl
  · rw [taken hr hp hp', Clock.applySync_of_jump hj, Clock.clamp_of_above hc]
    rfl

theorem clampNat_eq {lo hi v : Nat} (h : lo ≤ hi) : clampNat lo hi v = max lo (min hi v) := by
  unfold clampNat
  omega

theorem clampInt_eq {lo hi v : Int} (h : lo ≤ hi) : clampInt lo hi v = max lo (min hi v) := by
  unfold clampInt
  omega

/-- Settles O24. -/
theorem clockParamsClamped : Obligations.ClockParamsClamped := by
  intro dt s c slew jump silence j h h1 h2 h3 hj
  have f1 : fieldAt (leBytes 2 slew ++ leBytes 4 jump ++ leBytes 2 silence) 0 2 = slew := by
    simp [Nat.mod_eq_of_lt h1]
  have f2 : fieldAt (leBytes 2 slew ++ leBytes 4 jump ++ leBytes 2 silence) 2 4 = jump := by
    simp [Nat.mod_eq_of_lt h2]
  have f3 : fieldAt (leBytes 2 slew ++ leBytes 4 jump ++ leBytes 2 silence) 6 2 = silence := by
    simp [Nat.mod_eq_of_lt h3]
  have hlimit : clampNat 1000 100000 jump = j := by rw [hj, clampNat_eq (by decide)]
  have hslew : clampNat 0 10000 slew = min 10000 slew := by rw [clampNat_eq (by decide), Nat.zero_max]
  have hsil : clampNat 100 10000 silence = max 100 (min 10000 silence) := clampNat_eq (by decide)
  rw [exec_clockParams, execClockParams, h.owner_of_unnamed (by simp)]
  simp only [f1, f2, f3, Clock.setParams, hlimit, hslew, hsil, clampInt_eq (show -(j : Int) ≤ j by omega)]
  rfl

/-- Settles O25. -/
theorem clockReadAnswers : Obligations.ClockReadAnswers := by
  intro dt s c t u h ht hu
  have hrun : u.1.running = s.clock.running := by rw [hu, Clock.update_running]
  have hbyte : [boolByte s.clock.running] = if s.clock.running = true then ([1] : List Byte) else [0] := by
    cases s.clock.running <;> rfl
  rw [exec_clockRead, execClockRead, h.owner_of_unnamed rfl]
  simp only [State.updateClock_eq, State.arrived_clock, State.arrived_localTime, ← ht, ← hu,
    State.storeClock_clock, State.storeClock_localTime, hrun, hbyte]
  rfl

/-! ### Housekeeping -/

theorem State.storeClock_anyPlaying (s : State) (r : Clock × Option Int) :
    (s.storeClock r).anyPlaying = s.anyPlaying := by
  rcases s.storeClock_cases r with h | ⟨x, _, h⟩ <;> simp [h]

/-- The silence test of R18 on the age held by R17. -/
theorem Clock.silenceFound_iff (c : Clock) (playing : Bool) (h : LocalTime) :
    c.silenceFound playing h = true ↔
      playing = true ∧ c.silenceMs * 1000 < elapsed c.lastSync h ∧ c.silenceNotified = false := by
  simp [Clock.silenceFound, and_assoc]

/-- Settles O26: at the compare, with the silence found or not; and away from it. -/
theorem housekeepingEvent : Obligations.HousekeepingEvent := by
  intro dt s t ls u h hu hls
  rw [exec_housekeeping, execHousekeeping, h.after]
  dsimp only
  have kept : u.1.afterHousekeeping t =
      { u.1 with housekeeping := some (later t 1000000), lastSync := ls } := by
    rw [hls]
    rfl
  have found : ∀ c : Clock, c = { u.1 with housekeeping := some (later t 1000000), lastSync := ls } →
      (c.silenceFound s.anyPlaying t = true ↔
        (s.stageA.state = .playing ∨ s.stageB.state = .playing) ∧
          u.1.silenceMs * 1000 < elapsed ls t ∧ u.1.silenceNotified = false) := by
    rintro c rfl
    rw [Clock.silenceFound_iff, State.anyPlaying_iff]
  have act : State.housekeep { s with localTime := t } =
      if (s.stageA.state = .playing ∨ s.stageB.state = .playing) ∧
          u.1.silenceMs * 1000 < elapsed ls t ∧ u.1.silenceNotified = false then
        ((State.storeClock { s with localTime := t } u).setClock
          { u.1 with
            housekeeping := some (later t 1000000), lastSync := ls, silenceNotified := true }).raise
              .syncStale none 0 (elapsed ls t)
      else (State.storeClock { s with localTime := t } u).setClock
        { u.1 with housekeeping := some (later t 1000000), lastSync := ls } := by
    simp only [State.housekeep, State.updateClock_eq, ← hu, State.storeClock_clock,
      State.storeClock_localTime, State.storeClock_anyPlaying, kept]
    exact if_congr (found _ rfl) rfl rfl
  refine ⟨fun hn => ?_, fun ht hs => ?_, fun ht hs => ?_⟩
  · rw [if_neg hn]
  · rw [if_pos ht, act, if_pos hs]
  · rw [if_pos ht, act, if_neg hs]

end Sys2Proof.Machine
end

section
/-! SUPPORT. Requests to the bus controllers, the sensing units and lamp control (2.7, 3.6, 9.4). -/

namespace Sys2Proof.Machine

/-! ### Bytes of a payload -/

theorem leBytes_one_toNat (b : Byte) : leBytes 1 b.toNat = [b] := by
  simp [leBytes]

/-- A field of two bytes after others. -/
theorem fieldAt_pair_append (lo hi : Byte) (bs : List Byte) :
    fieldAt (lo :: hi :: bs) 0 2 = lo.toNat + 256 * hi.toNat := by
  simp [fieldAt, leNat]

/-- The nine bits of a panel set taken from two bytes, as a field again. -/
theorem leBytes_panelSet (lo hi : Byte) :
    leBytes 2 (BitVec.ofNat 9 (lo.toNat + 256 * hi.toNat)).toNat = [lo, hi &&& 1] := by
  have hlo := lo.isLt
  have hbit : (hi &&& 1).toNat = hi.toNat % 2 := Nat.and_two_pow_sub_one_eq_mod hi.toNat 1
  simp only [leBytes, BitVec.toNat_ofNat, List.cons.injEq, and_true]
  refine ⟨BitVec.eq_of_toNat_eq ?_, BitVec.eq_of_toNat_eq ?_⟩
  · rw [BitVec.toNat_ofNat]
    omega
  · rw [BitVec.toNat_ofNat, hbit]
    omega

/-- The nine panels of a set are named by the low bits of its field. -/
theorem getLsbD_panelSet (n : Nat) (i : Fin 9) :
    (BitVec.ofNat 9 n).getLsbD i.val = (BitVec.ofNat 16 n).getLsbD i.val := by
  have hi := i.isLt
  rw [BitVec.getLsbD_ofNat, BitVec.getLsbD_ofNat]
  simp [hi, show i.val < 16 by omega]

theorem smallCode_of_le {n : Nat} (h : n ≤ 2) {x : Fin 3} (hx : x.val = n) : smallCode n = x := by
  apply Fin.ext
  rw [hx]
  exact Nat.mod_eq_of_lt (Nat.lt_succ_of_le h)

/-! ### Bus requests -/

/-- Settles O27. -/
theorem busConfigPends : Obligations.BusConfigPends := by
  intro dt s c d per ret lo hi x h hper hret hen
  constructor
  · have period : smallCode per.toNat = x.period :=
      smallCode_of_le (hper ▸ Nat.le_of_lt_succ x.period.isLt) hper
    have retries : smallCode (clampNat 0 2 ret.toNat) = x.retries := by
      rw [clampNat, Nat.zero_max, smallCode_of_le (Nat.min_le_left _ _) hret]
    have answer : leBytes 1 x.period.val ++ leBytes 1 x.retries.val ++ leBytes 2 x.enable.toNat =
        [per, BitVec.ofNat 8 (min 2 ret.toNat), lo, hi &&& 1] := by
      rw [hper, hret, hen, leBytes_one_toNat, leBytes_panelSet]
      rfl
    rw [exec_busConfig, execBusConfig, h.owner_of_bus rfl]
    simp only [byteAt_cons_succ, byteAt_cons_zero, sideOf_sideCode, fieldAt_cons_succ, fieldAt_pair_append,
      period, retries, ← hen, answer, State.arrived_bus]
    rw [if_neg (Nat.not_lt.2 (hper ▸ Nat.le_of_lt_succ x.period.isLt))]
    rfl
  · intro code hcode
    rw [exec_busConfig, execBusConfig, h.owner_of_bus rfl]
    dsimp only
    rw [if_pos (by exact hcode)]
    rfl

/-- What a controller is sending, by its phase (R37). -/
theorem BusCtl.sendingUntil_eq_some (b : BusCtl) (t e : LocalTime) : b.sendingUntil t = some e ↔
    (∃ x, b.phase = .strobe x false ∧ e = later x 13) ∨
    (∃ x, b.phase = .strobe x true ∧ 14 ≤ elapsed x t ∧ elapsed x t ≤ 25 ∧ e = later x 25) ∨
    (∃ h p l, b.phase = .poll h p l ∧ elapsed h t < 11 ∧ e = later h 11) ∨
    (∃ h p l, b.phase = .poll h p l ∧ 11 ≤ elapsed h t ∧ elapsed h t < 22 ∧ e = later h 22) := by
  unfold BusCtl.sendingUntil
  cases b.phase with
  | quiet u => simp
  | gap u => simp
  | strobe x ended =>
    cases ended
    · simp [eq_comm]
    · simp [eq_comm, and_assoc]
  | poll h p l =>
    by_cases h1 : elapsed h t < 11
    · simp [h1, eq_comm]
    · by_cases h2 : elapsed h t < 22
      · simp [h1, h2, Nat.not_lt.1 h1, headerTime, eq_comm]
      · simp [h1, h2, headerTime]

theorem State.resetBus_of_down {s : State} {d : Side} (h : (s.bus d).state = .down) :
    s.resetBus d = s.takeCompletion d ((s.bus d).bareCompletion (.reset false)) := by
  rw [State.resetBus, h]

theorem State.resetBus_of_idle {s : State} {d : Side} (h : (s.bus d).state = .up) (hs : (s.bus d).scan = none) :
    s.resetBus d = (s.setBus d ((s.bus d).restart s.localTime)).takeCompletion d
      ((s.bus d).bareCompletion (.reset false)) := by
  rw [State.resetBus, h, hs]

/-- A repeated BUS_RESET restarts the schedule alone (R37). -/
theorem State.resetBus_of_finishing {s : State} {d : Side} {scan : Scan} {e : LocalTime}
    (h : (s.bus d).state = .up) (hs : (s.bus d).scan = some scan) (hf : (s.bus d).finishing = some e) :
    s.resetBus d = s.setBus d ((s.bus d).restart s.localTime) := by
  rw [State.resetBus, h, hs]
  dsimp only
  rw [hf]

theorem State.resetBus_of_sending {s : State} {d : Side} {scan : Scan} {e : LocalTime}
    (h : (s.bus d).state = .up) (hs : (s.bus d).scan = some scan) (hf : (s.bus d).finishing = none)
    (he : (s.bus d).sendingUntil s.localTime = some e) :
    s.resetBus d = s.setBus d { (s.bus d).restart s.localTime with finishing := some e } := by
  rw [State.resetBus, h, hs]
  dsimp only
  rw [hf, State.setBus_localTime, he, State.setBus_bus_same]
  exact State.setBus_setBus s d _ _

theorem State.resetBus_of_between {s : State} {d : Side} {scan : Scan}
    (h : (s.bus d).state = .up) (hs : (s.bus d).scan = some scan) (hf : (s.bus d).finishing = none)
    (he : (s.bus d).sendingUntil s.localTime = none) :
    s.resetBus d = (s.setBus d ((s.bus d).restart s.localTime)).resetCompletion d := by
  rw [State.resetBus, h, hs]
  dsimp only
  rw [hf, State.setBus_localTime, he]

/-- The RESET completion of a scan in flight (R37). -/
theorem State.resetCompletion_of_scan {s : State} {d : Side} {scan : Scan} (hs : (s.bus d).scan = some scan) :
    s.resetCompletion d = (s.setBus d (((s.bus d).readBack s.localTime).endScan s.localTime)).takeCompletion d
      (completionOf scan (.reset true) (Vector.replicate 9 none)) := by
  rw [State.resetCompletion, BusCtl.readBack_scan, hs]

theorem State.resetCompletion_of_none {s : State} {d : Side} (hs : (s.bus d).scan = none) :
    s.resetCompletion d = (s.setBus d (((s.bus d).readBack s.localTime).endScan s.localTime)).takeCompletion d
      (((s.bus d).readBack s.localTime).bareCompletion (.reset false)) := by
  rw [State.resetCompletion, BusCtl.readBack_scan, hs]

/-- Settles O28, by the controller's state. -/
theorem busResetByState : Obligations.BusResetByState := by
  refine ⟨fun dt s c t d b r k h ht hb hk hr => ?_, BusCtl.sendingUntil_eq_some⟩
  have owner : exec (.busReset dt [sideCode d]) s = .next (((s.arrived dt).resetBus d).ack 0x21 []) := by
    rw [exec_busReset, execBusReset, h.owner_of_bus rfl, byteAt_cons_zero, sideOf_sideCode]
  have bus : (s.arrived dt).bus d = b := (State.arrived_bus s dt d).trans hb.symm
  have time : (s.arrived dt).localTime = t := ht.symm
  have restart : b.restart t = r := hr.symm
  have bare : b.bareCompletion (.reset false) = k := hk.symm
  rw [owner]
  refine ⟨fun hd => ?_, fun hu hs => ?_, fun scan e hu hs hf he => ?_, fun scan hu hs hf he => ?_,
    fun scan e hu hs hf => ?_⟩
  · rw [State.resetBus_of_down (bus ▸ hd), bus, bare]
    rfl
  · rw [State.resetBus_of_idle (bus ▸ hu) (bus ▸ hs), bus, time, restart, bare]
    rfl
  · rw [State.resetBus_of_sending (bus ▸ hu) (bus ▸ hs) (bus ▸ hf) (bus ▸ time ▸ he), bus, time, restart]
    rfl
  · have scan_eq : r.scan = some scan := hr ▸ hs
    rw [State.resetBus_of_between (bus ▸ hu) (bus ▸ hs) (bus ▸ hf) (bus ▸ time ▸ he), bus, time, restart,
      State.resetCompletion_of_scan (by rwa [State.setBus_bus_same]), State.setBus_bus_same, State.setBus_setBus,
      State.setBus_localTime, time]
    rfl
  · rw [State.resetBus_of_finishing (bus ▸ hu) (bus ▸ hs) (bus ▸ hf), bus, time, restart]
    rfl

/-! ### Requests to the sensing units -/

theorem setThresholds_apply (v : Vector Panel 9) (set : BusSet) (p q : Nat) (i : Fin 9) :
    (setThresholds v set p q)[i] =
      if set.getLsbD i.val = true then { v[i] with pressAt := p, releaseAt := q } else v[i] := by
  simp [setThresholds]

/-- Settles O29. -/
theorem panelThresholdsStored : Obligations.PanelThresholdsStored := by
  intro dt s c d lo hi p q h hp hq
  have fp : fieldAt ([sideCode d, lo, hi] ++ leBytes 2 p ++ leBytes 2 q) 3 2 = p := by
    simp [Nat.mod_eq_of_lt hp]
  have fq : fieldAt ([sideCode d, lo, hi] ++ leBytes 2 p ++ leBytes 2 q) 5 2 = q := by
    simp [Nat.mod_eq_of_lt hq]
  have fs : fieldAt ([sideCode d, lo, hi] ++ leBytes 2 p ++ leBytes 2 q) 1 2 = lo.toNat + 256 * hi.toNat :=
    fieldAt_pair_append lo hi _
  have side : sideOf (byteAt ([sideCode d, lo, hi] ++ leBytes 2 p ++ leBytes 2 q) 0) = d := sideOf_sideCode d
  have owner := exec_panelThresholds dt ([sideCode d, lo, hi] ++ leBytes 2 p ++ leBytes 2 q) s
  rw [execPanelThresholds, List.append_assoc, List.cons_append, h.owner_of_bus (by simp),
    ← List.cons_append, ← List.append_assoc] at owner
  simp only [fp, fq, fs, side, State.arrived_panels] at owner
  refine ⟨fun hn => ?_, fun h1 h2 h3 => ⟨_, owner.trans (by rw [if_pos ⟨h1, h2, h3⟩]; rfl), fun i => ?_⟩⟩
  · rw [owner, if_neg hn]
    rfl
  · rw [setThresholds_apply, getLsbD_panelSet]

/-- The flags byte of PANEL_READ, field by field (R56). -/
theorem panelFlags_bits (p : Panel) :
    (panelFlags p).getLsbD 0 = p.pressed ∧ (panelFlags p).getLsbD 3 = p.baseline.isSome ∧
      (panelFlags p >>> 1) &&& 3 =
        (match p.status with | .online => 0 | .offline => 1 | .disabled => 2) ∧
      panelFlags p >>> 4 = 0 := by
  unfold panelFlags
  generalize p.baseline.isSome = base
  cases p.pressed <;> cases base <;> cases p.status <;> decide

/-- Settles O30. -/
theorem panelReadAndStuckLimit : Obligations.PanelReadAndStuckLimit := by
  refine ⟨fun dt s c d h => ?read, panelFlags_bits, fun dt s c limit h => ?limit⟩
  case read =>
    have state : [busStateCode (s.bus d).state] =
        if (s.bus d).state = .up then ([0] : List Byte) else [1] := by
      cases (s.bus d).state <;> rfl
    rw [exec_panelRead, execPanelRead, h.owner_of_bus rfl]
    simp only [byteAt_cons_zero, sideOf_sideCode, State.arrived_bus, State.arrived_panels, state]
    rfl
  case limit =>
    have hl := limit.isLt
    have clamped : clampNat 31 255 limit.toNat = max 31 limit.toNat := by
      rw [clampNat]
      omega
    rw [exec_stuckLimit, execStuckLimit, h.owner_of_unnamed rfl]
    simp only [byteAt_cons_zero, clamped]
    rfl

/-! ### Lamp requests -/

theorem onLampSet_apply (set : BusSet) (f : Lamp → Lamp) (v : Vector Lamp 9) (i : Fin 9) :
    (onLampSet set f v)[i] = if set.getLsbD i.val = true then f v[i] else v[i] := by
  simp [onLampSet]

/-- A mode byte that is in range. -/
theorem lampModeOf_eq {b : Byte} {m : LampMode}
    (h : b = 0 ∧ m = .off ∨ b = 1 ∧ m = .steady ∨ b = 2 ∧ m = .follow) :
    lampModeOf b = m ∧ b.toNat ≤ 2 := by
  rcases h with ⟨rfl, rfl⟩ | ⟨rfl, rfl⟩ | ⟨rfl, rfl⟩ <;> exact ⟨rfl, by decide⟩

/-- Settles O42. -/
theorem lampRequestsStored : Obligations.LampRequestsStored := by
  refine ⟨fun dt s c d lo hi mode level base en h => ?set, fun dt s c d w x y z dur h => ?flash⟩
  case set =>
    have fs : fieldAt [sideCode d, lo, hi, mode, level, base, en] 1 2 = lo.toNat + 256 * hi.toNat :=
      fieldAt_pair_append lo hi _
    have owner := exec_lampSet dt [sideCode d, lo, hi, mode, level, base, en] s
    rw [execLampSet, h.owner_of_bus rfl] at owner
    simp only [fs, byteAt_cons_succ, byteAt_cons_zero, sideOf_sideCode, State.arrived_lamps] at owner
    refine ⟨fun hm => ?_, fun hm he => ?_, fun m hm he => ?_⟩
    · rw [owner, if_pos hm]
      rfl
    · rw [owner, if_neg (Nat.not_lt.2 hm), if_pos he]
      rfl
    · obtain ⟨mode_eq, hle⟩ := lampModeOf_eq hm
      rw [if_neg (Nat.not_lt.2 hle), if_neg (Nat.not_lt.2 he), mode_eq] at owner
      refine ⟨_, owner, fun i => ?_⟩
      rw [onLampSet_apply, getLsbD_panelSet]
      rfl
  case flash =>
    have hd := dur.isLt
    have clamped : clampNat 0 250 dur.toNat = min 250 dur.toNat := by rw [clampNat, Nat.zero_max]
    rw [exec_lampFlash, execLampFlash, h.owner_of_bus rfl]
    simp only [byteAt_cons_succ, byteAt_cons_zero, sideOf_sideCode, clamped, State.arrived_lamps]
    rfl

/-! ### The lamp byte and flashes -/

theorem flashAhead_iff (e t : LocalTime) :
    flashAhead e t = true ↔ 1 ≤ elapsed t e ∧ elapsed t e ≤ 250000 := by
  rw [flashAhead, Bool.and_eq_true, decide_eq_true_iff, decide_eq_true_iff]
  rfl

theorem flashAhead_eq_false_iff (e t : LocalTime) :
    flashAhead e t = false ↔ elapsed t e = 0 ∨ 250000 < elapsed t e := by
  rw [← Bool.not_eq_true, flashAhead_iff]
  omega

theorem lampByte_of_flash {lamp : Lamp} {f : Flash} (hf : lamp.flash = some f) (he : lamp.flashEnable = true)
    {t : LocalTime} (ha : flashAhead f.endAt t = true) (pressed : Bool) : lampByte lamp pressed t = f.level := by
  simp [lampByte, hf, he, ha]

theorem lampByte_of_mode {lamp : Lamp} {t : LocalTime}
    (h : lamp.flashEnable = false ∨ ∀ f, lamp.flash = some f → flashAhead f.endAt t = false) (pressed : Bool) :
    lampByte lamp pressed t = match lamp.mode with
      | .off => 0
      | .steady => lamp.level
      | .follow => if pressed = true then lamp.level else lamp.base := by
  unfold lampByte
  cases hf : lamp.flash with
  | none => rfl
  | some f =>
    have still : (lamp.flashEnable && flashAhead f.endAt t) = false := by
      rcases h with h | h
      · rw [h, Bool.false_and]
      · rw [h f hf, Bool.and_false]
    dsimp only
    rw [still, if_neg Bool.false_ne_true] <;> rfl

theorem LampCtl.startFlash_of_ahead {l : LampCtl} {d : Side} {p : Fin 9} {g : Grade} {cap a e : LocalTime}
    (he : e = later cap ((l.flashSettings d).durationMs * 1000)) (h1 : (l.lamps d)[p].flashEnable = true)
    (h2 : (l.flashSettings d).durationMs ≠ 0) (h3 : flashAhead e a = true) :
    l.startFlash d p g cap a =
      { l.setLamps d ((l.lamps d).set p
          { (l.lamps d)[p] with flash := some ⟨e, (l.flashSettings d).level g⟩ }) with
        expiry := armExpiry l.expiry e a } := by
  subst he
  unfold LampCtl.startFlash
  dsimp only
  rw [if_pos]
  rw [h1, h3, Bool.true_and, Bool.and_true]
  exact bne_iff_ne.2 h2

theorem LampCtl.startFlash_of_not {l : LampCtl} {d : Side} {p : Fin 9} {g : Grade} {cap a e : LocalTime}
    (he : e = later cap ((l.flashSettings d).durationMs * 1000))
    (h : (l.lamps d)[p].flashEnable = false ∨ (l.flashSettings d).durationMs = 0 ∨ flashAhead e a = false) :
    l.startFlash d p g cap a = l := by
  subst he
  unfold LampCtl.startFlash
  dsimp only
  rw [if_neg]
  rcases h with h | h | h
  · rw [h, Bool.false_and, Bool.false_and]
    exact Bool.false_ne_true
  · simp [h]
  · rw [h, Bool.and_false]
    exact Bool.false_ne_true

theorem LampCtl.expireAt_lamps (l : LampCtl) (e : LocalTime) (d : Side) (p : Fin 9) :
    ((l.expireAt e).lamps d)[p] = ((l.lamps d)[p]).expire e := by
  cases d <;> simp [LampCtl.expireAt, LampCtl.lamps, onLamps]

theorem Lamp.expire_eq (lamp : Lamp) (e : LocalTime) :
    lamp.expire e = if lamp.flash.map Flash.endAt = some e then { lamp with flash := none } else lamp := by
  unfold Lamp.expire
  cases lamp.flash with
  | none => rfl
  | some f => simp

theorem mem_flashEnds {v : Vector Lamp 9} {x : LocalTime} :
    x ∈ flashEnds v ↔ ∃ (p : Fin 9) (f : Flash), v[p].flash = some f ∧ f.endAt = x := by
  simp [flashEnds, mem_busPanels]

/-- The compare after an expiry is the nearest end left, measured from the instant of the expiry (R150). -/
theorem LampCtl.expireAt_expiry (l : LampCtl) (e : LocalTime) :
    (l.expireAt e).expiry = nearestEnd e
      (flashEnds ((l.expireAt e).lamps .a) ++ flashEnds ((l.expireAt e).lamps .b)) := rfl

/-- Settles O41: the lamp byte, the start of a flash, and the expiry. -/
theorem lampBytesAndFlashes : Obligations.LampBytesAndFlashes := by
  refine ⟨fun lamp pressed t => ⟨fun f hf he h1 h2 => ?byte, fun h => ?mode⟩,
    fun l d p g cap a e he => ⟨fun h1 h2 h3 h4 => ?start, fun h => ?none⟩, fun dt s t h => ⟨fun hn => ?lapse,
      fun ht => ⟨s.lamps.expireAt t, ?expire, fun d => ?settings, fun d p => ?lamps, ?disarmed, fun e he => ?armed⟩⟩⟩
  case byte => exact lampByte_of_flash hf he ((flashAhead_iff _ _).2 ⟨h1, h2⟩) pressed
  case mode =>
    exact lampByte_of_mode (h.imp id fun hf f hs => (flashAhead_eq_false_iff _ _).2 (hf f hs)) pressed
  case start =>
    refine ⟨_, LampCtl.startFlash_of_ahead he h1 h2 ((flashAhead_iff _ _).2 ⟨h3, h4⟩), fun q => ?_⟩
    by_cases hq : q = p
    · subst hq
      simp
      cases g <;> rfl
    · rw [if_neg hq]
      exact Vector.getElem_set_ne _ _ (fun hv => hq (Fin.ext hv.symm))
  case none => exact LampCtl.startFlash_of_not he (by rwa [flashAhead_eq_false_iff])
  case lapse =>
    rw [exec_flashExpiry, execFlashExpiry, h.after, if_neg hn]
  case expire =>
    rw [exec_flashExpiry, execFlashExpiry, h.after, if_pos ht]
    rfl
  case settings => cases d <;> rfl
  case lamps => rw [LampCtl.expireAt_lamps, Lamp.expire_eq]
  case disarmed =>
    rw [LampCtl.expireAt_expiry, nearestEnd_eq_none, List.append_eq_nil_iff, flashEnds_eq_nil, flashEnds_eq_nil]
    exact ⟨fun ⟨ha, hb⟩ d => by cases d; exacts [ha, hb], fun hd => ⟨hd .a, hd .b⟩⟩
  case armed =>
    rw [LampCtl.expireAt_expiry] at he
    obtain ⟨hmem, hle⟩ := nearestEnd_spec he
    constructor
    · rcases List.mem_append.1 hmem with hm | hm
      · obtain ⟨p, f, hf⟩ := mem_flashEnds.1 hm
        exact ⟨.a, p, f, hf⟩
      · obtain ⟨p, f, hf⟩ := mem_flashEnds.1 hm
        exact ⟨.b, p, f, hf⟩
    · intro d p f hf
      refine hle _ (List.mem_append.2 ?_)
      cases d
      · exact .inl (mem_flashEnds.2 ⟨p, f, hf, rfl⟩)
      · exact .inr (mem_flashEnds.2 ⟨p, f, hf, rfl⟩)

end Sys2Proof.Machine
end

section
/-! SUPPORT. Stage requests and the note table (chapters 4 and 5). -/

namespace Sys2Proof.Machine

/-! ### Settings (R72, R73) -/

theorem takesSettings_eq_true {st : StageState} (h : st = .idle ∨ st = .standby) : takesSettings st = true := by
  rcases h with rfl | rfl <;> rfl

theorem takesSettings_ne_true {st : StageState} (h1 : st ≠ .idle) (h2 : st ≠ .standby) :
    ¬ takesSettings st = true := by
  simp [takesSettings, h1, h2]

theorem JudgeParams.windowsOk_iff (p : JudgeParams) : p.windowsOk = true ↔
    1000 ≤ p.w1 ∧ p.w1 ≤ p.w2 ∧ p.w2 ≤ p.w3 ∧ p.w3 ≤ p.w4 ∧ p.w4 ≤ 250000 := by
  rw [JudgeParams.windowsOk, decide_eq_true_iff]
  tauto

/-- The parameters of a JUDGE_PARAMS payload, its last three values clamped (R72). -/
theorem paramsOf_fields {b : Byte} {w1 w2 w3 w4 g r m : Nat} (h1 : w1 < 2 ^ 32) (h2 : w2 < 2 ^ 32)
    (h3 : w3 < 2 ^ 32) (h4 : w4 < 2 ^ 32) (h5 : g < 2 ^ 32) (h6 : r < 2 ^ 32) (h7 : m < 2 ^ 32) :
    paramsOf ([b] ++ leBytes 4 w1 ++ leBytes 4 w2 ++ leBytes 4 w3 ++ leBytes 4 w4 ++ leBytes 4 g ++
      leBytes 4 r ++ leBytes 4 m) =
      { w1 := w1, w2 := w2, w3 := w3, w4 := w4, grace := min 1000000 g,
        rollInterval := max 50000 (min 2000000 r), mineHalf := max 1000 (min 250000 m) } := by
  norm_num at h1 h2 h3 h4 h5 h6 h7
  simp [paramsOf, Nat.mod_eq_of_lt, h1, h2, h3, h4, h5, h6, h7, clampNat_eq]

/-- Settles O43: the states that take settings, then the windows. -/
theorem stageSettingsStored : Obligations.StageSettingsStored := by
  refine ⟨fun dt s c d w1 w2 w3 w4 g r m p pl h hd h1 h2 h3 h4 h5 h6 h7 hpl hp => ?params,
    fun dt s c d o h hd hl hh => ?offset⟩
  case params =>
    have fields : paramsOf pl = p := by rw [hpl, hp, paramsOf_fields h1 h2 h3 h4 h5 h6 h7]
    have side : byteAt pl 0 = sideCode d := by simp [hpl]
    obtain ⟨bs, hbs⟩ : ∃ bs, pl = sideCode d :: bs := ⟨_, by rw [hpl]; simp only [List.append_assoc]; rfl⟩
    have len : (sideCode d :: bs).length = 29 := by rw [← hbs, hpl]; simp
    have owner := exec_judgeParams dt pl s
    rw [execJudgeParams, hbs, h.owner_of_stage hd len _ (List.mem_singleton_self 29), ← hbs, fields, side,
      sideOf_sideCode] at owner
    simp only [State.arrived_stage] at owner
    have windows : p.windowsOk = true ↔ 1000 ≤ w1 ∧ w1 ≤ w2 ∧ w2 ≤ w3 ∧ w3 ≤ w4 ∧ w4 ≤ 250000 := by
      rw [JudgeParams.windowsOk_iff, hp]
    refine ⟨fun hi hs => ?_, fun hs hw => ?_, fun hs a1 a2 a3 a4 a5 => ?_⟩
    · rw [owner, if_pos (takesSettings_ne_true hi hs)]
      rfl
    · rw [owner, if_neg (not_not.2 (takesSettings_eq_true hs)), if_pos (windows.not.2 hw)]
      rfl
    · rw [owner, if_neg (not_not.2 (takesSettings_eq_true hs)),
        if_neg (not_not.2 (windows.2 ⟨a1, a2, a3, a4, a5⟩))]
      subst hp
      rfl
  case offset =>
    have owner := exec_stageOffset dt (sideCode d :: leSigned o) s
    rw [execStageOffset, h.owner_of_stage hd (by simp) _ (List.mem_singleton_self 5)] at owner
    simp only [byteAt_cons_zero, sideOf_sideCode, signedAt_cons_succ, signedAt_leSigned_last hl hh,
      State.arrived_stage, clampInt_eq (show (-100000 : Int) ≤ 100000 by decide)] at owner
    refine ⟨fun hi hs => ?_, fun hs => ?_⟩
    · rw [owner, if_pos (takesSettings_ne_true hi hs)]
      rfl
    · rw [owner, if_neg (not_not.2 (takesSettings_eq_true hs))]
      rfl

/-! ### Opening (R59 to R62) -/

/-- Settles O44: the payload's fields give the checks and the session; the mode and the stage give what
becomes of the joined storage. -/
theorem stageOpenChecksAndOpens : Obligations.StageOpenChecksAndOpens := by
  intro dt s c d mode fail opts u life refusal x pl h hu hlife hpl hrefusal hx
  have b0 : byteAt pl 0 = sideCode d := by simp [hpl]
  have b1 : byteAt pl 1 = mode := by simp [hpl]
  have f2 : fieldAt pl 2 2 = u := by simp [hpl, Nat.mod_eq_of_lt hu]
  have f4 : fieldAt pl 4 2 = life := by simp [hpl, Nat.mod_eq_of_lt hlife]
  have b6 : byteAt pl 6 = fail := by simp [hpl]
  have b7 : byteAt pl 7 = opts := by simp [hpl]
  have mode_one : mode.toNat = 1 ↔ mode = 1 := ⟨fun h => BitVec.eq_of_toNat_eq h, fun h => by rw [h]; rfl⟩
  have checks : openRefusal (s.arrived dt) pl = refusal := by
    rw [openRefusal, b0, b1, f2, f4, b6, sideOf_sideCode, hrefusal]
    simp only [mode_one, State.arrived_openDoubles, State.arrived_lent, State.arrived_stage,
      State.arrived_stageA, State.arrived_stageB]
    rfl
  have session : (s.stage d).openSession pl s.clock.running = x := by
    rw [hx, Stage.openSession, b1, f2, f4, b6, b7]
    rfl
  have mode_eq : x.mode = if mode = 1 then .doubles else .single := by rw [hx]
  obtain ⟨bs, hbs⟩ : ∃ bs, pl = sideCode d :: bs := ⟨_, by rw [hpl]; simp only [List.append_assoc]; rfl⟩
  have len : (sideCode d :: bs).length = 8 := by rw [← hbs, hpl]; simp
  have owner := exec_stageOpen dt pl s
  rw [execStageOpen, hbs, h.owner_of_openStage len, ← hbs, checks, b0, sideOf_sideCode] at owner
  simp only [State.arrived_stage, State.arrived_clock, session] at owner
  refine ⟨fun code detail hr => ?_, fun hr hd => ?_, fun hr hd hm => ?_, fun hr hm => ?_⟩
  · rw [owner, hr]
    rfl
  · rw [owner, hr, hd]
    rfl
  · rw [owner, hr, hd, mode_eq, hm]
    rfl
  · have hd : d = .a := by
      cases d with
      | a => rfl
      | b =>
        rw [hr] at hrefusal
        simp only [hm, and_self, if_true] at hrefusal
        repeat' split at hrefusal
        all_goals cases hrefusal
    rw [owner, hr, hd, mode_eq, if_pos hm]
    rfl

/-! ### Status (R71) -/

theorem entryCount_eq (v : Vector (Option TrackEntry) 18) :
    entryCount v = stagePanels.countP fun p => v[p].isSome :=
  List.countP_eq_length_filter.symm

/-- Settles O46. -/
theorem stageStatusAnswers : Obligations.StageStatusAnswers := by
  refine ⟨⟨rfl, rfl, rfl, rfl, rfl, rfl, rfl⟩, fun dt s c d st h hd hst => ?_⟩
  rw [exec_stageStatus, execStageStatus, h.owner_of_stage hd rfl _ (List.mem_singleton_self 1),
    byteAt_cons_zero, sideOf_sideCode, State.arrived_stage, ← hst]
  dsimp only
  rw [entryCount_eq]
  rfl

/-! ### The records of a NOTES payload (R80, 12.4) -/

theorem noteBytes_length (r : RawNote) : (noteBytes r).length = 14 := by
  simp [noteBytes]

theorem flatMap_noteBytes_length (rs : List RawNote) : (rs.flatMap noteBytes).length = 14 * rs.length := by
  induction rs with
  | nil => rfl
  | cons r rs ih => rw [List.flatMap_cons, List.length_append, noteBytes_length, ih, List.length_cons]; omega

/-- A record reads back where it stands. -/
theorem rawNoteAt_noteBytes {r : RawNote} (h : r.Fits) (bs : List Byte) :
    rawNoteAt (noteBytes r ++ bs) 0 = r := by
  have hp : r.panels.toNat < 16777216 := r.panels.isLt
  obtain ⟨hid, hdue, hlen⟩ := h
  simp [rawNoteAt, noteBytes, Nat.mod_eq_of_lt, hid, hdue.1, hdue.2, hlen, hp]

theorem rawNoteAt_append (a bs : List Byte) (i : Nat) :
    rawNoteAt (a ++ bs) (a.length + i) = rawNoteAt bs i := by
  have skip : ∀ j, a.length + i + j - a.length = i + j := fun j => by omega
  have field : ∀ j k, fieldAt (a ++ bs) (a.length + i + j) k = fieldAt bs (i + j) k := by
    intro j k
    rw [fieldAt_append_right (by omega), skip]
  have first : fieldAt (a ++ bs) (a.length + i) 2 = fieldAt bs i 2 := field 0 2
  rw [rawNoteAt, rawNoteAt, signedAt, signedAt, first, field, field, field,
    byteAt_append_right (by omega), skip]

/-- The records of a payload are those it was made of. -/
theorem rawNotes_flatMap {rs : List RawNote} (h : ∀ r ∈ rs, r.Fits) (b : Byte) :
    rawNotes (b :: rs.flatMap noteBytes) = rs := by
  have read : ∀ (pre : List Byte) (rs : List RawNote), (∀ r ∈ rs, r.Fits) →
      (List.range rs.length).map (fun k => rawNoteAt (pre ++ rs.flatMap noteBytes) (pre.length + 14 * k)) =
        rs := by
    intro pre rs
    induction rs generalizing pre with
    | nil => intro _; rfl
    | cons r rs ih =>
      intro h
      have rest := ih (pre ++ noteBytes r) fun x hx => h x (List.mem_cons_of_mem r hx)
      rw [List.length_cons, List.range_succ_eq_map, List.map_cons, List.map_map]
      congr 1
      · rw [Nat.mul_zero, rawNoteAt_append, List.flatMap_cons, rawNoteAt_noteBytes (h r (List.mem_cons_self))]
      · rw [List.length_append, noteBytes_length, List.append_assoc] at rest
        rw [← List.flatMap_cons] at rest
        refine Eq.trans (List.map_congr_left fun k _ => ?_) rest
        rw [Function.comp_apply, Nat.mul_succ]
        congr 1
        omega
  have count : ((b :: rs.flatMap noteBytes).length - 1) / 14 = rs.length := by
    rw [List.length_cons, flatMap_noteBytes_length]
    omega
  rw [rawNotes, count]
  exact read [b] rs h

/-! ### Taking records in order (R80) -/

theorem takeRecords_cons_ok {st : Stage} {now : Option Int} {r : RawNote} {n : Note}
    (h : examine st now r = .ok n) (rs : List RawNote) (k : Nat) :
    takeRecords now (r :: rs) st k = takeRecords now rs (st.takeNote n) (k + 1) := by
  rw [takeRecords, h]

theorem takeRecords_cons_error {st : Stage} {now : Option Int} {r : RawNote} {stop : Byte}
    (h : examine st now r = .error stop) (rs : List RawNote) (k : Nat) :
    takeRecords now (r :: rs) st k = (st, k, stop) := by
  rw [takeRecords, h]

/-- The records are examined one after the other, each on the table that those before it left, up to the first
that fails. -/
theorem takeRecords_prefix (now : Option Int) (rs : List RawNote) (st : Stage) (k : Nat) :
    ∃ (ns : List Note) (stop : Byte),
      takeRecords now rs st k = (ns.foldl Stage.takeNote st, k + ns.length, stop) ∧ ns.length ≤ rs.length ∧
      (∀ (i : Nat) (r : RawNote) (n : Note), rs[i]? = some r → ns[i]? = some n →
        examine ((ns.take i).foldl Stage.takeNote st) now r = .ok n) ∧
      (ns.length = rs.length → stop = 0) ∧
      ∀ r, rs[ns.length]? = some r → examine (ns.foldl Stage.takeNote st) now r = .error stop := by
  induction rs generalizing st k with
  | nil => exact ⟨[], 0, rfl, Nat.le_refl 0, by simp, fun _ => rfl, by simp⟩
  | cons r rs ih =>
    cases he : examine st now r with
    | error stop =>
      refine ⟨[], stop, takeRecords_cons_error he rs k, Nat.zero_le _, by simp, by simp, fun x hx => ?_⟩
      obtain rfl : r = x := by simpa using hx
      exact he
    | ok n =>
      obtain ⟨ns, stop, htake, hlen, hok, hend, hstop⟩ := ih (st.takeNote n) (k + 1)
      refine ⟨n :: ns, stop, ?_, Nat.succ_le_succ hlen, fun i x m hx hm => ?_, fun hl => ?_, fun x hx => ?_⟩
      · rw [takeRecords_cons_ok he, htake, List.foldl_cons, List.length_cons, Nat.add_right_comm, Nat.add_assoc]
      · cases i with
        | zero =>
          obtain rfl : r = x := by simpa using hx
          obtain rfl : n = m := by simpa using hm
          exact he
        | succ i => exact hok i x m (by simpa using hx) (by simpa using hm)
      · exact hend (Nat.succ.inj hl)
      · exact hstop x (by simpa using hx)

/-- Settles O47: the payload's records, taken in order. -/
theorem notesTakenInOrder : Obligations.NotesTakenInOrder := by
  refine ⟨fun dt s c d rs now r v h hd hne hfit hv hnow hr => ?request, fun now rs st => ?order⟩
  case request =>
    have short := h.short
    have some_record : 1 ≤ rs.length := List.length_pos_iff.2 hne
    have allowed : 1 + 14 * rs.length ∈ [15, 29, 43, 57] := by
      have : rs.length ≤ 4 := by omega
      interval_cases rs.length <;> decide
    have len : (sideCode d :: rs.flatMap noteBytes).length = 1 + 14 * rs.length := by
      rw [List.length_cons, flatMap_noteBytes_length, Nat.add_comm]
    have runs : v.1.running = s.clock.running := by rw [hv, Clock.update_running]
    have owner := exec_notes dt (sideCode d :: rs.flatMap noteBytes) s
    rw [execNotes, h.owner_of_stage hd len _ allowed] at owner
    simp only [byteAt_cons_zero, sideOf_sideCode, rawNotes_flatMap hfit, State.updateClock_eq,
      State.arrived_clock, State.arrived_localTime, ← hv, State.storeClock_stage, State.storeClock_clock,
      State.arrived_stage, runs, ← hnow, ← hr] at owner
    refine ⟨fun hs => ?_, fun h1 h2 => ?_⟩
    · rw [owner, if_pos hs]
      rfl
    · rw [owner, if_neg (not_or.2 ⟨h1, h2⟩)]
      rfl
  case order => simpa using takeRecords_prefix now rs st 0

/-! ### The checks of a record (R81 to R86) -/

theorem noteKindOf_eq_none_iff (b : Byte) : noteKindOf b = none ↔ 3 < b.toNat := by
  revert b; decide

theorem noteKindOf_eq_some {b : Byte} {k : NoteKind} (h : noteKindOf b = some k) :
    b = 0 ∧ k = .tap ∨ b = 1 ∧ k = .hold ∨ b = 2 ∧ k = .roll ∨ b = 3 ∧ k = .mine := by
  revert b k; decide

theorem panelCount_eq (s : BitVec 24) : panelCount s = (List.range 24).countP fun i => s.getLsbD i :=
  List.countP_eq_length_filter.symm

theorem panelCount_eq_zero_iff (s : BitVec 24) : panelCount s = 0 ↔ s = 0 := by
  rw [panelCount_eq, List.countP_eq_zero]
  constructor
  · intro h
    refine BitVec.eq_of_getLsbD_eq fun i hi => ?_
    rw [getLsbD_zero']
    exact Bool.eq_false_iff.2 (h i (List.mem_range.2 hi))
  · rintro rfl i _
    rw [getLsbD_zero']
    exact Bool.false_ne_true

/-- A panel set shifted out of a range has a member beyond it. -/
theorem ushiftRight_ne_zero_iff {w : Nat} (s : BitVec w) (k : Nat) :
    s >>> k ≠ 0 ↔ ∃ i, s.getLsbD i = true ∧ k ≤ i := by
  constructor
  · intro h
    by_contra hn
    refine h (BitVec.eq_of_getLsbD_eq fun i _ => ?_)
    rw [getLsbD_zero', BitVec.getLsbD_ushiftRight, Bool.eq_false_iff]
    exact fun hb => hn ⟨k + i, hb, Nat.le_add_right k i⟩
  · rintro ⟨i, hb, hk⟩ h0
    have := congrArg (fun x => x.getLsbD (i - k)) h0
    rw [BitVec.getLsbD_ushiftRight, Nat.add_sub_cancel' hk, hb, getLsbD_zero'] at this
    cases this

theorem panelRange_eq (m : Mode) : panelRange m = if m = .single then 9 else 18 := by cases m <;> rfl

theorem capacityOf_eq (m : Mode) : capacityOf m = if m = .single then 192 else 384 := by cases m <;> rfl

/-- What a record's BAD_VALUE check refuses (R81). -/
def RawNote.Bad (r : RawNote) (m : Mode) : Prop :=
  3 < r.kind.toNat ∨ r.panels = 0 ∨ 4 < ((List.range 24).countP fun i => r.panels.getLsbD i) ∨
    (∃ i, r.panels.getLsbD i = true ∧ (if m = .single then 9 else 18) ≤ i) ∨
    ((r.kind = 1 ∨ r.kind = 2) ∧ (r.length < 1000 ∨ 30000000 < r.length))

/-- The check, once the kind code is good. -/
theorem RawNote.check_of_kind {r : RawNote} {k : NoteKind} (h : noteKindOf r.kind = some k) (m : Mode) :
    r.check m = if panelCount r.panels = 0 ∨ 4 < panelCount r.panels ∨ r.panels >>> panelRange m ≠ 0 ∨
      (k = .hold ∨ k = .roll) ∧ (r.length < 1000 ∨ 30000000 < r.length) then none else some (r.toNote k) := by
  rw [RawNote.check, h]
  dsimp only
  split
  · rw [if_pos (by tauto)]
  · split
    · rw [if_pos (by tauto)]
    · split
      · rw [if_pos (by tauto)]
      · rw [if_neg (by tauto)]

theorem RawNote.bad_iff {r : RawNote} {k : NoteKind} (h : noteKindOf r.kind = some k) (m : Mode) :
    r.Bad m ↔ panelCount r.panels = 0 ∨ 4 < panelCount r.panels ∨ r.panels >>> panelRange m ≠ 0 ∨
      (k = .hold ∨ k = .roll) ∧ (r.length < 1000 ∨ 30000000 < r.length) := by
  have good : ¬ 3 < r.kind.toNat := by
    rw [← noteKindOf_eq_none_iff, h]
    exact Option.some_ne_none k
  have body : (r.kind = 1 ∨ r.kind = 2) ↔ (k = .hold ∨ k = .roll) := by
    rcases noteKindOf_eq_some h with ⟨hb, hk⟩ | ⟨hb, hk⟩ | ⟨hb, hk⟩ | ⟨hb, hk⟩ <;> simp [hb, hk]
  rw [RawNote.Bad, or_iff_right good, panelCount_eq_zero_iff, ← panelCount_eq, ushiftRight_ne_zero_iff,
    panelRange_eq, body]

theorem RawNote.check_of_bad {r : RawNote} {m : Mode} (h : r.Bad m) : r.check m = none := by
  cases hk : noteKindOf r.kind with
  | none => rw [RawNote.check, hk]
  | some k => rw [RawNote.check_of_kind hk, if_pos ((RawNote.bad_iff hk m).1 h)]

theorem RawNote.check_of_good {r : RawNote} {m : Mode} (h : ¬ r.Bad m) :
    ∃ k, (r.kind = 0 ∧ k = .tap ∨ r.kind = 1 ∧ k = .hold ∨ r.kind = 2 ∧ k = .roll ∨ r.kind = 3 ∧ k = .mine) ∧
      r.check m = some (r.toNote k) := by
  cases hk : noteKindOf r.kind with
  | none => exact absurd (.inl ((noteKindOf_eq_none_iff _).1 hk)) h
  | some k =>
    exact ⟨k, noteKindOf_eq_some hk, by rw [RawNote.check_of_kind hk, if_neg ((RawNote.bad_iff hk m).not.1 h)]⟩

theorem failsOrder_iff (st : Stage) (n : Note) : failsOrder st n = true ↔
    ∃ id due, st.lastAccepted = some (id, due) ∧ (n.id ≤ id ∨ n.due < due) := by
  unfold failsOrder
  cases st.lastAccepted with
  | none => simp
  | some x => simp [Prod.ext_iff]

theorem mem_panelsOf {s : StageSet} {p : Fin 18} : p ∈ panelsOf s ↔ s.getLsbD p.val = true := by
  simp [panelsOf, mem_stagePanels]

theorem failsOverlap_iff (st : Stage) (n : Note) : failsOverlap st n = true ↔
    ∃ (p : Fin 18) (e : Int), n.panels.getLsbD p.val = true ∧ st.busyUntil[p] = some e ∧ n.due ≤ e := by
  rw [failsOverlap, List.any_eq_true]
  refine exists_congr fun p => ?_
  rw [mem_panelsOf]
  cases st.busyUntil[p] with
  | none => simp
  | some e => simp

theorem failsStale_iff (st : Stage) (now : Option Int) (n : Note) : failsStale st now n = true ↔
    ∃ x, now = some x ∧ n.due + st.params.w4 < x + st.inputOffset := by
  unfold failsStale
  cases now with
  | none => simp
  | some x => simp

/-- The checks that follow BAD_VALUE, in their order (R82 to R85). -/
theorem examine_of_note {st : Stage} {r : RawNote} {n : Note} (h : r.check st.mode = some n) (now : Option Int) :
    examine st now r =
      if failsOrder st n = true then .error 6 else if failsOverlap st n = true then .error 7
      else if failsStale st now n = true then .error 8
      else if (if st.mode = .single then 192 else 384) ≤ st.table.length then .error 9 else .ok n := by
  rw [examine, h, ← capacityOf_eq]
  rfl

/-- Settles O48: BAD_VALUE by the record, the later checks by the note it stands for. -/
theorem recordChecksInOrder : Obligations.RecordChecksInOrder := by
  refine ⟨fun st now r bad order overlap stale full hbad horder hoverlap hstale hfull => ?checks,
    fun st n => ⟨_, rfl, fun p => ?busy⟩⟩
  case busy => simp [busyAfter, Note.endTime]
  case checks =>
    have refused : bad → examine st now r = .error 3 := by
      intro h
      rw [examine, RawNote.check_of_bad (hbad.1 h)]
      rfl
    refine ⟨refused, ?_⟩
    by_cases hb : bad
    · exact ⟨(absurd hb ·), (absurd hb ·), (absurd hb ·), (absurd hb ·), (absurd hb ·)⟩
    · obtain ⟨k, hkind, hcheck⟩ := RawNote.check_of_good (hbad.not.1 hb)
      have chain := examine_of_note hcheck now
      have c1 : failsOrder st (r.toNote k) = true ↔ order := (failsOrder_iff st _).trans horder.symm
      have c2 : failsOverlap st (r.toNote k) = true ↔ overlap := by
        rw [failsOverlap_iff, hoverlap]
        refine exists_congr fun p => exists_congr fun e => ?_
        rw [show (r.toNote k).panels = r.panels.setWidth 18 from rfl, BitVec.getLsbD_setWidth,
          decide_eq_true p.isLt, Bool.true_and]
        rfl
      have c3 : failsStale st now (r.toNote k) = true ↔ stale := (failsStale_iff st now _).trans hstale.symm
      refine ⟨fun _ h1 => ?_, fun _ h1 h2 => ?_, fun _ h1 h2 h3 => ?_, fun _ h1 h2 h3 h4 => ?_,
        fun _ h1 h2 h3 h4 => ⟨k, hkind, ?_⟩⟩
      · rw [chain, if_pos (c1.2 h1)]
      · rw [chain, if_neg (c1.not.2 h1), if_pos (c2.2 h2)]
      · rw [chain, if_neg (c1.not.2 h1), if_neg (c2.not.2 h2), if_pos (c3.2 h3)]
      · rw [chain, if_neg (c1.not.2 h1), if_neg (c2.not.2 h2), if_neg (c3.not.2 h3), if_pos (hfull.1 h4)]
      · rw [chain, if_neg (c1.not.2 h1), if_neg (c2.not.2 h2), if_neg (c3.not.2 h3), if_neg (hfull.not.1 h4)]
        rfl

end Sys2Proof.Machine
end

section
/-! SUPPORT. The events of a scan, of bus faults and of recovery (chapter 2). -/

namespace Sys2Proof.Machine

/-! ### A bus at an instant -/

@[simp] theorem State.setTime_bus (s : State) (t : LocalTime) (d : Side) :
    State.bus { s with localTime := t } d = s.bus d := by cases d <;> rfl

@[simp] theorem State.setTime_panels (s : State) (t : LocalTime) (d : Side) :
    State.panels { s with localTime := t } d = s.panels d := by cases d <;> rfl

@[simp] theorem State.setTime_stage (s : State) (t : LocalTime) (d : Side) :
    State.stage { s with localTime := t } d = s.stage d := by cases d <;> rfl

theorem elapsed_self (t : LocalTime) : elapsed t t = 0 := by simp [elapsed]

/-! ### Strobes (R22, R28, R29) -/

/-- The next scheduled strobe is the least whole number of periods beyond the strobe's begin. -/
theorem nextScheduled_eq {S b : LocalTime} {P k : Nat} (hk : elapsed S b < k * P)
    (least : ∀ j, 1 ≤ j → elapsed S b < j * P → k ≤ j) : nextScheduled S b P = later S (k * P) := by
  have hP : 0 < P := Nat.pos_of_ne_zero fun h => by simp [h] at hk
  have hle : k ≤ elapsed S b / P + 1 := least _ (Nat.succ_pos _) (Nat.lt_mul_of_div_lt (Nat.lt_succ_self _) hP)
  have hge : elapsed S b / P < k := (Nat.div_lt_iff_lt_mul hP).2 hk
  rw [nextScheduled, show elapsed S b / P + 1 = k by omega]

/-- The strobe that begins at `t`, with S moved on by `k` periods. -/
theorem BusCtl.beginStrobe_eq {b x : BusCtl} {t : LocalTime} {k : Nat} {set : BusSettings}
    (hset : set = b.pendingSettings.getD b.settings)
    (hk : elapsed b.nextStrobe t < k * (1000 * 2 ^ set.period.val))
    (least : ∀ j, 1 ≤ j → elapsed b.nextStrobe t < j * (1000 * 2 ^ set.period.val) → k ≤ j)
    (hx : x = { b with
      settings := set, pendingSettings := none, scanNumber := b.scanNumber + 1,
      nextStrobe := later b.nextStrobe (k * (1000 * 2 ^ set.period.val)),
      scan := some
        { number := b.scanNumber + 1, capture := none, chart := none, enable := set.enable,
          retries := set.retries, next := nextPanel set.enable 0, attempts := 0,
          outcomes := Vector.replicate 9 none },
      waiting := false, phase := .strobe t false }) : b.beginStrobe t = x := by
  rw [hx, ← nextScheduled_eq hk least, hset]
  rfl

/-- Settles O31. -/
theorem strobesKeepSchedule : Obligations.StrobesKeepSchedule := by
  have compare : ∀ {dt s t} (d : Side), Reaches s dt t → exec (.strobeCompare dt d) s = .next
      (if (s.bus d).state = .up ∧ (s.bus d).waiting = false ∧ t = (s.bus d).nextStrobe then
        match (s.bus d).scan with
        | none => State.setBus { s with localTime := t } d ((s.bus d).beginStrobe t)
        | some _ => State.setBus { s with localTime := t } d { s.bus d with waiting := true }
      else { s with localTime := t }) := by
    intro dt s t d h
    rw [exec_strobeCompare, execStrobeCompare, h.after]
    dsimp only
    rw [State.setTime_bus] <;> rfl
  have late : ∀ {dt s t} (d : Side), Reaches s dt t → exec (.lateStrobe dt d) s = .next
      (match (s.bus d).phase, (s.bus d).scan with
      | .quiet since, none =>
        if (s.bus d).state = .up ∧ (s.bus d).waiting ∧ t = later since 2 then
          (State.setBus { s with localTime := t } d ((s.bus d).beginStrobe t)).raise .scanLate (some d) 0
            (elapsed (s.bus d).nextStrobe t)
        else { s with localTime := t }
      | _, _ => { s with localTime := t }) := by
    intro dt s t d h
    rw [exec_lateStrobe, execLateStrobe, h.after]
    dsimp only
    rw [State.setTime_bus] <;> rfl
  refine ⟨fun dt s t d b h hb => ⟨fun hn => ?_, fun hn => ?_⟩,
    fun dt k s t d b x set h hb hset hk1 hk least hx hu => ⟨fun hw ht hs => ?_, fun scan hw ht hs => ?_,
      fun since hw hp hs ht => ?_⟩⟩
  all_goals subst hb
  · rw [compare d h, if_neg]
    rintro ⟨hu, hw, ht⟩
    rcases hn with hn | hn | hn
    · simp [hu] at hn
    · simp [hw] at hn
    · exact hn ht
  · rw [late d h]
    split
    · rename_i since hp hs
      rw [if_neg]
      rintro ⟨hu, hw, ht⟩
      rcases hn with hn | hn | hn | hn
      · simp [hu] at hn
      · simp [hw] at hn
      · exact hn hs
      · exact hn since hp ht
    · rfl
  · have hP : 0 < 1000 * 2 ^ set.period.val := by positivity
    constructor
    · have : k ≤ 1 := least 1 (Nat.le_refl 1) (by rw [ht, elapsed_self]; omega)
      omega
    · rw [compare d h, if_pos ⟨hu, hw, ht⟩, hs, BusCtl.beginStrobe_eq hset hk least hx]
  · rw [compare d h, if_pos ⟨hu, hw, ht⟩]
    split
    · rename_i hn
      rw [hs] at hn
      cases hn
    · rfl
  · rw [late d h, hp, hs]
    dsimp only
    rw [if_pos ⟨hu, hw, ht⟩, BusCtl.beginStrobe_eq hset hk least hx]

/-! ### The end of the break (R22, R31) -/

/-- Settles O32. -/
theorem strobeCaptureTaken : Obligations.StrobeCaptureTaken := by
  refine ⟨fun dt s t d high h hn => ?_, fun dt s t x d b u chart h hb hp ht hu hchart => ⟨?_, ?_⟩⟩
  · rw [exec_strobeCapture, execStrobeCapture, h.after]
    dsimp only
    rw [State.setTime_bus]
    split
    · rename_i x hx
      rw [if_neg (hn x hx)]
    · rfl
  all_goals
    subst hb
    rw [exec_strobeCapture, execStrobeCapture, h.after]
    dsimp only
    rw [State.setTime_bus, hp]
    dsimp only
    rw [if_pos ht]
  · have runs : u.1.running = s.clock.running := by rw [hu, Clock.update_running]
    rw [if_pos rfl, State.takeCapture, State.updateClock_eq]
    dsimp only
    rw [← hu, State.storeClock_clock, State.storeClock_localTime, storeClock_bus, State.setTime_bus, runs,
      ← hchart]
  · rw [if_neg Bool.false_ne_true, State.breakNotEnded, State.setTime_bus]

/-! ### Headers (R23) -/

/-- The lowest panel of an enable set that is not yet passed (R23). -/
theorem nextPanel_eq_some {e : BusSet} {k : Nat} {p : Fin 9} : nextPanel e k = some p ↔
    k ≤ p.val ∧ e.getLsbD p.val = true ∧ ∀ q : Fin 9, k ≤ q.val → e.getLsbD q.val = true → p ≤ q := by
  have sorted : busPanels.Pairwise (· < ·) := by decide
  rw [nextPanel, List.find?_eq_some_iff_append]
  simp only [Bool.and_eq_true, decide_eq_true_eq, Bool.not_eq_true', Bool.and_eq_false_imp]
  constructor
  · rintro ⟨⟨hk, he⟩, as, bs, hab, hfirst⟩
    refine ⟨hk, he, fun q hq heq => ?_⟩
    rw [hab, List.pairwise_append] at sorted
    obtain ⟨_, hbs, _⟩ := sorted
    have hmem := mem_busPanels q
    rw [hab, List.mem_append, List.mem_cons] at hmem
    rcases hmem with hm | rfl | hm
    · have := hfirst q hm hq
      rw [heq] at this
      cases this
    · exact le_rfl
    · exact (List.rel_of_pairwise_cons hbs hm).le
  · rintro ⟨hk, he, hleast⟩
    obtain ⟨as, bs, hab⟩ := List.append_of_mem (mem_busPanels p)
    refine ⟨⟨hk, he⟩, as, bs, hab, fun q hq hkq => ?_⟩
    rw [hab, List.pairwise_append] at sorted
    obtain ⟨_, _, hcross⟩ := sorted
    rw [Bool.eq_false_iff]
    exact fun heq => absurd (hleast q hkq heq) (not_le.2 (hcross q hq p (List.mem_cons_self)))

theorem addrByte_eq {p : Fin 9} {addr : Byte} (h : addr.toNat = p.val + 1) : addrByte p = addr := by
  have hp := p.isLt
  refine BitVec.eq_of_toNat_eq ?_
  rw [addrByte, BitVec.toNat_ofNat, h]
  omega

/-- A scan that completes leaves the controller with nothing to send (R27). -/
theorem State.completeScan_setBus (s : State) (d : Side) (x : BusCtl) (scan : Scan) (k : CompletionKind)
    (v : Vector (Option PollOutcome) 9) :
    (s.setBus d x).completeScan d scan k v = (s.setBus d (x.endScan s.localTime)).takeCompletion d
      (completionOf scan k v) := by
  rw [State.completeScan, State.setBus_bus_same, State.setBus_setBus, State.setBus_localTime]

theorem State.readBack_eq (s : State) (d : Side) :
    s.readBack d = s.setBus d ((s.bus d).readBack s.localTime) := rfl

theorem State.busReleased_eq_getD {s : State} {d : Side} {x : LocalTime} {bits : List Bool}
    (h : (∃ ended, (s.bus d).phase = .strobe x ended ∧ bits = strobeBits (s.bus d).scanNumber) ∨
      ∃ p lamp, (s.bus d).phase = .poll x p lamp ∧ bits = headerBits p lamp) :
    s.busReleased d = bits.getD (elapsed x s.localTime) true := by
  unfold State.busReleased
  rcases h with ⟨ended, hp, rfl⟩ | ⟨p, lamp, hp, rfl⟩ <;> rw [hp]

theorem State.busReleased_of_silent {s : State} {d : Side}
    (h : (∃ u, (s.bus d).phase = .quiet u) ∨ ∃ u, (s.bus d).phase = .gap u) : s.busReleased d = true := by
  unfold State.busReleased
  rcases h with ⟨u, hp⟩ | ⟨u, hp⟩ <;> rw [hp]

/-- Settles O33. -/
theorem headersFollowStrobe : Obligations.HeadersFollowStrobe := by
  refine ⟨fun dt s t d b h hb => ⟨fun hn => ?noStrobe, fun hn => ?noHeader⟩,
    fun dt s t x d b scan h hb hp hs hf ht => ⟨fun hx => ?complete, fun p hx => ?gap⟩,
    fun dt s t d b scan p h hb hp hs hf hx => ?header, fun e k p => nextPanel_eq_some, fun n => rfl,
    fun p addr lamp ha => by rw [headerBits, addrByte_eq ha], fun s d x bits hbits => ?released⟩
  case noStrobe =>
    subst hb
    rw [exec_strobeSent, execStrobeSent, h.after]
    dsimp only
    rw [State.setTime_bus]
    split
    · rename_i x scan hp hs hf
      rw [if_neg]
      intro ht
      rcases hn with hn | hn | hn
      · rw [hs] at hn; cases hn
      · exact hn hf
      · exact hn x hp ht
    · rfl
  case noHeader =>
    subst hb
    rw [exec_pollHeader, execPollHeader, h.after]
    dsimp only
    rw [State.setTime_bus]
    split
    · rename_i start scan hp hs hf
      split
      · rfl
      · rename_i p hx
        rw [if_neg]
        rintro rfl
        rcases hn with hn | hn | hn
        · exact hn hp
        · exact hn hf
        · rw [hn scan hs] at hx
          cases hx
    · rfl
  case complete =>
    subst hb
    rw [exec_strobeSent, execStrobeSent, h.after]
    dsimp only
    rw [State.setTime_bus, hp, hs, hf]
    dsimp only
    rw [if_pos ht, hx, State.readBack_eq, State.completeScan_setBus, State.setTime_bus]
    rfl
  case gap =>
    subst hb
    rw [exec_strobeSent, execStrobeSent, h.after]
    dsimp only
    rw [State.setTime_bus, hp, hs, hf]
    dsimp only
    rw [if_pos ht, hx]
  case header =>
    subst hb
    rw [exec_pollHeader, execPollHeader, h.after]
    dsimp only
    rw [State.setTime_bus, hp, hs, hf]
    dsimp only
    rw [hx]
    dsimp only
    rw [if_pos rfl, State.setTime_panels]
  case released =>
    rcases hbits with hsend | ⟨hsilent, rfl⟩
    · rw [State.busReleased_eq_getD hsend]
      exact ⟨fun bit => getD_of_getElem?, getD_of_length_le⟩
    · exact ⟨fun bit hbit => by simp at hbit, fun _ => State.busReleased_of_silent hsilent⟩

/-! ### The end of an attempt (R24 to R27) -/

theorem responseReading_eq_some {n : Byte} {a b k : RxChar} {r : Nat} : responseReading n a b k = some r ↔
    charFault a = none ∧ charFault b = none ∧ charFault k = none ∧ a.data.toNat < 4 ∧
      k.data = crc8 [n, a.data, b.data] ∧ r = a.data.toNat * 256 + b.data.toNat := by
  unfold responseReading
  split
  · rename_i hok
    obtain ⟨h1, h2, h3, h4, h5⟩ := hok
    rw [Option.some_inj]
    exact ⟨fun h => ⟨h1, h2, h3, h4, h5, h.symm⟩, fun ⟨_, _, _, _, _, h⟩ => h.symm⟩
  · rename_i hbad
    constructor
    · intro h
      cases h
    · rintro ⟨h1, h2, h3, h4, h5, _⟩
      exact absurd ⟨h1, h2, h3, h4, h5⟩ hbad

theorem BusCtl.polling_of_poll {c : BusCtl} {scan : Scan} {h : LocalTime} {p : Fin 9} {lamp : Byte}
    (hs : c.scan = some scan) (hp : c.phase = .poll h p lamp) (hf : c.finishing = none) :
    c.polling = some (scan, h, p) := by
  rw [BusCtl.polling, hs, hp, hf]

theorem State.endAttempt_retry {s : State} {d : Side} {scan : Scan} {p : Fin 9}
    (h : scan.attempts < 1 + scan.retries.val) :
    s.endAttempt d scan p none = s.setBus d { s.bus d with phase := .gap (later s.localTime 2) } := by
  rw [State.endAttempt, if_pos h]

/-- An attempt that is not retried settles its panel: GOOD with its reading, FAILED without one (R25, R26). -/
theorem State.endAttempt_settle {s : State} {d : Side} {scan : Scan} {p : Fin 9} {reading : Option Nat}
    {o : PollOutcome} (h : (∃ n, reading = some n ∧ o = .good n) ∨
      (reading = none ∧ 1 + scan.retries.val ≤ scan.attempts ∧ o = .failed)) :
    s.endAttempt d scan p reading = s.settlePanel d scan p o := by
  rcases h with ⟨n, rfl, rfl⟩ | ⟨rfl, hle, rfl⟩
  · rfl
  · rw [State.endAttempt, if_neg (Nat.not_lt.2 hle)]

theorem State.settlePanel_next {s : State} {d : Side} {scan : Scan} {p q : Fin 9}
    (h : nextPanel scan.enable (p.val + 1) = some q) (o : PollOutcome) :
    s.settlePanel d scan p o = s.setBus d { s.bus d with
      scan := some { scan with outcomes := scan.outcomes.set p.val (some o), next := some q, attempts := 0 }
      phase := .gap (later s.localTime 2) } := by
  rw [State.settlePanel, h]

theorem State.settlePanel_last {s : State} {d : Side} {scan : Scan} {p : Fin 9}
    (h : nextPanel scan.enable (p.val + 1) = none) (o : PollOutcome) :
    s.settlePanel d scan p o =
      s.completeScan d { scan with outcomes := scan.outcomes.set p.val (some o), next := none } .normal
        (scan.outcomes.set p.val (some o)) := by
  rw [State.settlePanel, h]

/-- Settles O34. -/
theorem attemptEnds : Obligations.AttemptEnds := by
  refine ⟨fun dt s t d b h hb => ⟨fun hn k l z => ?noResponse, fun hn => ?noLimit⟩,
    fun n a b k r => responseReading_eq_some,
    fun dt s t x d b y scan p lamp i reading h hb hp hs hf hi => ?ends⟩
  case noResponse =>
    subst hb
    rw [exec_pollResponse, execPollResponse, h.after]
    dsimp only
    rw [State.setTime_bus]
    split
    · rename_i scan x p hpoll
      obtain ⟨hs, hf, lamp, hp⟩ := BusCtl.polling_spec hpoll
      rw [if_neg]
      rintro ⟨hlo, hhi⟩
      simp only [headerTime, responseLimitTime] at hlo hhi
      rcases hn with hn | hn | hn
      · rw [hs] at hn; cases hn
      · exact hn hf
      · have := hn x p lamp hp
        omega
    · rfl
  case noLimit =>
    subst hb
    rw [exec_responseLimit, execResponseLimit, h.after]
    dsimp only
    rw [State.setTime_bus]
    split
    · rename_i scan x p hpoll
      obtain ⟨hs, hf, lamp, hp⟩ := BusCtl.polling_spec hpoll
      rw [if_neg]
      intro ht
      rcases hn with hn | hn | hn
      · rw [hs] at hn; cases hn
      · exact hn hf
      · exact hn x p lamp hp ht
    · rfl
  case ends =>
    subst hb
    have polling := BusCtl.polling_of_poll hs hp hf
    have act : exec i s =
        .next ((State.setBus { s with localTime := t } d y).endAttempt d scan p reading) := by
      rcases hi with ⟨k, l, z, rfl, hlo, hhi, hr, hy⟩ | ⟨rfl, ht, hr, hy⟩
      · have heard : (s.bus d).heard z t = y := by
          rw [hy, BusCtl.heard]
          rfl
        rw [exec_pollResponse, execPollResponse, h.after]
        dsimp only
        rw [State.setTime_bus, polling]
        dsimp only
        rw [if_pos ⟨hlo, hhi⟩, heard, hr]
      · rw [exec_responseLimit, execResponseLimit, h.after]
        dsimp only
        rw [State.setTime_bus, polling]
        dsimp only
        rw [if_pos (by exact ht), State.readBack_eq, State.setTime_bus, hr, hy]
    rw [act]
    refine ⟨fun hr hlt => ?_, fun o v ho hv => ⟨fun q hq => ?_, fun hq => ?_⟩⟩
    · rw [hr, State.endAttempt_retry hlt, State.setBus_bus_same, State.setBus_localTime]
      exact congrArg _ (State.setBus_setBus _ _ _ _)
    · rw [State.endAttempt_settle ho, State.settlePanel_next hq, ← hv, State.setBus_bus_same,
        State.setBus_localTime]
      exact congrArg _ (State.setBus_setBus _ _ _ _)
    · rw [State.endAttempt_settle ho, State.settlePanel_last hq, ← hv, State.completeScan_setBus]
      rfl

end Sys2Proof.Machine
end

section
/-! SUPPORT. Contention, the stuck line, recovery and the end of a BUS_RESET (2.5 to 2.7). -/

namespace Sys2Proof.Machine

/-! ### The bit being sent (R20) -/

/-- A high bit is being sent: in the mark or the STROBE character, or in a header. -/
theorem BusCtl.bitAt_eq_true_iff (b : BusCtl) (t : LocalTime) : b.bitAt t = some true ↔
    (∃ x, b.phase = .strobe x true ∧ 13 ≤ elapsed x t ∧
      (strobeBits b.scanNumber)[elapsed x t]? = some true) ∨
    ∃ h p l, b.phase = .poll h p l ∧ (headerBits p l)[elapsed h t]? = some true := by
  unfold BusCtl.bitAt
  cases b.phase with
  | strobe x ended =>
    cases ended
    · simp
    · by_cases h : 13 ≤ elapsed x t <;> simp [h]
  | quiet u => simp
  | gap u => simp
  | poll h p l => simp

theorem BusCtl.mismatchAt_iff (b : BusCtl) (t : LocalTime) : b.mismatchAt t = true ↔ b.bitAt t = some true :=
  beq_iff_eq

/-- The set that names the panel under way (R39). -/
theorem BusCtl.attemptSet_eq {b : BusCtl} {ps : BusSet}
    (h : (∃ x ended, b.phase = .strobe x ended ∧ ps = 0) ∨
      ∃ x p l, b.phase = .poll x p l ∧ ∀ q : Fin 9, ps.getLsbD q.val = decide (q = p)) :
    b.attemptSet = ps := by
  rcases h with ⟨x, ended, hp, rfl⟩ | ⟨x, p, l, hp, hps⟩
  · rw [BusCtl.attemptSet, hp]
  · rw [BusCtl.attemptSet, hp]
    refine BitVec.eq_of_getLsbD_eq fun i hi => ?_
    rw [hps ⟨i, hi⟩, BitVec.getLsbD_twoPow]
    by_cases hip : i = p.val
    · subst hip
      simp
    · simp [hip, Fin.ext_iff, Ne.symm hip]

theorem contentionOutcomes_eq {scan : Scan} {v : Vector (Option PollOutcome) 9}
    (h : ∀ q : Fin 9, v[q] = match scan.outcomes[q] with
      | some o => some o
      | none => if scan.enable.getLsbD q.val = true then some .failed else none) :
    contentionOutcomes scan = v := by
  refine Vector.ext fun i hi => ?_
  have hq := h ⟨i, hi⟩
  rw [contentionOutcomes, Vector.getElem_ofFn]
  exact hq.symm

/-- Settles O35. -/
theorem contentionCompletesScan : Obligations.ContentionCompletesScan := by
  refine ⟨fun dt s t d b h hb hn => ?_, fun dt s t d b scan ps v h hb hs hf hbit hv => ?_⟩
  all_goals
    subst hb
    rw [exec_contention, execContention, h.after]
    dsimp only
    rw [State.setTime_bus]
  · split
    · rename_i scan hs hf
      rw [if_neg]
      rw [BusCtl.mismatchAt_iff, BusCtl.bitAt_eq_true_iff]
      rcases hn with hn | hn | ⟨hstrobe, hpoll⟩
      · rw [hs] at hn; cases hn
      · exact absurd hf hn
      · rintro (⟨x, hp, hle, hb⟩ | ⟨x, p, l, hp, hb⟩)
        · exact (hstrobe x hp).elim (fun hlt => absurd hle (Nat.not_le.2 hlt)) fun hne => hne hb
        · exact hpoll x p l hp hb
    · rfl
  · have high : (s.bus d).bitAt t = some true := by
      rw [BusCtl.bitAt_eq_true_iff]
      rcases hbit with ⟨x, hp, hle, hb, _⟩ | ⟨x, p, l, hp, hb, _⟩
      · exact .inl ⟨x, hp, hle, hb⟩
      · exact .inr ⟨x, p, l, hp, hb⟩
    have set : (s.bus d).attemptSet = ps := by
      refine BusCtl.attemptSet_eq ?_
      rcases hbit with ⟨x, hp, _, _, hps⟩ | ⟨x, p, l, hp, _, hps⟩
      · exact .inl ⟨x, true, hp, hps⟩
      · exact .inr ⟨x, p, l, hp, hps⟩
    rw [hs, hf]
    dsimp only
    rw [if_pos ((BusCtl.mismatchAt_iff _ _).2 high), set, contentionOutcomes_eq hv, State.readBack_eq,
      State.completeScan_setBus, State.raise_bus, State.setTime_bus]
    rfl

/-! ### The stuck line (R20, R32, R33) -/

theorem BusCtl.stuckAt_iff {b c : BusCtl} {u t : LocalTime} (hc : c = b.readBack t) : b.stuckAt u t = true ↔
    elapsed u t ≤ elapsed c.lineHigh t ∧
      elapsed u t = 31 + (c.lowBreaks.map fun x =>
        min (elapsed u t) (elapsed x t) - (elapsed x t - 13)).sum := by
  subst hc
  rw [BusCtl.stuckAt, Bool.and_eq_true, decide_eq_true_iff, beq_iff_eq]
  rfl

/-- The last of the high bits among the first `n`. -/
theorem lastHighBit_eq_some {bits : List Bool} {n i : Nat} (hi : i < n) (hb : bits[i]? = some true)
    (last : ∀ k < n, bits[k]? = some true → k ≤ i) : lastHighBit bits n = some i := by
  induction n with
  | zero => exact absurd hi (Nat.not_lt_zero i)
  | succ n ih =>
    rw [lastHighBit]
    by_cases hn : bits[n]? = some true
    · rw [List.getD_eq_getElem?_getD, hn, Option.getD_some, if_pos rfl,
        Nat.le_antisymm (last n n.lt_succ_self hn) (Nat.le_of_lt_succ hi)]
    · have hlow : ¬ bits.getD n false = true := by
        rw [List.getD_eq_getElem?_getD]
        cases hbn : bits[n]? with
        | none => exact Bool.false_ne_true
        | some x => exact fun hx => hn (by rw [hbn]; exact congrArg some hx)
      have hne : i ≠ n := by
        rintro rfl
        exact hn hb
      rw [if_neg hlow]
      exact ih (by omega) fun k hk => last k (Nat.lt_succ_of_lt hk)

theorem lastHighBit_eq_none {bits : List Bool} {n : Nat} (h : ∀ k < n, bits[k]? ≠ some true) :
    lastHighBit bits n = none := by
  induction n with
  | zero => rfl
  | succ n ih =>
    have hlow : ¬ bits.getD n false = true := by
      rw [List.getD_eq_getElem?_getD]
      cases hbn : bits[n]? with
      | none => exact Bool.false_ne_true
      | some x => exact fun hx => h n n.lt_succ_self (by rw [hbn]; exact congrArg some hx)
    rw [lastHighBit, if_neg hlow]
    exact ih fun k hk => h k (Nat.lt_succ_of_lt hk)

theorem BusCtl.sent_of_sending {b : BusCtl} {x : LocalTime} {bits : List Bool}
    (h : b.phase = .strobe x true ∧ bits = strobeBits b.scanNumber ∨
      ∃ p l, b.phase = .poll x p l ∧ bits = headerBits p l) : b.sent = some (x, bits) := by
  unfold BusCtl.sent
  rcases h with ⟨hp, rfl⟩ | ⟨p, l, hp, rfl⟩ <;> rw [hp]

theorem BusCtl.readBack_of_high {b : BusCtl} {x t : LocalTime} {bits : List Bool}
    (h : b.sent = some (x, bits)) {i : Nat} (hb : bits[i]? = some true) (hi : i < elapsed x t)
    (last : ∀ k, bits[k]? = some true → k < elapsed x t → k ≤ i) :
    b.readBack t = b.readHigh (later x i) := by
  have within : i < bits.length := (List.getElem?_eq_some_iff.1 hb).1
  rw [BusCtl.readBack, h]
  dsimp only
  rw [lastHighBit_eq_some (lt_min within hi) hb fun k hk hkb => last k hkb (hk.trans_le (min_le_right _ _))]

theorem BusCtl.readBack_of_low {b : BusCtl} {x t : LocalTime} {bits : List Bool}
    (h : b.sent = some (x, bits)) (low : ∀ k, bits[k]? = some true → elapsed x t ≤ k) : b.readBack t = b := by
  rw [BusCtl.readBack, h]
  dsimp only
  rw [lastHighBit_eq_none fun k hk hkb => absurd (low k hkb) (Nat.not_le.2 (hk.trans_le (min_le_right _ _)))]

theorem BusCtl.readBack_of_silent {b : BusCtl} (hs : ∀ x, b.phase ≠ .strobe x true)
    (hp : ∀ x p l, b.phase ≠ .poll x p l) (t : LocalTime) : b.readBack t = b := by
  have : b.sent = none := by
    unfold BusCtl.sent
    split
    · exact absurd ‹_› (hs _)
    · exact absurd ‹_› (hp _ _ _)
    · rfl
  rw [BusCtl.readBack, this]

/-- The DOWN completion, with the capture of the scan in flight when one is taken (R33). -/
theorem BusCtl.downCompletion_eq {b : BusCtl} {k : Completion} (hk : k.kind = .down)
    (ho : k.outcomes = Vector.replicate 9 none)
    (h : (∃ scan x, b.scan = some scan ∧ scan.capture = some x ∧ k.number = scan.number ∧ k.capture = x ∧
        k.chart = scan.chart ∧ k.enable = scan.enable) ∨
      ((∀ scan, b.scan = some scan → scan.capture = none) ∧ k.number = b.scanNumber ∧
        k.capture = b.lastCapture ∧ k.chart = b.lastChart ∧ k.enable = b.settings.enable)) :
    b.downCompletion = k := by
  obtain ⟨kind, number, capture, chart, enable, outcomes⟩ := k
  dsimp only at hk ho h
  subst hk ho
  unfold BusCtl.downCompletion
  rcases h with ⟨scan, x, hs, hc, rfl, rfl, rfl, rfl⟩ | ⟨hno, rfl, rfl, rfl, rfl⟩
  · rw [hs]
    dsimp only
    rw [hc]
    dsimp only
    rw [completionOf, hc]
    rfl
  · cases hs : b.scan with
    | none => rfl
    | some scan =>
      dsimp only
      rw [hno scan hs]
      rfl

/-- STUCK_LINE on a bus that is UP and in no break of its own acts on the measured low period (R20, R32). -/
theorem exec_stuckLine_of_up {s : State} {dt : Nat} {t : LocalTime} (h : Reaches s dt t) {d : Side}
    (hu : (s.bus d).state = .up) (hp : ∀ x, (s.bus d).phase ≠ .strobe x false) (u : LocalTime) :
    exec (.stuckLine dt ⟨d, u⟩) s = .next
      (if (s.bus d).stuckAt u t = true then
        ((State.setBus { s with localTime := t } d ((s.bus d).goDown t)).raise .busDown (some d) 0
          (s.bus d).scanNumber.toNat).takeCompletion d (s.bus d).downCompletion
      else { s with localTime := t }) := by
  rw [exec_stuckLine, execStuckLine, h.after]
  dsimp only
  rw [State.setTime_bus, hu]
  split
  · exact absurd ‹_› (by simp)
  · exact absurd ‹_› (hp _)
  · rfl

/-- In the controller's own break no low period is measured, and on a bus that is DOWN neither. -/
theorem exec_stuckLine_of_break {s : State} {dt : Nat} {t : LocalTime} (h : Reaches s dt t) {d : Side}
    (hb : (s.bus d).state = .down ∨ ∃ x, (s.bus d).phase = .strobe x false) (u : LocalTime) :
    exec (.stuckLine dt ⟨d, u⟩) s = .next { s with localTime := t } := by
  rw [exec_stuckLine, execStuckLine, h.after]
  dsimp only
  rw [State.setTime_bus]
  split
  · rfl
  · rfl
  · rename_i hu hp
    rcases hb with hd | ⟨x, hx⟩
    · rw [hu] at hd
      cases hd
    · exact absurd hx (hp x)

/-- Settles O36. -/
theorem stuckLineGoesDown : Obligations.StuckLineGoesDown := by
  refine ⟨fun dt s t u d h hd => exec_stuckLine_of_break h (.inl hd) u,
    fun dt s t u d b k h hb hu hk ho hcap => ⟨fun hp hst => ?_, fun hst => ?_, fun x hp => ?_⟩,
    fun b c u t hc => BusCtl.stuckAt_iff hc, fun b t => ⟨fun x bits hbits =>
      ⟨fun i hi hlt hlast => BusCtl.readBack_of_high (BusCtl.sent_of_sending hbits) hi hlt hlast,
        fun hlow => BusCtl.readBack_of_low (BusCtl.sent_of_sending hbits) hlow⟩,
      fun h1 h2 => BusCtl.readBack_of_silent h1 h2 t⟩⟩
  all_goals subst hb
  · rw [exec_stuckLine_of_up h hu hp, if_pos hst, BusCtl.downCompletion_eq hk ho hcap]
    rfl
  · by_cases hp : ∃ x, (s.bus d).phase = .strobe x false
    · exact exec_stuckLine_of_break h (.inr hp) u
    · rw [exec_stuckLine_of_up h hu (not_exists.1 hp), if_neg (by simp [hst])]
  · exact exec_stuckLine_of_break h (.inr ⟨x, hp⟩) u

/-! ### Recovery (R34) -/

/-- Settles O37. -/
theorem probesRecoverBus : Obligations.ProbesRecoverBus := by
  have probeLow : ∀ {dt s t} (d : Side), Reaches s dt t → ∀ {p}, (s.bus d).watching = some p →
      exec (.probeLow dt d) s = .next (if elapsed p t ≤ 13 then
        State.setBus { s with localTime := t } d ((s.bus d).probeFails p) else { s with localTime := t }) := by
    intro dt s t d h p hw
    rw [exec_probeLow, execProbeLow, h.after]
    dsimp only
    rw [State.setTime_bus, hw]
  have busUp : ∀ {dt s t} (d : Side), Reaches s dt t → ∀ {p}, (s.bus d).watching = some p →
      exec (.busUp dt d) s = .next (if t = later p 13 then
        (State.setBus { s with localTime := t } d ((s.bus d).goUp t)).raise .busUp (some d) 0
          (elapsed (s.bus d).downSince t) else { s with localTime := t }) := by
    intro dt s t d h p hw
    rw [exec_busUp, execBusUp, h.after]
    dsimp only
    rw [State.setTime_bus, hw]
  refine ⟨fun dt s t d b h hb => ⟨fun hn => ?_, fun hn => ?_, fun hn => ?_⟩,
    fun dt s t d b h hb hd hp => ?_, fun dt s t p d b h hb hw => ⟨fun hle => ?_, fun ht => ?_⟩⟩
  all_goals subst hb
  · rw [exec_downProbe, execDownProbe, h.after]
    dsimp only
    rw [State.setTime_bus, if_neg]
    rintro ⟨hd, hp⟩
    rcases hn with hn | hn
    · rw [hd] at hn
      cases hn
    · exact hn hp
  · cases hw : (s.bus d).watching with
    | none =>
      rw [exec_probeLow, execProbeLow, h.after]
      dsimp only
      rw [State.setTime_bus, hw]
    | some p => rw [probeLow d h hw, if_neg (Nat.not_le.2 (hn p hw))]
  · cases hw : (s.bus d).watching with
    | none =>
      rw [exec_busUp, execBusUp, h.after]
      dsimp only
      rw [State.setTime_bus, hw]
    | some p => rw [busUp d h hw, if_neg (hn p hw)]
  · rw [exec_downProbe, execDownProbe, h.after]
    dsimp only
    rw [State.setTime_bus, if_pos ⟨hd, hp⟩]
  · rw [probeLow d h hw, if_pos hle]
    rfl
  · rw [busUp d h hw, if_pos ht]
    rfl

/-! ### The end of a BUS_RESET (R37) -/

theorem BusCtl.inBreak_iff (b : BusCtl) : b.inBreak = true ↔ ∃ x, b.phase = .strobe x false := by
  unfold BusCtl.inBreak
  split
  · rename_i x hp
    simp [hp]
  · rename_i hp
    simp only [Bool.false_eq_true, false_iff, not_exists]
    exact hp

/-- The completion that a RESET hands on, of the scan in flight or without one (R37, R38). -/
theorem State.resetCompletion_eq {s : State} {d : Side} {r : BusCtl} {k : Completion}
    (hr : r = ((s.bus d).readBack s.localTime).endScan s.localTime) (ho : k.outcomes = Vector.replicate 9 none)
    (hk : (∃ scan, (s.bus d).scan = some scan ∧ k.kind = .reset true ∧ k.number = scan.number ∧
        k.capture = scan.capture.getD 0 ∧ k.chart = scan.chart ∧ k.enable = scan.enable) ∨
      ((s.bus d).scan = none ∧ k.kind = .reset false ∧ k.number = (s.bus d).scanNumber ∧
        k.capture = (s.bus d).lastCapture ∧ k.chart = (s.bus d).lastChart ∧
        k.enable = (s.bus d).settings.enable)) :
    s.resetCompletion d = (s.setBus d r).takeCompletion d k := by
  obtain ⟨kind, number, capture, chart, enable, outcomes⟩ := k
  dsimp only at ho hk
  subst ho hr
  rcases hk with ⟨scan, hs, rfl, rfl, rfl, rfl, rfl⟩ | ⟨hs, rfl, rfl, rfl, rfl, rfl⟩
  · rw [State.resetCompletion_of_scan hs]
    rfl
  · rw [State.resetCompletion_of_none hs, BusCtl.bareCompletion, BusCtl.readBack_scanNumber,
      BusCtl.readBack_lastCapture, BusCtl.readBack_lastChart, BusCtl.readBack_settings]

/-- Settles O38. -/
theorem busResetStops : Obligations.BusResetStops := by
  have act : ∀ {dt s t} (d : Side) (mismatch : Bool), Reaches s dt t → ∀ {e}, (s.bus d).finishing = some e →
      ¬ (s.bus d).inBreak = true → exec (.busResetCompletion dt d mismatch) s = .next
        (if mismatch = true then
          if (s.bus d).mismatchAt t = true ∧ (s.bus d).sendingUntil t = some e then
            (State.raise { s with localTime := t } .busContention (some d) (s.bus d).attemptSet
              (s.bus d).scanNumber.toNat).resetCompletion d
          else { s with localTime := t }
        else if t = e then State.resetCompletion { s with localTime := t } d
        else { s with localTime := t }) := by
    intro dt s t d mismatch h e hf hb
    rw [exec_busResetCompletion, execBusResetCompletion, h.after]
    dsimp only
    rw [State.setTime_bus, hf]
    dsimp only
    rw [if_neg hb]
  have idle : ∀ {dt s t} (d : Side) (mismatch : Bool), Reaches s dt t →
      (s.bus d).finishing = none ∨ (s.bus d).inBreak = true →
      exec (.busResetCompletion dt d mismatch) s = .next { s with localTime := t } := by
    intro dt s t d mismatch h hn
    rw [exec_busResetCompletion, execBusResetCompletion, h.after]
    dsimp only
    rw [State.setTime_bus]
    split
    · rfl
    · rename_i e hf
      rcases hn with hn | hn
      · rw [hf] at hn
        cases hn
      · rw [if_pos hn]
  refine ⟨fun dt s t d b h hb => ⟨fun hn => ?early, fun hn => ?noMismatch⟩,
    fun dt s t e d b r k h hb hf hp hr ho hk => ?_⟩
  case early =>
    subst hb
    by_cases hb : (s.bus d).inBreak = true
    · exact idle d false h (.inr hb)
    · cases hf : (s.bus d).finishing with
      | none => exact idle d false h (.inl hf)
      | some e =>
        rw [act d false h hf hb, if_neg Bool.false_ne_true, if_neg]
        rintro rfl
        exact hn.elim (fun hx => hb ((BusCtl.inBreak_iff _).2 hx)) fun hne => hne hf
  case noMismatch =>
    subst hb
    by_cases hb : (s.bus d).inBreak = true
    · exact idle d true h (.inr hb)
    · cases hf : (s.bus d).finishing with
      | none => exact idle d true h (.inl hf)
      | some e =>
        rw [act d true h hf hb, if_pos rfl, if_neg]
        rintro ⟨hm, he⟩
        rcases hn with hn | hn | hn
        · exact hb ((BusCtl.inBreak_iff _).2 hn)
        · exact hn ((BusCtl.mismatchAt_iff _ _).1 hm)
        · exact hn e hf he
  subst hb
  have released : ¬ (s.bus d).inBreak = true := by
    rw [BusCtl.inBreak_iff]
    exact not_exists.2 hp
  refine ⟨fun ht => ?_, fun hbit he => ?_⟩
  · rw [act d false h hf released, if_neg Bool.false_ne_true, if_pos ht,
      State.resetCompletion_eq (s := { s with localTime := t }) (r := r) _ ho]
    · rwa [State.setTime_bus]
    · rw [State.setTime_bus, hr]
      rfl
  · rw [act d true h hf released, if_pos rfl, if_pos ⟨(BusCtl.mismatchAt_iff _ _).2 hbit, he⟩]
    refine congrArg _ (State.resetCompletion_eq ?_ ho ?_)
    · rw [State.raise_bus, State.setTime_bus, hr]
      rfl
    · rwa [State.raise_bus, State.setTime_bus]

end Sys2Proof.Machine
end

section
/-! SUPPORT. Results, report queues and the notice set (chapter 8, R162, R164, R166). -/

namespace Sys2Proof.Machine

/-! ### Reports and notices -/

theorem Stage.offer_of_room {st : Stage} {depth : Nat} (h : st.reports.length < depth) (mk : Nat → Report) :
    st.offer depth mk = { st with reports := st.reports ++ [mk st.droppedCount], droppedCount := 0 } := by
  rw [Stage.offer, if_pos h]

theorem Stage.offer_of_full {st : Stage} {depth : Nat} (h : depth ≤ st.reports.length) (mk : Nat → Report) :
    st.offer depth mk = { st with droppedCount := min 255 (st.droppedCount + 1) } := by
  rw [Stage.offer, if_neg (Nat.not_lt.2 h)]

/-- The notice kinds in the order of their codes (R165). -/
def noticeKinds : List NoticeKind :=
  [.syncStale, .clockJump, .clockLimit, .panelOffline, .panelOnline, .panelStuck, .busDown, .busUp, .scanLate,
    .busContention, .linkError, .requestShed]

theorem noticeKinds_getElem? (k : NoticeKind) : noticeKinds[noticeCode k]? = some k := by cases k <;> rfl

theorem noticeCode_inj {k k' : NoticeKind} (h : noticeCode k = noticeCode k') : k = k' := by
  have := noticeKinds_getElem? k
  rw [h, noticeKinds_getElem?] at this
  exact (Option.some.inj this).symm

/-- Place of a stage value among the notices of a kind (R166). -/
def sourceRank : Option Side → Nat
  | some .a => 0
  | some .b => 1
  | none => 2

theorem noticeKey_eq (n : Notice) : noticeKey n = 3 * noticeCode n.kind + sourceRank n.source := rfl

theorem sourceRank_le (x : Option Side) : sourceRank x ≤ 2 := by
  match x with
  | some .a => decide
  | some .b => decide
  | none => decide

theorem sourceRank_inj {x y : Option Side} (h : sourceRank x = sourceRank y) : x = y := by
  match x, y with
  | none, none | some .a, some .a | some .b, some .b => rfl

theorem sourceRank_lt_iff {value : Option Side → Nat}
    (hv : ∀ x, value x = match x with | some .a => 0 | some .b => 1 | none => 0xFF) (x y : Option Side) :
    sourceRank x < sourceRank y ↔ value x < value y := by
  rw [hv x, hv y]
  match x, y with
  | none, none | none, some .a | none, some .b | some .a, none | some .a, some .a | some .a, some .b
  | some .b, none | some .b, some .a | some .b, some .b => decide

/-- A pair of kind and stage value has one place in the order (R164). -/
theorem noticeKey_eq_iff {m n : Notice} : noticeKey m = noticeKey n ↔ m.kind = n.kind ∧ m.source = n.source := by
  constructor
  · intro h
    rw [noticeKey_eq, noticeKey_eq] at h
    have hm := sourceRank_le m.source
    have hn := sourceRank_le n.source
    exact ⟨noticeCode_inj (by omega), sourceRank_inj (by omega)⟩
  · rintro ⟨hk, hs⟩
    rw [noticeKey_eq, noticeKey_eq, hk, hs]

/-- A raise with no entry to merge into joins the set (R164). -/
theorem mem_takeRaise_of_fresh {n x : Notice} {l : List Notice} (h : ∀ m ∈ l, noticeKey m ≠ noticeKey n) :
    x ∈ takeRaise n l ↔ x = n ∨ x ∈ l := by
  induction l with
  | nil => simp [takeRaise]
  | cons o os ih =>
    have rest := ih fun m hm => h m (List.mem_cons_of_mem o hm)
    rw [takeRaise, if_neg (h o List.mem_cons_self)]
    split
    · exact List.mem_cons
    · rw [List.mem_cons, rest, List.mem_cons]
      tauto

/-- A raise merges into the entry of its kind and stage value and leaves the others (R164). -/
theorem mem_takeRaise_of_pending {n m x : Notice} {l : List Notice}
    (ordered : l.Pairwise fun a b => noticeKey a < noticeKey b) (hm : m ∈ l) (hk : noticeKey m = noticeKey n) :
    x ∈ takeRaise n l ↔
      x = { m with count := min 255 (m.count + 1), panels := m.panels ||| n.panels, detail := n.detail } ∨
        x ∈ l ∧ noticeKey x ≠ noticeKey n := by
  induction l with
  | nil => simp at hm
  | cons o os ih =>
    rw [List.pairwise_cons] at ordered
    obtain ⟨hlt, hos⟩ := ordered
    rw [takeRaise]
    by_cases ho : noticeKey o = noticeKey n
    · have later : ∀ y ∈ os, noticeKey y ≠ noticeKey n := fun y hy => by
        have := hlt y hy
        omega
      obtain rfl : m = o := (List.mem_cons.1 hm).resolve_right fun h => later m h hk
      rw [if_pos ho, List.mem_cons, List.mem_cons]
      constructor
      · rintro (rfl | hx)
        · exact .inl rfl
        · exact .inr ⟨.inr hx, later x hx⟩
      · rintro (rfl | ⟨rfl | hx, hne⟩)
        · exact .inl rfl
        · exact absurd ho hne
        · exact .inr hx
    · have hmos : m ∈ os := (List.mem_cons.1 hm).resolve_left fun h => ho (h ▸ hk)
      have before : ¬ noticeKey n < noticeKey o := by
        have := hlt m hmos
        omega
      rw [if_neg ho, if_neg before, List.mem_cons, ih hos hmos, List.mem_cons]
      constructor
      · rintro (rfl | rfl | ⟨hx, hne⟩)
        · exact .inr ⟨.inl rfl, ho⟩
        · exact .inl rfl
        · exact .inr ⟨.inr hx, hne⟩
      · rintro (rfl | ⟨rfl | hx, hne⟩)
        · exact .inr (.inl rfl)
        · exact .inl rfl
        · exact .inr (.inr ⟨hx, hne⟩)

/-- Settles O53. -/
theorem reportsAndNoticesQueued : Obligations.ReportsAndNoticesQueued := by
  refine ⟨fun st depth mk => ⟨fun h => Stage.offer_of_room h mk, fun h => Stage.offer_of_full h mk⟩,
    fun code value hcode hvalue => ?order, fun l k src ps x n ordered unmasked hn => ?raise⟩
  case order =>
    have codes : ∀ k, noticeCode k = code k := fun k => by
      rw [hcode k]
      cases k <;> rfl
    refine ⟨codes, fun m n => ?_⟩
    rw [← codes, ← codes, ← sourceRank_lt_iff hvalue, noticeKey_eq, noticeKey_eq]
    have hm := sourceRank_le m.source
    have hn := sourceRank_le n.source
    omega
  case raise =>
    rw [Link.raise_notices, unmasked, if_neg Bool.false_ne_true]
    refine ⟨takeRaise_ordered ordered, fun m => ?_⟩
    have same : ∀ y : Notice, noticeKey y = noticeKey ⟨k, src, 1, ps, x⟩ ↔ y.kind = k ∧ y.source = src :=
      fun y => noticeKey_eq_iff
    rcases hn with ⟨o, ho, rfl, rfl, rfl⟩ | ⟨fresh, rfl⟩
    · rw [mem_takeRaise_of_pending ordered ho ((same o).2 ⟨rfl, rfl⟩), ← same]
    · rw [mem_takeRaise_of_fresh fun y hy hk => fresh y hy ((same y).1 hk)]
      exact or_congr_right ⟨fun hm => ⟨hm, fresh m hm⟩, fun hm => hm.1⟩

/-! ### The accounts (R131 to R142) -/

/-- What a result leaves in the accounts (R131 to R142). -/
theorem Stage.account_values (st : Stage) (r : Result) (w : Option Int) :
    (st.account r w).earned = addTenths st.earned r ∧
      (st.account r w).judged = st.judged + unitsOf r ∧
      (st.account r w).overcount =
        (st.overcount || decide (st.units < st.judged + unitsOf r ∧ unitsOf r ≠ 0)) ∧
      (st.account r w).life = lifeAfter st.life r ∧ (st.account r w).combo = comboAfter st.combo r ∧
      (st.account r w).maxCombo = maxComboAfter st.maxCombo st.combo (comboAfter st.combo r) ∧
      (st.account r w).counts = st.counts.add r := by
  unfold Stage.account Stage.addOffset
  cases w with
  | none => exact ⟨rfl, rfl, rfl, rfl, rfl, rfl, rfl⟩
  | some off =>
    dsimp only
    split <;> exact ⟨rfl, rfl, rfl, rfl, rfl, rfl, rfl⟩

/-- A graded step enters the offset statistics while the graded count has room (R142). -/
theorem Stage.account_offset {st : Stage} (h : st.graded < 65535) (r : Result) (o : Int) :
    (st.account r (some o)).offsetSum = st.offsetSum + o ∧ (st.account r (some o)).graded = st.graded + 1 := by
  unfold Stage.account Stage.addOffset
  dsimp only
  rw [if_pos h]
  exact ⟨rfl, rfl⟩

theorem Stage.account_no_offset {st : Stage} {w : Option Int} (h : w = none ∨ 65535 ≤ st.graded) (r : Result) :
    (st.account r w).offsetSum = st.offsetSum ∧ (st.account r w).graded = st.graded := by
  unfold Stage.account Stage.addOffset
  cases w with
  | none => exact ⟨rfl, rfl⟩
  | some o =>
    dsimp only
    rw [if_neg (Nat.not_lt.2 (h.resolve_left (Option.some_ne_none o)))]
    exact ⟨rfl, rfl⟩

/-- Tenths, units and life change of each of the twelve results (R132, R133, R138). -/
theorem result_table {r : Result} {t u : Nat} {life : Int}
    (h : (r, t, u, life) ∈ ([(.prime, 10, 1, 8), (.solid, 8, 1, 6), (.fair, 5, 1, 2),
      (.weak, 2, 1, -30), (.miss, 0, 1, -60), (.holdOk, 10, 1, 4), (.dropped, 0, 1, -40),
      (.cut, 0, 1, 0), (.mineHit, 0, 0, -50), (.mineAvoided, 0, 0, 0), (.discarded, 0, 0, 0),
      (.stray, 0, 0, 0)] : List (Result × Nat × Nat × Int))) :
    t = tenths r ∧ u = unitsOf r ∧ life = lifeChange r := by
  have table : ∀ row ∈ ([(.prime, 10, 1, 8), (.solid, 8, 1, 6), (.fair, 5, 1, 2),
      (.weak, 2, 1, -30), (.miss, 0, 1, -60), (.holdOk, 10, 1, 4), (.dropped, 0, 1, -40),
      (.cut, 0, 1, 0), (.mineHit, 0, 0, -50), (.mineAvoided, 0, 0, 0), (.discarded, 0, 0, 0),
      (.stray, 0, 0, 0)] : List (Result × Nat × Nat × Int)),
      row.2.1 = tenths row.1 ∧ row.2.2.1 = unitsOf row.1 ∧ row.2.2.2 = lifeChange row.1 := by decide
  exact table _ h

theorem addTenths_eq {earned : Nat} (h : earned ≤ 1310700) (r : Result) :
    addTenths earned r = min 1310700 (earned + tenths r) := by
  unfold addTenths
  split
  · omega
  · rfl

theorem lifeAfter_eq {life : Nat} (h : life ≤ 1000) (r : Result) :
    (lifeAfter life r : Int) = max 0 (min 1000 ((life : Int) + lifeChange r)) := by
  unfold lifeAfter clampLife
  split <;> omega

theorem unitsOf_le (r : Result) : unitsOf r ≤ 1 := by cases r <;> decide

theorem failsSession_eq (before after : Stage) : failsSession before after =
    (before.failEnable && decide (0 < before.life) && decide (after.life = 0)) := rfl

theorem Stage.offer_failed (st : Stage) (depth : Nat) (mk : Nat → Report) :
    (st.offer depth mk).failed = st.failed := by
  unfold Stage.offer
  split <;> rfl

/-- A result with a report (R131, R140): the report is made from the accounts after it. -/
theorem Judging.result_some (j : Judging) (ctx : JudgeCtx) (r : Result) (w : Option Int)
    (mk : Bool → Stage → Nat → Report) {a : Stage} {fails : Bool} (ha : a = j.stage.account r w)
    (hf : fails = failsSession j.stage a) :
    j.result ctx r w (some mk) =
      { j with stage := { a.offer ctx.depth (mk fails a) with failed := a.failed || fails }
               halted := j.halted || fails } := by
  subst ha hf
  rw [← Stage.offer_failed (j.stage.account r w) ctx.depth]
  rfl

/-- Settles O52: the accounts row by row, then the report and the failure. -/
theorem resultsChangeAccounts : Obligations.ResultsChangeAccounts := by
  refine ⟨fun st a r w t u life hrow ha => ?accounts, fun j ctx r w a fails ha hfails => ?report⟩
  case accounts =>
    obtain ⟨rfl, rfl, rfl⟩ := result_table hrow
    obtain ⟨earned, judged, overcount, lives, combo, maxCombo, counts⟩ := st.account_values r w
    obtain ⟨state, _, _, _, _, _, _, table, _, tracker, _, _, _, reports, _⟩ := st.account_frame r w
    subst ha
    refine ⟨fun h => ?_, judged, fun h => ?_, fun h => ?_, fun hr => ?_, fun hr => ?_, fun hr => ?_, ?_,
      fun o ho hg => ?_, fun h => Stage.account_no_offset h r, table, tracker, reports, state⟩
    · rw [earned, addTenths_eq h]
    · have := unitsOf_le r
      rw [overcount, judged, h, ← Bool.decide_or]
      exact decide_eq_decide.2 (by omega)
    · rw [lives, lifeAfter_eq h]
    · have up : comboAfter st.combo r = min 65535 (st.combo + 1) := by rcases hr with rfl | rfl | rfl <;> rfl
      refine ⟨combo.trans up, fun h => ?_⟩
      rw [maxCombo, combo, up, maxComboAfter]
      split <;> omega
    · have down : comboAfter st.combo r = 0 := by rcases hr with rfl | rfl | rfl <;> rfl
      exact ⟨combo.trans down, by rw [maxCombo, down, maxComboAfter, if_neg (Nat.not_lt_zero _)]⟩
    · have still : comboAfter st.combo r = st.combo := by
        rcases hr with rfl | rfl | rfl | rfl | rfl | rfl <;> rfl
      exact ⟨combo.trans still, by rw [maxCombo, still, maxComboAfter, if_neg (lt_irrefl _)]⟩
    · rw [counts]
      cases r <;> rfl
    · subst ho
      exact Stage.account_offset hg r o
  case report =>
    rw [← failsSession_eq] at hfails
    refine ⟨fun mk => j.result_some ctx r w mk ha hfails, ?_⟩
    subst ha hfails
    rfl

end Sys2Proof.Machine
end

section
/-! SUPPORT. Presses, mines and window closure (chapters 6 and 7). -/

namespace Sys2Proof.Machine

/-! ### Presses (R95 to R105) -/

theorem eligible_iff (w4 : Nat) (time : Int) (p : Fin 18) (n : Note) : eligible w4 time p n = true ↔
    n.kind ≠ .mine ∧ n.panels.getLsbD p.val = true ∧ n.struck.getLsbD p.val = false ∧
      n.due - w4 ≤ time ∧ time ≤ n.due + w4 := by
  simp [eligible, and_assoc]

/-- The first eligible note of a table is the one struck (R97, R98). -/
theorem strikeTable_of_first {w4 : Nat} {time : Int} {p : Fin 18} {pre post : List Note} {n : Note}
    (hpre : ∀ m ∈ pre, eligible w4 time p m = false) (hn : eligible w4 time p n = true) :
    strikeTable w4 time p (pre ++ n :: post) =
      some (n.strike p time,
        pre ++ if (n.strike p time).struck = n.panels then post else n.strike p time :: post) := by
  induction pre with
  | nil => rw [List.nil_append, strikeTable, if_pos hn]; rfl
  | cons m pre ih =>
    have hm : ¬ eligible w4 time p m = true := by simp [hpre m List.mem_cons_self]
    rw [List.cons_append, strikeTable, if_neg hm, ih fun k hk => hpre k (List.mem_cons_of_mem m hk)]
    rfl

/-- A press on a panel without a tracker entry strikes the first eligible note (R95, R98, R99). -/
theorem Judging.press_strikes {j : Judging} {ctx : JudgeCtx} {p : Fin 18} {pre post : List Note} {n : Note}
    (htrack : j.stage.tracker[p] = none) (htable : j.stage.table = pre ++ n :: post)
    (hpre : ∀ m ∈ pre, eligible j.stage.params.w4 ctx.time p m = false)
    (hn : eligible j.stage.params.w4 ctx.time p n = true) :
    j.press ctx p =
      if (n.strike p ctx.time).struck = n.panels then
        Judging.complete { j with stage := { j.stage with table := pre ++ post } } ctx (n.strike p ctx.time)
      else { j with stage := { j.stage with table := pre ++ n.strike p ctx.time :: post } } := by
  have hs : strikeTable j.stage.params.w4 ctx.time p j.stage.table = _ :=
    htable ▸ strikeTable_of_first (post := post) hpre hn
  rw [Judging.press, htrack]
  dsimp only
  rw [hs]
  by_cases hc : (n.strike p ctx.time).struck = n.panels
  · rw [if_pos hc, if_pos hc]
    exact if_pos hc
  · rw [if_neg hc, if_neg hc]
    exact if_neg hc

/-- In an ordered table nothing eligible is due before the first eligible note. -/
theorem due_le_of_first {l pre post : List Note} {n : Note} {P : Note → Bool} (hl : l = pre ++ n :: post)
    (hpre : ∀ m ∈ pre, P m = false) (ordered : l.Pairwise fun a b => a.due ≤ b.due) :
    ∀ m ∈ l, P m = true → n.due ≤ m.due := by
  subst hl
  intro m hm hP
  have tail := (List.pairwise_cons.1 (List.pairwise_append.1 ordered).2.1).1
  rcases List.mem_append.1 hm with hm | hm
  · exact absurd hP (by simp [hpre m hm])
  · rcases List.mem_cons.1 hm with rfl | hm
    · exact le_refl m.due
    · exact tail m hm

theorem Judging.press_stray {j : Judging} {ctx : JudgeCtx} {p : Fin 18} (htrack : j.stage.tracker[p] = none)
    (hnone : ∀ m ∈ j.stage.table, eligible j.stage.params.w4 ctx.time p m = false) :
    j.press ctx p = j.stray ctx p := by
  rw [Judging.press, htrack]
  dsimp only
  rw [strikeTable_none.2 hnone]

theorem Judging.press_tracked {j : Judging} {ctx : JudgeCtx} {p : Fin 18} {e : TrackEntry}
    (htrack : j.stage.tracker[p] = some e) : j.press ctx p =
      { j with stage := { j.stage with tracker := j.stage.tracker.set p (some (e.press ctx.time)) } } := by
  rw [Judging.press, htrack]

/-- The grades as ranges of the worst offset's magnitude (R99, R100). -/
theorem gradeOf_spec {pr : JudgeParams} (w : Int) :
    (gradeOf pr w = .prime ∧ w.natAbs ≤ pr.w1) ∨
      (gradeOf pr w = .solid ∧ pr.w1 < w.natAbs ∧ w.natAbs ≤ pr.w2) ∨
      (gradeOf pr w = .fair ∧ pr.w2 < w.natAbs ∧ w.natAbs ≤ pr.w3) ∨
      (gradeOf pr w = .weak ∧ pr.w3 < w.natAbs) := by
  unfold gradeOf
  split_ifs with h1 h2 h3
  · exact .inl ⟨rfl, h1⟩
  · exact .inr (.inl ⟨rfl, by omega, h2⟩)
  · exact .inr (.inr (.inl ⟨rfl, by omega, h3⟩))
  · exact .inr (.inr (.inr ⟨rfl, by omega⟩))

theorem gradeOf_eq_iff {pr : JudgeParams} (h12 : pr.w1 ≤ pr.w2) (h23 : pr.w2 ≤ pr.w3) (w : Int) (g : Grade) :
    gradeOf pr w = g ↔
      (g = .prime ∧ w.natAbs ≤ pr.w1) ∨ (g = .solid ∧ pr.w1 < w.natAbs ∧ w.natAbs ≤ pr.w2) ∨
        (g = .fair ∧ pr.w2 < w.natAbs ∧ w.natAbs ≤ pr.w3) ∨ (g = .weak ∧ pr.w3 < w.natAbs) := by
  constructor
  · rintro rfl
    exact gradeOf_spec w
  · unfold gradeOf
    rintro (⟨rfl, h⟩ | ⟨rfl, h, h'⟩ | ⟨rfl, h, h'⟩ | ⟨rfl, h⟩)
    · rw [if_pos h]
    · rw [if_neg (by omega), if_pos h']
    · rw [if_neg (by omega), if_neg (by omega), if_pos h']
    · rw [if_neg (by omega), if_neg (by omega), if_neg (by omega)]

theorem hasBody_iff (n : Note) : hasBody n = true ↔ n.kind = .hold ∨ n.kind = .roll := by
  simp [hasBody]

/-- Settles O49. -/
theorem pressStrikesEarliest : Obligations.PressStrikesEarliest := by
  refine ⟨eligible_iff, fun ctx p j pre post n x o htrack htable hpre hn ho hx => ?strike,
    fun ctx p j htrack hnone => (Judging.press_stray htrack hnone).trans rfl,
    fun ctx p j e x htrack hx => ?tracked, fun pr w g h12 h23 => gradeOf_eq_iff h12 h23 w g,
    fun ctx j n w g r a fails hw hg hr ha hfails => ?complete, fun _ _ _ _ _ _ _ => rfl⟩
  case strike =>
    have struck : x = n.strike p ctx.time := by
      subst hx ho
      cases h : n.worst <;> simp [Note.strike, h, addPanel, worseOffset]
    have panels : x.panels = n.panels := by rw [hx]
    rw [panels]
    subst struck
    have press := Judging.press_strikes htrack htable hpre hn
    exact ⟨fun hc => press.trans (if_neg hc), fun hc => press.trans (if_pos hc),
      due_le_of_first htable hpre⟩
  case tracked =>
    have pressed : x = e.press ctx.time := hx
    rw [Judging.press_tracked htrack, pressed]
  case complete =>
    rw [← failsSession_eq] at hfails
    have grade : r = resultOfGrade g := by
      rw [hr]
      cases g <;> rfl
    have body : (if hasBody n then j.heads ++ [n] else j.heads) =
        if n.kind = .hold ∨ n.kind = .roll then j.heads ++ [n] else j.heads := by
      simp only [hasBody_iff]
    rw [Judging.complete, hw, Option.getD_some]
    dsimp only
    rw [← hg, ← grade, Judging.result_some j ctx r (some w) _ ha hfails]
    dsimp only
    rw [body]

/-! ### Mines and window closure (R106, R107, R125 to R127) -/

theorem lowestPanel_eq {s : StageSet} {p : Fin 18} (hp : s.getLsbD p.val = true)
    (low : ∀ q : Fin 18, q < p → s.getLsbD q.val = false) : lowestPanel s = p.val + 1 := by
  have sorted : (panelsOf s).Pairwise (· < ·) :=
    List.Pairwise.filter _ (by decide : stagePanels.Pairwise (· < ·))
  have hmem : p ∈ panelsOf s := mem_panelsOf.2 hp
  unfold lowestPanel
  cases h : panelsOf s with
  | nil =>
    rw [h] at hmem
    cases hmem
  | cons q qs =>
    rw [h] at hmem sorted
    have hq : s.getLsbD q.val = true := mem_panelsOf.1 (h ▸ List.mem_cons_self)
    have eq : p = q := by
      rcases List.mem_cons.1 hmem with rfl | hlater
      · rfl
      · have := low q ((List.pairwise_cons.1 sorted).1 p hlater)
        rw [hq] at this
        cases this
    rw [eq]

theorem and_ne_zero_iff {a b : StageSet} : a &&& b ≠ 0 ↔
    ∃ p : Fin 18, a.getLsbD p.val = true ∧ b.getLsbD p.val = true := by
  constructor
  · intro h
    by_contra none
    push Not at none
    refine h (BitVec.eq_of_getLsbD_eq fun i hi => ?_)
    have := none ⟨i, hi⟩
    cases ha : a.getLsbD i <;> simp_all
  · rintro ⟨p, ha, hb⟩ h
    have both : (a &&& b).getLsbD p.val = true := by rw [BitVec.getLsbD_and, ha, hb]; rfl
    rw [h] at both
    simp at both

/-- A note outside the mine part's window of action stays (R125, R126). -/
theorem takeMine_none {ctx : JudgeCtx} {n : Note} {j : Judging} (h : n.kind ≠ .mine ∨
    (ctx.time ≤ n.due + j.stage.params.mineHalf ∧
      (n.due - j.stage.params.mineHalf ≤ ctx.time → n.panels &&& ctx.pressed = 0))) :
    takeMine ctx n j = none := by
  unfold takeMine
  dsimp only
  rcases h with h | ⟨hlate, hclear⟩
  · rw [if_pos h]
  · by_cases hk : n.kind ≠ .mine
    · rw [if_pos hk]
    · rw [if_neg hk, if_neg fun hit => hit.2.2 (hclear hit.1), if_neg (by omega)]

theorem takeMine_hit {ctx : JudgeCtx} {n : Note} {j : Judging} {p : Fin 18} (hk : n.kind = .mine)
    (h1 : n.due - j.stage.params.mineHalf ≤ ctx.time) (h2 : ctx.time ≤ n.due + j.stage.params.mineHalf)
    (hp : (n.panels &&& ctx.pressed).getLsbD p.val = true)
    (low : ∀ q : Fin 18, q < p → (n.panels &&& ctx.pressed).getLsbD q.val = false) :
    takeMine ctx n j =
      some (j.result ctx .mineHit none (some (mineReport ctx.side n.id true (p.val + 1)))) := by
  have hit : n.panels &&& ctx.pressed ≠ 0 := fun h => by
    rw [h] at hp
    simp at hp
  unfold takeMine
  dsimp only
  rw [if_neg (not_not.2 hk), if_pos ⟨h1, h2, hit⟩, lowestPanel_eq hp low]

theorem takeMine_avoided {ctx : JudgeCtx} {n : Note} {j : Judging} (hk : n.kind = .mine)
    (h : n.due + j.stage.params.mineHalf < ctx.time) : takeMine ctx n j =
      some (j.result ctx .mineAvoided none
        (if j.stage.askAvoided = true then some (mineReport ctx.side n.id false 0) else none)) := by
  unfold takeMine
  dsimp only
  rw [if_neg (not_not.2 hk), if_neg (by omega), if_pos h]

/-- The closure of a step (R106, R107): past its window it is a miss, with its body when it has one. -/
theorem takeClosed_of_open {ctx : JudgeCtx} {n : Note} {j : Judging}
    (h : n.kind = .mine ∨ ctx.time ≤ n.due + j.stage.params.w4) : takeClosed ctx n j = none := by
  rw [takeClosed, if_neg]
  rintro ⟨hk, hc⟩
  rcases h with h | h
  · exact hk h
  · omega

theorem takeClosed_of_closed {ctx : JudgeCtx} {n : Note} {j : Judging} (hk : n.kind ≠ .mine)
    (h : n.due + j.stage.params.w4 < ctx.time) : takeClosed ctx n j =
      if hasBody n = true then some (j.missWithBody ctx n)
      else some (j.result ctx .miss none (some (judgmentReport ctx.side n .miss none))) := by
  rw [takeClosed, if_pos ⟨hk, h⟩]

theorem sweep_halted {take : Note → Judging → Option Judging} {j : Judging} (h : j.halted = true)
    (ns : List Note) : sweep take ns j = (ns, j) := by
  cases ns with
  | nil => rfl
  | cons n ns => rw [sweep, if_pos h]

theorem sweep_cons {take : Note → Judging → Option Judging} {j : Judging} (h : j.halted = false) (n : Note)
    (ns : List Note) : sweep take (n :: ns) j =
      match take n j with
      | some x => sweep take ns x
      | none => (n :: (sweep take ns j).1, (sweep take ns j).2) := by
  rw [sweep, if_neg (by simp [h])] <;> rfl

/-- Settles O51. -/
theorem minesAndClosure : Obligations.MinesAndClosure := by
  refine ⟨fun ctx n j h hh => ?mines, fun _ _ _ _ _ _ _ => rfl, fun take ns n j x => ?sweeps,
    fun take j x ns hs => ?table, fun ctx n j => ⟨takeClosed_of_open, fun hk hc => ?tap,
      fun a b x fails hk hc ha hf hx hb => ?body⟩⟩
  case mines =>
    subst hh
    refine ⟨fun hk => takeMine_none (.inl hk), fun _ _ h2 clear => takeMine_none (.inr ⟨h2, fun _ => ?_⟩),
      fun _ early => takeMine_none (.inr ⟨by omega, fun late => by omega⟩),
      fun p hk h1 h2 hp hpressed low => takeMine_hit hk h1 h2 (by simp [hp, hpressed]) fun q hq => ?_,
      takeMine_avoided⟩
    · by_contra hit
      obtain ⟨p, hp, hpressed⟩ := and_ne_zero_iff.1 hit
      rw [clear p hp] at hpressed
      cases hpressed
    · have := low q hq
      rw [BitVec.getLsbD_and]
      cases hn : n.panels.getLsbD q.val
      · rfl
      · rw [this hn, Bool.and_false]
  case sweeps =>
    refine ⟨rfl, fun h => sweep_halted h ns, fun h ht => ?_, fun h ht => ?_⟩ <;> rw [sweep_cons h, ht]
  case table =>
    rw [sweepTable, ← hs]
  case tap =>
    rw [takeClosed_of_closed (by simp [hk]) hc, if_neg (by simp [hasBody_iff, hk])]
  case body =>
    have hmine : n.kind ≠ .mine := by rcases hk with hk | hk <;> simp [hk]
    have fails_eq : fails = failsSession j.stage ((j.stage.account .miss none).account .dropped none) := by
      rw [hf, ha, failsSession_eq]
    rw [takeClosed_of_closed hmine hc, if_pos ((hasBody_iff n).2 hk), Judging.missWithBody, hb, hx,
      fails_eq, ha]

end Sys2Proof.Machine
end

section
/-! SUPPORT. The hold tracker: entries, hand-overs and the hold part (chapter 7). -/

namespace Sys2Proof.Machine

/-! ### Entries (R113 to R118) -/

theorem stagePanels_sorted : stagePanels.Pairwise (· < ·) := by decide

theorem panelsOf_sorted (s : StageSet) : (panelsOf s).Pairwise (· < ·) :=
  stagePanels_sorted.filter _

/-- The increasing list of a set's members is the set's (R113). -/
theorem eq_panelsOf {s : StageSet} {ps : List (Fin 18)} (sorted : ps.Pairwise fun x y => x < y)
    (mem : ∀ p : Fin 18, p ∈ ps ↔ s.getLsbD p.val = true) : ps = panelsOf s :=
  sorted.eq_of_mem_iff (panelsOf_sorted s) fun p => (mem p).trans mem_panelsOf.symm

theorem eq_holdIds {v : Vector (Option TrackEntry) 18} {ids : List Nat}
    (sorted : ids.Pairwise fun x y => x < y)
    (mem : ∀ id, id ∈ ids ↔ ∃ (p : Fin 18) (e : TrackEntry), v[p] = some e ∧ e.id = id) : ids = holdIds v :=
  sorted.eq_of_mem_iff (holdIds_spec v).1 fun id => (mem id).trans ((holdIds_spec v).2 id).symm

/-- Whether a panel's entry is one of the hold's, as a member of the hold's entries. -/
def entryOf (v : Vector (Option TrackEntry) 18) (id : Nat) (p : Fin 18) : Option (Fin 18 × TrackEntry) :=
  match v[p] with
  | some e => if e.id = id then some (p, e) else none
  | none => none

theorem holdEntries_eq (v : Vector (Option TrackEntry) 18) (id : Nat) :
    holdEntries v id = stagePanels.filterMap (entryOf v id) := rfl

theorem entryOf_eq_some {v : Vector (Option TrackEntry) 18} {id : Nat} {p : Fin 18} {x : Fin 18 × TrackEntry} :
    entryOf v id p = some x ↔ x.1 = p ∧ v[p] = some x.2 ∧ x.2.id = id := by
  obtain ⟨q, f⟩ := x
  unfold entryOf
  cases v[p] with
  | none => simp
  | some e =>
    dsimp only
    split
    · rename_i h
      rw [Option.some.injEq, Prod.mk.injEq, Option.some.injEq]
      exact ⟨fun ⟨a, b⟩ => ⟨a.symm, b, b ▸ h⟩, fun ⟨a, b, _⟩ => ⟨a.symm, b⟩⟩
    · rename_i h
      rw [Option.some.injEq]
      exact ⟨(nomatch ·), fun ⟨_, b, c⟩ => absurd (b ▸ c) h⟩

theorem mem_holdEntries {v : Vector (Option TrackEntry) 18} {id : Nat} {p : Fin 18} {e : TrackEntry} :
    (p, e) ∈ holdEntries v id ↔ v[p] = some e ∧ e.id = id := by
  rw [holdEntries_eq, List.mem_filterMap]
  constructor
  · rintro ⟨q, _, hq⟩
    obtain ⟨rfl, he, hid⟩ := entryOf_eq_some.1 hq
    exact ⟨he, hid⟩
  · exact fun ⟨he, hid⟩ => ⟨p, mem_stagePanels p, entryOf_eq_some.2 ⟨rfl, he, hid⟩⟩

theorem holdEntries_sorted (v : Vector (Option TrackEntry) 18) (id : Nat) :
    (holdEntries v id).Pairwise fun x y => x.1 < y.1 := by
  rw [holdEntries_eq, List.pairwise_filterMap]
  refine stagePanels_sorted.imp fun {p q} hpq x hx y hy => ?_
  rw [(entryOf_eq_some.1 hx).1, (entryOf_eq_some.1 hy).1]
  exact hpq

theorem removeHold_get (v : Vector (Option TrackEntry) 18) (id : Nat) (p : Fin 18) (e : TrackEntry) :
    (removeHold v id)[p] = some e ↔ v[p] = some e ∧ e.id ≠ id := by
  simp only [removeHold, Fin.getElem_fin, Vector.getElem_ofFn]
  cases v[p.val] with
  | none => simp
  | some x =>
    dsimp only
    split
    · rename_i h
      simp only [reduceCtorEq, Option.some.injEq, ne_eq, false_iff, not_and, not_not]
      rintro rfl
      exact h
    · rename_i h
      simp only [Option.some.injEq, ne_eq]
      exact ⟨fun he => ⟨he, he ▸ h⟩, fun he => he.1⟩

theorem pressedNow_eq (ctx : JudgeCtx) (st : Stage) (p : Fin 18) : pressedNow ctx st p =
    BitVec.getLsbD (if ctx.own.getLsbD p.val = true then ctx.pressed
      else if ctx.bus = .a then st.lastPressedB else st.lastPressedA) p.val := by
  unfold pressedNow
  split
  · rfl
  · cases ctx.bus <;> rfl

/-! ### Overdue entries (R116, R121, R122) -/

theorem overdue_eq_some {pr : JudgeParams} {time : Int} {b : Body} {reason : Reason} :
    overdue pr time b = some reason ↔
      (reason = .released ∧ ∃ r, b = .released r ∧ (pr.grace : Int) < time - r) ∨
        (reason = .rollGap ∧ ∃ q, b = .roll q ∧ (pr.rollInterval : Int) < time - q) := by
  cases b with
  | held => simp [overdue]
  | released r => simp [overdue, and_comm, eq_comm]
  | roll q => simp [overdue, and_comm, eq_comm]

theorem firstOverdue_none {pr : JudgeParams} {time : Int} {l : List (Fin 18 × TrackEntry)}
    (h : ∀ x ∈ l, overdue pr time x.2.body = none) : firstOverdue pr time l = none := by
  induction l with
  | nil => rfl
  | cons x l ih =>
    rw [firstOverdue, h x List.mem_cons_self]
    exact ih fun y hy => h y (List.mem_cons_of_mem x hy)

/-- In a list in panel order the first overdue entry is the one of the lowest panel (R121). -/
theorem firstOverdue_lowest {pr : JudgeParams} {time : Int} {l : List (Fin 18 × TrackEntry)} {p : Fin 18}
    {e : TrackEntry} {reason : Reason} (sorted : l.Pairwise fun x y => x.1 < y.1) (hmem : (p, e) ∈ l)
    (he : overdue pr time e.body = some reason)
    (low : ∀ x ∈ l, x.1 < p → overdue pr time x.2.body = none) :
    firstOverdue pr time l = some (p, reason) := by
  induction l with
  | nil => cases hmem
  | cons x l ih =>
    rw [List.pairwise_cons] at sorted
    obtain ⟨hx, hl⟩ := sorted
    rw [firstOverdue]
    rcases List.mem_cons.1 hmem with rfl | hlater
    · rw [he]
    · rw [low x List.mem_cons_self (hx _ hlater)]
      exact ih hl hlater fun y hy => low y (List.mem_cons_of_mem x hy)

/-! ### Hand-overs and the passing of heads (R104, R115, R116) -/

/-- A hand-over leaves a hold without entries exactly when the panel held its last one (R116). -/
theorem holdEntries_set_none_isEmpty {v : Vector (Option TrackEntry) 18} {p : Fin 18} {id : Nat} :
    (holdEntries (v.set p none) id).isEmpty = true ↔
      ∀ (q : Fin 18) (f : TrackEntry), q ≠ p → v[q] = some f → f.id ≠ id := by
  rw [List.isEmpty_iff, List.eq_nil_iff_forall_not_mem]
  constructor
  · intro h q f hq hf hid
    refine h (q, f) (mem_holdEntries.2 ⟨?_, hid⟩)
    rw [tracker_set_get, if_neg (Ne.symm hq), hf]
  · rintro h ⟨q, f⟩ hmem
    obtain ⟨hf, hid⟩ := mem_holdEntries.1 hmem
    rw [tracker_set_get] at hf
    split at hf
    · cases hf
    · rename_i hpq
      exact h q f (Ne.symm hpq) hf hid

theorem Judging.handOver_overdue {j : Judging} {ctx : JudgeCtx} {p : Fin 18} {e : TrackEntry} {reason : Reason}
    (h : overdue j.stage.params ctx.time e.body = some reason) :
    j.handOver ctx p e = j.dropHold ctx e.id p reason := by
  rw [Judging.handOver, h]

theorem Judging.handOver_passes {j : Judging} {ctx : JudgeCtx} {p : Fin 18} {e : TrackEntry}
    (h : overdue j.stage.params ctx.time e.body = none) : j.handOver ctx p e =
      if (holdEntries (j.stage.tracker.set p none) e.id).isEmpty = true then j.holdOk ctx e.id
      else { j with stage := { j.stage with tracker := j.stage.tracker.set p none } } := by
  rw [Judging.handOver, h]

theorem Judging.passPanel_halted {ctx : JudgeCtx} {n : Note} {j : Judging} (h : j.halted = true) (p : Fin 18) :
    Judging.passPanel ctx n j p = j := by
  rw [Judging.passPanel, if_pos h]

theorem Judging.passPanel_free {ctx : JudgeCtx} {n : Note} {j : Judging} {p : Fin 18} (h : j.halted = false)
    (free : ∀ e, j.stage.tracker[p] = some e → e.id = n.id) :
    Judging.passPanel ctx n j p = { j with stage := { j.stage with
      tracker := j.stage.tracker.set p (some (headEntry ctx j.stage n p)) } } := by
  have open' : ¬ j.halted = true := by simp [h]
  rw [Judging.passPanel, if_neg open']
  cases hp : j.stage.tracker[p] with
  | none => exact if_neg open'
  | some e =>
    dsimp only
    rw [if_pos (free e hp)]
    exact if_neg open'

theorem Judging.passPanel_taken {ctx : JudgeCtx} {n : Note} {j : Judging} {p : Fin 18} {e : TrackEntry}
    (h : j.halted = false) (hp : j.stage.tracker[p] = some e) (hid : e.id ≠ n.id) :
    Judging.passPanel ctx n j p =
      if (j.handOver ctx p e).halted = true then j.handOver ctx p e
      else { j.handOver ctx p e with stage := { (j.handOver ctx p e).stage with
        tracker := (j.handOver ctx p e).stage.tracker.set p
          (some (headEntry ctx (j.handOver ctx p e).stage n p)) } } := by
  have open' : ¬ j.halted = true := by simp [h]
  rw [Judging.passPanel, if_neg open', hp]
  dsimp only
  rw [if_neg hid]

/-! ### The hold part (R120 to R123) -/

theorem resolveHold_halted {ctx : JudgeCtx} {j : Judging} (h : j.halted = true) (id : Nat) :
    resolveHold ctx j id = j := by
  rw [resolveHold, if_pos h]

/-- The hold part on a hold of the tracker with its end (R120). -/
theorem resolveHold_eq {ctx : JudgeCtx} {j : Judging} {id : Nat} {fin : Int} (h : j.halted = false)
    (held : ∃ (p : Fin 18) (e : TrackEntry), j.stage.tracker[p] = some e ∧ e.id = id)
    (ends : ∀ (p : Fin 18) (e : TrackEntry), j.stage.tracker[p] = some e → e.id = id → e.endTime = fin) :
    resolveHold ctx j id =
      match firstOverdue j.stage.params (min ctx.time fin) (holdEntries j.stage.tracker id) with
      | some (q, reason) => j.dropHold ctx id q reason
      | none => if ctx.time < fin then j else j.holdOk ctx id := by
  obtain ⟨p, e, hp, hid⟩ := held
  have hmem := mem_holdEntries.2 ⟨hp, hid⟩
  rw [resolveHold, if_neg (by simp [h])]
  cases hl : holdEntries j.stage.tracker id with
  | nil =>
    rw [hl] at hmem
    cases hmem
  | cons x rest =>
    obtain ⟨q, f⟩ := x
    obtain ⟨hq, hqid⟩ := mem_holdEntries.1 (hl ▸ List.mem_cons_self : (q, f) ∈ holdEntries j.stage.tracker id)
    dsimp only
    rw [ends q f hq hqid] <;> rfl

/-- Settles O50. -/
theorem holdsResolve : Obligations.HoldsResolve := by
  refine ⟨fun e time => ?release, fun e pressed time => ?agree, fun ctx st n p => ?entry,
    fun _ _ _ _ => overdue_eq_some, fun ctx j id fin lim h held ends hlim => ?resolve, removeHold_get,
    fun side id panel dropped reason fails a => ?report, fun ctx j p e => ?handOver,
    fun ctx n j h p => ⟨fun hj => Judging.passPanel_halted hj p, Judging.passPanel_free,
      fun e hj hp hid hh => ?taken⟩,
    fun _ _ => rfl, fun ctx n ns j h ps sorted mem hh => ?pass, fun _ _ id hj => resolveHold_halted hj id,
    fun ctx j ids sorted mem => ?holds⟩
  case release =>
    obtain ⟨id, fin, body⟩ := e
    cases body <;> rfl
  case agree =>
    obtain ⟨id, fin, body⟩ := e
    cases body <;> cases pressed <;> rfl
  case entry =>
    rw [headEntry, pressedNow_eq]
    rfl
  case resolve =>
    have eq := resolveHold_eq (ctx := ctx) h held ends
    rw [← hlim] at eq
    refine ⟨fun p e reason hp hid he low => ?_, fun pass => ?_⟩
    · rw [eq, firstOverdue_lowest (holdEntries_sorted _ _) (mem_holdEntries.2 ⟨hp, hid⟩) he
        fun x hx hlt => low x.1 x.2 hlt (mem_holdEntries.1 hx).1 (mem_holdEntries.1 hx).2]
      rfl
    · rw [firstOverdue_none fun x hx => pass x.1 x.2 (mem_holdEntries.1 hx).1 (mem_holdEntries.1 hx).2] at eq
      exact ⟨fun before => eq.trans (if_pos before), fun after => eq.trans (if_neg (by omega))⟩
  case report => cases reason <;> rfl
  case handOver =>
    refine ⟨fun reason hr => Judging.handOver_overdue hr, fun hr others => ?_, fun hr last => ?_⟩ <;>
      rw [Judging.handOver_passes hr]
    · obtain ⟨q, f, hq, hf, hid⟩ := others
      exact if_neg fun empty => holdEntries_set_none_isEmpty.1 empty q f hq hf hid
    · exact if_pos (holdEntries_set_none_isEmpty.2 last)
  case taken =>
    subst hh
    exact Judging.passPanel_taken hj hp hid
  case pass =>
    rw [passHeads, ← eq_panelsOf sorted mem, ← hh]
  case holds =>
    rw [holdPart, ← eq_holdIds sorted mem]

end Sys2Proof.Machine
end

section
/-! SUPPORT. Closing, emptying and the TALLY (R64, R67 to R69). -/

namespace Sys2Proof.Machine

/-! ### Emptying (R64) -/

theorem Stage.account_discarded (st : Stage) : st.account .discarded none =
    { st with counts := { st.counts with discarded := bump st.counts.discarded } } := by
  simp [Stage.account, addTenths, tenths, unitsOf, comboAfter, maxComboAfter, lifeAfter, lifeChange, Counts.add]

theorem Stage.account_cut (st : Stage) : st.account .cut none =
    { st with
      judged := st.judged + 1
      overcount := st.overcount || decide (st.units < st.judged + 1)
      counts := { st.counts with cut := bump st.counts.cut } } := by
  simp [Stage.account, addTenths, tenths, unitsOf, comboAfter, maxComboAfter, lifeAfter, lifeChange, Counts.add]

/-- Notes counted DISCARDED one after another (R64, R141). -/
theorem foldl_discarded {α : Type} (l : List α) {st : Stage} (h : st.counts.discarded ≤ 65535) :
    l.foldl (fun st _ => st.account .discarded none) st =
      { st with counts := { st.counts with discarded := min 65535 (st.counts.discarded + l.length) } } := by
  induction l generalizing st with
  | nil =>
    have same : min 65535 (st.counts.discarded + 0) = st.counts.discarded := by omega
    rw [List.foldl_nil, List.length_nil, same]
  | cons x l ih =>
    have count : min 65535 (bump st.counts.discarded + l.length) =
        min 65535 (st.counts.discarded + (l.length + 1)) := by
      unfold bump
      omega
    have bound : bump st.counts.discarded ≤ 65535 := Nat.min_le_left _ _
    rw [List.foldl_cons, Stage.account_discarded, ih bound, List.length_cons, ← count]

/-- Holds counted CUT one after another (R64, R133, R136, R141). -/
theorem foldl_cut {α : Type} (l : List α) {st : Stage} (h : st.counts.cut ≤ 65535) :
    l.foldl (fun st _ => st.account .cut none) st =
      { st with
        judged := st.judged + l.length
        overcount := st.overcount || decide (l ≠ [] ∧ st.units < st.judged + l.length)
        counts := { st.counts with cut := min 65535 (st.counts.cut + l.length) } } := by
  induction l generalizing st with
  | nil =>
    have same : min 65535 (st.counts.cut + 0) = st.counts.cut := by omega
    have passed : (st.overcount || decide (([] : List α) ≠ [] ∧ st.units < st.judged + 0)) = st.overcount := by simp
    rw [List.foldl_nil, List.length_nil, same, passed]
    rfl
  | cons x l ih =>
    have count : min 65535 (bump st.counts.cut + l.length) = min 65535 (st.counts.cut + (l.length + 1)) := by
      unfold bump
      omega
    have bound : bump st.counts.cut ≤ 65535 := Nat.min_le_left _ _
    have judged : st.judged + 1 + l.length = st.judged + (l.length + 1) := by omega
    have passed : ((st.overcount || decide (st.units < st.judged + 1)) ||
        decide (l ≠ [] ∧ st.units < st.judged + 1 + l.length)) =
          (st.overcount || decide (x :: l ≠ [] ∧ st.units < st.judged + (l.length + 1))) := by
      rw [Bool.or_assoc, ← Bool.decide_or]
      congr 1
      refine decide_eq_decide.2 ⟨?_, fun ⟨_, hp⟩ => ?_⟩
      · rintro (hp | ⟨_, hp⟩) <;> exact ⟨List.cons_ne_nil x l, by omega⟩
      · cases l with
        | nil => exact .inl hp
        | cons y l => exact .inr ⟨List.cons_ne_nil y l, by rw [judged]; exact hp⟩
    rw [List.foldl_cons, Stage.account_cut, ih bound, List.length_cons, ← count, ← passed, ← judged]

/-- The holds that an emptying cuts: those of the tracker and those of the heads left (R64, R116). -/
def cutIds (st : Stage) (heads : List Note) : List Nat :=
  heads.foldl (fun ids n => insertId n.id ids) (holdIds st.tracker)

theorem cutIds_spec (st : Stage) (heads : List Note) : (cutIds st heads).Nodup ∧
    ∀ id, id ∈ cutIds st heads ↔ (∃ (p : Fin 18) (e : TrackEntry), st.tracker[p] = some e ∧ e.id = id) ∨
      ∃ n ∈ heads, n.id = id := by
  have as_map : cutIds st heads = (heads.map Note.id).foldl (fun ids id => insertId id ids) (holdIds st.tracker) := by
    rw [List.foldl_map]
    rfl
  obtain ⟨sorted, mem⟩ := insertIds_spec (heads.map Note.id) (holdIds_spec st.tracker).1
  rw [as_map]
  refine ⟨sorted.imp fun h => Nat.ne_of_lt h, fun id => ?_⟩
  rw [mem, (holdIds_spec st.tracker).2, List.mem_map, or_comm]

theorem cutIds_length {st : Stage} {heads : List Note} {ids : List Nat} (nodup : ids.Nodup)
    (mem : ∀ id, id ∈ ids ↔ (∃ (p : Fin 18) (e : TrackEntry), st.tracker[p] = some e ∧ e.id = id) ∨
      ∃ n ∈ heads, n.id = id) : (cutIds st heads).length = ids.length := by
  obtain ⟨nodup', mem'⟩ := cutIds_spec st heads
  exact ((List.perm_ext_iff_of_nodup nodup' nodup).2 fun id => (mem' id).trans (mem id).symm).length_eq

theorem Stage.emptySession_eq (st : Stage) (heads : List Note) : st.emptySession heads =
    { (cutIds st heads).foldl (fun st _ => st.account .cut none)
        (st.table.foldl (fun st _ => st.account .discarded none) st) with
      table := [], tracker := Vector.replicate 18 none } := rfl

theorem Stage.emptySession_of_untracked {st : Stage} (htrack : ∀ p : Fin 18, st.tracker[p] = none)
    (h : st.counts.discarded ≤ 65535) : st.emptySession [] =
      { st with table := [], counts := { st.counts with
        discarded := min 65535 (st.counts.discarded + st.table.length) } } := by
  have cleared : st.tracker = Vector.replicate 18 none :=
    Vector.ext fun i hi => (htrack ⟨i, hi⟩).trans (by simp)
  have none_cut : cutIds st [] = [] := List.eq_nil_iff_forall_not_mem.2 fun id hid => by
    rcases ((cutIds_spec st []).2 id).1 hid with ⟨p, e, he, _⟩ | ⟨n, hn, _⟩
    · rw [htrack p] at he
      cases he
    · cases hn
  rw [Stage.emptySession_eq, none_cut, foldl_discarded _ h, ← cleared]
  rfl

/-! ### Closing (R67 to R69) -/

@[simp] theorem State.storeClock_reportDepth (s : State) (r : Clock × Option Int) (d : Side) :
    (s.storeClock r).reportDepth d = s.reportDepth d := by
  rcases s.storeClock_cases r with h | ⟨x, _, h⟩ <;> simp [h]

/-- Settles O45: the close by state, the emptying by its two folds, and the TALLY with its room. -/
theorem closeEmptiesAndTallies : Obligations.CloseEmptiesAndTallies := by
  refine ⟨fun dt s c d st x v h hd hst hv => ?close,
    fun st side depth time ctx hside hdepth htime hcapture hbus hown hpressed => ?flush,
    fun st heads ids hdiscarded hcut nodup mem => ?empty, fun dt s t d st h hst => ?tally⟩
  case close =>
    have owner := exec_stageClose dt [sideCode d] s
    rw [execStageClose, h.owner_of_stage hd rfl _ (List.mem_singleton_self 1)] at owner
    simp only [byteAt_cons_zero, sideOf_sideCode, State.arrived_stage, ← hst] at owner
    refine ⟨fun hrefused => by rw [owner, if_pos hrefused]; rfl, fun htaken => ?_⟩
    have closes : st.close d (s.reportDepth d) (v.1.chart + st.inputOffset) = x := by
      rcases htaken with ⟨hs, rfl⟩ | ⟨hs, htrack, hcount, rfl⟩ | ⟨hs, rfl⟩ <;> rw [Stage.close, hs]
      dsimp only
      rw [Stage.emptySession_of_untracked htrack hcount]
    have taken : ¬ (st.state = .idle ∨ st.state = .closing) := by
      rcases htaken with ⟨hs, _⟩ | ⟨hs, _⟩ | ⟨hs, _⟩ <;> simp [hs]
    rw [owner, if_neg taken, State.updateClock_eq]
    simp only [State.ack_clock, State.ack_localTime, State.arrived_clock, State.arrived_localTime, ← hv,
      State.storeClock_clock, State.storeClock_reportDepth, State.ack_reportDepth,
      State.arrived_reportDepth, closes]
    rfl
  case flush =>
    have ctx_eq : ctx = ⟨side, depth, time, 0, side, 0, 0⟩ := by
      cases ctx
      simp_all only
    rw [ctx_eq]
    rfl
  case empty =>
    rw [Stage.emptySession_eq, foldl_discarded _ hdiscarded,
      foldl_cut _ (st := { st with counts := { st.counts with
        discarded := min 65535 (st.counts.discarded + st.table.length) } }) hcut]
    have len := cutIds_length nodup mem
    have nil : cutIds st heads ≠ [] ↔ ids ≠ [] := by
      rw [← List.length_pos_iff, len, List.length_pos_iff]
    simp only [len, nil]
  case tally =>
    have owner := exec_tallyPlace dt d s
    rw [execTallyPlace, h.after] at owner
    simp only [State.setTime_stage, ← hst] at owner
    refine ⟨fun hs room => ?_, fun hno => ?_⟩
    · rw [owner, if_pos ⟨hs, room⟩]
      rfl
    · have unplaced : ¬ (st.state = .closing ∧ st.reports.length < s.reportDepth d) := by
        rintro ⟨hs, room⟩
        rcases hno with hno | hno
        · exact hno hs
        · exact Nat.not_lt.2 hno room
      rw [owner, if_neg (by exact unplaced)]

end Sys2Proof.Machine
end

section
/-! SUPPORT. One panel's response to a completion (R43 to R50). -/

namespace Sys2Proof.Machine

/-! ### Enabling (R43, step 1) -/

theorem enablePanel_of_disabled {p : Panel} (h : p.status = .disabled) :
    enablePanel p = { p with status := .offline, misses := 0, creep := 0 } := if_pos h

theorem enablePanel_of_enabled {p : Panel} (h : p.status ≠ .disabled) : enablePanel p = p := if_neg h

/-- What enabling a panel leaves as it is, and what becomes of its status and creep. -/
theorem enablePanel_fields (p : Panel) :
    (enablePanel p).baseline = p.baseline ∧ (enablePanel p).pressed = p.pressed ∧
      (enablePanel p).pressedSince = p.pressedSince ∧ (enablePanel p).pressAt = p.pressAt ∧
      (enablePanel p).releaseAt = p.releaseAt ∧
      ((enablePanel p).status == .offline) = decide (p.status ≠ .online) ∧
      (enablePanel p).creep = if p.status = .disabled then 0 else p.creep := by
  by_cases h : p.status = .disabled
  · rw [enablePanel_of_disabled h, h]
    exact ⟨rfl, rfl, rfl, rfl, rfl, rfl, rfl⟩
  · rw [enablePanel_of_enabled h, if_neg h]
    refine ⟨rfl, rfl, rfl, rfl, rfl, ?_, rfl⟩
    cases hs : p.status
    · rfl
    · rfl
    · exact absurd hs h

/-! ### A GOOD outcome (R44 to R46) -/

theorem pressTest_press {p : Panel} {b : Nat} (hp : p.pressed = false) (h : p.pressAt ≤ p.reading - b)
    (t : LocalTime) : pressTest p b t = ({ p with pressed := true, pressedSince := t }, some .press) := by
  rw [pressTest, hp, if_neg Bool.false_ne_true, if_pos (by exact h)]

theorem pressTest_stays {p : Panel} {b : Nat} (hp : p.pressed = true) (h : p.releaseAt < p.reading - b)
    (t : LocalTime) : pressTest p b t = (p, none) := by
  rw [pressTest, if_pos hp, if_neg (by exact Nat.not_le.2 h)]

theorem pressTest_up {p : Panel} {b : Nat}
    (h : p.pressed = false ∧ p.reading - b < p.pressAt ∨ p.pressed = true ∧ p.reading - b ≤ p.releaseAt)
    (t : LocalTime) : pressTest p b t = ({ p with pressed := false }, releaseOf p) := by
  rw [pressTest, releaseOf]
  rcases h with ⟨hp, h⟩ | ⟨hp, h⟩
  · have same : { p with pressed := false } = p := by rw [← hp]
    rw [same, hp, if_neg Bool.false_ne_true, if_neg Bool.false_ne_true, if_neg (by exact Nat.not_le.2 h)]
  · rw [if_pos hp, if_pos hp, if_pos (by exact h)]

theorem takeGood_first {p : Panel} (hb : p.baseline = none) (n : Nat) (t : LocalTime) : takeGood p n t =
    { panel := { p with
        status := .online, reading := n, baseline := some n, creep := 0, pressed := false, misses := 0 }
      edge := none, cameOnline := p.status == .offline, wentOffline := false, rezeroAge := none } := by
  rw [takeGood, hb]
  rfl

/-- A panel with the reading of a GOOD outcome taken (R44). -/
def readPanel (p : Panel) (n : Nat) : Panel := { p with reading := n, misses := 0, status := .online }

theorem takeGood_later {p : Panel} {b : Nat} (hb : p.baseline = some b) (n : Nat) (t : LocalTime) :
    takeGood p n t =
      { panel := adjustBaseline (pressTest (readPanel p n) b t).1 b
        edge := (pressTest (readPanel p n) b t).2
        cameOnline := p.status == .offline, wentOffline := false, rezeroAge := none } := by
  unfold takeGood
  dsimp only
  split
  · rename_i h
    rw [hb] at h
    cases h
  · rename_i h
    rw [hb] at h
    cases h
    rfl

theorem takeGood_press {p : Panel} {b n : Nat} (hb : p.baseline = some b) (hp : p.pressed = false)
    (h : p.pressAt ≤ n - b) (t : LocalTime) : takeGood p n t =
      { panel := { p with
          status := .online, reading := n, creep := 0, pressed := true, pressedSince := t, misses := 0 }
        edge := some .press, cameOnline := p.status == .offline, wentOffline := false, rezeroAge := none } := by
  rw [takeGood_later hb, pressTest_press (p := readPanel p n) hp h, adjustBaseline, if_pos rfl]
  rfl

theorem takeGood_stays {p : Panel} {b n : Nat} (hb : p.baseline = some b) (hp : p.pressed = true)
    (h : p.releaseAt < n - b) (t : LocalTime) : takeGood p n t =
      { panel := { p with status := .online, reading := n, creep := 0, misses := 0 }
        edge := none, cameOnline := p.status == .offline, wentOffline := false, rezeroAge := none } := by
  rw [takeGood_later hb, pressTest_stays (p := readPanel p n) hp h, adjustBaseline, if_pos (by exact hp)]
  rfl

theorem takeGood_up {p : Panel} {b n : Nat} (hb : p.baseline = some b)
    (h : p.pressed = false ∧ n - b < p.pressAt ∨ p.pressed = true ∧ n - b ≤ p.releaseAt) (t : LocalTime) :
    takeGood p n t =
      { panel := adjustBaseline { p with status := .online, reading := n, pressed := false, misses := 0 } b
        edge := releaseOf p, cameOnline := p.status == .offline, wentOffline := false
        rezeroAge := none } := by
  rw [takeGood_later hb, pressTest_up (p := readPanel p n) h]
  rfl

/-- The baseline adjustment of a panel that is not pressed (R46). -/
theorem adjustBaseline_up {p : Panel} (hp : p.pressed = false) (b : Nat) :
    (adjustBaseline p b).pressed = false ∧
      ((adjustBaseline p b).baseline, (adjustBaseline p b).creep) =
        if p.reading < b then (some p.reading, 0) else if p.reading = b then (p.baseline, 0)
        else if p.creep + 1 < 64 then (p.baseline, p.creep + 1) else (some (b + 1), 0) := by
  rw [adjustBaseline, if_neg (by simp [hp])]
  split_ifs <;> exact ⟨hp, rfl⟩

/-- Whatever the reading, a GOOD outcome puts the panel ONLINE with its reading and its thresholds kept. -/
theorem takeGood_common (p : Panel) (n : Nat) (t : LocalTime) :
    (takeGood p n t).panel.status = .online ∧ (takeGood p n t).panel.reading = n ∧
      (takeGood p n t).panel.misses = 0 ∧ (takeGood p n t).panel.pressAt = p.pressAt ∧
      (takeGood p n t).panel.releaseAt = p.releaseAt ∧
      (takeGood p n t).cameOnline = (p.status == .offline) ∧ (takeGood p n t).wentOffline = false := by
  cases hb : p.baseline with
  | none =>
    rw [takeGood_first hb]
    exact ⟨rfl, rfl, rfl, rfl, rfl, rfl, rfl⟩
  | some b =>
    cases hp : p.pressed
    · rcases Nat.lt_or_ge (n - b) p.pressAt with h | h
      · rw [takeGood_up hb (.inl ⟨hp, h⟩), adjustBaseline]
        split_ifs <;> exact ⟨rfl, rfl, rfl, rfl, rfl, rfl, rfl⟩
      · rw [takeGood_press hb hp h]
        exact ⟨rfl, rfl, rfl, rfl, rfl, rfl, rfl⟩
    · rcases Nat.lt_or_ge p.releaseAt (n - b) with h | h
      · rw [takeGood_stays hb hp h]
        exact ⟨rfl, rfl, rfl, rfl, rfl, rfl, rfl⟩
      · rw [takeGood_up hb (.inr ⟨hp, h⟩), adjustBaseline]
        split_ifs <;> exact ⟨rfl, rfl, rfl, rfl, rfl, rfl, rfl⟩

/-! ### The stuck test (R48) -/

theorem stuckTest_passes {limit : Nat} {t : LocalTime} {st : PanelStep}
    (h : st.panel.pressed = false ∨ elapsed st.panel.pressedSince t ≤ limit * 1000000) :
    stuckTest limit t st = st := by
  rw [stuckTest, if_neg]
  rintro ⟨hp, hage⟩
  rcases h with h | h
  · rw [h] at hp
    cases hp
  · exact Nat.not_lt.2 h hage

theorem stuckTest_rezeroes {limit : Nat} {t : LocalTime} {st : PanelStep} (hp : st.panel.pressed = true)
    (h : limit * 1000000 < elapsed st.panel.pressedSince t) : stuckTest limit t st =
      { st with
        panel := { st.panel with baseline := some st.panel.reading, creep := 0, pressed := false }
        edge := some .release
        rezeroAge := some (elapsed st.panel.pressedSince t) } := by
  rw [stuckTest, if_pos ⟨hp, h⟩]

/-- The stuck test leaves the link status, the reading, the counts and the notices' other causes. -/
theorem stuckTest_common (limit : Nat) (t : LocalTime) (st : PanelStep) :
    (stuckTest limit t st).panel.status = st.panel.status ∧
      (stuckTest limit t st).panel.reading = st.panel.reading ∧
      (stuckTest limit t st).panel.misses = st.panel.misses ∧
      (stuckTest limit t st).panel.pressAt = st.panel.pressAt ∧
      (stuckTest limit t st).panel.releaseAt = st.panel.releaseAt ∧
      (stuckTest limit t st).cameOnline = st.cameOnline ∧
      (stuckTest limit t st).wentOffline = st.wentOffline := by
  unfold stuckTest
  dsimp only
  split <;> exact ⟨rfl, rfl, rfl, rfl, rfl, rfl, rfl⟩

/-! ### A completion on one panel (R43, R47, R49, R50) -/

section
variable {limit : Nat} {c : Completion} {i : Fin 9} {p : Panel}

theorem takePanel_scan (h : c.kind = .normal ∨ c.kind = .contention) :
    takePanel limit c i p = takeScanned limit c.capture (c.enable.getLsbD i.val) c.outcomes[i] p := by
  rcases h with h | h <;> rw [takePanel, h]

theorem takePanel_good {n : Nat} (h : c.kind = .normal ∨ c.kind = .contention)
    (he : c.enable.getLsbD i.val = true) (ho : c.outcomes[i] = some (.good n)) :
    takePanel limit c i p = stuckTest limit c.capture (takeGood (enablePanel p) n c.capture) := by
  rw [takePanel_scan h, he, ho]
  exact if_pos rfl

theorem takePanel_failed (h : c.kind = .normal ∨ c.kind = .contention)
    (he : c.enable.getLsbD i.val = true) (ho : c.outcomes[i] = some .failed) :
    takePanel limit c i p = stuckTest limit c.capture (takeFailed (enablePanel p)) := by
  rw [takePanel_scan h, he, ho]
  exact if_pos rfl

theorem takePanel_left_out (h : c.kind = .normal ∨ c.kind = .contention)
    (he : c.enable.getLsbD i.val = false) : takePanel limit c i p =
      if p.status = .disabled then quietStep p else leaveLink p .disabled := by
  rw [takePanel_scan h, he]
  exact if_neg Bool.false_ne_true

theorem takePanel_down (h : c.kind = .down) : takePanel limit c i p =
    if p.status = .online then leaveLink p .offline else quietStep p := by
  rw [takePanel, h]

theorem takePanel_reset {w : Bool} (h : c.kind = .reset w) : takePanel limit c i p =
    if p.status = .disabled then quietStep p
    else { leaveLink p .offline with edge := if w then releaseOf p else none } := by
  rw [takePanel, h]

end

theorem takeFailed_third {p : Panel} (hs : p.status = .online) (hm : 2 ≤ p.misses) : takeFailed p =
    { panel := { p with status := .offline, misses := 3, creep := 0, pressed := false }
      edge := releaseOf p, cameOnline := false, wentOffline := true, rezeroAge := none } := by
  have three : min 3 (p.misses + 1) = 3 := by omega
  rw [takeFailed, three, if_pos ⟨hs, rfl⟩]
  rfl

theorem takeFailed_counts {p : Panel} (h : p.status = .online → p.misses < 2) : takeFailed p =
    { panel := { p with misses := min 3 (p.misses + 1), creep := 0 }
      edge := none, cameOnline := false, wentOffline := false, rezeroAge := none } := by
  have few : ¬ (p.status = .online ∧ min 3 (p.misses + 1) = 3) := by
    rintro ⟨hs, hm⟩
    have := h hs
    omega
  rw [takeFailed, if_neg (by exact few)]
  rfl

/-- Settles O39. -/
theorem panelTakesOutcome : Obligations.PanelTakesOutcome := by
  refine ⟨fun limit c i p n hk he ho => ?good, fun limit c i p hk he ho => ?failed,
    fun limit c i p st edge h => ?leaves, fun limit c i p h => ?quiet⟩
  case good =>
    obtain ⟨hbase, hpressed, hsince, hpress, hrelease, hstatus, hcreep⟩ := enablePanel_fields p
    rw [takePanel_good hk he ho]
    refine ⟨?_, fun hb => ?_, fun b hb hp hf => ?_, fun b hb hp hf hage => ?_, fun b hb hp hf hage => ?_,
      fun b cr hb hcr hup => ?_⟩
    · obtain ⟨h1, h2, h3, h4, h5, h6, h7⟩ := stuckTest_common limit c.capture (takeGood (enablePanel p) n c.capture)
      obtain ⟨g1, g2, g3, g4, g5, g6, g7⟩ := takeGood_common (enablePanel p) n c.capture
      exact ⟨h1.trans g1, h2.trans g2, h3.trans g3, (h4.trans g4).trans hpress, (h5.trans g5).trans hrelease,
        (h6.trans g6).trans hstatus, h7.trans g7⟩
    · rw [takeGood_first (hbase.trans hb), stuckTest_passes (.inl rfl)]
      exact ⟨rfl, rfl, rfl, rfl, rfl⟩
    · rw [takeGood_press (hbase.trans hb) (hpressed.trans hp) (hpress ▸ hf),
        stuckTest_passes (.inr (by rw [elapsed_self]; exact Nat.zero_le _))]
      exact ⟨rfl, rfl, rfl, rfl, hbase.trans hb, rfl⟩
    · rw [takeGood_stays (hbase.trans hb) (hpressed.trans hp) (hrelease ▸ hf),
        stuckTest_passes (.inr (hsince ▸ hage))]
      exact ⟨hpressed.trans hp, rfl, hsince, rfl, hbase.trans hb, rfl⟩
    · rw [takeGood_stays (hbase.trans hb) (hpressed.trans hp) (hrelease ▸ hf),
        stuckTest_rezeroes (hpressed.trans hp) (hsince ▸ hage)]
      exact ⟨rfl, rfl, rfl, rfl, congrArg (fun t => some (elapsed t c.capture)) hsince⟩
    · have up := adjustBaseline_up (p := { enablePanel p with
        status := .online, reading := n, pressed := false, misses := 0 }) rfl b
      obtain ⟨stillUp, values⟩ := up
      rw [takeGood_up (hbase.trans hb) (by rw [hpressed, hpress, hrelease]; exact hup),
        stuckTest_passes (.inl stillUp)]
      refine ⟨stillUp, congrArg (fun x => if x = true then some EdgeKind.release else none) hpressed, rfl, ?_⟩
      rw [values]
      dsimp only
      rw [hbase, hb, hcreep, hcr]
  case failed =>
    rw [takePanel_failed hk he ho]
    have online : p.status = .online → enablePanel p = p := fun hs => enablePanel_of_enabled (by simp [hs])
    refine ⟨fun hs hm => ?_, fun hs hm hp => ?_, fun hs hm hp hage => ?_, fun hs hp => ?_, fun hs hp => ?_⟩
    · rw [online hs, takeFailed_third hs hm, stuckTest_passes (.inl rfl)]
      rfl
    · have count : min 3 (p.misses + 1) = p.misses + 1 := by omega
      rw [online hs, takeFailed_counts fun _ => hm, stuckTest_passes hp, count]
    · have count : min 3 (p.misses + 1) = p.misses + 1 := by omega
      rw [online hs, takeFailed_counts fun _ => hm, stuckTest_rezeroes hp hage, count]
    · rw [enablePanel_of_enabled (by simp [hs]), takeFailed_counts fun h => by simp [hs] at h,
        stuckTest_passes (.inl hp)]
    · rw [enablePanel_of_disabled hs, takeFailed_counts (fun h => by cases h), stuckTest_passes (.inl hp)]
      rfl
  case leaves =>
    rcases h with ⟨h, rfl⟩ | ⟨hk, hs, rfl, rfl⟩
    · rcases h with ⟨hk, he, hs, rfl⟩ | ⟨hk, hs, rfl⟩ | ⟨hk, hs, rfl⟩
      · rw [takePanel_left_out hk he, if_neg hs]
        rfl
      · rw [takePanel_down hk, if_pos hs]
        rfl
      · rw [takePanel_reset hk, if_neg hs]
        rfl
    · rw [takePanel_reset hk, if_neg hs]
      rfl
  case quiet =>
    rcases h with ⟨hk, he, hs⟩ | ⟨hk, hs⟩ | ⟨w, hk, hs⟩
    · rw [takePanel_left_out hk he, if_pos hs]
      rfl
    · rw [takePanel_down hk, if_neg hs]
      rfl
    · rw [takePanel_reset hk, if_pos hs]
      rfl

end Sys2Proof.Machine
end

section
/-! SUPPORT. A completion taken by a sensing unit: its panels, its notices and the record it hands on (R43, R51 to
R53, R58). -/

namespace Sys2Proof.Machine

/-! ### Panel sets -/

theorem mem_foldl_addBusPanel (f : Fin 9 → Bool) (l : List (Fin 9)) (acc : BusSet) (q : Fin 9) :
    (l.foldl (fun s (p : Fin 9) => if f p then s ||| BitVec.twoPow 9 p.val else s) acc).getLsbD q.val =
      (acc.getLsbD q.val || (decide (q ∈ l) && f q)) := by
  induction l generalizing acc with
  | nil => simp
  | cons p l ih =>
    rw [List.foldl_cons, ih]
    by_cases hq : q = p
    · subst hq
      cases hf : f q <;> simp
    · have hv : ¬ q.val = p.val := fun h => hq (Fin.ext h)
      cases hf : f p <;> simp [hq, hv]

theorem busSetOf_get (f : Fin 9 → Bool) (p : Fin 9) : (busSetOf f).getLsbD p.val = f p := by
  rw [busSetOf, mem_foldl_addBusPanel]
  simp [mem_busPanels]

/-- A set of bus panels is the set of what its members satisfy. -/
theorem eq_busSetOf {set : BusSet} {f : Fin 9 → Bool} (h : ∀ p : Fin 9, set.getLsbD p.val = f p) :
    set = busSetOf f :=
  BitVec.eq_of_getLsbD_eq fun i hi => (h ⟨i, hi⟩).trans (busSetOf_get f ⟨i, hi⟩).symm

theorem stagePanelOf_val (doubles : Bool) (d : Side) (p : Fin 9) :
    (stagePanelOf doubles d p).val = if doubles = true ∧ d = .b then p.val + 9 else p.val := by
  revert p
  cases doubles <;> cases d <;> decide

/-- The members of a set of bus panels in stage panel numbers (R52). -/
theorem stageSetOf_get (doubles : Bool) (d : Side) (set : BusSet) (q : Fin 18) :
    (stageSetOf doubles d set).getLsbD q.val = true ↔
      ∃ p : Fin 9, stagePanelOf doubles d p = q ∧ set.getLsbD p.val = true := by
  have value := stagePanelOf_val doubles d
  have hq := q.isLt
  by_cases hd : doubles = true ∧ d = .b
  · obtain ⟨rfl, rfl⟩ := hd
    have bits : (stageSetOf true .b set).getLsbD q.val = (!decide (q.val < 9) && set.getLsbD (q.val - 9)) := by
      simp [stageSetOf]
    rw [bits]
    constructor
    · intro h
      have hge : 9 ≤ q.val := by
        by_contra hlt
        simp [show q.val < 9 by omega] at h
      refine ⟨⟨q.val - 9, by omega⟩, Fin.ext ?_, by simpa using (Bool.and_eq_true_iff.1 h).2⟩
      rw [value, if_pos ⟨rfl, rfl⟩]
      dsimp only
      omega
    · rintro ⟨p, rfl, hp⟩
      rw [value, if_pos ⟨rfl, rfl⟩]
      simp [hp]
  · have bits : (stageSetOf doubles d set).getLsbD q.val = set.getLsbD q.val := by
      have plain : stageSetOf doubles d set = set.setWidth 18 := by
        unfold stageSetOf
        split
        · exact absurd ⟨rfl, rfl⟩ hd
        · rfl
      rw [plain, BitVec.getLsbD_setWidth, decide_eq_true hq, Bool.true_and]
    rw [bits]
    constructor
    · intro h
      have hlt : q.val < 9 := BitVec.lt_of_getLsbD h
      exact ⟨⟨q.val, hlt⟩, Fin.ext (by rw [value, if_neg hd]), h⟩
    · rintro ⟨p, rfl, hp⟩
      rw [value, if_neg hd]
      exact hp

/-! ### The notices (R53) -/

/-- A notice of a sensing unit, raised only with panels. -/
def Link.raisePanels (l : Link) (kind : NoticeKind) (d : Side) (set : BusSet) (x : Int) : Link :=
  if set = 0 then l else l.raise kind (some d) set x

theorem State.raisePanels_eq (s : State) (kind : NoticeKind) (d : Side) (set : BusSet) (x : Int) :
    s.raisePanels kind d set x = s.setLink (s.link.raisePanels kind d set x) := by
  unfold State.raisePanels Link.raisePanels
  split <;> rfl

/-- The link after the notices of a completion (R53). -/
def Link.sensing (l : Link) (d : Side) (number : Byte) (steps : Vector PanelStep 9) : Link :=
  ((l.raisePanels .panelOffline d (busSetOf fun p => steps[p].wentOffline) number.toNat).raisePanels
    .panelOnline d (busSetOf fun p => steps[p].cameOnline) number.toNat).raisePanels
    .panelStuck d (busSetOf fun p => steps[p].rezeroAge.isSome) (greatestAge steps)

theorem State.sensingNotices_eq (s : State) (d : Side) (number : Byte) (steps : Vector PanelStep 9) :
    s.sensingNotices d number steps = s.setLink (s.link.sensing d number steps) := by
  unfold State.sensingNotices
  simp only [State.raisePanels_eq]
  rfl

theorem Link.raisePanels_frame (l : Link) (k : NoticeKind) (d : Side) (set : BusSet) (x : Int) :
    (l.raisePanels k d set x).replies = l.replies ∧ (l.raisePanels k d set x).errors = l.errors ∧
      (l.raisePanels k d set x).transmitter = l.transmitter := by
  unfold Link.raisePanels
  split
  · exact ⟨rfl, rfl, rfl⟩
  · obtain ⟨_, errors, replies, _, transmitter, _⟩ := l.raise_frame k (some d) set x
    exact ⟨replies, errors, transmitter⟩

theorem Link.sensing_frame (l : Link) (d : Side) (number : Byte) (steps : Vector PanelStep 9) :
    (l.sensing d number steps).replies = l.replies ∧ (l.sensing d number steps).errors = l.errors ∧
      (l.sensing d number steps).transmitter = l.transmitter := by
  unfold Link.sensing
  simp only [Link.raisePanels_frame, and_self]

theorem foldl_max_le {α : Type} (f : α → Nat) (l : List α) (acc b : Nat) :
    l.foldl (fun a x => max a (f x)) acc ≤ b ↔ acc ≤ b ∧ ∀ x ∈ l, f x ≤ b := by
  induction l generalizing acc with
  | nil => simp
  | cons x l ih => rw [List.foldl_cons, ih, Nat.max_le, List.forall_mem_cons, and_assoc]

/-- The greatest press age is the least bound of all of them (R48). -/
theorem greatestAge_le {steps : Vector PanelStep 9} {b : Nat} :
    greatestAge steps ≤ b ↔ ∀ p : Fin 9, steps[p].rezeroAge.getD 0 ≤ b := by
  rw [greatestAge, foldl_max_le (fun p : Fin 9 => steps[p].rezeroAge.getD 0)]
  exact ⟨fun h p => h.2 p (mem_busPanels p), fun h => ⟨Nat.zero_le b, fun p _ => h p⟩⟩

theorem greatestAge_eq {steps : Vector PanelStep 9} {age : Nat} (bound : ∀ p : Fin 9, steps[p].rezeroAge.getD 0 ≤ age)
    (reached : ∃ p : Fin 9, steps[p].rezeroAge = some age) : greatestAge steps = age := by
  obtain ⟨p, hp⟩ := reached
  have := greatestAge_le.1 (le_refl (greatestAge steps)) p
  rw [hp] at this
  exact Nat.le_antisymm (greatestAge_le.2 bound) this

/-! ### The completion as a whole (R43, R51 to R53, R58) -/

/-- What a completion does to each panel of its bus. -/
def State.panelSteps (s : State) (d : Side) (c : Completion) : Vector PanelStep 9 :=
  Vector.ofFn fun (p : Fin 9) => takePanel s.stuckLimit c p (s.panels d)[p]

theorem State.panelSteps_get (s : State) (d : Side) (c : Completion) (p : Fin 9) :
    (s.panelSteps d c)[p] = takePanel s.stuckLimit c p (s.panels d)[p] := by
  simp [State.panelSteps]

/-- The state after a completion's panels and notices, before its record is handed on. -/
def State.sensed (s : State) (d : Side) (c : Completion) : State :=
  (s.setPanels d (Vector.ofFn fun (p : Fin 9) => (s.panelSteps d c)[p].panel)).setLink
    (s.link.sensing d c.number (s.panelSteps d c))

theorem State.takeCompletion_eq (s : State) (d : Side) (c : Completion) : s.takeCompletion d c =
    if c.kind = .reset false then s.sensed d c
    else (s.sensed d c).handRecord (recordOf d c (s.panelSteps d c)) := by
  have sensed : (s.setPanels d (Vector.ofFn fun (p : Fin 9) => (s.panelSteps d c)[p].panel)).sensingNotices d
      c.number (s.panelSteps d c) = s.sensed d c := by
    rw [State.sensingNotices_eq, State.setPanels_link]
    rfl
  rw [← sensed]
  unfold State.takeCompletion
  cases hk : c.kind with
  | reset scanned =>
    cases scanned
    · rw [if_pos rfl]
      rfl
    · rw [if_neg (by simp)]
      rfl
  | normal => rw [if_neg (by simp)]; rfl
  | contention => rw [if_neg (by simp)]; rfl
  | down => rw [if_neg (by simp)]; rfl

theorem State.handRecord_judges {s : State} {r : ScanRecord} {e : Side} {x : Int}
    (he : e = if s.openDoubles = true then .a else r.bus) (hp : (s.stage e).state = .playing)
    (hx : r.chart = some x) : s.handRecord r = s.judgeRecord e s.openDoubles r x := by
  subst he
  unfold State.handRecord
  dsimp only
  rw [if_pos hp, hx]

theorem State.handRecord_discards {s : State} {r : ScanRecord} {e : Side}
    (he : e = if s.openDoubles = true then .a else r.bus)
    (h : (s.stage e).state ≠ .playing ∨ r.chart = none) : s.handRecord r = s := by
  unfold State.handRecord
  dsimp only
  rw [← he]
  by_cases hp : (s.stage e).state = .playing
  · rw [if_pos hp, h.resolve_left (not_not.2 hp)]
  · rw [if_neg hp]

/-- A completion changes its panels and raises its notices, and changes a stage and the lamps only when its
record is judged (R52, R58). -/
theorem State.takeCompletion_cases (s : State) (d e : Side) (c : Completion)
    (he : e = if s.openDoubles = true then .a else d) :
    (((s.stage e).state ≠ .playing ∨ c.chart = none ∨ c.kind = .reset false) ∧
      s.takeCompletion d c = s.sensed d c) ∨
    ∃ x, (s.stage e).state = .playing ∧ c.chart = some x ∧ c.kind ≠ .reset false ∧
      s.takeCompletion d c =
        (s.sensed d c).judgeRecord e s.openDoubles (recordOf d c (s.panelSteps d c)) x := by
  have stage : (s.sensed d c).stage e = s.stage e := by simp [State.sensed]
  have doubles : (s.sensed d c).openDoubles = s.openDoubles := by simp [State.sensed]
  have owner : e = if (s.sensed d c).openDoubles = true then .a else (recordOf d c (s.panelSteps d c)).bus := by
    rw [doubles]
    exact he
  rw [State.takeCompletion_eq]
  by_cases hk : c.kind = .reset false
  · exact .inl ⟨.inr (.inr hk), if_pos hk⟩
  rw [if_neg hk]
  by_cases hp : (s.stage e).state = .playing
  · cases hx : c.chart with
    | none => exact .inl ⟨.inr (.inl rfl), State.handRecord_discards owner (.inr hx)⟩
    | some x =>
      refine .inr ⟨x, hp, rfl, hk, ?_⟩
      rw [State.handRecord_judges owner (stage ▸ hp) hx, doubles]
  · exact .inl ⟨.inl hp, State.handRecord_discards owner (.inl (stage ▸ hp))⟩

/-- Judging a record changes its stage and the lamps alone (R92, R103). -/
theorem State.judgeRecord_frame (s : State) (e : Side) (b : Bool) (r : ScanRecord) (x : Int) :
    (∀ d, (s.judgeRecord e b r x).panels d = s.panels d) ∧ (s.judgeRecord e b r x).link = s.link ∧
      (s.judgeRecord e b r x).clock = s.clock ∧ (∀ d, (s.judgeRecord e b r x).bus d = s.bus d) ∧
      (s.judgeRecord e b r x).localTime = s.localTime ∧
      (s.judgeRecord e b r x).stuckLimit = s.stuckLimit ∧
      (s.judgeRecord e b r x).stage (otherSide e) = s.stage (otherSide e) := by
  have other : e ≠ otherSide e := by cases e <;> decide
  simp [State.judgeRecord, other]

theorem State.takeCompletion_frame (s : State) (d : Side) (c : Completion) :
    (∀ x, (s.takeCompletion d c).panels x = (s.sensed d c).panels x) ∧
      (s.takeCompletion d c).link = (s.sensed d c).link ∧ (s.takeCompletion d c).clock = s.clock ∧
      (∀ x, (s.takeCompletion d c).bus x = s.bus x) ∧ (s.takeCompletion d c).localTime = s.localTime ∧
      (s.takeCompletion d c).stuckLimit = s.stuckLimit ∧
      ∀ e, e = (if s.openDoubles = true then .a else d) →
        (s.takeCompletion d c).stage (otherSide e) = s.stage (otherSide e) := by
  obtain ⟨e, he⟩ : ∃ e, e = (if s.openDoubles = true then .a else d) := ⟨_, rfl⟩
  rw [← he]
  rcases s.takeCompletion_cases d e c he with ⟨_, h⟩ | ⟨x, _, _, _, h⟩ <;> rw [h]
  · simp [State.sensed]
  · obtain ⟨panels, link, clock, bus, time, limit, stage⟩ :=
      (s.sensed d c).judgeRecord_frame e s.openDoubles (recordOf d c (s.panelSteps d c)) x
    refine ⟨panels, link, clock.trans ?_, fun x => (bus x).trans ?_, time.trans ?_, limit.trans ?_, ?_⟩
    · simp [State.sensed]
    · simp [State.sensed]
    · simp [State.sensed]
    · simp [State.sensed]
    · rintro _ rfl
      exact stage.trans (by simp [State.sensed])

end Sys2Proof.Machine
end

section
/-! SUPPORT. A record judged part by part (R93), a flash request panel by panel (R149), and what a completion does
as a whole. -/

namespace Sys2Proof.Machine

/-! ### Releases and agreement (R94, R117, R118) -/

theorem TrackEntry.release_release (e : TrackEntry) (t : Int) : (e.release t).release t = e.release t := by
  obtain ⟨id, fin, body⟩ := e
  cases body <;> rfl

/-- The release part changes the entries on the panels with a release edge (R94, R117). -/
theorem releaseEdges_spec (ctx : JudgeCtx) (edges : List (Fin 18 × EdgeKind)) (st : Stage) :
    ∃ t : Vector (Option TrackEntry) 18, edges.foldl (releaseEdge ctx) st = { st with tracker := t } ∧
      ∀ p : Fin 18, t[p] = st.tracker[p].map fun e => if (p, .release) ∈ edges then e.release ctx.time else e := by
  induction edges generalizing st with
  | nil => exact ⟨st.tracker, rfl, fun p => by simp⟩
  | cons g edges ih =>
    obtain ⟨q, kind⟩ := g
    cases kind with
    | press =>
      obtain ⟨t, ht, get⟩ := ih st
      exact ⟨t, ht, fun p => by simp [get p]⟩
    | release =>
      obtain ⟨t, ht, get⟩ := ih { st with tracker := st.tracker.set q (st.tracker[q].map (·.release ctx.time)) }
      refine ⟨t, ht, fun p => ?_⟩
      rw [get p]
      dsimp only
      rw [tracker_set_get]
      by_cases hq : q = p
      · subst hq
        rw [if_pos rfl, Option.map_map]
        refine congrArg (fun f => Option.map f st.tracker[q]) (funext fun e => ?_)
        simp [TrackEntry.release_release]
      · rw [if_neg hq]
        simp [Ne.symm hq]

/-- The tracker that a record's releases and its agreement leave (R94, R117, R118). -/
theorem releaseAndAgree_eq {ctx : JudgeCtx} {edges : List (Fin 18 × EdgeKind)} {st : Stage}
    {v : Vector (Option TrackEntry) 18}
    (hv : ∀ p : Fin 18, v[p] = st.tracker[p].map fun e =>
      if ctx.own.getLsbD p.val = true then
        (if (p, .release) ∈ edges then e.release ctx.time else e).agree
          (ctx.pressed.getLsbD p.val) ctx.time
      else if (p, .release) ∈ edges then e.release ctx.time else e) :
    agreeTracker ctx (edges.foldl (releaseEdge ctx) st) = { st with tracker := v } := by
  obtain ⟨t, ht, get⟩ := releaseEdges_spec ctx edges st
  have trackers : (Vector.ofFn fun (p : Fin 18) =>
      if ctx.own.getLsbD p.val then t[p].map (·.agree (ctx.pressed.getLsbD p.val) ctx.time) else t[p]) = v := by
    refine Vector.ext fun i hi => ?_
    have goal := hv ⟨i, hi⟩
    have before := get ⟨i, hi⟩
    simp only [Fin.getElem_fin] at goal before
    rw [Vector.getElem_ofFn, goal]
    simp only [Fin.getElem_fin]
    rw [before]
    split
    · rw [Option.map_map]
      rfl
    · rfl
  rw [ht, agreeTracker]
  dsimp only
  rw [trackers]

theorem Stage.notePressed_eq (st : Stage) (ctx : JudgeCtx) : st.notePressed ctx =
    { st with
      lastPressedA := if ctx.bus = .a then ctx.pressed else st.lastPressedA
      lastPressedB := if ctx.bus = .b then ctx.pressed else st.lastPressedB } := by
  rw [Stage.notePressed]
  cases ctx.bus <;> rfl

theorem pressEdge_eq (ctx : JudgeCtx) : pressEdge ctx = fun j g =>
    if j.halted = true ∨ g.2 = .release then j else j.press ctx g.1 := by
  funext j g
  simp only [pressEdge, Bool.or_eq_true, beq_iff_eq]

/-- Judging by its parts (R93). -/
theorem judge_parts {ctx : JudgeCtx} {edges : List (Fin 18 × EdgeKind)} {st x : Stage} {j h r : Judging}
    (hx : agreeTracker ctx (edges.foldl (releaseEdge ctx) (st.notePressed ctx)) = x)
    (hj : j = edges.foldl (pressEdge ctx) { stage := x, heads := [], flashes := [], halted := false })
    (hh : h = if j.halted = true then j else passHeads ctx j.heads j) (hr : r = laterParts ctx h) :
    st.judge ctx edges =
      (if r.halted = true then { r.stage.emptySession r.heads with state := .failed } else r.stage,
        r.flashes) := by
  have earlier : earlierParts ctx edges st = h := by
    rw [earlierParts, hx, hh, hj]
  rw [Stage.judge, earlier, ← hr]
  dsimp only
  split <;> rfl

/-! ### Flash requests (R148, R149) -/

theorem busPanelOf_spec (e : Side) (doubles : Bool) (p : Fin 18) :
    (busPanelOf e doubles p).2.val = p.val % 9 ∧
      (busPanelOf e doubles p).1 = if doubles = true then (if p.val < 9 then .a else .b) else e := by
  unfold busPanelOf
  split
  · exact ⟨rfl, rfl⟩
  · refine ⟨?_, rfl⟩
    rw [Fin.val_ofNat]
    omega

theorem LampCtl.takeRequest_eq (l : LampCtl) (e : Side) (doubles : Bool) (a : LocalTime) (q : FlashRequest) :
    l.takeRequest e doubles a q = (panelsOf q.panels).foldl (fun l p =>
      l.startFlash (busPanelOf e doubles p).1 (busPanelOf e doubles p).2 q.grade q.capture a) l :=
  List.foldl_filter.symm

/-! ### A completion as a whole (O40) -/

/-- The notices of a completion, from the sets and the age that its panels give (R53). -/
theorem Link.sensing_eq {s : State} {d : Side} {k : Completion} {off on stuck : BusSet} {age : Nat} {l1 l2 : Link}
    (sets : ∀ p : Fin 9, off.getLsbD p.val = (takePanel s.stuckLimit k p (s.panels d)[p]).wentOffline ∧
      on.getLsbD p.val = (takePanel s.stuckLimit k p (s.panels d)[p]).cameOnline ∧
      stuck.getLsbD p.val = (takePanel s.stuckLimit k p (s.panels d)[p]).rezeroAge.isSome ∧
      (takePanel s.stuckLimit k p (s.panels d)[p]).rezeroAge.getD 0 ≤ age)
    (reached : stuck ≠ 0 → ∃ p : Fin 9, (takePanel s.stuckLimit k p (s.panels d)[p]).rezeroAge = some age)
    (h1 : l1 = if off = 0 then s.link else s.link.raise .panelOffline (some d) off k.number.toNat)
    (h2 : l2 = if on = 0 then l1 else l1.raise .panelOnline (some d) on k.number.toNat) :
    s.link.sensing d k.number (s.panelSteps d k) =
      if stuck = 0 then l2 else l2.raise .panelStuck (some d) stuck age := by
  simp only [← s.panelSteps_get] at sets reached
  have hoff := eq_busSetOf fun p => (sets p).1
  have hon := eq_busSetOf fun p => (sets p).2.1
  have hstuck := eq_busSetOf fun p => (sets p).2.2.1
  rw [Link.sensing, ← hoff, ← hon, ← hstuck]
  have first : s.link.raisePanels .panelOffline d off k.number.toNat = l1 := h1.symm
  have second : l1.raisePanels .panelOnline d on k.number.toNat = l2 := h2.symm
  rw [first, second, Link.raisePanels]
  by_cases hs : stuck = 0
  · rw [if_pos hs, if_pos hs]
  · rw [if_neg hs, if_neg hs, greatestAge_eq (fun p => (sets p).2.2.2) (reached hs)]

/-- The edges of a record in stage panel numbers (R51, R52). -/
theorem recordEdges_eq (s : State) (d : Side) (k : Completion) (number : Fin 9 → Fin 18) :
    ((recordOf d k (s.panelSteps d k)).edges.map fun e => (number e.1, e.2)) =
      busPanels.filterMap fun p =>
        (takePanel s.stuckLimit k p (s.panels d)[p]).edge.map fun f => (number p, f) := by
  have edges : (recordOf d k (s.panelSteps d k)).edges = busPanels.filterMap fun p =>
      (takePanel s.stuckLimit k p (s.panels d)[p]).edge.map fun f => (p, f) := by
    simp only [recordOf, edgesOf, s.panelSteps_get]
  rw [edges, List.map_filterMap]
  simp only [Option.map_map]
  rfl

theorem eq_of_stageMembers {x y : StageSet} (h : ∀ q : Fin 18, x.getLsbD q.val = true ↔ y.getLsbD q.val = true) :
    x = y :=
  BitVec.eq_of_getLsbD_eq fun i hi => Bool.eq_iff_iff.2 (h ⟨i, hi⟩)

/-- The context in which a record is judged, from the stage panels of its bus (R52, R92). -/
theorem judgeRecord_ctx {s : State} {d e : Side} {k : Completion} {x : Int} {number : Fin 9 → Fin 18}
    {own ps : StageSet} {r : Stage × List FlashRequest}
    (hnumber : ∀ p : Fin 9, (number p).val = if s.openDoubles = true ∧ d = .b then p.val + 9 else p.val)
    (hown : ∀ q : Fin 18, own.getLsbD q.val = true ↔ ∃ p, number p = q)
    (hps : ∀ q : Fin 18, ps.getLsbD q.val = true ↔ ∃ p, number p = q ∧
      (takePanel s.stuckLimit k p (s.panels d)[p]).panel.pressed = true)
    (hr : r = (s.stage e).judge
      { side := e, depth := s.reportDepth e, time := x + (s.stage e).inputOffset,
        capture := k.capture, bus := d, own := own, pressed := ps }
      (busPanels.filterMap fun p =>
        (takePanel s.stuckLimit k p (s.panels d)[p]).edge.map fun f => (number p, f))) :
    (s.sensed d k).judgeRecord e s.openDoubles (recordOf d k (s.panelSteps d k)) x =
      ((s.sensed d k).setStage e r.1).setLamps
        (r.2.foldl (fun l q => l.takeRequest e s.openDoubles s.localTime q) s.lamps) := by
  have numbers : stagePanelOf s.openDoubles d = number :=
    funext fun p => Fin.ext ((stagePanelOf_val _ _ p).trans (hnumber p).symm)
  have owns : stageSetOf s.openDoubles d (BitVec.allOnes 9) = own := eq_of_stageMembers fun q => by
    have full : ∀ p : Fin 9, (BitVec.allOnes 9).getLsbD p.val = true := by decide
    rw [stageSetOf_get, hown, numbers]
    simp only [full, and_true]
  have pressed : stageSetOf s.openDoubles d (recordOf d k (s.panelSteps d k)).pressed = ps :=
    eq_of_stageMembers fun q => by
      rw [stageSetOf_get, hps, numbers]
      simp only [recordOf, busSetOf_get, s.panelSteps_get]
  have stage : (s.sensed d k).stage e = s.stage e := by simp [State.sensed]
  have depth : (s.sensed d k).reportDepth e = s.reportDepth e := by simp [State.sensed]
  have time : (s.sensed d k).localTime = s.localTime := by simp [State.sensed]
  have lamps : (s.sensed d k).lamps = s.lamps := by simp [State.sensed]
  have bus : (recordOf d k (s.panelSteps d k)).bus = d := rfl
  have capture : (recordOf d k (s.panelSteps d k)).capture = k.capture := rfl
  rw [← numbers, ← recordEdges_eq] at hr
  unfold State.judgeRecord
  simp only [bus, capture, owns, pressed, stage, depth, State.setStage_localTime, State.setStage_lamps, time,
    lamps, ← hr]

/-- Settles O40: the completion's panels and notices with the record judged or not, a flash request on the
members of its set, and judging by its parts. -/
theorem completionReachesStage : Obligations.CompletionReachesStage := by
  refine ⟨fun s d e k he => ?completion, fun l e doubles a q place ps hplace sorted mem => ?request,
    fun ctx edges st x j h r v hv hx hj hh hr => ?judge⟩
  case completion =>
    obtain ⟨panels, link, clock, bus, time, limit, other⟩ := s.takeCompletion_frame d k
    obtain ⟨replies, errors, transmitter⟩ := s.link.sensing_frame d k.number (s.panelSteps d k)
    have sensedLink : (s.takeCompletion d k).link = s.link.sensing d k.number (s.panelSteps d k) := link
    have opposite : d ≠ otherSide d := by cases d <;> decide
    refine ⟨fun p => ?_, fun off on stuck age l1 l2 sets reached h1 h2 => ?_, ?_, clock, bus, time, limit, ?_,
      ?_, ?_, other e he, fun hno => ?_, fun x r number own ps hp hx hk hnumber hown hps hr => ?_⟩
    · rw [panels, State.sensed]
      simp [State.panelSteps]
    · exact sensedLink.trans (Link.sensing_eq sets reached h1 h2)
    · rw [panels, State.sensed]
      simp [opposite]
    · rw [sensedLink, replies]
    · rw [sensedLink, errors]
    · rw [sensedLink, transmitter]
    · rcases s.takeCompletion_cases d e k he with ⟨_, h⟩ | ⟨x, hp, hx, hk, _⟩
      · rw [h]
        simp [State.sensed]
      · rcases hno with hno | hno | hno
        · exact absurd hp hno
        · rw [hno] at hx
          cases hx
        · exact absurd hno hk
    · rcases s.takeCompletion_cases d e k he with ⟨hno, _⟩ | ⟨y, _, hy, _, h⟩
      · rcases hno with hno | hno | hno
        · exact absurd hp hno
        · rw [hno] at hx
          cases hx
        · exact absurd hno hk
      · obtain rfl : y = x := Option.some.inj (hy.symm.trans hx)
        rw [h, judgeRecord_ctx hnumber hown hps hr]
        simp
  case request =>
    have places : ∀ p, place p = busPanelOf e doubles p := fun p => by
      obtain ⟨panel, side⟩ := hplace p
      obtain ⟨panel', side'⟩ := busPanelOf_spec e doubles p
      exact Prod.ext (side.trans side'.symm) (Fin.ext (panel.trans panel'.symm))
    rw [LampCtl.takeRequest_eq, eq_panelsOf sorted mem]
    simp only [places]
  case judge =>
    refine judge_parts ?_ (by rw [pressEdge_eq]; exact hj) hh hr
    rw [hx]
    have noted := st.notePressed_eq ctx
    rw [noted]
    exact releaseAndAgree_eq hv

end Sys2Proof.Machine
end
